-- ==== Sys2Proof/Word.lean ====
section
/-! DEFINITION. The word types of the N9: bytes, 64-bit scalars, 1536-bit vector registers and 48-bit predicates
(01 R2, 05 R99). -/

namespace Sys2Proof

/-- One byte of memory. -/
abbrev Byte := BitVec 8

/-- A scalar register, an address, a doubleword (R99, R126). -/
abbrev Word := BitVec 64

/-- A vector register: element j of width w is bits w·j + w − 1 to w·j (R211). -/
abbrev VReg := BitVec 1536

/-- A predicate register: bit i belongs to lane i (R212). -/
abbrev PReg := BitVec 48

/-- A finite table with a default: keys strictly rising, no entry equal to the default. -/
abbrev Tab (α : Type) := List (Nat × α)

end Sys2Proof
end

