-- ==== Sys2Proof/Config.lean ====
section
/-! DEFINITION. What the spec leaves to the implementation or leaves open, as constants without a body: nothing can be proved of
their values (log 3). Most take the machine's draw counter, so that each use gives a fresh value. -/

namespace Sys2Proof.Config

/-- Which of several channels of a kind a take without `.from` uses, and which continuation of equal claim goes first: the
machine chooses (R172, R188). The value is reduced modulo the number of choices. -/
opaque pick : Nat → Nat

/-- The queue link that hardware writes into a record that stands in a queue or on a wait list (R106). -/
opaque queueLink : Nat → Word

/-- A byte that the far party of a host window answers to a read: draw counter, physical address (R420). -/
opaque windowByte : Nat → Nat → Byte

/-- Whether a global access fills a line into a cache of its die, which cache contents decide (R136, R153). -/
opaque fills : Nat → Bool

/-- The signature of an attestation report by the part's signing key (R403), and the vendor's certificate of that key (R411). -/
opaque reportSignature : List Byte → List Byte
opaque certificate : List Byte

/-- The ML-KEM-1024 encapsulation under a key, with the randomness of a draw: the ciphertext that ACCEPT carries, and the shared secret (R407,
R410). -/
opaque encapsulate : Nat → List Byte → List Byte × List Byte

/-- Whether a signature over a transcript verifies under a host identity key (R407). -/
opaque verifies : BitVec 512 → List Byte → List Byte → Bool

/-- The operator identity key provisioned in the part, the only one that a MANAGE session admits (R407). -/
opaque operatorKey : BitVec 512

/-- Whether a firmware image verifies against the public key fused into the part (R402). -/
opaque firmwareVerifies : List Byte → List Byte → List Byte → Bool

/-- The address of `.entry`, at which the entry continuation starts: CREATE carries the sections and no entry address (R108, R411). -/
opaque entryOf : Word → List Byte → Word

/-- The current that the vector pipes and the matrix unit of a physical core want over an interval, in thousandths of an ampere: draw counter,
physical core (R424). -/
opaque vectorDraw : Nat → Nat → Nat
opaque matrixDraw : Nat → Nat → Nat

/-- The budget of the core rails in thousandths of an ampere while a class 1 alarm lasts (R413, R425): it is taken modulo the full one. -/
opaque loweredBudget : Nat → Nat

/-- The bytes of a descriptor frame, which the automaton unit writes in a layout that is not architectural: draw counter (R261, R392). -/
opaque descFrame : Nat → List Byte

/-- The common amount that a rebase takes from every clock of a context: draw counter (R180). -/
opaque rebaseAmount : Nat → Nat

/-- The bytes that a seal writes from the start of the seal area, encrypted under a key of the Nutcracker's own: draw counter (R339, R398). -/
opaque sealImage : Nat → List Byte

/-- What SLOT_SHARE, a field of seven bits whose values R12 gives as 0 to 95, holds when PLACE puts more than 128 logical cores on one
physical core. -/
opaque wideShare : Nat → BitVec 7

/-- What stands as unit and number in the log entry of an alarm, which R427 does not say. -/
opaque alarmUnit : Nat → Nat

end Sys2Proof.Config
end

