-- ==== Sys2Proof/Syntax.lean ====
section
/-! DEFINITION. The syntax of Imzal: one constructor of `Instr` for each row of the opcode table. The first 166 rows are
instructions with an encoding (03 R35 to R55); the other 70 are steps that the hardware, the security core or the
outside world takes (95), which have no encoding. -/

namespace Sys2Proof

/-- A scalar or vector register number (R39). -/
abbrev Reg := Fin 32

/-- A predicate register, accumulator or descriptor number (R39). -/
abbrev Reg8 := Fin 8

/-- The length of an instruction word (R35, R36). -/
inductive Len where
  | l64 | l96 | l128
  deriving DecidableEq, Repr

/-- What every word carries: its length and whether it ends its group (R35, S bit). -/
structure Hd where
  len : Len
  s   : Bool
  deriving DecidableEq, Repr

/-- The second operand of a row marked "xb or imm" (R119): FN7 selects. -/
inductive Src where
  | reg (rb : Reg)
  | imm (i : Word)
  deriving DecidableEq, Repr

/-- Conditions, FN3:0 = 0 to 9 (R54). -/
inductive Cond where
  | eq | ne | lt | ge | le | gt | ltu | geu | leu | gtu
  deriving DecidableEq, Repr

/-- Element types, codes of T (R41). -/
inductive ETy where
  | i8 | i16 | i32 | i64 | e4m3 | e5m2 | f16 | bf16 | f32 | f64 | mx4
  | rn3 (t : Fin 4)
  deriving DecidableEq, Repr

/-- Access sizes `.b .h .w .d` (R157). -/
inductive Size where
  | b | h | w | d
  deriving DecidableEq, Repr

/-- Rounding modes (R38). -/
inductive RM where
  | rne | rtz | rup | rdn | rna | rsr
  deriving DecidableEq, Repr

/-- The control field CTL: rounding mode, D (daz) and F (ftz) (R38). -/
structure Ctl where
  rm  : RM
  daz : Bool
  ftz : Bool
  deriving DecidableEq, Repr

/-- The mask operand of a lane-wise instruction: K and KN (R40). -/
structure Pred where
  k  : Reg8
  kn : Bool
  deriving DecidableEq, Repr

/-- Operations of `amo`, `red`, `vred` and `vscan`, FN3:0 = 0 to 7 (R54). -/
inductive ROp where
  | add | and | or | xor | min | max | minu | maxu
  deriving DecidableEq, Repr

/-- Operations of `amo`: those of `ROp` and `.swap` (R54, R202). -/
inductive AmoOp where
  | rop (o : ROp)
  | swap
  deriving DecidableEq, Repr

/-- Message kinds, equal to the kind field of the header (R54, R187). -/
inductive Kind where
  | msg | watch | count | bar | copydone | draindone | xinvdone | node | timer | deadlock | trapnote
  deriving DecidableEq, Repr

/-- Paths of `drain` (R161). -/
inductive Path where
  | ls | l1 | cl | gm
  deriving DecidableEq, Repr

/-- Queries of `autq` (R278). -/
inductive Query where
  | unres | acc | dead | ovf
  deriving DecidableEq, Repr

/-- The system registers by number (R55). -/
inductive SysReg where
  | lcid | ctx | mode | phase | nanread | fflags | fenable | rngseed | progress | slice | slicestat | trapvec | spill | lsbase
  deriving DecidableEq, Repr

/-- What HELLO asks for (R407, R410): a management or a data session. -/
inductive SessionKind where
  | manage | data
  deriving DecidableEq, Repr

/-- The body of a HELLO message (R410). -/
structure HelloBody where
  kind  : SessionKind
  ctx   : Nat
  life  : Nat
  eps   : List Nat
  nonce : BitVec 256
  hkey  : BitVec 512
  ek    : List Byte
  deriving DecidableEq, Repr

/-- One section of a resident image as CREATE carries it (R391, R411). -/
structure Section where
  base  : Word
  bytes : List Byte
  deriving DecidableEq, Repr

/-- The units of the reliability counters (R412, R427). -/
inductive UnitKind where
  | core | slice | hbmLane | hart | link | port | security
  deriving DecidableEq, Repr

/-- Why a session fails (R408). -/
inductive FailCause where
  | tag
  | replay (psn : Nat)
  | lifetime
  | packets
  | header
  | request (seq : Nat)
  deriving DecidableEq, Repr

/-- The opcode table: one constructor per row. Rows with an encoding carry their header `h`; the others carry the operands
that the step needs. A step of a slot acts for the slot in the machine's focus. -/
inductive Instr where
  -- scalar (R119 to R122)
  | add (h : Hd) (rd ra : Reg) (b : Src)
  | sub (h : Hd) (rd ra : Reg) (b : Src)
  | mul (h : Hd) (rd ra : Reg) (b : Src)
  | mulh (h : Hd) (rd ra : Reg) (b : Src)
  | mulhu (h : Hd) (rd ra : Reg) (b : Src)
  | div (h : Hd) (rd ra : Reg) (b : Src)
  | divu (h : Hd) (rd ra : Reg) (b : Src)
  | rem (h : Hd) (rd ra : Reg) (b : Src)
  | remu (h : Hd) (rd ra : Reg) (b : Src)
  | and (h : Hd) (rd ra : Reg) (b : Src)
  | or (h : Hd) (rd ra : Reg) (b : Src)
  | xor (h : Hd) (rd ra : Reg) (b : Src)
  | andn (h : Hd) (rd ra : Reg) (b : Src)
  | orn (h : Hd) (rd ra : Reg) (b : Src)
  | shl (h : Hd) (rd ra : Reg) (b : Src)
  | shr (h : Hd) (rd ra : Reg) (b : Src)
  | sra (h : Hd) (rd ra : Reg) (b : Src)
  | rol (h : Hd) (rd ra : Reg) (b : Src)
  | ror (h : Hd) (rd ra : Reg) (b : Src)
  | clz (h : Hd) (rd ra : Reg)
  | ctz (h : Hd) (rd ra : Reg)
  | popc (h : Hd) (rd ra : Reg)
  | min (h : Hd) (rd ra : Reg) (b : Src)
  | max (h : Hd) (rd ra : Reg) (b : Src)
  | minu (h : Hd) (rd ra : Reg) (b : Src)
  | maxu (h : Hd) (rd ra : Reg) (b : Src)
  | cmp (h : Hd) (cond : Cond) (rd ra : Reg) (b : Src)
  | sel (h : Hd) (rd rc ra rb : Reg)
  | li (h : Hd) (rd : Reg) (i : Word)
  | bfx (h : Hd) (signed : Bool) (rd ra : Reg) (pos : Fin 64) (lenm1 : Fin 64)
  | bfi (h : Hd) (rd ra : Reg) (pos : Fin 64) (lenm1 : Fin 64)
  -- control (R123 to R125, R23, R330 to R332)
  | br (h : Hd) (cond : Cond) (ra rb : Reg) (off : Word)
  | jmp (h : Hd) (off : Word)
  | jmpr (h : Hd) (ra : Reg)
  | call (h : Hd) (off : Word)
  | callr (h : Hd) (ra : Reg)
  | ret (h : Hd)
  | idem (h : Hd) (mask : BitVec 32)
  | trapf (h : Hd)
  | trap (h : Hd) (code : BitVec 16)
  | eret (h : Hd)
  | nop (h : Hd)
  | quit (h : Hd)
  | yield (h : Hd)
  | brk (h : Hd) (code : BitVec 16)
  -- system registers (R118)
  | sysr (h : Hd) (rd : Reg) (reg : SysReg)
  | sysw (h : Hd) (reg : SysReg) (ra : Reg)
  | sysx (h : Hd) (rd ra : Reg) (reg : SysReg)
  -- memory (R157 to R161)
  | ld (h : Hd) (size : Size) (zext : Bool) (rd ra : Reg) (i : Word)
  | st (h : Hd) (size : Size) (rb ra : Reg) (i : Word)
  | pref (h : Hd) (ra : Reg) (i : Word)
  | disc (h : Hd) (ra : Reg) (i : Word)
  | flushl (h : Hd) (ra : Reg) (i : Word)
  | xinv (h : Hd) (ra rb : Reg)
  | drain (h : Hd) (path : Path)
  -- messages and synchronisation (R192 to R207)
  | send (h : Hd) (rd ra rb : Reg)
  | recv (h : Hd) (kind : Kind) (src : Option Reg) (rd : Reg) (mask : BitVec 32)
  | recvKeep (h : Hd) (kind : Kind) (src : Option Reg) (rd : Reg)
  | poll (h : Hd) (kind : Kind) (src : Option Reg) (rd : Reg)
  | watch (h : Hd) (ra : Reg)
  | unwatch (h : Hd) (ra : Reg)
  | bar (h : Hd)
  | carrive (h : Hd) (ra : Reg)
  | cwatch (h : Hd) (ra : Reg)
  | guard (h : Hd) (ra rb rc : Reg) (target : BitVec 32)
  | amo (h : Hd) (op : AmoOp) (size : Size) (rd ra rb : Reg)
  | cas (h : Hd) (size : Size) (rd ra rb rc : Reg)
  | red (h : Hd) (op : ROp) (ty : ETy) (ra rb : Reg)
  | pfxadd (h : Hd) (ra : Reg)
  | spawn (h : Hd) (prio : Fin 4) (ra rb : Reg) (mask : BitVec 32)
  | migrate (h : Hd) (ra : Reg) (mask : BitVec 32)
  -- predicates (R236)
  | kand (h : Hd) (kd ka kb : Reg8)
  | kor (h : Hd) (kd ka kb : Reg8)
  | kxor (h : Hd) (kd ka kb : Reg8)
  | knot (h : Hd) (kd ka : Reg8)
  | kmov (h : Hd) (kd ka : Reg8)
  | kpop (h : Hd) (rd : Reg) (ka : Reg8)
  -- vectors (R216 to R235)
  | vadd (h : Hd) (p : Pred) (c : Ctl) (ty : ETy) (vd va vb : Reg)
  | vsub (h : Hd) (p : Pred) (c : Ctl) (ty : ETy) (vd va vb : Reg)
  | vmul (h : Hd) (p : Pred) (c : Ctl) (ty : ETy) (vd va vb : Reg)
  | vfma (h : Hd) (p : Pred) (c : Ctl) (ty : ETy) (vd va vb vc : Reg)
  | vfms (h : Hd) (p : Pred) (c : Ctl) (ty : ETy) (vd va vb vc : Reg)
  | vfnma (h : Hd) (p : Pred) (c : Ctl) (ty : ETy) (vd va vb vc : Reg)
  | vdiv (h : Hd) (p : Pred) (c : Ctl) (ty : ETy) (vd va vb : Reg)
  | vsqrt (h : Hd) (p : Pred) (c : Ctl) (ty : ETy) (vd va : Reg)
  | vrcp (h : Hd) (p : Pred) (c : Ctl) (ty : ETy) (vd va : Reg)
  | vrsqrt (h : Hd) (p : Pred) (c : Ctl) (ty : ETy) (vd va : Reg)
  | vexp2 (h : Hd) (p : Pred) (c : Ctl) (ty : ETy) (vd va : Reg)
  | vlog2 (h : Hd) (p : Pred) (c : Ctl) (ty : ETy) (vd va : Reg)
  | vmin (h : Hd) (p : Pred) (c : Ctl) (ty : ETy) (vd va vb : Reg)
  | vmax (h : Hd) (p : Pred) (c : Ctl) (ty : ETy) (vd va vb : Reg)
  | vabs (h : Hd) (p : Pred) (ty : ETy) (vd va : Reg)
  | vneg (h : Hd) (p : Pred) (ty : ETy) (vd va : Reg)
  | vcmp (h : Hd) (p : Pred) (c : Ctl) (cond : Cond) (ty : ETy) (kd : Reg8) (va vb : Reg)
  | vsel (h : Hd) (p : Pred) (ty : ETy) (vd va vb : Reg)
  | vand (h : Hd) (p : Pred) (vd va vb : Reg)
  | vor (h : Hd) (p : Pred) (vd va vb : Reg)
  | vxor (h : Hd) (p : Pred) (vd va vb : Reg)
  | vlop3 (h : Hd) (p : Pred) (vd va vb vc : Reg) (table : BitVec 8)
  | vshl (h : Hd) (p : Pred) (ty : ETy) (vd va : Reg) (b : Src)
  | vshr (h : Hd) (p : Pred) (ty : ETy) (vd va : Reg) (b : Src)
  | vsra (h : Hd) (p : Pred) (ty : ETy) (vd va : Reg) (b : Src)
  | vfsh (h : Hd) (p : Pred) (ty : ETy) (vd va vb vc : Reg)
  | vrot (h : Hd) (p : Pred) (vd va : Reg) (b : Src)
  | vperm (h : Hd) (p : Pred) (vd va vb : Reg)
  | vbcast (h : Hd) (p : Pred) (ty : ETy) (vd ra : Reg)
  | vext (h : Hd) (ty : ETy) (rd va : Reg) (e : Nat)
  | vins (h : Hd) (ty : ETy) (vd ra : Reg) (e : Nat)
  | vcvt (h : Hd) (p : Pred) (c : Ctl) (dst src : ETy) (vd va : Reg)
  | vred (h : Hd) (p : Pred) (c : Ctl) (op : ROp) (ty : ETy) (vd va : Reg)
  | vscan (h : Hd) (p : Pred) (c : Ctl) (op : ROp) (ty : ETy) (vd va : Reg)
  | vtopk (h : Hd) (p : Pred) (c : Ctl) (ty : ETy) (vd va : Reg) (count : Nat)
  | vsparse (h : Hd) (p : Pred) (ty : ETy) (vd vc va : Reg)
  | vld (h : Hd) (p : Pred) (vd ra : Reg) (i : Word)
  | vst (h : Hd) (p : Pred) (vb ra : Reg) (i : Word)
  | vldg (h : Hd) (p : Pred) (ty : ETy) (vd ra vb : Reg)
  | vsts (h : Hd) (p : Pred) (ty : ETy) (vc ra vb : Reg)
  | vldc (h : Hd) (p : Pred) (ty : ETy) (vd ra rb : Reg)
  | vstc (h : Hd) (p : Pred) (ty : ETy) (vc ra rb : Reg)
  -- matrix (R240 to R255)
  | aalloc (h : Hd) (rd : Reg) (an : Reg8)
  | afree (h : Hd) (an : Reg8)
  | azero (h : Hd) (an : Reg8)
  | mma (h : Hd) (ty : ETy) (an : Reg8) (ra rb : Reg) (i : Nat)
  | mmas (h : Hd) (ty : ETy) (an : Reg8) (ra rb rc : Reg) (i : Nat)
  | mmr (h : Hd) (t : Fin 4) (an : Reg8) (ra rb : Reg) (i : Nat)
  | ard (h : Hd) (t : Option (Fin 4)) (vd : Reg) (an : Reg8) (rb : Reg)
  | awr (h : Hd) (t : Option (Fin 4)) (an : Reg8) (va rb : Reg)
  | ald (h : Hd) (an : Reg8) (ra : Reg)
  | ast (h : Hd) (an : Reg8) (ra : Reg)
  | rnsred (h : Hd) (t : Fin 4) (an : Reg8)
  | mreq (h : Hd) (rd ra rb : Reg)
  | mcap (h : Hd) (rd ra : Reg)
  | route (h : Hd) (rd ra rb : Reg)
  -- automata and vocabulary (R268 to R278, R289 to R291)
  | autbind (h : Hd) (dn : Reg8) (ra : Reg)
  | autunbind (h : Hd) (dn : Reg8)
  | autpin (h : Hd) (dn : Reg8) (ra rb : Reg)
  | autstk (h : Hd) (dn : Reg8) (ra rb : Reg)
  | autstep (h : Hd) (p : Pred) (dn : Reg8) (vd va vb : Reg)
  | autrun (h : Hd) (p : Pred) (dn : Reg8) (vd va rb : Reg)
  | maprun (h : Hd) (p : Pred) (dn : Reg8) (vd va rb rc : Reg)
  | mapinit (h : Hd) (p : Pred) (dn : Reg8) (vd ra : Reg)
  | compose (h : Hd) (p : Pred) (vd va vb vs : Reg)
  | autq (h : Hd) (q : Query) (kd : Reg8) (va : Reg)
  | allowStore (h : Hd) (dn : Reg8) (ra vb : Reg) (lane : Fin 48)
  | allowApply (h : Hd) (dn : Reg8) (ra vb : Reg) (lane : Fin 48)
  | triewalk (h : Hd) (p : Pred) (dn : Reg8) (vd va rb : Reg)
  | detok (h : Hd) (dn : Reg8) (rd ra rb rc : Reg)
  -- streams and rings (R306 to R321)
  | copy (h : Hd) (rd ra rb : Reg)
  | subTile (h : Hd) (rd ra rb : Reg)
  | unsub (h : Hd) (ra : Reg)
  | ringinit (h : Hd) (ra rb rc : Reg)
  | slrsv (h : Hd) (rd ra : Reg)
  | slpost (h : Hd) (ra rb : Reg)
  | sltake (h : Hd) (rd ra : Reg)
  | slfree (h : Hd) (ra rb : Reg)
  -- graphs (R347 to R361) and reserving loops (R371 to R374)
  | glaunch (h : Hd) (ra : Reg)
  | nodeadd (h : Hd) (rd ra rb : Reg)
  | edgeadd (h : Hd) (rd ra rb : Reg)
  | nodedone (h : Hd)
  | nodefail (h : Hd) (code : BitVec 16)
  | gstat (h : Hd) (rd ra : Reg)
  | rloop (h : Hd) (ra : Reg)
  | rsv (h : Hd) (ra : Reg)
  | rchk (h : Hd) (rd ra : Reg)
  | rdoneOk (h : Hd)
  | rdoneFail (h : Hd)
  -- steps of the cores
  | slotGrant (ctx core : Nat)
  | activeMessage (ctx lc : Nat)
  | windowSpill
  | windowFill
  | groupClose
  | accessPerform
  | accessRefusal
  | regionRestart
  | trapDelivery
  | preemption
  -- steps of the abstract machine and of the context's hardware
  | lineFold (ctx line : Nat)
  | eventDeferredPlace (ctx lc : Nat)
  | phaseStep (ctx : Nat)
  | clockRebase (ctx : Nat)
  | waitCycleProbe (ctx lc : Nat)
  | poolHoldRelease
  | waitListRelease (ctx page : Nat)
  | xinvdone (ctx lc : Nat)
  | draindone (ctx lc : Nat)
  -- steps of the stream harts and of the matrix unit's remote queue
  | copyChunk (hart pick : Nat)
  | copyComplete (hart : Nat)
  | tilePush (hart entry pick : Nat)
  | tileReturn (hart entry pick : Nat)
  | subscriptionEnd (hart entry : Nat)
  | remoteCommandApply (ctx lc : Nat)
  -- steps of the Marionette and of the reservation engine
  | graphScan (ctx g : Nat)
  | nodeReady (ctx g node : Nat)
  | nodeDispatch (ctx g node : Nat)
  | nodeToken (ctx g : Nat)
  | dominoSweep (ctx g : Nat)
  | treeReport (ctx g lc : Nat)
  | graphDone (ctx g : Nat)
  | windowStart (ctx : Nat)
  | roundEnd (ctx : Nat)
  | loopComplete (ctx : Nat)
  -- timers and control-block requests
  | timerArm (ctx lc : Nat) (t : BitVec 32) (nan : Bool)
  | timerExpiry (ctx lc : Nat)
  | place (ctx : Nat)
  | framemode (ctx : Nat)
  | slotresume (ctx : Nat)
  | slotend (ctx : Nat)
  | keygen (ctx : Nat)
  | keyfree (ctx : Nat)
  | attest (ctx : Nat)
  | controlSeal (ctx : Nat)
  | controlEnd (ctx : Nat)
  | requestComplete (ctx : Nat)
  -- sessions and management requests
  | hello (b : HelloBody)
  | finish (session : Nat) (signature : List Byte)
  | create (session seq : Nat) (rec : List Byte) (text data ls : Section)
  | lock (session seq ep ctx : Nat) (rbase rlen : Word) (defcore : Nat)
  | unbind (session seq ep : Nat)
  | manageEnd (session seq ctx : Nat)
  | manageSeal (session seq ctx : Nat)
  | resume (session seq ctx : Nat)
  | health (session seq : Nat)
  | cert (session seq : Nat)
  | sessionFail (session : Nat) (cause : FailCause)
  -- endpoint requests
  | msg (ep : Nat) (dst : Option Nat) (tag : BitVec 16) (nan : Bool) (words : List Word)
  | write (ep : Nat) (va : Word) (bytes : List Byte)
  | read (ep : Nat) (va : Word) (len : Nat)
  -- power and reliability
  | arbiterGrant
  | class1Alarm (cause : Fin 3) (coissueOff : Bool)
  | class2Alarm
  | standbyPromotion
  | lastingFault (kind : UnitKind) (number : Nat) (event : Nat) (addr : Word) (retried : Bool)
  | laneRemap (stack : Nat)
  | powerReset (nutcracker harts arbiter : List Byte)
  | class1AlarmClear
  | droppedPacket (port : Nat)
  deriving DecidableEq, Repr

end Sys2Proof
end

