-- ==== Sys2Proof/Machine/State.lean ====
section
/-! DEFINITION. The state of the package, its contexts, logical cores and thread slots, as plain data (07 R164, and the rule
named at each field). Every structure gives its fields their value at creation. -/

namespace Sys2Proof.Machine

/-- The trap kinds, in the code order 1 to 20 of R324. -/
inductive TrapKind where
  | illegalFormat | illegalOpcode | illegalField | illegalGroup | pageAbsent | protection | clusterMask | modeAlias
  | integrity | keyAbsent | lateRefusal | conflict | formatMismatch | arith | autStack | autTable | ring | capability
  | trap | break
  deriving DecidableEq, Repr

/-- Where a trap arises (R324): at issue, by refusal of an access, or during execution. -/
inductive TrapClass where
  | issue | refusal | exec
  deriving DecidableEq, Repr

/-- The fields of a fault record that the raising rule gives (R325); the slot supplies the others. `next` is the image PC
where it is not the PC (R330). -/
structure Trap where
  kind     : TrapKind
  cls      : TrapClass := .issue
  reason   : Nat := 0
  lane     : Nat := 0
  code     : Nat := 0
  pc       : Word := 0
  region   : Word := 0
  addr     : Word := 0
  seq      : Nat := 0
  progress : Nat := 0
  mask     : BitVec 32 := 0
  next     : Option Word := none
  deriving DecidableEq, Repr

/-- The await word of a suspended or waiting continuation (R105). `word` keeps one that names no kind, which no message answers (R329). -/
structure Await where
  kind : Kind
  src  : Option Nat := none
  xd   : Nat
  word : Nat := 0
  deriving DecidableEq, Repr

/-- A party's logical time (R164, R180). -/
abbrev Clock := BitVec 48

/-- A message as it stands in a mailbox (R186, R188): its header fields, seven payload words and send stamp; `reach` is one more than the
phase in which the cell stood reached that a COUNT of a `cwatch` answers for, 0 for every other message (R30, R184). -/
structure Msg where
  src   : Nat
  kind  : Kind
  nan   : Bool := false
  tag   : Nat := 0
  seq   : Nat := 0
  words : List Word := []
  stamp : Clock := 0
  reach : Nat := 0
  deriving DecidableEq, Repr

/-- The iteration mark of a reserving loop's continuation (R366): its index, position and round. -/
structure Iter where
  index  : Nat
  pos    : Nat
  commit : Bool
  deriving DecidableEq, Repr

/-- A lane of a descriptor (R262): depth, sticky overflow, the hardware window with its top entry first. -/
structure LaneStk where
  depth : Nat := 0
  ovf   : Bool := false
  win   : List Nat := []
  deriving DecidableEq, Repr

/-- An automaton descriptor (R262, R281). HOLDER is a continuation name, 0 for none; `pins` holds the table-store copy of each pinned
page (R267); `walk` keeps the copies of a `triewalk`, one per lane (R290): word, OVF, place and length of the string, stack. -/
structure Desc where
  holder   : Nat := 0
  base     : Nat := 0
  pda      : Bool := false
  states   : Nat := 0
  classes  : Nat := 0
  start    : Nat := 0
  pages    : Nat := 0
  classmap : List Nat := []
  call     : List Nat := []
  vocab    : Nat := 0
  mcls     : Nat := 0
  smoff    : Nat := 0
  mdoff    : Nat := 0
  trieoff  : Nat := 0
  ttoff    : Nat := 0
  vpages   : Nat := 0
  stkBase  : Nat := 0
  stkBytes : Nat := 0
  trap     : Bool := false
  lanes    : Tab LaneStk := []
  pins     : Tab (List Byte) := []
  stale    : Bool := false
  walk     : List (List Nat) := []
  deriving DecidableEq, Repr

/-- What a long instruction delivers at its group's close (R21): registers, accumulator rows, the holding of an accumulator or
descriptor, and the exchange of `sysx`. -/
inductive Out where
  | x (rd : Nat) (val : Word)
  | v (vd : Nat) (mask val : VReg)
  | k (kd : Nat) (mask val : PReg)
  | acc (an : Nat) (rows : List (Nat × VReg))
  | sysx (rd : Nat) (reg : SysReg) (val : Word)
  | take (an : Nat)
  | free (an : Nat)
  | bind (dn : Nat) (d : Desc)
  | unbind (dn : Nat)
  deriving DecidableEq, Repr

/-- A long instruction of the open group (R21, R164 group buffer); `again` marks one that has rejoined its group (R334). -/
structure Long where
  id    : Nat
  pc    : Word
  word  : Nat := 0
  ra    : Word := 0
  rb    : Word := 0
  done  : Bool := false
  outs  : List Out := []
  flags : BitVec 5 := 0
  again : Bool := false
  deriving DecidableEq, Repr

/-- A copy command as its eight words give it (R305). -/
structure CopyCmd where
  done : Bool := false
  cont : Bool := false
  l1   : Bool := false
  tag  : Nat := 0
  src  : Word := 0
  dst  : Word := 0
  len  : Nat := 0
  recAddr : Word := 0
  deriving DecidableEq, Repr

/-- A subscription record (R317). -/
structure SubRec where
  base    : Word := 0
  rows    : Nat := 0
  cols    : Nat := 0
  rstride : Word := 0
  bstride : Word := 0
  tr      : Nat := 0
  tc      : Nat := 0
  batch   : Nat := 0
  ty      : Nat := 0
  cplx    : Bool := false
  conj    : Bool := false
  trans   : Bool := false
  ret     : Bool := false
  hart    : Nat := 0
  tag     : Nat := 0
  rbase   : Word := 0
  rring   : Word := 0
  deriving DecidableEq, Repr

/-- What the matrix unit does with its operand panels (R246 to R248), with the accumulator rows and `sys.nanread` as they stood at issue
(R75, R241). -/
structure MatOp where
  sparse : Bool := false
  ty     : ETy := .bf16
  an     : Nat := 0
  k      : Nat := 48
  a      : Word := 0
  b      : Word := 0
  m      : Word := 0
  acc    : List (List VReg) := []
  flags  : BitVec 5 := 0
  nan    : Bool := false
  deriving DecidableEq, Repr

/-- A `route` in progress (R255): the pass, the record's fields once read, the tokens done, the place in the closing writes, the drops
of pass 1, and what the pass has found: each expert's count, or the tokens that have no expert. -/
structure RouteRun where
  pass  : Nat
  known : Bool := false
  nt    : Nat := 0
  ne    : Nat := 0
  cap   : Nat := 0
  ids   : Nat := 0
  cnts  : Nat := 0
  slots : Nat := 0
  drops : Nat := 0
  t     : Nat := 0
  e     : Nat := 0
  d     : Nat := 0
  sums  : Tab Nat := []
  deriving DecidableEq, Repr

/-- The accesses and unit operations that a slot's queue holds (R164, R166). One that takes several steps keeps what it has done. -/
inductive TaskOp where
  | load (size : Size) (zext : Bool) (rd : Nat)
  | store (bytes : List Byte)
  | disc
  | flushl
  | xinv (len : Nat)
  | drain (path : Path)
  | send (rd : Nat) (dst tag : Nat) (words : List Word)
  | poll (a : Await)
  | watch (on : Bool)
  | bar
  | carrive
  | cwatch
  | guard (base len : Word) (target : Nat)
  | amo (op : AmoOp) (size : Size) (rd : Nat) (b : Word)
  | cas (size : Size) (rd : Nat) (expect new : Word)
  | red (op : ROp) (ty : ETy) (b : Word)
  | pfxadd (c : Word)
  | spawn (bind prio : Nat) (pc : Word) (mask : BitVec 32) (k1 : PReg) (live : List Word)
  | vload (vd : Nat) (act : PReg) (acc : VReg) (k : Nat)
  | vstore (act : PReg) (val : VReg) (k : Nat)
  | gather (vd w : Nat) (offs : VReg) (stride : Option Word) (act : PReg) (acc : VReg) (j : Nat)
  | scatter (w : Nat) (offs : VReg) (stride : Option Word) (act : PReg) (data : VReg) (j : Nat)
  | ald (an : Nat) (rows : List VReg)
  | ast (rows : List VReg) (row : Nat)
  | mat (m : MatOp) (blk : Nat)
  | mcap (rd : Nat)
  | mreq (rd : Nat) (handle : Word) (cmd : List Word)
  | route (rd : Nat) (r : RouteRun)
  | autbind (dn page : Nat) (d : Option Desc)
  | autpin (dn first count page : Nat)
  | autstk (dn : Nat) (xb : Word)
  | autstep (dn vd : Nat) (act : PReg) (va vb : VReg)
  | autrun (dn vd : Nat) (act : PReg) (words : VReg) (cnts : List Nat) (recs : List (List Nat)) (round : Nat)
  | maprun (dn vd : Nat) (act : PReg) (states : VReg) (len round : Nat)
  | mapinit (dn vd : Nat) (act : PReg)
  | allow (apply : Bool) (dn lane : Nat) (vb : VReg) (copy : List Nat) (blk line : Nat) (mask : List Bool)
  | triewalk (dn vd : Nat) (act : PReg) (va : VReg) (started : Bool) (round : Nat)
  | detok (dn rd : Nat) (xb : Word) (n cap : Nat) (o : Option Nat) (j : Nat)
  | copy (rd hart : Nat) (c : CopyCmd)
  | subTile (rd : Nat) (rec' : Word)
  | unsub (handle : Word)
  | ringinit (count bytes : Nat)
  | slrsv (rd : Nat)
  | slpost (slot : Word)
  | sltake (rd : Nat)
  | slfree (slot : Word)
  | glaunch
  | nodeadd (rd : Nat) (rec' : Word)
  | edgeadd (rd : Nat) (succ : Word)
  | gstat (rd : Nat)
  | rloop
  | rsv
  | rchk (rd : Nat)
  deriving DecidableEq, Repr

/-- What is kept of a stopped instruction beside the group save area (R252, R290, R336): the continuation, the instruction's address, and the
operation as it has come so far, with the partly built accumulators of a matrix instruction, the counts of a `route` and the active lanes of a
lane-wise one (log 79). -/
structure Part where
  cid : Nat
  ipc : Word
  op  : TaskOp
  deriving DecidableEq, Repr

/-- One entry of an access queue (R164): the long instruction it belongs to, its address, its remote requests where each is a step that
completes it or comes to its next boundary (R149), the nanread at issue (R75), the cycle of its issue and whether it has begun (R238, R266), and what
the accesses performed since its last boundary have given (R176). -/
structure Task where
  id     : Nat
  pc     : Word := 0
  ea     : Word := 0
  remote : Nat := 0
  nan    : Bool := false
  cycle  : Nat := 0
  begun  : Bool := false
  got    : List (List Byte) := []
  op     : TaskOp
  deriving DecidableEq, Repr

/-- A stopped instruction as the group save area holds it (R335, R336). -/
structure Stopped where
  ipc  : Word := 0
  word : Nat := 0
  prog : Nat := 0
  ra   : Word := 0
  rb   : Word := 0
  a    : VReg := 0
  b    : VReg := 0
  c    : Nat := 0
  deriving DecidableEq, Repr

/-- What a slot is doing (R94): nothing, running, held on an absent page (R151), released by it, or halted (R327). -/
inductive SlotMode where
  | free | running | held | released | halted
  deriving DecidableEq, Repr

/-- A wait that ends by a step of its own: a spill or fill (R101), a pool record (R106), a delivery after eret (R329). -/
inductive SlotWait where
  | none | spill | fill | pool | deliver
  deriving DecidableEq, Repr

/-- A request to stop the slot inside its group (R334): pre-emption or seal. -/
inductive StopReq where
  | none | slice | seal
  deriving DecidableEq, Repr

/-- A thread slot and what it holds (R94, R99, R100, R111, R116). `drainAt` is where an instruction waits for the slot's outstanding
requests (R94, R170), `rseq` counts the remote requests performed in the region (R149), `stopNew` is how many instructions the stop in
progress has taken out of the group and `undone` these instructions (R334), `accAt` the rows of the accumulators held at the start of the
region (R252), `inputs` and `inK` the copy of its input registers that every region start writes (R341). -/
structure Slot where
  mode       : SlotMode := .free
  pc         : Word := 0
  x          : Tab Word := []
  older      : List (List Word) := []
  depth      : Nat := 0
  v          : Tab VReg := []
  k          : Tab PReg := []
  nanread    : Bool := false
  fflags     : BitVec 5 := 0
  progress   : Nat := 0
  slice      : Nat := 0
  sliceCount : Nat := 0
  forced     : Nat := 0
  yields     : Nat := 0
  clamped    : Bool := false
  trapvec    : Nat := 0
  spillTop   : Nat := 0
  spillLimit : Nat := 0
  spillBase  : Nat := 0
  sup        : Bool := false
  prio       : Nat := 0
  bind       : Nat := 0
  node       : Word := 0
  iter       : Option Iter := none
  cid        : Nat := 0
  region     : Word := 0
  rmask      : BitVec 32 := 0
  rseq       : Nat := 0
  key        : Word := 0
  rsrN       : Nat := 0
  tasks      : List Task := []
  longs      : List Long := []
  parked     : Bool := false
  pend       : Option Trap := none
  stopped    : List Stopped := []
  stopReq    : StopReq := .none
  await      : Option Await := none
  wait       : SlotWait := .none
  defbrk     : Bool := false
  viewAt     : Nat := 0
  idemAt     : Nat := 0
  drainAt    : Option Word := none
  stopNew    : Nat := 0
  accAt      : Tab VReg := []
  inputs     : Tab Word := []
  inK        : PReg := 0
  undone     : List (Long × Task) := []
  deriving DecidableEq, Repr

/-- An entry of a ready queue (R109): a continuation record of the pool by index, or the slot image of a frame number; with
what the hardware keeps beside it. `age` orders entries by the step that queued them (R96). -/
structure QEntry where
  image : Bool := false
  ref   : Nat := 0
  bind  : Nat := 0
  prio  : Nat := 0
  age   : Nat := 0
  cid   : Nat := 0
  node  : Word := 0
  iter  : Option Iter := none
  await : Option Await := none
  deriving DecidableEq, Repr

/-- What waits on an absent page (R151, R309, R432, R433): a record, a held slot by party number, a command or subscription of a hart by
its ticket, a phase step, or a step of a graph or loop by a number. -/
inductive Waiter where
  | record (lc : Nat) (q : QEntry)
  | slot (party : Nat)
  | hart (h ticket : Nat)
  | phase
  | engine (tag : Nat)
  deriving DecidableEq, Repr

/-- A capability entry (R253). -/
structure Cap where
  issued : Bool := false
  mask   : Nat := 0
  expiry : Nat := 0
  off0   : Nat := 0
  len0   : Nat := 0
  off1   : Nat := 0
  len1   : Nat := 0
  deriving DecidableEq, Repr

/-- An accepted remote matrix command (R254): sender, its nanread, whether it is no iteration of a reserving loop (R368), the cycle of
acceptance, handle, words. -/
structure RemoteCmd where
  sender : Nat
  nan    : Bool
  outside : Bool := false
  cycle  : Nat := 0
  handle : Word
  cmd    : List Word
  deriving DecidableEq, Repr

/-- What the hardware keeps of a slot image beside its frame (R353, R366): beside the node pointer and the iteration mark, the continuation's
name, its await word, its request count, the accumulator rows and the input copy of its region start; the open group of one that a seal or a
move has stopped while an access of it waits (log 30); its slot number; and, when that slot's frame has since been written for another
continuation, the bytes of the image itself (log 77). -/
structure ImgSide where
  pos  : Nat := 0
  kept : Option (List Byte) := none
  node : Word := 0
  iter : Option Iter := none
  cid  : Nat := 0
  await : Option Await := none
  pending : Bool := false
  seq  : Nat := 0
  accAt : Tab VReg := []
  inputs : Tab Word := []
  inK   : PReg := 0
  tasks : List Task := []
  longs : List Long := []
  parked : Bool := false
  pend  : Option Trap := none
  stopNew : Nat := 0
  undone : List (Long × Task) := []
  deriving DecidableEq, Repr

/-- A request for an event that has not been taken: the kind's code, the slot that made it, its phase (R191). -/
structure ReqMark where
  kind  : Nat
  pos   : Nat
  phase : Nat
  deriving DecidableEq, Repr

/-- A logical core (R15, R189, R239, R261). `framed` says that its accumulators stand in their frame, since another logical core's are in the
unit (R239). `waits` names the events that wait for a place in its mailbox, by channel and step (R189),
`poolHolds` the slots that hold for want of a record (R106). -/
structure LCore where
  box       : List Msg := []
  seqs      : Tab Nat := []
  ready     : List QEntry := []
  suspended : List QEntry := []
  fenable   : BitVec 5 := 0
  rngseed   : Word := 0
  accs      : Tab VReg := []
  holders   : Tab Nat := []
  accWriter : Tab Nat := []
  parts     : List Part := []
  framed    : Bool := false
  caps      : Tab Cap := []
  gens      : Tab Nat := []
  remoteQ   : List RemoteCmd := []
  descs     : Tab Desc := []
  rings     : List Nat := []
  watch     : Tab Bool := []
  arrivals  : List Bool := []
  lateArrivals : List Bool := []
  sentTo    : Tab Nat := []
  requested : List ReqMark := []
  poolNoted : Bool := false
  boxNoted  : Bool := false
  waits     : List (Nat × Nat) := []
  poolHolds : List Nat := []
  sides     : Tab ImgSide := []
  deriving DecidableEq, Repr

/-- A sector shadow (R182). READER 0x3FE is MANY, 0x3FF none; WRITER 0x3FF none. -/
structure Shadow where
  phase  : Nat := 0
  writer : Nat := 0x3FF
  reader : Nat := 0x3FF
  plain  : Nat := 0
  engine : Nat := 0
  eop    : Nat := 0
  asz    : Nat := 0
  deriving DecidableEq, Repr

/-- The operation of a reduction entry (R173, R199, R372): a `red`, a `carrive`, or a reservation. -/
inductive PartOp where
  | red (op : ROp) (ty : ETy)
  | arrive
  | rsv
  deriving DecidableEq, Repr

/-- A reduction entry of a partial slot (R164, R173): its line and its place as memory keys, its address or offset. -/
structure Partial where
  line : Nat
  lc   : Nat
  key  : Nat
  off  : Nat
  size : Nat
  op   : PartOp
  val  : Nat
  nan  : Bool := false
  deriving DecidableEq, Repr

/-- A guard declaration (R201). -/
structure Guard where
  cell   : Word
  base   : Word
  len    : Word
  target : Nat
  lc     : Nat
  taken  : List Nat := []
  deriving DecidableEq, Repr

/-- A contribution to a prefix cell (R205). -/
structure Contrib where
  cell : Word
  lc   : Nat
  val  : Word
  nan  : Bool
  ticket : Nat := 0
  deriving DecidableEq, Repr

/-- A pending `cwatch` (R200). `hit`: a fold or write has found the cell reached, `target` and `phase` being its target count and the phase
then. -/
structure CWatch where
  lc   : Nat
  cell : Word
  nan  : Bool
  hit  : Bool := false
  target : Nat := 0
  phase  : Nat := 0
  ticket : Nat := 0
  deriving DecidableEq, Repr

/-- A generated event waiting for a place (R189). -/
structure Deferred where
  dst : Nat
  msg : Msg
  ticket : Nat := 0
  deriving DecidableEq, Repr

/-- A request for DRAINDONE or XINVDONE not yet answered (R159, R161): its logical core and slot, what it names, its ticket, and the
copies or pages that it still waits for. -/
structure EvReq where
  lc   : Nat
  pos  : Nat := 0
  nan  : Bool
  a    : Nat
  b    : Nat
  ticket : Nat := 0
  copies : List Nat := []
  deriving DecidableEq, Repr

/-- What the Marionette keeps of a node record once it has read it (R344, R346, R349): the template, the retry budget, the placement and
priority, the queue core, and the used ranges with their PREFETCH bits. -/
structure NodeInfo where
  cont   : Nat
  retry  : Nat
  place  : Nat
  prio   : Nat
  ranges : List (Nat × Nat × Bool)
  deriving DecidableEq, Repr

/-- A node of a registered graph as the Marionette holds it (R344, R345, R433): whether it has reached the node, its state, count,
attempts, code and cone tag, its successors and record once read, its queue core, and one more than the node that added it (R358). -/
structure NodeSt where
  known    : Bool := false
  state    : Nat := 0
  count    : Nat := 0
  attempts : Nat := 0
  code     : Nat := 0
  ctag     : Nat := 0
  succ     : List Nat := []
  info     : Option NodeInfo := none
  q        : Option Nat := none
  added    : Nat := 0
  deriving DecidableEq, Repr

/-- A domino sweep in progress (R357): its failed node, the nodes left in the level, and the next level. -/
structure Sweep where
  f     : Nat
  level : List Nat
  next  : List Nat
  deriving DecidableEq, Repr

/-- How far the move of a page has come (R156, R349, R350): none in hand, its frame taken, V cleared, the page absent for everyone, copied,
its leaf written, and the frame that is left over to go back to a pool. -/
inductive MoveStage where
  | next | taken | cleared | absent | copied | mapped | give
  deriving DecidableEq, Repr

/-- A node whose ranges the Marionette treats before it queues it (R349, R351): its pages left, with their PREFETCH bits, and of the move of
the first of them the stage, the frame taken from a pool or to be given back, the die of that pool's entry, and the old frame. -/
structure NodeMove where
  node  : Nat
  pages : List (Nat × Bool)
  stage : MoveStage := .next
  frame : Nat := 0
  die   : Nat := 0
  old   : Nat := 0
  deriving DecidableEq, Repr

/-- A node shadow of deterministic mode (R362): writer node + 1, reader node + 1, 0 none, MANY as readers > 2^24. -/
structure NShadow where
  writer : Nat := 0
  reader : Nat := 0
  deriving DecidableEq, Repr

/-- A live graph (R343, R347, R348, R360): its record, its issuer, the next node of the scan, the nodes, the counts per state, the tokens
and sweeps on their way, the nodes due to become ready, those whose ranges are treated and those to be dispatched, those whose continuation
a fault has lost, the reports of the spanning tree, the held successor lists, and the nodes whose record was absent when the graph was
registered, so that their lists are not among these. NCAP is nonzero in every live graph. -/
structure Graph where
  addr     : Nat := 0
  nodes    : Nat := 0
  ncount   : Nat := 0
  ncap     : Nat := 0
  fpool    : Nat := 0
  notify   : Nat := 0
  tag      : Nat := 0
  lc       : Nat := 0
  nan      : Bool := false
  ticket   : Nat := 0
  scan     : Nat := 0
  sts      : Tab NodeSt := []
  counts   : List Nat := []
  tokens   : List (List Nat) := []
  sweeps   : List Sweep := []
  due      : List Nat := []
  moves    : List NodeMove := []
  lost     : List Word := []
  dispatch : List Nat := []
  reports  : Tab (Nat × Nat) := []
  reported : List Nat := []
  lists    : List (Nat × Nat) := []
  unlisted : List Nat := []
  ff       : Nat := 0xFFFFFFFF
  shadows  : Tab NShadow := []
  deriving DecidableEq, Repr

/-- The live reserving loop (R365 to R376): its record, the retry buffer's words, the positions of the round that have not ended
and those not yet queued, the iterations that a fault has ended and that are not counted yet, and how far the engine is. After its final
phase step it is over and waits to place its notice. -/
structure Loop where
  addr    : Word := 0
  n       : Nat := 0
  w       : Nat := 0
  first   : Nat := 0
  ncores  : Nat := 0
  rsvpc   : Word := 0
  cmtpc   : Word := 0
  rbuf    : Word := 0
  args    : List Word := []
  prio    : Nat := 0
  tag     : Nat := 0
  maxwin  : Nat := 0
  lc      : Nat := 0
  nan     : Bool := false
  win     : Nat := 0
  next    : Nat := 0
  done    : Nat := 0
  wins    : Nat := 0
  list    : List Nat := []
  failed  : List Nat := []
  opened  : List Nat := []
  commit  : Bool := false
  ticket  : Nat := 0
  toQueue : List Nat := []
  ends    : List Iter := []
  round   : Bool := false
  started : Bool := false
  ended   : Bool := false
  deriving DecidableEq, Repr

/-- The fields of a creation record (R391). -/
structure CreateRec where
  det        : Bool := false
  pmode      : Nat := 0
  supcore    : Nat := 0
  clusters   : Nat := 0
  root       : Nat := 0
  tkey       : Nat := 0xFFFF
  ovflog     : Nat := 12
  thresh     : Nat := 256
  handlers   : Word := 0
  nhandlers  : Nat := 0
  pooln      : Nat := 1
  pool       : Word := 0
  images     : Word := 0
  csets      : Word := 0
  ncsets     : Nat := 1
  probe      : Nat := 256
  counters   : Word := 0
  notifyq    : Word := 0
  ovfrings   : Word := 0
  ccb        : Word := 0
  sealarea   : Word := 0
  itree      : Nat := 0
  itreelen   : Nat := 0
  trapvec    : Nat := 0
  slice      : Nat := 0
  spillbase  : Nat := 0
  spillbytes : Nat := 0
  hostid     : Nat := 0
  deriving DecidableEq, Repr

inductive CtxStatus where
  | none | live | sealed
  deriving DecidableEq, Repr

/-- A control-block request in progress (R395): its sequence number, REQUEST as it was read for one that takes more than one step, and,
once performed, its result. -/
structure CcbReq where
  q      : Nat
  words  : List Nat := []
  result : Option Nat := none
  deriving DecidableEq, Repr

/-- An armed timer (R397): arming value, microseconds left, nanread of the arming store. -/
structure TimerSt where
  armed : Bool := false
  t     : Nat := 0
  left  : Nat := 0
  nan   : Bool := false
  deriving DecidableEq, Repr

/-- A context (R391, R164). `quiet` names the logical clusters being quiesced (R16), 96 standing for all at once (R180), `fled` the physical
cores with a lasting fault whose logical cores are still to be moved (R17), `sealing` a stop of the whole context (R338), `notes`
holds the TRAPNOTEs that a later step sends (R172). -/
structure Ctx where
  status      : CtxStatus := .none
  cr          : CreateRec := {}
  placement   : Tab (BitVec 32) := []
  phase       : Nat := 0
  windowCtr   : Nat := 1
  measurement : BitVec 512 := 0
  clocks      : Tab Clock := []
  shadows     : Tab Shadow := []
  partials    : List Partial := []
  poolFree    : List Nat := []
  guardsNext  : List Guard := []
  guards      : List Guard := []
  prefixes    : List Contrib := []
  cwatches    : List CWatch := []
  waitLists   : Tab (List Waiter) := []
  deferred    : List Deferred := []
  notes       : List Msg := []
  dropped     : Nat := 0
  ovfPending  : Bool := false
  graphs      : Tab Graph := []
  loop        : Option Loop := none
  timers      : Tab TimerSt := []
  ccbReq      : Option CcbReq := none
  drains      : List EvReq := []
  xinvs       : List EvReq := []
  nextCid     : Nat := 1
  nextAge     : Nat := 0
  quiet       : List Nat := []
  fled        : List Nat := []
  sealing     : Bool := false
  probed      : Tab (Nat × Nat) := []
  deriving DecidableEq, Repr

/-- A copy command in a hart's queue (R303, R305): its issuer, the byte ranges not yet copied, the bytes written, its place among the
event requests, whether it has started or waits on a page, and its refusal as status and address. -/
structure CopyRun where
  ctx   : Nat
  lc    : Nat
  nan   : Bool
  c     : CopyCmd
  left  : List (Nat × Nat)
  bytes : Nat := 0
  ticket : Nat := 0
  started : Bool := false
  waiting : Bool := false
  refused : Option (Nat × Word) := none
  deriving DecidableEq, Repr

/-- An entry of a hart's command queue (R303). -/
inductive HCmd where
  | copy (r : CopyRun)
  | sub (entry : Nat)
  deriving DecidableEq, Repr

/-- A live subscription (R317 to R321): pushed and returned tiles, and each tile in hand as its slot offset and unfinished chunks. -/
structure Sub where
  live    : Bool := false
  ctx     : Nat := 0
  lc      : Nat := 0
  nan     : Bool := false
  r       : SubRec := {}
  feed    : Word := 0
  gen     : Nat := 0
  pushed  : Nat := 0
  returned : Nat := 0
  push    : Option (Nat × List Nat) := none
  ret     : Option (Nat × List Nat) := none
  unsub   : Bool := false
  ticket  : Nat := 0
  waiting : Bool := false
  refused : Option (Nat × Word) := none
  deriving DecidableEq, Repr

/-- A stream hart (R302, R303, R426). -/
structure Hart where
  queue   : List HCmd := []
  subs    : Tab Sub := []
  stopped : Bool := false
  served  : Option Nat := none
  deriving DecidableEq, Repr

inductive EpState where
  | unbound | locked | run | error
  deriving DecidableEq, Repr

/-- A READ or WRITE that an endpoint has accepted and not yet answered (R177, R418): its range, the bytes to write, the lines done and
the bytes read so far. -/
structure HostRun where
  write : Bool
  va    : Word
  len   : Nat
  bytes : List Byte := []
  lines : Nat := 0
  got   : List Byte := []
  deriving DecidableEq, Repr

/-- A host endpoint (R404, R405, R420, R421), the SEQ of each core's channel to it (R188), and the request that it performs. -/
structure Endpoint where
  state   : EpState := .unbound
  ctx     : Nat := 0
  locker  : Nat := 0
  session : Nat := 0
  rbase   : Word := 0
  rlen    : Nat := 0
  defcore : Nat := 0
  seqs    : Tab Nat := []
  run     : Option HostRun := none
  deriving DecidableEq, Repr

inductive SessStage where
  | none | accepted | ready | failed
  deriving DecidableEq, Repr

/-- A Sikinak session (R407 to R410): stage, kind, context and endpoints, lifetime and what of it is left in seconds, host identity key,
transcript hash, the two AES-256 keys, and how much had left the device when it became ready. -/
structure Session where
  stage : SessStage := .none
  kind  : SessionKind := .manage
  ctx   : Nat := 0
  eps   : List Nat := []
  life  : Nat := 0
  hkey  : BitVec 512 := 0
  transcript : BitVec 512 := 0
  keys  : BitVec 512 := 0
  left  : Nat := 0
  outAt : Nat := 0
  deriving DecidableEq, Repr

/-- A key slot (R398): EMPTY, or a kind (SEALED or GUARDED), an owner and the name of the keys it holds. -/
structure KeySlot where
  full    : Bool := false
  guarded : Bool := false
  owner   : Nat := 0
  keyName : Nat := 0
  deriving DecidableEq, Repr

/-- The transient and lasting counters of one unit (R427). -/
structure UnitCtr where
  transient : Nat := 0
  lasting   : Nat := 0
  deriving DecidableEq, Repr

/-- A log entry (R427). -/
structure LogEntry where
  time   : Nat
  unit   : Nat
  cls    : Nat
  event  : Nat
  number : Nat
  addr   : Word
  ctx    : Nat
  deriving DecidableEq, Repr

/-- What the device sends to the outside world: answers to management messages and endpoint requests, messages placed at an
endpoint, and the writes and reads of a host window (R420). -/
inductive OutMsg where
  | accept (session : Nat) (report : List Byte)
  | ready (session : Nat)
  | answer (session seq result : Nat) (body : List Byte)
  | placed (ep code : Nat)
  | writeDone (ep code off : Nat)
  | readDone (ep code : Nat) (bytes : List Byte)
  | message (ep : Nat) (words : List Word)
  | window (ep : Nat) (addr : Word) (bytes : List Byte)
  | windowRead (ep : Nat) (addr : Word) (len : Nat)
  deriving DecidableEq, Repr

/-- What a seal saves beside what stays in State (R339): the slots, cores, tables and local stores of the context, how many physical
clusters it held, and whether the keys that sealed it have been erased since (R413). -/
structure SealedCtx where
  slots : Tab Slot := []
  cores : Tab LCore := []
  ctx   : Ctx := {}
  ls    : Tab Byte := []
  nclusters : Nat := 0
  lost  : Bool := false
  deriving DecidableEq, Repr

/-- The slot for which a step of a slot acts: context, logical core, position (the party number is 16·lc + pos, R163). -/
structure Focus where
  ctx : Nat := 0
  lc  : Nat := 0
  pos : Nat := 0
  deriving DecidableEq, Repr

/-- A store as fetches may still miss it (R45): the storing slot's key, where it stored, and the bytes that stood there. -/
structure CodeStore where
  party : Nat
  key   : Nat
  old   : List Byte
  deriving DecidableEq, Repr

/-- A choice of the next step: a slot issues its next instruction, or a step of the table is taken with a slot in focus. -/
inductive Choice where
  | issue (f : Focus)
  | act (f : Focus) (i : Instr)
  deriving DecidableEq, Repr

/-- The package. `requests` holds the management requests accepted and not yet answered, the first of them in progress (R405, R411),
`firmware` the three images that are verified (R402). `resident` names by core key + 1 the logical core whose accumulators the unit of a
physical core holds (R239), `residentAu` the one whose automaton state its automaton unit holds (R261), `keyless` says that key slot 0 has been erased (R413). `agenda`, `focus` and `draws` are the model's own (log 1, log 3); everything else is the spec's. -/
structure State where
  mem        : Tab Byte := []
  slots      : Tab Slot := []
  cores      : Tab LCore := []
  ctxs       : Tab Ctx := []
  owners     : Tab (BitVec 32) := []
  frames     : Tab (BitVec 32) := []
  poison     : Tab Bool := []
  versions   : Tab Nat := []
  keys       : Tab KeySlot := []
  endpoints  : Tab Endpoint := []
  sessions   : Tab Session := []
  nextSess   : Nat := 1
  requests   : List Instr := []
  harts      : Tab Hart := []
  sealedCtxs : Tab SealedCtx := []
  fwVerified : Bool := false
  fwDigest   : BitVec 512 := 0
  firmware   : List (List Byte) := []
  reportCtr  : Nat := 0
  counters   : Tab UnitCtr := []
  log        : List LogEntry := []
  timeUs     : Nat := 0
  cycle      : Nat := 0
  duty       : Tab Nat := []
  requested  : Tab Nat := []
  alarm1     : Bool := false
  keyless    : Bool := false
  coissueOff : Bool := false
  standby    : Bool := false
  retired    : Tab Bool := []
  sliceMap   : Tab Nat := []
  lanesUsed  : Tab Nat := []
  lanePend   : Tab Nat := []
  lastPos    : Tab Nat := []
  passCount  : Tab Nat := []
  resident   : Tab Nat := []
  residentAu : Tab Nat := []
  outbox     : List OutMsg := []
  codeLog    : List CodeStore := []
  agenda     : List Choice := []
  focus      : Focus := {}
  draws      : Nat := 0
  deriving DecidableEq, Repr

/-- The machine at release of reset, before the POWER_RESET step: no context, no session, every endpoint UNBOUND, every owner
register and frame entry zero (R390, R399, R404). -/
def State.reset : State := {}

/-- How a run can stop. No step of this model raises it: every stop of the manual is a trap, a hold or a wait, each a next
state. Safe. -/
inductive Fault where
  /-- Raised by no step; the type is kept inhabited. Safe. -/
  | none
  deriving DecidableEq, Repr

/-- How a step can be turned away. -/
inductive Refusal where
  /-- Raised by an arm of `exec` whose instruction has no meaning yet. Safe: nothing is claimed of it. -/
  | notModelled (mnemonic : String)
  deriving DecidableEq, Repr

end Sys2Proof.Machine
end

