-- ==== Sys2Proof/Machine/Tab.lean ====
section
/-! DEFINITION. Tables with a default and byte memory, both kept in one canonical form: keys strictly rising, and no entry
equal to what an unlisted key reads as. -/

namespace Sys2Proof.Machine

/-- The value at key `k`, or the default `d` where the table lists nothing. -/
def Tab.get {α : Type} (d : α) (t : Tab α) (k : Nat) : α :=
  match t with
  | [] => d
  | (j, v) :: r => if j = k then v else Tab.get d r k

/-- The entries of `t` below key `k`. -/
def Tab.below {α : Type} (k : Nat) (t : Tab α) : Tab α := t.filter (fun e => decide (e.1 < k))

/-- The entries of `t` at or above key `k`. -/
def Tab.from {α : Type} (k : Nat) (t : Tab α) : Tab α := t.filter (fun e => decide (k ≤ e.1))

/-- `t` with key `k` holding `v`. -/
def Tab.set {α : Type} [DecidableEq α] (d : α) (t : Tab α) (k : Nat) (v : α) : Tab α :=
  Tab.below k t ++ (if v = d then [] else [(k, v)]) ++ Tab.from (k + 1) t

/-- `t` with the entry of key `k` changed by `f`. -/
def Tab.upd {α : Type} [DecidableEq α] (d : α) (t : Tab α) (k : Nat) (f : α → α) : Tab α :=
  Tab.set d t k (f (Tab.get d t k))

/-- `t` with every key in `[lo, hi)` back at the default. -/
def Tab.clear {α : Type} (t : Tab α) (lo hi : Nat) : Tab α := Tab.below lo t ++ (if lo ≤ hi then Tab.from hi t else Tab.from lo t)

/-- The canonical form of a table. -/
def Tab.wf {α : Type} [DecidableEq α] (d : α) (t : Tab α) : Bool :=
  decide (t.Pairwise (fun a b => a.1 < b.1)) && t.all (fun e => decide (e.2 ≠ d))

/-- What a byte that nothing has written reads as: local store is zero at creation (R129); HBM is zero by DESIGN CHOICE (log 2). -/
def Mem.dflt : Byte := 0

/-- One byte of memory. -/
def Mem.read (m : Tab Byte) (a : Nat) : Byte := Tab.get Mem.dflt m a

/-- The cells that bytes `bs` from address `a` list. -/
def Mem.cells (a : Nat) : List Byte → Tab Byte
  | [] => []
  | b :: r => if b = Mem.dflt then Mem.cells (a + 1) r else (a, b) :: Mem.cells (a + 1) r

/-- Writes `bs` at `a` upward. -/
def Mem.write (m : Tab Byte) (a : Nat) (bs : List Byte) : Tab Byte :=
  Tab.below a m ++ Mem.cells a bs ++ Tab.from (a + bs.length) m

/-- The `n` bytes from `a`, byte 0 first. -/
def Mem.bytes (m : Tab Byte) (a : Nat) : Nat → List Byte
  | 0 => []
  | n + 1 => Mem.read m a :: Mem.bytes m (a + 1) n

/-- The canonical form of a memory. -/
def Mem.wf (m : Tab Byte) : Bool := Tab.wf Mem.dflt m

/-- The little-endian number that a list of bytes holds (R2). -/
def leNat : List Byte → Nat
  | [] => 0
  | b :: r => b.toNat + 256 * leNat r

/-- The low `n` bytes of a number, little-endian (R2). -/
def leBytes : Nat → Nat → List Byte
  | 0, _ => []
  | n + 1, v => BitVec.ofNat 8 v :: leBytes n (v / 256)

/-- Bits `lo + n - 1` to `lo` of a number. -/
def field (v lo n : Nat) : Nat := v / 2 ^ lo % 2 ^ n

/-- Field `f` placed at bit `lo`. -/
def at' (lo f : Nat) : Nat := f * 2 ^ lo

/-- The number of bits set among the low `n` bits of `v`. -/
def popCount : Nat → Nat → Nat
  | 0, _ => 0
  | n + 1, v => v % 2 + popCount n (v / 2)

end Sys2Proof.Machine
end

