-- ==== Sys2Proof/Machine/Access.lean ====
section
/-! DEFINITION. Accessors: every slot, logical core, context and register has one home, and all reads and writes of it go through
these. -/

namespace Sys2Proof.Machine

/-- The key of a slot: its context and its party number 16·L + position (R163). -/
def Focus.key (f : Focus) : Nat := f.ctx * 16384 + 16 * f.lc + f.pos

/-- The key of a logical core of a context. -/
def coreKey (ctx lc : Nat) : Nat := ctx * 1024 + lc

def State.slotAt (s : State) (f : Focus) : Slot := Tab.get {} s.slots f.key
def State.setSlot (s : State) (f : Focus) (t : Slot) : State := { s with slots := Tab.set {} s.slots f.key t }
def State.modSlot (s : State) (f : Focus) (g : Slot → Slot) : State := s.setSlot f (g (s.slotAt f))
/-- The slot in focus. -/
def State.slot (s : State) : Slot := s.slotAt s.focus
def State.mod (s : State) (g : Slot → Slot) : State := s.modSlot s.focus g
def State.core (s : State) (ctx lc : Nat) : LCore := Tab.get {} s.cores (coreKey ctx lc)
def State.setCore (s : State) (ctx lc : Nat) (c : LCore) : State := { s with cores := Tab.set {} s.cores (coreKey ctx lc) c }
def State.modCore (s : State) (ctx lc : Nat) (g : LCore → LCore) : State := s.setCore ctx lc (g (s.core ctx lc))
def State.ctxOf (s : State) (c : Nat) : Ctx := Tab.get {} s.ctxs c
def State.setCtx (s : State) (c : Nat) (x : Ctx) : State := { s with ctxs := Tab.set {} s.ctxs c x }
def State.modCtx (s : State) (c : Nat) (g : Ctx → Ctx) : State := s.setCtx c (g (s.ctxOf c))
/-- The logical core and the context of the slot in focus. -/
def State.me (s : State) : LCore := s.core s.focus.ctx s.focus.lc
def State.modMe (s : State) (g : LCore → LCore) : State := s.modCore s.focus.ctx s.focus.lc g
def State.here (s : State) : Ctx := s.ctxOf s.focus.ctx
def State.modHere (s : State) (g : Ctx → Ctx) : State := s.modCtx s.focus.ctx g
/-- A fresh draw for a free value. -/
def State.draw (s : State) : State := { s with draws := s.draws + 1 }

/-- x0 reads zero (R99). -/
def Slot.rx (t : Slot) (r : Nat) : Word := if r = 0 then 0 else Tab.get 0 t.x r
/-- A write of x0 is discarded (R39, R99). -/
def Slot.wx (t : Slot) (r : Nat) (v : Word) : Slot := if r = 0 then t else { t with x := Tab.set 0 t.x r v }
def Slot.rv (t : Slot) (r : Nat) : VReg := Tab.get 0 t.v r
def Slot.wv (t : Slot) (r : Nat) (v : VReg) : Slot := { t with v := Tab.set 0 t.v r v }
/-- k0 reads all ones (R99). -/
def Slot.rk (t : Slot) (r : Nat) : PReg := if r = 0 then BitVec.allOnes 48 else Tab.get 0 t.k r
/-- A write of k0 is discarded (R39, R99). -/
def Slot.wk (t : Slot) (r : Nat) (v : PReg) : Slot := if r = 0 then t else { t with k := Tab.set 0 t.k r v }
/-- The registers x`r` to x`r + n - 1`. -/
def Slot.rxs (t : Slot) (r : Nat) : Nat → List Word
  | 0 => []
  | n + 1 => t.rx r :: Slot.rxs t (r + 1) n
/-- Writes consecutive registers from x`r`. -/
def Slot.wxs (t : Slot) (r : Nat) : List Word → Slot
  | [] => t
  | v :: vs => Slot.wxs (t.wx r v) (r + 1) vs

/-- The resident count w of the window stack (R100): the current window and the older resident ones. -/
def Slot.w (t : Slot) : Nat := t.older.length + 1

/-- The pages of an image (R282). -/
def Desc.extent (d : Desc) : Nat := if d.vocab = 0 then d.pages + 1 else d.vpages

/-- The placement entry of a logical core (R12). -/
def State.place (s : State) (ctx lc : Nat) : BitVec 32 := Tab.get 0 (s.ctxOf ctx).placement lc
/-- V = 1 (R12). -/
def State.placed (s : State) (ctx lc : Nat) : Bool := (s.place ctx lc).getLsbD 31
/-- The physical core that an entry names: die × 200 + cluster × 8 + member (R8, R12). -/
def physOf (e : BitVec 32) : Nat := field e.toNat 8 2 * 200 + field e.toNat 3 5 * 8 + field e.toNat 0 3
def State.physCore (s : State) (ctx lc : Nat) : Nat := physOf (s.place ctx lc)
/-- The die of a logical core under its placement. -/
def State.dieOf (s : State) (ctx lc : Nat) : Nat := field (s.place ctx lc).toNat 8 2

/-- The members of the barrier group: the logical cores with V = 1 (R197). -/
def State.members (s : State) (ctx : Nat) : List Nat := ((s.ctxOf ctx).placement.filter (fun e => e.2.getLsbD 31)).map (·.1)

/-- The logical cores of a context that a physical core hosts (R15). -/
def State.hosted (s : State) (ctx core : Nat) : List Nat := (s.members ctx).filter (fun l => decide (s.physCore ctx l = core))

/-- The machine's own code for a trap kind (R324). -/
def TrapKind.code : TrapKind → Nat
  | .illegalFormat => 1 | .illegalOpcode => 2 | .illegalField => 3 | .illegalGroup => 4 | .pageAbsent => 5
  | .protection => 6 | .clusterMask => 7 | .modeAlias => 8 | .integrity => 9 | .keyAbsent => 10 | .lateRefusal => 11
  | .conflict => 12 | .formatMismatch => 13 | .arith => 14 | .autStack => 15 | .autTable => 16 | .ring => 17
  | .capability => 18 | .trap => 19 | .break => 20

/-- The code of a trap class in a fault record (R325). -/
def TrapClass.code : TrapClass → Nat
  | .issue => 0 | .refusal => 1 | .exec => 2

end Sys2Proof.Machine
end

