-- ==== Sys2Proof/Machine/Numbers.lean ====
section
/-! DEFINITION. Number formats, exact values and the one rounding that makes a result (04_numbers R67 to R88). -/

namespace Sys2Proof.Machine

/-- The sticky flags of one result, bits as R34 numbers them. -/
abbrev FFlags := BitVec 5

def FFlags.invalid : FFlags := 1
def FFlags.divzero : FFlags := 2
def FFlags.overflow : FFlags := 4
def FFlags.underflow : FFlags := 8
def FFlags.inexact : FFlags := 16

/-- Whether every NaN of the format, its infinity and its saturation follow IEEE, the extended E4M3 reading or E2M1 (R74). -/
inductive TopKind where
  | ieee | extended | none
  deriving DecidableEq, Repr

/-- A binary format: exponent width, fraction width p, bias, reading of the top exponent, whether its NaNs can signal, and
whether results written in it saturate (R67, R74, R86). -/
structure Fmt where
  eb   : Nat
  p    : Nat
  bias : Nat
  top  : TopKind
  snan : Bool
  sat  : Bool
  deriving DecidableEq, Repr

/-- The format of a floating element type under the reading `nanread` (R67, R75). -/
def fmtOf (nanread : Bool) : ETy → Option Fmt
  | .f64 => some ⟨11, 52, 1023, .ieee, true, false⟩
  | .f32 => some ⟨8, 23, 127, .ieee, true, false⟩
  | .f16 => some ⟨5, 10, 15, .ieee, true, false⟩
  | .bf16 => some ⟨8, 7, 127, .ieee, true, false⟩
  | .e5m2 => some ⟨5, 2, 15, .ieee, false, true⟩
  | .e4m3 => some ⟨4, 3, 7, if nanread then .ieee else .extended, false, true⟩
  | .mx4 => some ⟨2, 1, 1, .none, false, true⟩
  | _ => none

/-- The width in bits of an element type (R211). -/
def widthOf : ETy → Nat
  | .i8 | .e4m3 | .e5m2 => 8
  | .i16 | .f16 | .bf16 => 16
  | .i32 | .f32 | .rn3 _ => 32
  | .i64 | .f64 => 64
  | .mx4 => 4

def isInt : ETy → Bool
  | .i8 | .i16 | .i32 | .i64 => true
  | _ => false

/-- The set FLT of R215. -/
def isFlt : ETy → Bool
  | .f16 | .bf16 | .f32 | .f64 => true
  | _ => false

/-- The set F8 of R215. -/
def isF8 : ETy → Bool
  | .e4m3 | .e5m2 => true
  | _ => false

/-- The set RN of R215. -/
def isRn : ETy → Bool
  | .rn3 _ => true
  | _ => false

/-- The all-ones exponent field. -/
def Fmt.emax (f : Fmt) : Nat := 2 ^ f.eb - 1

/-- The magnitude code of the largest finite value (R74). -/
def Fmt.maxCode (f : Fmt) : Nat :=
  match f.top with
  | .ieee => f.emax * 2 ^ f.p - 1
  | .extended => f.emax * 2 ^ f.p + 2 ^ f.p - 2
  | .none => f.emax * 2 ^ f.p + 2 ^ f.p - 1

/-- The sign bit. -/
def Fmt.signBit (f : Fmt) : Nat := 2 ^ (f.eb + f.p)

/-- The canonical NaN; E2M1 has none and a NaN becomes +0 (R74, R77, R86). -/
def Fmt.canon (f : Fmt) : Nat :=
  match f.top with
  | .ieee => f.emax * 2 ^ f.p + 2 ^ (f.p - 1)
  | .extended => f.emax * 2 ^ f.p + 2 ^ f.p - 1
  | .none => 0

/-- An exact value: `fin neg m e` is (−1)^neg · m · 2^e, a signed zero when m = 0. -/
inductive FVal where
  | nan (sig : Bool)
  | inf (neg : Bool)
  | fin (neg : Bool) (m : Nat) (e : Int)
  deriving DecidableEq, Repr

/-- The value of a code (R67, R74); with `daz` a subnormal reads as a zero of its sign (R82). -/
def Fmt.decode (f : Fmt) (daz : Bool) (c : Nat) : FVal :=
  let neg := decide (field c (f.eb + f.p) 1 = 1)
  let e := field c f.p f.eb
  let m := field c 0 f.p
  let num : FVal :=
    if e = 0 then .fin neg (if daz then 0 else m) (1 - (f.bias : Int) - f.p)
    else .fin neg (2 ^ f.p + m) ((e : Int) - f.bias - f.p)
  match f.top with
  | .ieee =>
    if e = f.emax then
      if m = 0 then .inf neg else .nan (f.snan && decide (field m (f.p - 1) 1 = 0))
    else num
  | .extended => if e = f.emax ∧ m = 2 ^ f.p - 1 then .nan false else num
  | .none => num

/-- A magnitude known from below: the exact value is n·2^e, or lies strictly between n·2^e and (n+1)·2^e when `sticky`. -/
structure Mag where
  n      : Nat
  e      : Int
  sticky : Bool
  deriving DecidableEq, Repr

/-- What rounding needs: mode, result flushing and the element's stochastic word (R38, R78, R80, R82). -/
structure Rnd where
  rm  : RM
  ftz : Bool
  u   : Nat
  deriving DecidableEq, Repr

def Rnd.nearest : Rnd := ⟨.rne, false, 0⟩

/-- Whether `hi` is chosen over `lo`, where `rem / 2^sh` is the discarded part of a quantum (R78). -/
def roundsUp (r : Rnd) (neg : Bool) (lo rem sh : Nat) (sticky : Bool) : Bool :=
  if rem = 0 ∧ sticky = false then false
  else
    match r.rm with
    | .rtz => false
    | .rup => !neg
    | .rdn => neg
    | .rsr => decide (rem * 2 ^ 32 / 2 ^ sh > r.u)
    | .rne => decide (2 * rem > 2 ^ sh) || (decide (2 * rem = 2 ^ sh) && (sticky || decide (lo % 2 = 1)))
    | .rna => decide (2 * rem ≥ 2 ^ sh)

/-- The magnitude code and the flags that a nonzero magnitude rounds to (R78, R79, R82, R83, R86).
DEDUCED (log 73): an inexact result that rounds to zero sets underflow. -/
def Fmt.roundMag (f : Fmt) (r : Rnd) (neg : Bool) (v : Mag) : Nat × FFlags :=
  let top : Int := v.e + Nat.log2 v.n
  let qmin : Int := 1 - (f.bias : Int) - f.p
  let q0 : Int := if top - f.p < qmin then qmin else top - f.p
  let sh := (q0 - v.e).toNat
  let lo := if q0 ≥ v.e then v.n / 2 ^ sh else v.n * 2 ^ (v.e - q0).toNat
  let rem := if q0 ≥ v.e then v.n % 2 ^ sh else 0
  let inexact := decide (rem ≠ 0) || v.sticky
  let m0 := if roundsUp r neg lo rem sh v.sticky then lo + 1 else lo
  let m := if m0 ≥ 2 ^ (f.p + 1) then m0 / 2 else m0
  let q := if m0 ≥ 2 ^ (f.p + 1) then q0 + 1 else q0
  let code := if m ≥ 2 ^ f.p then (q + f.p + f.bias).toNat * 2 ^ f.p + (m - 2 ^ f.p) else m
  if code > f.maxCode then
    let toInf :=
      match r.rm with
      | .rne | .rna | .rsr => true
      | .rtz => false
      | .rup => !neg
      | .rdn => neg
    (if !f.sat && toInf then f.emax * 2 ^ f.p else f.maxCode, FFlags.overflow ||| FFlags.inexact)
  else if code < 2 ^ f.p then
    if r.ftz ∧ code ≠ 0 then (0, FFlags.underflow ||| FFlags.inexact)
    else (code, if inexact then FFlags.underflow ||| FFlags.inexact else 0)
  else (code, if inexact then FFlags.inexact else 0)

/-- An exact or truncated result before rounding, with the flags its operation raised. -/
structure Res where
  val    : FVal
  sticky : Bool
  flags  : FFlags
  deriving DecidableEq, Repr

def Res.exact (v : FVal) : Res := ⟨v, false, 0⟩
def Res.invalid : Res := ⟨.nan false, false, FFlags.invalid⟩

/-- The code and the flags of a result in a format (R77, R78, R84, R86). -/
def Fmt.encode (f : Fmt) (r : Rnd) (x : Res) : Nat × FFlags :=
  match x.val with
  | .nan sig =>
    let inv := if sig then FFlags.invalid else 0
    match f.top with
    | .none => (0, x.flags ||| FFlags.invalid ||| FFlags.inexact)
    | _ => (f.canon, x.flags ||| inv)
  | .inf neg =>
    let s := if neg then f.signBit else 0
    match f.top with
    | .ieee => (s + f.emax * 2 ^ f.p, x.flags)
    | _ => (s + f.maxCode, x.flags ||| FFlags.overflow ||| FFlags.inexact)
  | .fin neg m e =>
    let s := if neg then f.signBit else 0
    if m = 0 then (s, x.flags)
    else
      let (c, fl) := f.roundMag r neg ⟨m, e, x.sticky⟩
      (s + c, x.flags ||| fl)

/-- Whether a value is a NaN, and whether it signals. -/
def FVal.isNan : FVal → Bool
  | .nan _ => true
  | _ => false

def FVal.isSig : FVal → Bool
  | .nan s => s
  | _ => false

def FVal.isZero : FVal → Bool
  | .fin _ m _ => decide (m = 0)
  | _ => false

def FVal.isInf : FVal → Bool
  | .inf _ => true
  | _ => false

def FVal.neg? : FVal → Bool
  | .nan _ => false
  | .inf n => n
  | .fin n _ _ => n

def FVal.negate : FVal → FVal
  | .nan s => .nan s
  | .inf n => .inf (!n)
  | .fin n m e => .fin (!n) m e

/-- A finite value as an integer multiple of 2^q, for q at or below its exponent. -/
def FVal.scaled (q : Int) : FVal → Int
  | .fin n m e => (if n then -1 else 1) * ((m * 2 ^ (e - q).toNat : Nat) : Int)
  | _ => 0

/-- The finite value z·2^q; an exact zero takes the sign `zneg`. -/
def FVal.ofInt (zneg : Bool) (z q : Int) : FVal :=
  if z = 0 then .fin zneg 0 q else .fin (decide (z < 0)) z.natAbs q

def FVal.expo : FVal → Int
  | .fin _ _ e => e
  | _ => 0

/-- NaN handling shared by every operation: a NaN operand gives a NaN, which raises invalid only when one signals (R83, R217). -/
def nanOf (vs : List FVal) : Option Res :=
  if vs.any FVal.isNan then some ⟨.nan false, false, if vs.any FVal.isSig then FFlags.invalid else 0⟩ else none

/-- The exact sum (R78, R83). -/
def FVal.add (rm : RM) (a b : FVal) : Res :=
  match nanOf [a, b] with
  | some r => r
  | none =>
    match a, b with
    | .inf x, .inf y => if x = y then .exact (.inf x) else .invalid
    | .inf x, _ => .exact (.inf x)
    | _, .inf y => .exact (.inf y)
    | a, b =>
      if a.isZero && b.isZero && (a.neg? == b.neg?) then .exact (.fin a.neg? 0 0)
      else
        let q := if a.expo < b.expo then a.expo else b.expo
        .exact (.ofInt (decide (rm = .rdn)) (a.scaled q + b.scaled q) q)

/-- The exact product (R83). -/
def FVal.mul (a b : FVal) : Res :=
  match nanOf [a, b] with
  | some r => r
  | none =>
    let s := a.neg? != b.neg?
    match a, b with
    | .fin _ m e, .fin _ m' e' => .exact (.fin s (m * m') (e + e'))
    | a, b => if a.isZero || b.isZero then .invalid else .exact (.inf s)

/-- ±(a × b) ± c, exact; 0 × ∞ is invalid whatever c holds (R83, R216). -/
def FVal.fma (rm : RM) (negP negC : Bool) (a b c : FVal) : Res :=
  let p := FVal.mul a b
  let pv := if negP then p.val.negate else p.val
  let cv := if negC then c.negate else c
  let r := FVal.add rm pv cv
  { r with flags := r.flags ||| p.flags ||| (if c.isSig then FFlags.invalid else 0) }

/-- The quotient, truncated to at least 128 bits (R78, R83, R84). -/
def FVal.div (a b : FVal) : Res :=
  match nanOf [a, b] with
  | some r => r
  | none =>
    let s := a.neg? != b.neg?
    match a, b with
    | .inf _, .inf _ => .invalid
    | .inf _, _ => .exact (.inf s)
    | _, .inf _ => .exact (.fin s 0 0)
    | .fin _ m e, .fin _ m' e' =>
      if m' = 0 then (if m = 0 then .invalid else ⟨.inf s, false, FFlags.divzero⟩)
      else if m = 0 then .exact (.fin s 0 0)
      else
        let k := Nat.log2 m' + 130
        let n := m * 2 ^ k
        ⟨.fin s (n / m') (e - e' - k), decide (n % m' ≠ 0), 0⟩
    | _, _ => .invalid

/-- The integer square root, one bit of the answer for each unit of fuel. -/
def isqrtAux (n : Nat) : Nat → Nat → Nat
  | 0, acc => acc
  | k + 1, acc =>
    let t := acc + 2 ^ k
    isqrtAux n k (if t * t ≤ n then t else acc)

def isqrt (n : Nat) : Nat := isqrtAux n (Nat.log2 n / 2 + 1) 0

/-- √a (R217). -/
def FVal.sqrt (a : FVal) : Res :=
  match nanOf [a] with
  | some r => r
  | none =>
    match a with
    | .fin neg m e =>
      if m = 0 then .exact a
      else if neg then .invalid
      else
        let k : Nat := if e % 2 = 0 then 260 else 261
        let n := m * 2 ^ k
        let r := isqrt n
        ⟨.fin false r ((e - k) / 2), decide (r * r ≠ n), 0⟩
    | .inf neg => if neg then .invalid else .exact a
    | .nan _ => .invalid

/-- 1/√a, truncated (R217). -/
def FVal.rsqrt (a : FVal) : Res :=
  match nanOf [a] with
  | some r => r
  | none =>
    match a with
    | .fin neg m e =>
      if m = 0 then ⟨.inf neg, false, FFlags.divzero⟩
      else if neg then .invalid
      else
        -- 2^(2k) / n for n = m·2^(e mod 2), whose root is 2^k / √n
        let n := m * 2 ^ (e % 2).toNat
        let k := Nat.log2 n + 140
        let r := isqrt (2 ^ (2 * k) / n)
        ⟨.fin false r (-(k : Int) - e / 2), decide (r * r * n ≠ 2 ^ (2 * k)), 0⟩
    | .inf neg => if neg then .invalid else .exact (.fin false 0 0)
    | .nan _ => .invalid

/-- Fixed-point precision of the two transcendental functions (PRESUMED to decide the rounding, log 57). -/
def transBits : Nat := 320

/-- 2^(0.b₁b₂…) in `transBits` fixed point, where `root` is 2^(2^−i) and the bits of `f` below position `top` are read from the
highest down (R217). -/
def exp2Aux (f : Nat) : Nat → Nat → Nat → Nat
  | 0, _, acc => acc
  | k + 1, root, acc =>
    let acc' := if field f k 1 = 1 then acc * root / 2 ^ transBits else acc
    exp2Aux f k (isqrt (root * 2 ^ transBits)) acc'

/-- 2^a. An integer a is exact; any other value is irrational and is truncated with its sticky bit (R217). -/
def FVal.exp2 (a : FVal) : Res :=
  match nanOf [a] with
  | some r => r
  | none =>
    match a with
    | .inf neg => .exact (if neg then .fin false 0 0 else .inf false)
    | .nan _ => .invalid
    | .fin neg m e =>
      if m = 0 then .exact (.fin false 1 0)
      else
        let clamp (z : Int) : Int := if z > 4000 then 4000 else if z < -4000 then -4000 else z
        if e ≥ 0 ∨ m % 2 ^ (-e).toNat = 0 then
          let n : Nat := if e ≥ 0 then (if e > 20 then 4000 else m * 2 ^ e.toNat) else m / 2 ^ (-e).toNat
          .exact (.fin false 1 (clamp (if neg then -(n : Int) else n)))
        else
          let k := (-e).toNat
          let ip := m / 2 ^ k
          let fr := m % 2 ^ k
          let n : Int := if neg then -(ip : Int) - 1 else ip
          let f := if neg then 2 ^ k - fr else fr
          let ft := if k ≤ transBits then f * 2 ^ (transBits - k) else f / 2 ^ (k - transBits)
          let y := exp2Aux ft transBits (isqrt (2 * 2 ^ (2 * transBits))) (2 ^ transBits)
          ⟨.fin false (y / 2 ^ 64) (clamp n - transBits + 64), true, 0⟩

/-- The fraction bits of log2 y for y in [1, 2), by repeated squaring in `w`-bit fixed point. -/
def log2Aux (w : Nat) : Nat → Nat → Nat → Nat
  | 0, _, acc => acc
  | k + 1, y, acc =>
    let y2 := y * y / 2 ^ w
    if y2 ≥ 2 * 2 ^ w then log2Aux w k (y2 / 2) (2 * acc + 1) else log2Aux w k y2 (2 * acc)

/-- log2 a. A power of two is exact; any other value is irrational and is truncated with its sticky bit (R217). -/
def FVal.log2 (a : FVal) : Res :=
  match nanOf [a] with
  | some r => r
  | none =>
    match a with
    | .inf neg => if neg then .invalid else .exact (.inf false)
    | .nan _ => .invalid
    | .fin neg m e =>
      if m = 0 then ⟨.inf true, false, FFlags.divzero⟩
      else if neg then .invalid
      else
        let t := Nat.log2 m
        let k : Int := e + t
        if m = 2 ^ t then .exact (.ofInt false k 0)
        else
          let b := 256
          let w := 640
          let fr := log2Aux w b (m * 2 ^ w / 2 ^ t) 0
          if k ≥ 0 then ⟨.fin false (k.toNat * 2 ^ b + fr) (-b), true, 0⟩
          else ⟨.fin true ((-k).toNat * 2 ^ b - fr - 1) (-b), true, 0⟩

/-- The order of two values that are not NaN; −0 equals +0 (R219). -/
def FVal.lt (a b : FVal) : Bool :=
  match a, b with
  | .inf x, .inf y => x && !y
  | .inf x, _ => x
  | _, .inf y => !y
  | a, b =>
    let q := if a.expo < b.expo then a.expo else b.expo
    decide (a.scaled q < b.scaled q)

def FVal.eq (a b : FVal) : Bool := !FVal.lt a b && !FVal.lt b a

/-- a below b in the order of `min` and `max`, which puts −0 below +0 (R83). -/
def FVal.below (a b : FVal) : Bool :=
  FVal.lt a b || (FVal.eq a b && a.neg? && !b.neg?)

/-- Minimum or maximum: a NaN input gives the canonical NaN (R83, R216). -/
def FVal.minmax (isMax : Bool) (a b : FVal) : Res :=
  match nanOf [a, b] with
  | some r => r
  | none => .exact (if isMax then (if FVal.below a b then b else a) else (if FVal.below b a then b else a))

/-! ### Integers -/

/-- The two's-complement value of an n-bit code (R70). -/
def toSigned (n c : Nat) : Int := if c % 2 ^ n ≥ 2 ^ (n - 1) then (c % 2 ^ n : Nat) - (2 ^ n : Nat) else (c % 2 ^ n : Nat)

/-- The n-bit code of an integer modulo 2^n. -/
def ofSigned (n : Nat) (z : Int) : Nat := (z % (2 ^ n : Nat)).toNat

/-- 2^(n−1), the bound of INTn, as an integer. -/
def halfRange (n : Nat) : Int := ((2 ^ (n - 1) : Nat) : Int)

/-- Saturation to INTn (R87). -/
def saturate (n : Nat) (z : Int) : Int :=
  if z < -halfRange n then -halfRange n else if z > halfRange n - 1 then halfRange n - 1 else z

/-- A floating value rounded to an integer under a mode (R87). -/
def FVal.toInt (r : Rnd) (w : Nat) : FVal → Nat × FFlags
  | .nan _ => (0, FFlags.invalid)
  | .inf neg => (ofSigned w (if neg then -halfRange w else halfRange w - 1), FFlags.invalid)
  | .fin neg m e =>
    let sh := (-e).toNat
    let lo := if e ≥ 0 then (if e > 200 then m * 2 ^ 200 else m * 2 ^ e.toNat) else m / 2 ^ sh
    let rem := if e ≥ 0 then 0 else m % 2 ^ sh
    let mag := if roundsUp r neg lo rem sh false then lo + 1 else lo
    let z : Int := if neg then -(mag : Int) else mag
    if saturate w z = z then (ofSigned w z, if rem = 0 then 0 else FFlags.inexact)
    else (ofSigned w (saturate w z), FFlags.invalid)

/-! ### Residues -/

/-- The moduli of a triple (R71). -/
def moduli : Fin 4 → Nat × Nat × Nat
  | 0 => (256, 255, 253)
  | 1 => (251, 247, 241)
  | 2 => (239, 233, 229)
  | 3 => (227, 223, 211)

/-- The three residues of a lane; bits 31:24 are ignored (R71). -/
def residues (x : Nat) : Nat × Nat × Nat := (field x 0 8, field x 8 8, field x 16 8)

/-- A lane from three residues, bits 31:24 zero (R71). -/
def ofResidues (a b c : Nat) : Nat := a + b * 2 ^ 8 + c * 2 ^ 16

/-- The lane that represents an integer, and overflow outside the signed range (R73, R88). -/
def toRn (t : Fin 4) (z : Int) : Nat × FFlags :=
  let (m0, m1, m2) := moduli t
  let M := m0 * m1 * m2
  let inRange := decide (-(M / 2 : Nat) ≤ z) && decide (z ≤ ((M + 1) / 2 : Nat) - 1)
  (ofResidues (z % m0).toNat (z % m1).toNat (z % m2).toNat, if inRange then 0 else FFlags.overflow)

/-- x^(e) mod m for small numbers, used for inverses modulo m by search. -/
def invMod (a m : Nat) : Nat := ((List.range m).find? (fun x => (a * x) % m == 1 % m)).getD 0

/-- The signed integer that a lane represents, by Chinese remaindering (R73, R88). -/
def ofRn (t : Fin 4) (x : Nat) : Int :=
  let (m0, m1, m2) := moduli t
  let (r0, r1, r2) := residues x
  let M := m0 * m1 * m2
  let r := (r0 * (m1 * m2) * invMod (m1 * m2) m0 + r1 * (m0 * m2) * invMod (m0 * m2) m1 + r2 * (m0 * m1) * invMod (m0 * m1) m2) % M
  if 2 * r < M then r else (r : Int) - M

/-! ### The stochastic generator (R80) -/

def mix64 (z0 : Word) : Word :=
  let z1 := (z0 ^^^ (z0 >>> 30)) * 0xBF58476D1CE4E5B9#64
  let z2 := (z1 ^^^ (z1 >>> 27)) * 0x94D049BB133111EB#64
  z2 ^^^ (z2 >>> 31)

/-- The region key of R80 over the words it lists. -/
def regionKey (seed : Word) (ws : List Word) : Word :=
  ws.foldl (fun h w => mix64 (h ^^^ w) + 0x9E3779B97F4A7C15#64) seed

/-- The stochastic word u of element `e` of the instruction with sequence number `n`. -/
def stochWord (key : Word) (n e : Nat) : Nat :=
  ((mix64 (key ^^^ mix64 (BitVec.ofNat 64 (n * 256) ^^^ BitVec.ofNat 64 e))) >>> 32).toNat

end Sys2Proof.Machine
end

