-- ==== Sys2Proof/Machine/Flags.lean ====
section
/-! DEFINITION. The sticky flags and their trap enables (02 R34, 04 R83, 16 R331). -/

namespace Sys2Proof.Machine

/-- The flags of a list of results, ORed together (R83). -/
def orFlags (fs : List FFlags) : FFlags := fs.foldl (· ||| ·) 0

/-- The enabled flags that stand, which `trapf` traps on (R34). -/
def State.raised (s : State) : FFlags := s.slot.fflags &&& s.me.fenable

/-- The flags of a group's long instructions ORed into `sys.fflags` at its close (R21, R83). -/
def Slot.collect (t : Slot) (ls : List Long) : Slot := { t with fflags := ls.foldl (fun f l => f ||| l.flags) t.fflags }

end Sys2Proof.Machine
end

