-- ==== Sys2Proof/WellFormed.lean ====
section
/-! DEFINITION. Well-formed instructions: the limits that the spec puts on operands and that the types of `Syntax.lean` do not
already carry (R23, R36 to R42, R52, R54 and the encoding tables of the chapters). A term that breaks one of them is the
ILLEGAL_FIELD of R46 step 6. -/

namespace Sys2Proof

/-- Width of an element of a type in bits (R211). -/
def ETy.width : ETy → Nat
  | .i8 => 8 | .i16 => 16 | .i32 => 32 | .i64 => 64
  | .e4m3 => 8 | .e5m2 => 8 | .f16 => 16 | .bf16 => 16 | .f32 => 32 | .f64 => 64
  | .mx4 => 4 | .rn3 _ => 32

/-- The set INT of R215. -/
def ETy.int : ETy → Bool
  | .i8 | .i16 | .i32 | .i64 => true
  | _ => false

/-- The set FLT of R215. -/
def ETy.flt : ETy → Bool
  | .f16 | .bf16 | .f32 | .f64 => true
  | _ => false

/-- The set F8 of R215. -/
def ETy.f8 : ETy → Bool
  | .e4m3 | .e5m2 => true
  | _ => false

/-- The set RN of R215. -/
def ETy.rn : ETy → Bool
  | .rn3 _ => true
  | _ => false

/-- CTL with every field zero: RNE, no flushing (R38). -/
def Ctl.zero : Ctl := { rm := .rne, daz := false, ftz := false }

/-- The immediate I can be written in the instruction's length (R36, R37). -/
def immOk (h : Hd) (i : Word) : Bool :=
  match h.len with
  | .l64 => (i.setWidth 16).signExtend 64 == i
  | .l96 => (i.setWidth 48).signExtend 64 == i
  | .l128 => true

/-- A second operand "xb or imm" (R119). -/
def srcOk (h : Hd) : Src → Bool
  | .reg _ => true
  | .imm i => immOk h i

/-- A shift or rotate count below `n` (R119, R222, R224). -/
def countOk (n : Nat) (h : Hd) : Src → Bool
  | .reg _ => true
  | .imm i => immOk h i && decide (i.toNat < n)

/-- The number of set bits among the low `n` bits of `v`. -/
def countBits : Nat → Nat → Nat
  | 0, _ => 0
  | n + 1, v => v % 2 + countBits n (v / 2)

/-- A register mask: at most 16 bits among 31:1 (R23). -/
def maskOk (h : Hd) (m : BitVec 32) : Bool :=
  immOk h (m.setWidth 64) && decide (countBits 31 (m.toNat / 2) ≤ 16)

/-- An unsigned immediate held as a number. -/
def natOk (h : Hd) (n : Nat) : Bool := immOk h (BitVec.ofNat 64 n)

/-- K = 0 with KN = 1 is ILLEGAL_FIELD on every instruction (R40). -/
def predOk (p : Pred) : Bool := decide (p.k ≠ 0) || !p.kn

/-- The CTL fields that an instruction uses are those marked true; CTL is nonzero only in the 128-bit form (R38, R215). -/
def ctlOk (h : Hd) (c : Ctl) (rm daz ftz : Bool) : Bool :=
  (decide (c = Ctl.zero) || decide (h.len = .l128)) && (rm || decide (c.rm = .rne)) && (daz || !c.daz) && (ftz || !c.ftz)

/-- The first of eight consecutive registers is x1 to x24 (R24, R192, R193, R306, R361). -/
def octetOk (r : Reg) : Bool := decide (1 ≤ r.val) && decide (r.val ≤ 24)

/-- The first of four consecutive registers is x1 to x28 (R254). -/
def quadOk (r : Reg) : Bool := decide (1 ≤ r.val) && decide (r.val ≤ 28)

/-- The depth field of a matrix instruction (R246). -/
def depthOk (mx : Bool) (i : Nat) : Bool :=
  if mx then decide (i % 32 = 0) && decide (32 ≤ i) && decide (i ≤ 3072)
  else decide (i = 0) || (decide (i % 16 = 0) && decide (i ≤ 3072))

/-- Conditions valid on a type: a floating type has no unsigned condition (R54). -/
def condOk (ty : ETy) : Cond → Bool
  | .ltu | .geu | .leu | .gtu => ty.int
  | .eq | .ne | .lt | .ge | .le | .gt => true

/-- Operations valid on a type: a floating type has `.add`, `.min` and `.max` only (R54). -/
def ropOk (ty : ETy) : ROp → Bool
  | .add | .min | .max => true
  | .and | .or | .xor | .minu | .maxu => ty.int

/-- The pairs that `vcvt` admits (R226). -/
def convOk (dst src : ETy) : Bool :=
  let f (t : ETy) : Bool := t.flt || t.f8 || decide (t = .mx4)
  (f src && f dst && decide (dst ≠ src)) || ((src.flt || src.f8) && dst.int) || (src.int && (dst.flt || dst.f8)) ||
  (src.int && dst.int && decide (dst ≠ src)) || ((decide (src = .i32) || decide (src = .i64)) && dst.rn) ||
  (src.rn && (decide (dst = .i32) || decide (dst = .i64)))

/-- The types of `mma` and `mmas` (R246, R247). -/
def matTyOk : ETy → Bool
  | .bf16 | .f16 | .e4m3 | .e5m2 | .mx4 | .i8 => true
  | .i16 | .i32 | .i64 | .f32 | .f64 | .rn3 _ => false

/-- The types of `vsparse` (R231). -/
def sparseTyOk : ETy → Bool
  | .bf16 | .f16 | .e4m3 | .e5m2 | .i8 => true
  | .i16 | .i32 | .i64 | .f32 | .f64 | .rn3 _ | .mx4 => false

/-- The types of gather and scatter (R215). -/
def gatherTyOk : ETy → Bool
  | .i32 | .i64 | .f32 | .f64 => true
  | .i8 | .i16 | .e4m3 | .e5m2 | .f16 | .bf16 | .mx4 | .rn3 _ => false

/-- The limits on the operands of each row. The steps that have no encoding have none. -/
def Instr.wf : Instr → Bool
  | .add h _ _ b | .sub h _ _ b | .mul h _ _ b | .mulh h _ _ b | .mulhu h _ _ b => srcOk h b
  | .div h _ _ b | .divu h _ _ b | .rem h _ _ b | .remu h _ _ b => srcOk h b
  | .and h _ _ b | .or h _ _ b | .xor h _ _ b | .andn h _ _ b | .orn h _ _ b => srcOk h b
  | .shl h _ _ b | .shr h _ _ b | .sra h _ _ b | .rol h _ _ b | .ror h _ _ b => countOk 64 h b
  | .clz _ _ _ | .ctz _ _ _ | .popc _ _ _ => true
  | .min h _ _ b | .max h _ _ b | .minu h _ _ b | .maxu h _ _ b | .cmp h _ _ _ b => srcOk h b
  | .sel _ _ _ _ _ => true
  | .li h _ i => immOk h i
  | .bfx h _ _ _ pos l | .bfi h _ _ pos l => natOk h (pos.val + 64 * l.val) && decide (pos.val + l.val + 1 ≤ 64)
  | .br h _ _ _ off | .jmp h off | .call h off => immOk h off
  | .jmpr _ _ | .callr _ _ | .ret _ | .trapf _ | .eret _ | .nop _ | .quit _ | .yield _ => true
  | .idem h m => maskOk h m
  | .trap h code | .brk h code => immOk h (code.setWidth 64)
  | .sysr _ _ _ | .sysw _ _ _ | .sysx _ _ _ _ => true
  | .ld h size zext _ _ i => immOk h i && !(zext && decide (size = .d))
  | .st h _ _ _ i | .pref h _ i | .disc h _ i | .flushl h _ i => immOk h i
  | .xinv _ _ _ | .drain _ _ => true
  | .send _ _ _ rb => octetOk rb
  | .recv h _ _ rd m => octetOk rd && maskOk h m
  | .recvKeep _ _ _ rd | .poll _ _ _ rd => octetOk rd
  | .watch _ _ | .unwatch _ _ | .bar _ | .carrive _ _ | .cwatch _ _ => true
  | .guard h _ _ _ t => immOk h (t.setWidth 64) && decide (t ≠ 0)
  | .amo _ _ size _ _ _ | .cas _ size _ _ _ _ => decide (size = .w) || decide (size = .d)
  | .red _ op ty _ _ => gatherTyOk ty && ropOk ty op
  | .pfxadd _ ra => decide (1 ≤ ra.val) && decide (ra.val ≤ 30)
  | .spawn h _ _ _ m | .migrate h _ m => maskOk h m
  | .kand _ _ _ _ | .kor _ _ _ _ | .kxor _ _ _ _ | .knot _ _ _ | .kmov _ _ _ | .kpop _ _ _ => true
  | .vadd h p c ty _ _ _ | .vsub h p c ty _ _ _ | .vmul h p c ty _ _ _ =>
      predOk p && (ty.int || ty.flt || ty.rn) && ctlOk h c ty.flt ty.flt ty.flt
  | .vfma h p c ty _ _ _ _ | .vfms h p c ty _ _ _ _ | .vfnma h p c ty _ _ _ _ => predOk p && ty.flt && ctlOk h c true true true
  | .vdiv h p c ty _ _ _ => predOk p && ty.flt && ctlOk h c true true true
  | .vsqrt h p c ty _ _ | .vrcp h p c ty _ _ | .vrsqrt h p c ty _ _ | .vexp2 h p c ty _ _ | .vlog2 h p c ty _ _ =>
      predOk p && ty.flt && ctlOk h c true true true
  | .vmin h p c ty _ _ _ | .vmax h p c ty _ _ _ => predOk p && (ty.int || ty.flt) && ctlOk h c false ty.flt ty.flt
  | .vabs _ p ty _ _ | .vneg _ p ty _ _ => predOk p && (ty.int || ty.flt)
  | .vcmp h p c cond ty _ _ _ => predOk p && (ty.int || ty.flt) && condOk ty cond && ctlOk h c false ty.flt false
  | .vsel _ p ty _ _ _ => predOk p && (ty.int || ty.flt || ty.f8 || ty.rn)
  | .vand _ p _ _ _ | .vor _ p _ _ _ | .vxor _ p _ _ _ | .vperm _ p _ _ _ => predOk p
  | .vlop3 h p _ _ _ _ tb => predOk p && immOk h (tb.setWidth 64)
  | .vshl h p ty _ _ b | .vshr h p ty _ _ b | .vsra h p ty _ _ b => predOk p && ty.int && countOk ty.width h b
  | .vfsh _ p ty _ _ _ _ => predOk p && ty.int
  | .vrot h p _ _ b => predOk p && countOk 48 h b
  | .vbcast _ p ty _ _ => predOk p && (ty.int || ty.flt || ty.f8 || ty.rn)
  | .vext h ty _ _ e | .vins h ty _ _ e =>
      (ty.int || ty.flt || ty.f8 || ty.rn) && decide (e < 1536 / ty.width) && natOk h (e / (if ty.width < 32 then 32 / ty.width else 1))
  | .vcvt h p c dst src _ _ => predOk p && convOk dst src && ctlOk h c true true true
  | .vred h p c op ty _ _ | .vscan h p c op ty _ _ =>
      predOk p && (ty.int || ty.flt) && ropOk ty op && ctlOk h c ty.flt ty.flt ty.flt
  | .vtopk h p c ty _ _ n =>
      predOk p && (ty.int || ty.flt) && ctlOk h c false ty.flt false && decide (1 ≤ n) && decide (n ≤ Nat.min (1536 / ty.width) 48) && natOk h n
  | .vsparse _ p ty _ _ _ => predOk p && sparseTyOk ty
  | .vld h p _ _ i | .vst h p _ _ i => predOk p && immOk h i
  | .vldg _ p ty _ _ _ | .vsts _ p ty _ _ _ => predOk p && gatherTyOk ty
  | .vldc _ p ty _ _ _ | .vstc _ p ty _ _ _ => predOk p && (ty.int || ty.flt || ty.f8)
  | .aalloc _ _ _ | .afree _ _ | .azero _ _ => true
  | .mma h ty _ _ _ i | .mmas h ty _ _ _ _ i => matTyOk ty && depthOk (decide (ty = .mx4)) i && natOk h i
  | .mmr h _ an _ _ i => decide (an.val ≤ 5) && depthOk false i && natOk h i
  | .ard _ t _ an _ | .awr _ t an _ _ => decide (t = none) || decide (an.val ≤ 5)
  | .ald _ _ _ | .ast _ _ _ => true
  | .rnsred _ _ an => decide (an.val ≤ 5)
  | .mreq _ _ _ rb => quadOk rb
  | .mcap _ _ _ | .route _ _ _ _ => true
  | .autbind _ _ _ | .autunbind _ _ | .autpin _ _ _ _ | .autstk _ _ _ _ => true
  | .autstep _ p _ _ _ _ | .autrun _ p _ _ _ _ | .maprun _ p _ _ _ _ _ | .mapinit _ p _ _ _ | .compose _ p _ _ _ _ => predOk p
  | .autq _ _ _ _ => true
  | .allowStore _ _ _ _ _ | .allowApply _ _ _ _ _ => true
  | .triewalk _ p _ _ _ _ => predOk p
  | .detok _ _ _ _ _ _ => true
  | .copy _ _ _ rb => octetOk rb
  | .subTile _ _ _ _ | .unsub _ _ | .ringinit _ _ _ _ => true
  | .slrsv _ _ _ | .slpost _ _ _ | .sltake _ _ _ | .slfree _ _ _ => true
  | .glaunch _ _ | .nodeadd _ _ _ _ | .edgeadd _ _ _ _ | .nodedone _ => true
  | .nodefail h code => immOk h (code.setWidth 64) && decide (code.toNat ≤ 0xFFFC)
  | .gstat _ rd _ => octetOk rd
  | .rloop _ _ | .rsv _ _ | .rchk _ _ _ | .rdoneOk _ | .rdoneFail _ => true
  | .slotGrant _ _ | .activeMessage _ _ | .windowSpill | .windowFill | .groupClose | .accessPerform | .accessRefusal => true
  | .regionRestart | .trapDelivery | .preemption => true
  | .lineFold _ _ | .eventDeferredPlace _ _ | .phaseStep _ | .clockRebase _ | .waitCycleProbe _ _ | .poolHoldRelease => true
  | .waitListRelease _ _ | .xinvdone _ _ | .draindone _ _ => true
  | .copyChunk _ _ | .copyComplete _ | .tilePush _ _ _ | .tileReturn _ _ _ | .subscriptionEnd _ _ => true
  | .remoteCommandApply _ _ => true
  | .graphScan _ _ | .nodeReady _ _ _ | .nodeDispatch _ _ _ | .nodeToken _ _ | .dominoSweep _ _ | .treeReport _ _ _ => true
  | .graphDone _ _ | .windowStart _ | .roundEnd _ | .loopComplete _ => true
  | .timerArm _ _ _ _ | .timerExpiry _ _ | .place _ | .framemode _ | .slotresume _ | .slotend _ | .keygen _ | .keyfree _ => true
  | .attest _ | .controlSeal _ | .controlEnd _ | .requestComplete _ => true
  | .hello _ | .finish _ _ | .create _ _ _ _ _ _ | .lock _ _ _ _ _ _ _ | .unbind _ _ _ | .manageEnd _ _ _ => true
  | .manageSeal _ _ _ | .resume _ _ _ | .health _ _ | .cert _ _ | .sessionFail _ _ => true
  | .msg _ _ _ _ _ | .write _ _ _ | .read _ _ _ => true
  | .arbiterGrant | .class1Alarm _ _ | .class2Alarm | .standbyPromotion | .lastingFault _ _ _ _ _ | .laneRemap _ => true
  | .powerReset _ _ _ | .class1AlarmClear | .droppedPacket _ => true

end Sys2Proof
end

