-- ==== Sys2Proof/Decode.lean ====
section
/-! DEFINITION. Instruction words (03): the decoder, total on any bytes, and the encoder, both over one table of fields. -/

namespace Sys2Proof

/-- The fields of a word (R35, R36). -/
structure Raw where
  len : Len
  s   : Bool
  op  : Nat
  k   : Nat := 0
  kn  : Bool := false
  rd  : Nat := 0
  ra  : Nat := 0
  rb  : Nat := 0
  rc  : Nat := 0
  t   : Nat := 0
  fn  : Nat := 0
  i   : Word := 0
  ctl : Nat := 0
  deriving DecidableEq, Repr

/-- Why a word is refused (R46 steps 3 to 6). -/
inductive DecodeError where
  | illegalFormat | illegalOpcode | illegalField
  deriving DecidableEq, Repr

/-- The bytes of a word of each length (R36). -/
def Len.bytes : Len → Nat
  | .l64 => 8
  | .l96 => 12
  | .l128 => 16

/-- The code of a length (R35). -/
def Len.code : Len → Nat
  | .l64 => 0
  | .l96 => 1
  | .l128 => 2

/-- The length that bits 1:0 give (R35). -/
def Len.ofCode (n : Nat) : Option Len :=
  match n with
  | 0 => some .l64
  | 1 => some .l96
  | 2 => some .l128
  | _ => none

/-- The code of an element type (R41). -/
def ETy.code : ETy → Nat
  | .i8 => 0 | .i16 => 1 | .i32 => 2 | .i64 => 3 | .e4m3 => 4 | .e5m2 => 5 | .f16 => 6 | .bf16 => 7
  | .f32 => 8 | .f64 => 9 | .mx4 => 10 | .rn3 t => 12 + t.val

/-- The element type of a code (R41). -/
def ETy.ofCode (n : Nat) : Option ETy :=
  match n with
  | 0 => some .i8 | 1 => some .i16 | 2 => some .i32 | 3 => some .i64 | 4 => some .e4m3 | 5 => some .e5m2
  | 6 => some .f16 | 7 => some .bf16 | 8 => some .f32 | 9 => some .f64 | 10 => some .mx4
  | 12 => some (.rn3 0) | 13 => some (.rn3 1) | 14 => some (.rn3 2) | 15 => some (.rn3 3)
  | _ => none

/-- The code of an access size (R157). -/
def Size.code : Size → Nat
  | .b => 0 | .h => 1 | .w => 2 | .d => 3

/-- The access size of a code (R157). -/
def Size.ofCode (n : Nat) : Option Size :=
  match n with
  | 0 => some .b | 1 => some .h | 2 => some .w | 3 => some .d
  | _ => none

/-- The code of a condition (R54). -/
def Cond.code : Cond → Nat
  | .eq => 0 | .ne => 1 | .lt => 2 | .ge => 3 | .le => 4 | .gt => 5 | .ltu => 6 | .geu => 7 | .leu => 8 | .gtu => 9

/-- The condition of a code (R54). -/
def Cond.ofCode (n : Nat) : Option Cond :=
  match n with
  | 0 => some .eq | 1 => some .ne | 2 => some .lt | 3 => some .ge | 4 => some .le | 5 => some .gt
  | 6 => some .ltu | 7 => some .geu | 8 => some .leu | 9 => some .gtu
  | _ => none

/-- The code of a reduction operation (R54). -/
def ROp.code : ROp → Nat
  | .add => 0 | .and => 1 | .or => 2 | .xor => 3 | .min => 4 | .max => 5 | .minu => 6 | .maxu => 7

/-- The reduction operation of a code (R54). -/
def ROp.ofCode (n : Nat) : Option ROp :=
  match n with
  | 0 => some .add | 1 => some .and | 2 => some .or | 3 => some .xor
  | 4 => some .min | 5 => some .max | 6 => some .minu | 7 => some .maxu
  | _ => none

/-- The code of an atomic operation (R54, R202). -/
def AmoOp.code : AmoOp → Nat
  | .rop o => o.code
  | .swap => 8

/-- The atomic operation of a code (R54, R202). -/
def AmoOp.ofCode (n : Nat) : Option AmoOp :=
  if n = 8 then some .swap else (ROp.ofCode n).map .rop

/-- The code of a message kind (R54, R187). -/
def Kind.code : Kind → Nat
  | .msg => 0 | .watch => 1 | .count => 2 | .bar => 3 | .copydone => 4 | .draindone => 5
  | .xinvdone => 6 | .node => 7 | .timer => 8 | .deadlock => 9 | .trapnote => 10

/-- The message kind of a code (R54, R187). -/
def Kind.ofCode (n : Nat) : Option Kind :=
  match n with
  | 0 => some .msg | 1 => some .watch | 2 => some .count | 3 => some .bar | 4 => some .copydone
  | 5 => some .draindone | 6 => some .xinvdone | 7 => some .node | 8 => some .timer
  | 9 => some .deadlock | 10 => some .trapnote
  | _ => none

/-- The code of a drain path (R54). -/
def Path.code : Path → Nat
  | .ls => 0 | .l1 => 1 | .cl => 2 | .gm => 3

/-- The drain path of a code (R54). -/
def Path.ofCode (n : Nat) : Option Path :=
  match n with
  | 0 => some .ls | 1 => some .l1 | 2 => some .cl | 3 => some .gm
  | _ => none

/-- The code of a query (R278). -/
def Query.code : Query → Nat
  | .unres => 0 | .acc => 1 | .dead => 2 | .ovf => 3

/-- The query of a code (R278). -/
def Query.ofCode (n : Nat) : Option Query :=
  match n with
  | 0 => some .unres | 1 => some .acc | 2 => some .dead | 3 => some .ovf
  | _ => none

/-- The number of a system register (R55). -/
def SysReg.code : SysReg → Nat
  | .lcid => 0 | .ctx => 1 | .mode => 2 | .phase => 3 | .nanread => 4 | .fflags => 5 | .fenable => 6 | .rngseed => 7
  | .progress => 8 | .slice => 9 | .slicestat => 10 | .trapvec => 11 | .spill => 12 | .lsbase => 13

/-- The system register of a number (R55). -/
def SysReg.ofCode (n : Nat) : Option SysReg :=
  match n with
  | 0 => some .lcid | 1 => some .ctx | 2 => some .mode | 3 => some .phase | 4 => some .nanread | 5 => some .fflags
  | 6 => some .fenable | 7 => some .rngseed | 8 => some .progress | 9 => some .slice | 10 => some .slicestat
  | 11 => some .trapvec | 12 => some .spill | 13 => some .lsbase
  | _ => none

/-- The code of a rounding mode (R38). -/
def RM.code : RM → Nat
  | .rne => 0 | .rtz => 1 | .rup => 2 | .rdn => 3 | .rna => 4 | .rsr => 5

/-- The rounding mode of a code (R38). -/
def RM.ofCode (n : Nat) : Option RM :=
  match n with
  | 0 => some .rne | 1 => some .rtz | 2 => some .rup | 3 => some .rdn | 4 => some .rna | 5 => some .rsr
  | _ => none

/-- The bits of CTL (R38). -/
def Ctl.code (c : Ctl) : Nat := c.rm.code + 8 * c.daz.toNat + 16 * c.ftz.toNat

/-- CTL from its bits; the reserved ones must be zero (R38). -/
def Ctl.ofCode (n : Nat) : Option Ctl :=
  if n < 32 then
    (RM.ofCode (n % 8)).map (fun rm => { rm := rm, daz := decide (n / 8 % 2 = 1), ftz := decide (n / 16 % 2 = 1) })
  else none

/-- A register number below `n` (R39). -/
def finOf (n v : Nat) : Option (Fin n) := if h : v < n then some ⟨v, h⟩ else none

/-- An immediate below 2^w, read over the whole 64 bits (R37). -/
def bitsOf (w : Nat) (i : Word) : Option (BitVec w) :=
  if i.toNat < 2 ^ w then some (BitVec.ofNat w i.toNat) else none

/-- The elements of a type in one 32-bit lane, 1 for wider types: how R225 splits an element number. -/
def ETy.perLane (ty : ETy) : Nat := if ty.width < 32 then 32 / ty.width else 1

namespace Raw

/-- The fields of a row whose header is `h`. -/
def hd (h : Hd) (op : Nat) : Raw := { len := h.len, s := h.s, op := op }

/-- The header of a word. -/
def head (r : Raw) : Hd := { len := r.len, s := r.s }

/-- K and KN set from a predicate. -/
def withP (r : Raw) (p : Pred) : Raw := { r with k := p.k.val, kn := p.kn }

/-- RB, or I with FN7 set (R119). -/
def withSrc (r : Raw) (b : Src) : Raw :=
  match b with
  | .reg rb => { r with rb := rb.val }
  | .imm i => { r with i := i, fn := r.fn + 128 }

/-- The second operand of a row marked "xb or imm" (R119). -/
def src (r : Raw) : Option Src :=
  if r.fn / 128 = 0 then (finOf 32 r.rb).map .reg else some (.imm r.i)

/-- The optional source register of `recv` and `poll` (R54). -/
def withFrom (r : Raw) (kind : Kind) (src : Option Reg) : Raw :=
  match src with
  | none => { r with fn := kind.code }
  | some ra => { r with fn := kind.code + 16, ra := ra.val }

/-- The source register of `recv` and `poll`: FN4 says whether there is one. -/
def from? (r : Raw) : Option (Option Reg) :=
  if r.fn / 16 % 2 = 0 then some none else (finOf 32 r.ra).map some

/-- The predicate fields. -/
def pred (r : Raw) : Option Pred := (finOf 8 r.k).map (fun k => { k := k, kn := r.kn })

/-- A register field as a scalar or vector register. -/
def rD (r : Raw) : Option Reg := finOf 32 r.rd
def rA (r : Raw) : Option Reg := finOf 32 r.ra
def rB (r : Raw) : Option Reg := finOf 32 r.rb
def rC (r : Raw) : Option Reg := finOf 32 r.rc
/-- A register field as a predicate or accumulator, and FN2:0 as a descriptor (R39). -/
def sD (r : Raw) : Option Reg8 := finOf 8 r.rd
def sA (r : Raw) : Option Reg8 := finOf 8 r.ra
def sB (r : Raw) : Option Reg8 := finOf 8 r.rb
def dN (r : Raw) : Option Reg8 := finOf 8 (r.fn % 8)
/-- The type, control, condition and operation fields. -/
def ty (r : Raw) : Option ETy := ETy.ofCode r.t
def c (r : Raw) : Option Ctl := Ctl.ofCode r.ctl
def cond (r : Raw) : Option Cond := Cond.ofCode (r.fn % 16)
def rop (r : Raw) : Option ROp := ROp.ofCode (r.fn % 16)
def size (r : Raw) : Option Size := Size.ofCode r.t
/-- The triple of an RN3 code, and the row forms of `ard` and `awr` (R41, R250). -/
def triple (r : Raw) : Option (Fin 4) := if r.t < 12 then none else finOf 4 (r.t - 12)
def rowTy (r : Raw) : Option (Option (Fin 4)) := if r.t = 0 then some none else r.triple.map some

end Raw

/-- The T code of the row forms of `ard` and `awr` (R250). -/
def rowCode : Option (Fin 4) → Nat
  | none => 0
  | some t => 12 + t.val


/-- The fields of an instruction by the opcode map and the encoding tables (R52, R54, R119, R209, R215, R256, R279, R295, R323,
R363); none for the steps that have no encoding. -/
def Instr.raw : Instr → Option Raw
  | .add h rd ra b => some ({ Raw.hd h 0x001 with rd := rd.val, ra := ra.val }.withSrc b)
  | .sub h rd ra b => some ({ Raw.hd h 0x002 with rd := rd.val, ra := ra.val }.withSrc b)
  | .mul h rd ra b => some ({ Raw.hd h 0x003 with rd := rd.val, ra := ra.val }.withSrc b)
  | .mulh h rd ra b => some ({ Raw.hd h 0x004 with rd := rd.val, ra := ra.val }.withSrc b)
  | .mulhu h rd ra b => some ({ Raw.hd h 0x005 with rd := rd.val, ra := ra.val }.withSrc b)
  | .div h rd ra b => some ({ Raw.hd h 0x006 with rd := rd.val, ra := ra.val }.withSrc b)
  | .divu h rd ra b => some ({ Raw.hd h 0x007 with rd := rd.val, ra := ra.val }.withSrc b)
  | .rem h rd ra b => some ({ Raw.hd h 0x008 with rd := rd.val, ra := ra.val }.withSrc b)
  | .remu h rd ra b => some ({ Raw.hd h 0x009 with rd := rd.val, ra := ra.val }.withSrc b)
  | .and h rd ra b => some ({ Raw.hd h 0x00A with rd := rd.val, ra := ra.val }.withSrc b)
  | .or h rd ra b => some ({ Raw.hd h 0x00B with rd := rd.val, ra := ra.val }.withSrc b)
  | .xor h rd ra b => some ({ Raw.hd h 0x00C with rd := rd.val, ra := ra.val }.withSrc b)
  | .andn h rd ra b => some ({ Raw.hd h 0x00D with rd := rd.val, ra := ra.val }.withSrc b)
  | .orn h rd ra b => some ({ Raw.hd h 0x00E with rd := rd.val, ra := ra.val }.withSrc b)
  | .shl h rd ra b => some ({ Raw.hd h 0x00F with rd := rd.val, ra := ra.val }.withSrc b)
  | .shr h rd ra b => some ({ Raw.hd h 0x010 with rd := rd.val, ra := ra.val }.withSrc b)
  | .sra h rd ra b => some ({ Raw.hd h 0x011 with rd := rd.val, ra := ra.val }.withSrc b)
  | .rol h rd ra b => some ({ Raw.hd h 0x012 with rd := rd.val, ra := ra.val }.withSrc b)
  | .ror h rd ra b => some ({ Raw.hd h 0x013 with rd := rd.val, ra := ra.val }.withSrc b)
  | .clz h rd ra => some { Raw.hd h 0x014 with rd := rd.val, ra := ra.val }
  | .ctz h rd ra => some { Raw.hd h 0x015 with rd := rd.val, ra := ra.val }
  | .popc h rd ra => some { Raw.hd h 0x016 with rd := rd.val, ra := ra.val }
  | .min h rd ra b => some ({ Raw.hd h 0x017 with rd := rd.val, ra := ra.val }.withSrc b)
  | .max h rd ra b => some ({ Raw.hd h 0x018 with rd := rd.val, ra := ra.val }.withSrc b)
  | .minu h rd ra b => some ({ Raw.hd h 0x019 with rd := rd.val, ra := ra.val }.withSrc b)
  | .maxu h rd ra b => some ({ Raw.hd h 0x01A with rd := rd.val, ra := ra.val }.withSrc b)
  | .cmp h cond rd ra b => some ({ Raw.hd h 0x01B with rd := rd.val, ra := ra.val, fn := cond.code }.withSrc b)
  | .sel h rd rc ra rb => some { Raw.hd h 0x01C with rd := rd.val, rc := rc.val, ra := ra.val, rb := rb.val }
  | .li h rd i => some { Raw.hd h 0x01D with rd := rd.val, i := i }
  | .bfx h sg rd ra pos l =>
      some { Raw.hd h 0x01E with rd := rd.val, ra := ra.val, fn := sg.toNat, i := BitVec.ofNat 64 (pos.val + 64 * l.val) }
  | .bfi h rd ra pos l => some { Raw.hd h 0x01F with rd := rd.val, ra := ra.val, i := BitVec.ofNat 64 (pos.val + 64 * l.val) }
  | .br h cond ra rb off => some { Raw.hd h 0x020 with ra := ra.val, rb := rb.val, fn := cond.code, i := off }
  | .jmp h off => some { Raw.hd h 0x021 with i := off }
  | .jmpr h ra => some { Raw.hd h 0x022 with ra := ra.val }
  | .call h off => some { Raw.hd h 0x023 with i := off }
  | .callr h ra => some { Raw.hd h 0x024 with ra := ra.val }
  | .ret h => some (Raw.hd h 0x025)
  | .idem h m => some { Raw.hd h 0x026 with i := m.setWidth 64 }
  | .trapf h => some (Raw.hd h 0x027)
  | .trap h code => some { Raw.hd h 0x028 with i := code.setWidth 64 }
  | .eret h => some (Raw.hd h 0x029)
  | .nop h => some (Raw.hd h 0x02A)
  | .quit h => some (Raw.hd h 0x02B)
  | .yield h => some (Raw.hd h 0x02C)
  | .brk h code => some { Raw.hd h 0x02D with i := code.setWidth 64 }
  | .sysr h rd reg => some { Raw.hd h 0x030 with rd := rd.val, i := BitVec.ofNat 64 reg.code }
  | .sysw h reg ra => some { Raw.hd h 0x031 with ra := ra.val, i := BitVec.ofNat 64 reg.code }
  | .sysx h rd ra reg => some { Raw.hd h 0x032 with rd := rd.val, ra := ra.val, i := BitVec.ofNat 64 reg.code }
  | .ld h size zext rd ra i => some { Raw.hd h 0x040 with rd := rd.val, ra := ra.val, t := size.code, fn := zext.toNat, i := i }
  | .st h size rb ra i => some { Raw.hd h 0x041 with rb := rb.val, ra := ra.val, t := size.code, i := i }
  | .pref h ra i => some { Raw.hd h 0x042 with ra := ra.val, i := i }
  | .disc h ra i => some { Raw.hd h 0x043 with ra := ra.val, i := i }
  | .flushl h ra i => some { Raw.hd h 0x044 with ra := ra.val, i := i }
  | .xinv h ra rb => some { Raw.hd h 0x045 with ra := ra.val, rb := rb.val }
  | .drain h path => some { Raw.hd h 0x046 with fn := path.code }
  | .send h rd ra rb => some { Raw.hd h 0x050 with rd := rd.val, ra := ra.val, rb := rb.val }
  | .recv h kind src rd m => some ({ Raw.hd h 0x051 with rd := rd.val, i := m.setWidth 64 }.withFrom kind src)
  | .recvKeep h kind src rd => some (let r := { Raw.hd h 0x051 with rd := rd.val }.withFrom kind src; { r with fn := r.fn + 32 })
  | .poll h kind src rd => some ({ Raw.hd h 0x052 with rd := rd.val }.withFrom kind src)
  | .watch h ra => some { Raw.hd h 0x053 with ra := ra.val }
  | .unwatch h ra => some { Raw.hd h 0x054 with ra := ra.val }
  | .bar h => some (Raw.hd h 0x055)
  | .carrive h ra => some { Raw.hd h 0x056 with ra := ra.val }
  | .cwatch h ra => some { Raw.hd h 0x057 with ra := ra.val }
  | .guard h ra rb rc t => some { Raw.hd h 0x058 with ra := ra.val, rb := rb.val, rc := rc.val, i := t.setWidth 64 }
  | .amo h op size rd ra rb =>
      some { Raw.hd h 0x059 with rd := rd.val, ra := ra.val, rb := rb.val, t := size.code, fn := op.code }
  | .cas h size rd ra rb rc =>
      some { Raw.hd h 0x05A with rd := rd.val, ra := ra.val, rb := rb.val, rc := rc.val, t := size.code }
  | .red h op ty ra rb => some { Raw.hd h 0x05B with ra := ra.val, rb := rb.val, t := ty.code, fn := op.code }
  | .pfxadd h ra => some { Raw.hd h 0x05C with ra := ra.val }
  | .spawn h prio ra rb m => some { Raw.hd h 0x05D with ra := ra.val, rb := rb.val, fn := prio.val, i := m.setWidth 64 }
  | .migrate h ra m => some { Raw.hd h 0x05E with ra := ra.val, i := m.setWidth 64 }
  | .kand h kd ka kb => some { Raw.hd h 0x060 with rd := kd.val, ra := ka.val, rb := kb.val }
  | .kor h kd ka kb => some { Raw.hd h 0x061 with rd := kd.val, ra := ka.val, rb := kb.val }
  | .kxor h kd ka kb => some { Raw.hd h 0x062 with rd := kd.val, ra := ka.val, rb := kb.val }
  | .knot h kd ka => some { Raw.hd h 0x063 with rd := kd.val, ra := ka.val }
  | .kmov h kd ka => some { Raw.hd h 0x064 with rd := kd.val, ra := ka.val }
  | .kpop h rd ka => some { Raw.hd h 0x065 with rd := rd.val, ra := ka.val }
  | .vadd h p c ty vd va vb => some ({ Raw.hd h 0x080 with rd := vd.val, ra := va.val, rb := vb.val, t := ty.code, ctl := c.code }.withP p)
  | .vsub h p c ty vd va vb => some ({ Raw.hd h 0x081 with rd := vd.val, ra := va.val, rb := vb.val, t := ty.code, ctl := c.code }.withP p)
  | .vmul h p c ty vd va vb => some ({ Raw.hd h 0x082 with rd := vd.val, ra := va.val, rb := vb.val, t := ty.code, ctl := c.code }.withP p)
  | .vfma h p c ty vd va vb vc =>
      some ({ Raw.hd h 0x083 with rd := vd.val, ra := va.val, rb := vb.val, rc := vc.val, t := ty.code, ctl := c.code }.withP p)
  | .vfms h p c ty vd va vb vc =>
      some ({ Raw.hd h 0x084 with rd := vd.val, ra := va.val, rb := vb.val, rc := vc.val, t := ty.code, ctl := c.code }.withP p)
  | .vfnma h p c ty vd va vb vc =>
      some ({ Raw.hd h 0x085 with rd := vd.val, ra := va.val, rb := vb.val, rc := vc.val, t := ty.code, ctl := c.code }.withP p)
  | .vdiv h p c ty vd va vb => some ({ Raw.hd h 0x086 with rd := vd.val, ra := va.val, rb := vb.val, t := ty.code, ctl := c.code }.withP p)
  | .vsqrt h p c ty vd va => some ({ Raw.hd h 0x087 with rd := vd.val, ra := va.val, t := ty.code, ctl := c.code }.withP p)
  | .vrcp h p c ty vd va => some ({ Raw.hd h 0x088 with rd := vd.val, ra := va.val, t := ty.code, ctl := c.code }.withP p)
  | .vrsqrt h p c ty vd va => some ({ Raw.hd h 0x089 with rd := vd.val, ra := va.val, t := ty.code, ctl := c.code }.withP p)
  | .vexp2 h p c ty vd va => some ({ Raw.hd h 0x08A with rd := vd.val, ra := va.val, t := ty.code, ctl := c.code }.withP p)
  | .vlog2 h p c ty vd va => some ({ Raw.hd h 0x08B with rd := vd.val, ra := va.val, t := ty.code, ctl := c.code }.withP p)
  | .vmin h p c ty vd va vb => some ({ Raw.hd h 0x08C with rd := vd.val, ra := va.val, rb := vb.val, t := ty.code, ctl := c.code }.withP p)
  | .vmax h p c ty vd va vb => some ({ Raw.hd h 0x08D with rd := vd.val, ra := va.val, rb := vb.val, t := ty.code, ctl := c.code }.withP p)
  | .vabs h p ty vd va => some ({ Raw.hd h 0x08E with rd := vd.val, ra := va.val, t := ty.code }.withP p)
  | .vneg h p ty vd va => some ({ Raw.hd h 0x08F with rd := vd.val, ra := va.val, t := ty.code }.withP p)
  | .vcmp h p c cond ty kd va vb =>
      some ({ Raw.hd h 0x090 with rd := kd.val, ra := va.val, rb := vb.val, t := ty.code, fn := cond.code, ctl := c.code }.withP p)
  | .vsel h p ty vd va vb => some ({ Raw.hd h 0x091 with rd := vd.val, ra := va.val, rb := vb.val, t := ty.code }.withP p)
  | .vand h p vd va vb => some ({ Raw.hd h 0x092 with rd := vd.val, ra := va.val, rb := vb.val }.withP p)
  | .vor h p vd va vb => some ({ Raw.hd h 0x093 with rd := vd.val, ra := va.val, rb := vb.val }.withP p)
  | .vxor h p vd va vb => some ({ Raw.hd h 0x094 with rd := vd.val, ra := va.val, rb := vb.val }.withP p)
  | .vlop3 h p vd va vb vc tb =>
      some ({ Raw.hd h 0x095 with rd := vd.val, ra := va.val, rb := vb.val, rc := vc.val, i := tb.setWidth 64 }.withP p)
  | .vshl h p ty vd va b => some (({ Raw.hd h 0x096 with rd := vd.val, ra := va.val, t := ty.code }.withSrc b).withP p)
  | .vshr h p ty vd va b => some (({ Raw.hd h 0x097 with rd := vd.val, ra := va.val, t := ty.code }.withSrc b).withP p)
  | .vsra h p ty vd va b => some (({ Raw.hd h 0x098 with rd := vd.val, ra := va.val, t := ty.code }.withSrc b).withP p)
  | .vfsh h p ty vd va vb vc =>
      some ({ Raw.hd h 0x099 with rd := vd.val, ra := va.val, rb := vb.val, rc := vc.val, t := ty.code }.withP p)
  | .vrot h p vd va b => some (({ Raw.hd h 0x09A with rd := vd.val, ra := va.val }.withSrc b).withP p)
  | .vperm h p vd va vb => some ({ Raw.hd h 0x09B with rd := vd.val, ra := va.val, rb := vb.val }.withP p)
  | .vbcast h p ty vd ra => some ({ Raw.hd h 0x09C with rd := vd.val, ra := ra.val, t := ty.code }.withP p)
  | .vext h ty rd va e =>
      some { Raw.hd h 0x09D with rd := rd.val, ra := va.val, t := ty.code, fn := e % ty.perLane, i := BitVec.ofNat 64 (e / ty.perLane) }
  | .vins h ty vd ra e =>
      some { Raw.hd h 0x09E with rd := vd.val, ra := ra.val, t := ty.code, fn := e % ty.perLane, i := BitVec.ofNat 64 (e / ty.perLane) }
  | .vcvt h p c dst src vd va =>
      some ({ Raw.hd h 0x09F with rd := vd.val, ra := va.val, t := dst.code, fn := src.code, ctl := c.code }.withP p)
  | .vred h p c op ty vd va =>
      some ({ Raw.hd h 0x0A0 with rd := vd.val, ra := va.val, t := ty.code, fn := op.code, ctl := c.code }.withP p)
  | .vscan h p c op ty vd va =>
      some ({ Raw.hd h 0x0A1 with rd := vd.val, ra := va.val, t := ty.code, fn := op.code, ctl := c.code }.withP p)
  | .vtopk h p c ty vd va n =>
      some ({ Raw.hd h 0x0A2 with rd := vd.val, ra := va.val, t := ty.code, i := BitVec.ofNat 64 n, ctl := c.code }.withP p)
  | .vsparse h p ty vd vc va => some ({ Raw.hd h 0x0A3 with rd := vd.val, rc := vc.val, ra := va.val, t := ty.code }.withP p)
  | .vld h p vd ra i => some ({ Raw.hd h 0x0A4 with rd := vd.val, ra := ra.val, i := i }.withP p)
  | .vst h p vb ra i => some ({ Raw.hd h 0x0A5 with rb := vb.val, ra := ra.val, i := i }.withP p)
  | .vldg h p ty vd ra vb => some ({ Raw.hd h 0x0A6 with rd := vd.val, ra := ra.val, rb := vb.val, t := ty.code }.withP p)
  | .vsts h p ty vc ra vb => some ({ Raw.hd h 0x0A7 with rc := vc.val, ra := ra.val, rb := vb.val, t := ty.code }.withP p)
  | .vldc h p ty vd ra rb => some ({ Raw.hd h 0x0A8 with rd := vd.val, ra := ra.val, rb := rb.val, t := ty.code }.withP p)
  | .vstc h p ty vc ra rb => some ({ Raw.hd h 0x0A9 with rc := vc.val, ra := ra.val, rb := rb.val, t := ty.code }.withP p)
  | .aalloc h rd an => some { Raw.hd h 0x0C0 with rd := rd.val, ra := an.val }
  | .afree h an => some { Raw.hd h 0x0C1 with ra := an.val }
  | .azero h an => some { Raw.hd h 0x0C2 with ra := an.val }
  | .mma h ty an ra rb i =>
      some { Raw.hd h 0x0C3 with rd := an.val, ra := ra.val, rb := rb.val, t := ty.code, i := BitVec.ofNat 64 i }
  | .mmas h ty an ra rb rc i =>
      some { Raw.hd h 0x0C4 with rd := an.val, ra := ra.val, rb := rb.val, rc := rc.val, t := ty.code, i := BitVec.ofNat 64 i }
  | .mmr h t an ra rb i =>
      some { Raw.hd h 0x0C5 with rd := an.val, ra := ra.val, rb := rb.val, t := 12 + t.val, i := BitVec.ofNat 64 i }
  | .ard h t vd an rb => some { Raw.hd h 0x0C6 with rd := vd.val, ra := an.val, rb := rb.val, t := rowCode t }
  | .awr h t an va rb => some { Raw.hd h 0x0C7 with rd := an.val, ra := va.val, rb := rb.val, t := rowCode t }
  | .ald h an ra => some { Raw.hd h 0x0C8 with rd := an.val, ra := ra.val }
  | .ast h an ra => some { Raw.hd h 0x0C9 with rd := an.val, ra := ra.val }
  | .rnsred h t an => some { Raw.hd h 0x0CA with rd := an.val, t := 12 + t.val }
  | .mreq h rd ra rb => some { Raw.hd h 0x0CB with rd := rd.val, ra := ra.val, rb := rb.val }
  | .mcap h rd ra => some { Raw.hd h 0x0CC with rd := rd.val, ra := ra.val }
  | .route h rd ra rb => some { Raw.hd h 0x0CD with rd := rd.val, ra := ra.val, rb := rb.val }
  | .autbind h dn ra => some { Raw.hd h 0x0E0 with ra := ra.val, fn := dn.val }
  | .autunbind h dn => some { Raw.hd h 0x0E1 with fn := dn.val }
  | .autpin h dn ra rb => some { Raw.hd h 0x0E2 with ra := ra.val, rb := rb.val, fn := dn.val }
  | .autstep h p dn vd va vb => some ({ Raw.hd h 0x0E3 with rd := vd.val, ra := va.val, rb := vb.val, fn := dn.val }.withP p)
  | .autrun h p dn vd va rb => some ({ Raw.hd h 0x0E4 with rd := vd.val, ra := va.val, rb := rb.val, fn := dn.val }.withP p)
  | .maprun h p dn vd va rb rc =>
      some ({ Raw.hd h 0x0E5 with rd := vd.val, ra := va.val, rb := rb.val, rc := rc.val, fn := dn.val }.withP p)
  | .mapinit h p dn vd ra => some ({ Raw.hd h 0x0E6 with rd := vd.val, ra := ra.val, fn := dn.val }.withP p)
  | .compose h p vd va vb vs => some ({ Raw.hd h 0x0E7 with rd := vd.val, ra := va.val, rb := vb.val, rc := vs.val }.withP p)
  | .autq h q kd va => some { Raw.hd h 0x0E8 with rd := kd.val, ra := va.val, fn := 16 * q.code }
  | .autstk h dn ra rb => some { Raw.hd h 0x0E9 with ra := ra.val, rb := rb.val, fn := dn.val }
  | .allowStore h dn ra vb lane =>
      some { Raw.hd h 0x0F0 with ra := ra.val, rb := vb.val, fn := dn.val, i := BitVec.ofNat 64 lane.val }
  | .allowApply h dn ra vb lane =>
      some { Raw.hd h 0x0F0 with ra := ra.val, rb := vb.val, fn := dn.val + 16, i := BitVec.ofNat 64 lane.val }
  | .triewalk h p dn vd va rb => some ({ Raw.hd h 0x0F1 with rd := vd.val, ra := va.val, rb := rb.val, fn := dn.val }.withP p)
  | .detok h dn rd ra rb rc =>
      some { Raw.hd h 0x0F2 with rd := rd.val, ra := ra.val, rb := rb.val, rc := rc.val, fn := dn.val }
  | .copy h rd ra rb => some { Raw.hd h 0x100 with rd := rd.val, ra := ra.val, rb := rb.val }
  | .subTile h rd ra rb => some { Raw.hd h 0x101 with rd := rd.val, ra := ra.val, rb := rb.val }
  | .unsub h ra => some { Raw.hd h 0x102 with ra := ra.val }
  | .ringinit h ra rb rc => some { Raw.hd h 0x103 with ra := ra.val, rb := rb.val, rc := rc.val }
  | .slrsv h rd ra => some { Raw.hd h 0x104 with rd := rd.val, ra := ra.val }
  | .slpost h ra rb => some { Raw.hd h 0x105 with ra := ra.val, rb := rb.val }
  | .sltake h rd ra => some { Raw.hd h 0x106 with rd := rd.val, ra := ra.val }
  | .slfree h ra rb => some { Raw.hd h 0x107 with ra := ra.val, rb := rb.val }
  | .glaunch h ra => some { Raw.hd h 0x110 with ra := ra.val }
  | .nodeadd h rd ra rb => some { Raw.hd h 0x111 with rd := rd.val, ra := ra.val, rb := rb.val }
  | .edgeadd h rd ra rb => some { Raw.hd h 0x112 with rd := rd.val, ra := ra.val, rb := rb.val }
  | .nodedone h => some (Raw.hd h 0x113)
  | .nodefail h code => some { Raw.hd h 0x114 with i := code.setWidth 64 }
  | .gstat h rd ra => some { Raw.hd h 0x115 with rd := rd.val, ra := ra.val }
  | .rloop h ra => some { Raw.hd h 0x118 with ra := ra.val }
  | .rsv h ra => some { Raw.hd h 0x119 with ra := ra.val }
  | .rchk h rd ra => some { Raw.hd h 0x11A with rd := rd.val, ra := ra.val }
  | .rdoneOk h => some (Raw.hd h 0x11B)
  | .rdoneFail h => some { Raw.hd h 0x11B with fn := 1 }
  | .slotGrant _ _ | .activeMessage _ _ | .windowSpill | .windowFill | .groupClose | .accessPerform | .accessRefusal => none
  | .regionRestart | .trapDelivery | .preemption => none
  | .lineFold _ _ | .eventDeferredPlace _ _ | .phaseStep _ | .clockRebase _ | .waitCycleProbe _ _ | .poolHoldRelease => none
  | .waitListRelease _ _ | .xinvdone _ _ | .draindone _ _ => none
  | .copyChunk _ _ | .copyComplete _ | .tilePush _ _ _ | .tileReturn _ _ _ | .subscriptionEnd _ _ => none
  | .remoteCommandApply _ _ => none
  | .graphScan _ _ | .nodeReady _ _ _ | .nodeDispatch _ _ _ | .nodeToken _ _ | .dominoSweep _ _ | .treeReport _ _ _ => none
  | .graphDone _ _ | .windowStart _ | .roundEnd _ | .loopComplete _ => none
  | .timerArm _ _ _ _ | .timerExpiry _ _ | .place _ | .framemode _ | .slotresume _ | .slotend _ | .keygen _ | .keyfree _ => none
  | .attest _ | .controlSeal _ | .controlEnd _ | .requestComplete _ => none
  | .hello _ | .finish _ _ | .create _ _ _ _ _ _ | .lock _ _ _ _ _ _ _ | .unbind _ _ _ | .manageEnd _ _ _ => none
  | .manageSeal _ _ _ | .resume _ _ _ | .health _ _ | .cert _ _ | .sessionFail _ _ => none
  | .msg _ _ _ _ _ | .write _ _ _ | .read _ _ _ => none
  | .arbiterGrant | .class1Alarm _ _ | .class2Alarm | .standbyPromotion | .lastingFault _ _ _ _ _ | .laneRemap _ => none
  | .powerReset _ _ _ | .class1AlarmClear | .droppedPacket _ => none

/-- The rows 0x001 to 0x01F (R52). -/
def buildScalar (r : Raw) : Option Instr :=
  match r.op with
  | 0x001 => do some (.add r.head (← r.rD) (← r.rA) (← r.src))
  | 0x002 => do some (.sub r.head (← r.rD) (← r.rA) (← r.src))
  | 0x003 => do some (.mul r.head (← r.rD) (← r.rA) (← r.src))
  | 0x004 => do some (.mulh r.head (← r.rD) (← r.rA) (← r.src))
  | 0x005 => do some (.mulhu r.head (← r.rD) (← r.rA) (← r.src))
  | 0x006 => do some (.div r.head (← r.rD) (← r.rA) (← r.src))
  | 0x007 => do some (.divu r.head (← r.rD) (← r.rA) (← r.src))
  | 0x008 => do some (.rem r.head (← r.rD) (← r.rA) (← r.src))
  | 0x009 => do some (.remu r.head (← r.rD) (← r.rA) (← r.src))
  | 0x00A => do some (.and r.head (← r.rD) (← r.rA) (← r.src))
  | 0x00B => do some (.or r.head (← r.rD) (← r.rA) (← r.src))
  | 0x00C => do some (.xor r.head (← r.rD) (← r.rA) (← r.src))
  | 0x00D => do some (.andn r.head (← r.rD) (← r.rA) (← r.src))
  | 0x00E => do some (.orn r.head (← r.rD) (← r.rA) (← r.src))
  | 0x00F => do some (.shl r.head (← r.rD) (← r.rA) (← r.src))
  | 0x010 => do some (.shr r.head (← r.rD) (← r.rA) (← r.src))
  | 0x011 => do some (.sra r.head (← r.rD) (← r.rA) (← r.src))
  | 0x012 => do some (.rol r.head (← r.rD) (← r.rA) (← r.src))
  | 0x013 => do some (.ror r.head (← r.rD) (← r.rA) (← r.src))
  | 0x014 => do some (.clz r.head (← r.rD) (← r.rA))
  | 0x015 => do some (.ctz r.head (← r.rD) (← r.rA))
  | 0x016 => do some (.popc r.head (← r.rD) (← r.rA))
  | 0x017 => do some (.min r.head (← r.rD) (← r.rA) (← r.src))
  | 0x018 => do some (.max r.head (← r.rD) (← r.rA) (← r.src))
  | 0x019 => do some (.minu r.head (← r.rD) (← r.rA) (← r.src))
  | 0x01A => do some (.maxu r.head (← r.rD) (← r.rA) (← r.src))
  | 0x01B => do some (.cmp r.head (← r.cond) (← r.rD) (← r.rA) (← r.src))
  | 0x01C => do some (.sel r.head (← r.rD) (← r.rC) (← r.rA) (← r.rB))
  | 0x01D => do some (.li r.head (← r.rD) r.i)
  | 0x01E => do some (.bfx r.head (decide (r.fn % 2 = 1)) (← r.rD) (← r.rA) (← finOf 64 (r.i.toNat % 64)) (← finOf 64 (r.i.toNat / 64)))
  | 0x01F => do some (.bfi r.head (← r.rD) (← r.rA) (← finOf 64 (r.i.toNat % 64)) (← finOf 64 (r.i.toNat / 64)))
  | _ => none

/-- The rows 0x020 to 0x032 (R52). -/
def buildControl (r : Raw) : Option Instr :=
  match r.op with
  | 0x020 => do some (.br r.head (← r.cond) (← r.rA) (← r.rB) r.i)
  | 0x021 => some (.jmp r.head r.i)
  | 0x022 => do some (.jmpr r.head (← r.rA))
  | 0x023 => some (.call r.head r.i)
  | 0x024 => do some (.callr r.head (← r.rA))
  | 0x025 => some (.ret r.head)
  | 0x026 => do some (.idem r.head (← bitsOf 32 r.i))
  | 0x027 => some (.trapf r.head)
  | 0x028 => do some (.trap r.head (← bitsOf 16 r.i))
  | 0x029 => some (.eret r.head)
  | 0x02A => some (.nop r.head)
  | 0x02B => some (.quit r.head)
  | 0x02C => some (.yield r.head)
  | 0x02D => do some (.brk r.head (← bitsOf 16 r.i))
  | 0x030 => do some (.sysr r.head (← r.rD) (← SysReg.ofCode r.i.toNat))
  | 0x031 => do some (.sysw r.head (← SysReg.ofCode r.i.toNat) (← r.rA))
  | 0x032 => do some (.sysx r.head (← r.rD) (← r.rA) (← SysReg.ofCode r.i.toNat))
  | _ => none

/-- The rows 0x040 to 0x05E (R52). -/
def buildMemory (r : Raw) : Option Instr :=
  match r.op with
  | 0x040 => do some (.ld r.head (← r.size) (decide (r.fn % 2 = 1)) (← r.rD) (← r.rA) r.i)
  | 0x041 => do some (.st r.head (← r.size) (← r.rB) (← r.rA) r.i)
  | 0x042 => do some (.pref r.head (← r.rA) r.i)
  | 0x043 => do some (.disc r.head (← r.rA) r.i)
  | 0x044 => do some (.flushl r.head (← r.rA) r.i)
  | 0x045 => do some (.xinv r.head (← r.rA) (← r.rB))
  | 0x046 => do some (.drain r.head (← Path.ofCode (r.fn % 4)))
  | 0x050 => do some (.send r.head (← r.rD) (← r.rA) (← r.rB))
  | 0x051 => do
      let kind ← Kind.ofCode (r.fn % 16)
      let src ← r.from?
      let rd ← r.rD
      let m ← bitsOf 32 r.i
      some (if r.fn / 32 % 2 = 0 then .recv r.head kind src rd m else .recvKeep r.head kind src rd)
  | 0x052 => do some (.poll r.head (← Kind.ofCode (r.fn % 16)) (← r.from?) (← r.rD))
  | 0x053 => do some (.watch r.head (← r.rA))
  | 0x054 => do some (.unwatch r.head (← r.rA))
  | 0x055 => some (.bar r.head)
  | 0x056 => do some (.carrive r.head (← r.rA))
  | 0x057 => do some (.cwatch r.head (← r.rA))
  | 0x058 => do some (.guard r.head (← r.rA) (← r.rB) (← r.rC) (← bitsOf 32 r.i))
  | 0x059 => do some (.amo r.head (← AmoOp.ofCode (r.fn % 16)) (← r.size) (← r.rD) (← r.rA) (← r.rB))
  | 0x05A => do some (.cas r.head (← r.size) (← r.rD) (← r.rA) (← r.rB) (← r.rC))
  | 0x05B => do some (.red r.head (← r.rop) (← r.ty) (← r.rA) (← r.rB))
  | 0x05C => do some (.pfxadd r.head (← r.rA))
  | 0x05D => do some (.spawn r.head (← finOf 4 (r.fn % 4)) (← r.rA) (← r.rB) (← bitsOf 32 r.i))
  | 0x05E => do some (.migrate r.head (← r.rA) (← bitsOf 32 r.i))
  | _ => none

/-- The rows 0x060 to 0x09F (R52). -/
def buildVector (r : Raw) : Option Instr :=
  match r.op with
  | 0x060 => do some (.kand r.head (← r.sD) (← r.sA) (← r.sB))
  | 0x061 => do some (.kor r.head (← r.sD) (← r.sA) (← r.sB))
  | 0x062 => do some (.kxor r.head (← r.sD) (← r.sA) (← r.sB))
  | 0x063 => do some (.knot r.head (← r.sD) (← r.sA))
  | 0x064 => do some (.kmov r.head (← r.sD) (← r.sA))
  | 0x065 => do some (.kpop r.head (← r.rD) (← r.sA))
  | 0x080 => do some (.vadd r.head (← r.pred) (← r.c) (← r.ty) (← r.rD) (← r.rA) (← r.rB))
  | 0x081 => do some (.vsub r.head (← r.pred) (← r.c) (← r.ty) (← r.rD) (← r.rA) (← r.rB))
  | 0x082 => do some (.vmul r.head (← r.pred) (← r.c) (← r.ty) (← r.rD) (← r.rA) (← r.rB))
  | 0x083 => do some (.vfma r.head (← r.pred) (← r.c) (← r.ty) (← r.rD) (← r.rA) (← r.rB) (← r.rC))
  | 0x084 => do some (.vfms r.head (← r.pred) (← r.c) (← r.ty) (← r.rD) (← r.rA) (← r.rB) (← r.rC))
  | 0x085 => do some (.vfnma r.head (← r.pred) (← r.c) (← r.ty) (← r.rD) (← r.rA) (← r.rB) (← r.rC))
  | 0x086 => do some (.vdiv r.head (← r.pred) (← r.c) (← r.ty) (← r.rD) (← r.rA) (← r.rB))
  | 0x087 => do some (.vsqrt r.head (← r.pred) (← r.c) (← r.ty) (← r.rD) (← r.rA))
  | 0x088 => do some (.vrcp r.head (← r.pred) (← r.c) (← r.ty) (← r.rD) (← r.rA))
  | 0x089 => do some (.vrsqrt r.head (← r.pred) (← r.c) (← r.ty) (← r.rD) (← r.rA))
  | 0x08A => do some (.vexp2 r.head (← r.pred) (← r.c) (← r.ty) (← r.rD) (← r.rA))
  | 0x08B => do some (.vlog2 r.head (← r.pred) (← r.c) (← r.ty) (← r.rD) (← r.rA))
  | 0x08C => do some (.vmin r.head (← r.pred) (← r.c) (← r.ty) (← r.rD) (← r.rA) (← r.rB))
  | 0x08D => do some (.vmax r.head (← r.pred) (← r.c) (← r.ty) (← r.rD) (← r.rA) (← r.rB))
  | 0x08E => do some (.vabs r.head (← r.pred) (← r.ty) (← r.rD) (← r.rA))
  | 0x08F => do some (.vneg r.head (← r.pred) (← r.ty) (← r.rD) (← r.rA))
  | 0x090 => do some (.vcmp r.head (← r.pred) (← r.c) (← r.cond) (← r.ty) (← r.sD) (← r.rA) (← r.rB))
  | 0x091 => do some (.vsel r.head (← r.pred) (← r.ty) (← r.rD) (← r.rA) (← r.rB))
  | 0x092 => do some (.vand r.head (← r.pred) (← r.rD) (← r.rA) (← r.rB))
  | 0x093 => do some (.vor r.head (← r.pred) (← r.rD) (← r.rA) (← r.rB))
  | 0x094 => do some (.vxor r.head (← r.pred) (← r.rD) (← r.rA) (← r.rB))
  | 0x095 => do some (.vlop3 r.head (← r.pred) (← r.rD) (← r.rA) (← r.rB) (← r.rC) (← bitsOf 8 r.i))
  | 0x096 => do some (.vshl r.head (← r.pred) (← r.ty) (← r.rD) (← r.rA) (← r.src))
  | 0x097 => do some (.vshr r.head (← r.pred) (← r.ty) (← r.rD) (← r.rA) (← r.src))
  | 0x098 => do some (.vsra r.head (← r.pred) (← r.ty) (← r.rD) (← r.rA) (← r.src))
  | 0x099 => do some (.vfsh r.head (← r.pred) (← r.ty) (← r.rD) (← r.rA) (← r.rB) (← r.rC))
  | 0x09A => do some (.vrot r.head (← r.pred) (← r.rD) (← r.rA) (← r.src))
  | 0x09B => do some (.vperm r.head (← r.pred) (← r.rD) (← r.rA) (← r.rB))
  | 0x09C => do some (.vbcast r.head (← r.pred) (← r.ty) (← r.rD) (← r.rA))
  | 0x09D => do let ty ← r.ty; some (.vext r.head ty (← r.rD) (← r.rA) (r.i.toNat * ty.perLane + r.fn))
  | 0x09E => do let ty ← r.ty; some (.vins r.head ty (← r.rD) (← r.rA) (r.i.toNat * ty.perLane + r.fn))
  | 0x09F => do some (.vcvt r.head (← r.pred) (← r.c) (← r.ty) (← ETy.ofCode (r.fn % 16)) (← r.rD) (← r.rA))
  | _ => none

/-- The rows 0x0A0 to 0x0CD (R52). -/
def buildMatrix (r : Raw) : Option Instr :=
  match r.op with
  | 0x0A0 => do some (.vred r.head (← r.pred) (← r.c) (← r.rop) (← r.ty) (← r.rD) (← r.rA))
  | 0x0A1 => do some (.vscan r.head (← r.pred) (← r.c) (← r.rop) (← r.ty) (← r.rD) (← r.rA))
  | 0x0A2 => do some (.vtopk r.head (← r.pred) (← r.c) (← r.ty) (← r.rD) (← r.rA) r.i.toNat)
  | 0x0A3 => do some (.vsparse r.head (← r.pred) (← r.ty) (← r.rD) (← r.rC) (← r.rA))
  | 0x0A4 => do some (.vld r.head (← r.pred) (← r.rD) (← r.rA) r.i)
  | 0x0A5 => do some (.vst r.head (← r.pred) (← r.rB) (← r.rA) r.i)
  | 0x0A6 => do some (.vldg r.head (← r.pred) (← r.ty) (← r.rD) (← r.rA) (← r.rB))
  | 0x0A7 => do some (.vsts r.head (← r.pred) (← r.ty) (← r.rC) (← r.rA) (← r.rB))
  | 0x0A8 => do some (.vldc r.head (← r.pred) (← r.ty) (← r.rD) (← r.rA) (← r.rB))
  | 0x0A9 => do some (.vstc r.head (← r.pred) (← r.ty) (← r.rC) (← r.rA) (← r.rB))
  | 0x0C0 => do some (.aalloc r.head (← r.rD) (← r.sA))
  | 0x0C1 => do some (.afree r.head (← r.sA))
  | 0x0C2 => do some (.azero r.head (← r.sA))
  | 0x0C3 => do some (.mma r.head (← r.ty) (← r.sD) (← r.rA) (← r.rB) r.i.toNat)
  | 0x0C4 => do some (.mmas r.head (← r.ty) (← r.sD) (← r.rA) (← r.rB) (← r.rC) r.i.toNat)
  | 0x0C5 => do some (.mmr r.head (← r.triple) (← r.sD) (← r.rA) (← r.rB) r.i.toNat)
  | 0x0C6 => do some (.ard r.head (← r.rowTy) (← r.rD) (← r.sA) (← r.rB))
  | 0x0C7 => do some (.awr r.head (← r.rowTy) (← r.sD) (← r.rA) (← r.rB))
  | 0x0C8 => do some (.ald r.head (← r.sD) (← r.rA))
  | 0x0C9 => do some (.ast r.head (← r.sD) (← r.rA))
  | 0x0CA => do some (.rnsred r.head (← r.triple) (← r.sD))
  | 0x0CB => do some (.mreq r.head (← r.rD) (← r.rA) (← r.rB))
  | 0x0CC => do some (.mcap r.head (← r.rD) (← r.rA))
  | 0x0CD => do some (.route r.head (← r.rD) (← r.rA) (← r.rB))
  | _ => none

/-- The rows 0x0E0 to 0x11B (R52). -/
def buildUnits (r : Raw) : Option Instr :=
  match r.op with
  | 0x0E0 => do some (.autbind r.head (← r.dN) (← r.rA))
  | 0x0E1 => do some (.autunbind r.head (← r.dN))
  | 0x0E2 => do some (.autpin r.head (← r.dN) (← r.rA) (← r.rB))
  | 0x0E3 => do some (.autstep r.head (← r.pred) (← r.dN) (← r.rD) (← r.rA) (← r.rB))
  | 0x0E4 => do some (.autrun r.head (← r.pred) (← r.dN) (← r.rD) (← r.rA) (← r.rB))
  | 0x0E5 => do some (.maprun r.head (← r.pred) (← r.dN) (← r.rD) (← r.rA) (← r.rB) (← r.rC))
  | 0x0E6 => do some (.mapinit r.head (← r.pred) (← r.dN) (← r.rD) (← r.rA))
  | 0x0E7 => do some (.compose r.head (← r.pred) (← r.rD) (← r.rA) (← r.rB) (← r.rC))
  | 0x0E8 => do some (.autq r.head (← Query.ofCode (r.fn / 16 % 8)) (← r.sD) (← r.rA))
  | 0x0E9 => do some (.autstk r.head (← r.dN) (← r.rA) (← r.rB))
  | 0x0F0 => do
      let dn ← r.dN
      let ra ← r.rA
      let vb ← r.rB
      let lane ← finOf 48 r.i.toNat
      some (if r.fn / 16 % 2 = 0 then .allowStore r.head dn ra vb lane else .allowApply r.head dn ra vb lane)
  | 0x0F1 => do some (.triewalk r.head (← r.pred) (← r.dN) (← r.rD) (← r.rA) (← r.rB))
  | 0x0F2 => do some (.detok r.head (← r.dN) (← r.rD) (← r.rA) (← r.rB) (← r.rC))
  | 0x100 => do some (.copy r.head (← r.rD) (← r.rA) (← r.rB))
  | 0x101 => do some (.subTile r.head (← r.rD) (← r.rA) (← r.rB))
  | 0x102 => do some (.unsub r.head (← r.rA))
  | 0x103 => do some (.ringinit r.head (← r.rA) (← r.rB) (← r.rC))
  | 0x104 => do some (.slrsv r.head (← r.rD) (← r.rA))
  | 0x105 => do some (.slpost r.head (← r.rA) (← r.rB))
  | 0x106 => do some (.sltake r.head (← r.rD) (← r.rA))
  | 0x107 => do some (.slfree r.head (← r.rA) (← r.rB))
  | 0x110 => do some (.glaunch r.head (← r.rA))
  | 0x111 => do some (.nodeadd r.head (← r.rD) (← r.rA) (← r.rB))
  | 0x112 => do some (.edgeadd r.head (← r.rD) (← r.rA) (← r.rB))
  | 0x113 => some (.nodedone r.head)
  | 0x114 => do some (.nodefail r.head (← bitsOf 16 r.i))
  | 0x115 => do some (.gstat r.head (← r.rD) (← r.rA))
  | 0x118 => do some (.rloop r.head (← r.rA))
  | 0x119 => do some (.rsv r.head (← r.rA))
  | 0x11A => do some (.rchk r.head (← r.rD) (← r.rA))
  | 0x11B => some (if r.fn % 2 = 0 then .rdoneOk r.head else .rdoneFail r.head)
  | _ => none

/-- The instruction that the fields name, before its limits are checked. -/
def build (r : Raw) : Option Instr :=
  if r.op < 0x020 then buildScalar r
  else if r.op < 0x040 then buildControl r
  else if r.op < 0x060 then buildMemory r
  else if r.op < 0x0A0 then buildVector r
  else if r.op < 0x0E0 then buildMatrix r
  else buildUnits r

/-- The assigned major opcodes: all but those that R53 lists. -/
def assigned (op : Nat) : Bool :=
  [(0x001, 0x02D), (0x030, 0x032), (0x040, 0x046), (0x050, 0x05E), (0x060, 0x065), (0x080, 0x0A9), (0x0C0, 0x0CD),
   (0x0E0, 0x0E9), (0x0F0, 0x0F2), (0x100, 0x107), (0x110, 0x115), (0x118, 0x11B)].any (fun p => decide (p.1 ≤ op) && decide (op ≤ p.2))

/-- The fields of a word of length `len` held in the number `w` (R35 to R37). -/
def Raw.ofWord (len : Len) (w : Nat) : Raw :=
  { len := len, s := decide (w / 2 ^ 2 % 2 = 1), op := w / 2 ^ 3 % 2 ^ 9, k := w / 2 ^ 12 % 2 ^ 3
    kn := decide (w / 2 ^ 15 % 2 = 1), rd := w / 2 ^ 16 % 2 ^ 5, ra := w / 2 ^ 21 % 2 ^ 5, rb := w / 2 ^ 26 % 2 ^ 5
    rc := w / 2 ^ 31 % 2 ^ 5, t := w / 2 ^ 36 % 2 ^ 4, fn := w / 2 ^ 40 % 2 ^ 8
    i := match len with
      | .l64 => (BitVec.ofNat 16 (w / 2 ^ 48)).signExtend 64
      | .l96 => (BitVec.ofNat 48 (w / 2 ^ 48)).signExtend 64
      | .l128 => BitVec.ofNat 64 (w / 2 ^ 64)
    ctl := match len with
      | .l64 => 0
      | .l96 => 0
      | .l128 => w / 2 ^ 48 % 2 ^ 16 }

/-- Fields packed from bit 0 up, each by its width and its value. -/
def packFields : List (Nat × Nat) → Nat
  | [] => 0
  | (n, v) :: r => v + 2 ^ n * packFields r

/-- Bits 47:0 of a word (R35). -/
def Raw.low (r : Raw) : Nat :=
  packFields [(2, r.len.code), (1, r.s.toNat), (9, r.op), (3, r.k), (1, r.kn.toNat), (5, r.rd), (5, r.ra), (5, r.rb), (5, r.rc), (4, r.t),
    (8, r.fn)]

/-- The bits above bit 47 (R36). -/
def Raw.high (r : Raw) : Nat :=
  match r.len with
  | .l64 => (r.i.setWidth 16).toNat
  | .l96 => (r.i.setWidth 48).toNat
  | .l128 => r.ctl + 2 ^ 16 * r.i.toNat

/-- The word of the fields. -/
def Raw.word (r : Raw) : Nat := r.low + 2 ^ 48 * r.high

/-- Every field lies in its place and the length can carry I and CTL. -/
def Raw.fits (r : Raw) : Bool :=
  decide (r.op < 2 ^ 9) && decide (r.k < 2 ^ 3) && decide (r.rd < 2 ^ 5) && decide (r.ra < 2 ^ 5) && decide (r.rb < 2 ^ 5) &&
  decide (r.rc < 2 ^ 5) && decide (r.t < 2 ^ 4) && decide (r.fn < 2 ^ 8) && decide (r.ctl < 2 ^ 16) &&
  immOk { len := r.len, s := r.s } r.i && (decide (r.len = .l128) || decide (r.ctl = 0))

/-- R46 steps 5 and 6 on the fields of a word. A field that the instruction does not use must be zero (R37, R39, R42): the
instruction's own fields must give back the word's. -/
def decodeRaw (r : Raw) : Except DecodeError Instr :=
  if assigned r.op then
    match build r with
    | some i => if i.wf && decide (i.raw = some r) then .ok i else .error .illegalField
    | none => .error .illegalField
  else .error .illegalOpcode

/-- R46 steps 3 to 6 on the bytes from the pc to the end of its fetch block: the instruction and its length in bytes. -/
def decode (bs : List Byte) : Except DecodeError (Instr × Nat) :=
  let w := Machine.leNat bs
  match Len.ofCode (w % 4) with
  | none => .error .illegalFormat
  | some len =>
    if bs.length < len.bytes then .error .illegalFormat
    else
      match decodeRaw (Raw.ofWord len (w % 2 ^ (8 * len.bytes))) with
      | .ok i => .ok (i, len.bytes)
      | .error e => .error e

/-- The bytes of a well-formed instruction; none for a step that has no encoding. -/
def encode (i : Instr) : Option (List Byte) :=
  i.raw.map (fun r => Machine.leBytes r.len.bytes r.word)

/-- The instruction that the decoder reads from a word whose bits are `w`, bit 0 in the byte at the lowest address. -/
def decodeTableWord (_nbits w : Nat) : Option Instr :=
  match decode (Machine.leBytes 16 w) with
  | .ok (i, _) => some i
  | .error _ => none

end Sys2Proof
end

