-- ==== Sys2Proof/Machine/Translate.lean ====
section
/-! DEFINITION. Places, tables and physical memory: address forms, translation, poison and versions, host windows, and what stands in a
line once its reductions are folded (06 R126 to R147, 07 R174, 22 R398 to R401, 23 R420). -/

namespace Sys2Proof.Machine

/-- The place that an address names (R126): a global virtual address, or an offset of a logical core's local store (R127). -/
inductive Place where
  | glob (va : Nat)
  | ls (lc off : Nat)
  deriving DecidableEq, Repr

/-- Bytes of a local store (R129). -/
def lsSize : Nat := 0x80000

/-- The form rules of R126, with the member names of R127 resolved for logical core `lc`. -/
def placeOf (lc : Nat) (a : Word) : Option Place :=
  let n := a.toNat
  if n < 2 ^ 56 then some (.glob n)
  else if field n 56 8 = 0xFE ∧ field n 24 32 = 0 ∧ field n 19 1 = 0 then
    let m := field n 20 4
    if m = 15 then some (.ls lc (field n 0 19))
    else if m < 8 then some (.ls (8 * (lc / 8) + m) (field n 0 19))
    else none
  else none

/-- An address names the issuer's own store: member 0xF or its own position (R127). -/
def ownPlace (lc : Nat) (a : Word) : Option Nat :=
  match placeOf lc a with
  | some (.ls l off) => if l = lc then some off else none
  | _ => none

/-- The self address of a local-store word, as WATCH and ring results name it (R127, R187). -/
def selfAddr (off : Nat) : Word := BitVec.ofNat 64 (0xFE00000000F00000 + off)
/-- An address of the local store of `l` as logical core `lc` names it (R127). -/
def lsAddr (lc l off : Nat) : Word := if l = lc then selfAddr off else BitVec.ofNat 64 (0xFE00000000000000 + l % 8 * 2 ^ 20 + off)

/-- The memory key of offset `off` of the local store of a logical core. -/
def lsKey (ctx lc off : Nat) : Nat := 2 ^ 48 + coreKey ctx lc * lsSize + off

/-- What an access needs of the leaf (R141). -/
inductive Need where
  | r | w | rw | x | any
  deriving DecidableEq, Repr

/-- A leaf that a walk reached (R139). -/
structure Leaf where
  pa   : Nat
  r    : Bool
  w    : Bool
  x    : Bool
  mode : Nat
  key  : Nat
  home : Nat
  acnt : Nat
  cset : Nat
  level : Nat
  deriving DecidableEq, Repr

def hbmTop : Nat := 0x9000000000
def winBase : Nat := 0x800000000000
def winTop : Nat := 0x803000000000
def inHbm (pa : Nat) : Bool := decide (pa < hbmTop)
def inWindow (pa : Nat) : Bool := decide (winBase ≤ pa) && decide (pa < winTop)

/-- A byte of the physical space: HBM, or what the far party of a host window answers (R133, R420). -/
def State.physByte (s : State) (pa : Nat) : Byte :=
  if inWindow pa then Config.windowByte s.draws pa else Mem.read s.mem pa
def State.physNat (s : State) (pa : Nat) : Nat → Nat
  | 0 => 0
  | n + 1 => (s.physByte pa).toNat + 256 * State.physNat s (pa + 1) n

/-- A frame mode table entry (R399). -/
def State.frame (s : State) (pa : Nat) : Nat := (Tab.get 0 s.frames (pa / 65536)).toNat
def frameOwner (e : Nat) : Nat := field e 0 16
def frameMode (e : Nat) : Nat := field e 16 2

/-- A key slot serves context `ctx` with keys of a mode (R398). -/
def State.keyOk (s : State) (ctx key mode : Nat) : Bool :=
  let k := Tab.get {} s.keys key
  decide (1 ≤ key) && decide (key ≤ 127) && k.full && decide (k.owner = ctx) && (k.guarded == decide (mode = 2))

/-- The MAC unit of a physical address: the part of its line in its frame (R144). -/
def macUnit (pa : Nat) : Nat := Nat.max (pa - pa % 192) (pa - pa % 65536)
def State.poisoned (s : State) (pa : Nat) : Bool := Tab.get false s.poison (macUnit pa)
/-- The MAC units that the bytes `[pa, pa + n)` of one frame touch (R144). -/
def unitsOf (pa n : Nat) : List Nat :=
  (List.range ((pa + (n - 1)) / 192 + 1 - pa / 192)).map (fun i => Nat.max ((pa / 192 + i) * 192) (pa - pa % 65536))

/-- The bit offset and the number of index bits of a table level (R138). -/
def levelShift : Nat → Nat
  | 0 => 16 | 1 => 21 | 2 => 30 | 3 => 39 | _ => 48
def levelBits : Nat → Nat
  | 0 => 5 | 4 => 8 | _ => 9

/-- The endpoint of a window address, and the far party's address for it: REMOTE BASE and the offset (R420). -/
def winEp (pa : Nat) : Nat := (pa - winBase) / 2 ^ 30
def State.winAddr (s : State) (pa : Nat) : Word := (Tab.get {} s.endpoints (winEp pa)).rbase + BitVec.ofNat 64 (pa % 2 ^ 30)

/-- Combines two values of a reduction: operation, type, memory value, operand (R174, R204). -/
def redFn (op : ROp) (ty : ETy) (a b : Nat) : Nat × FFlags :=
  let w := widthOf ty
  match fmtOf false ty with
  | some f =>
    if isFlt ty then
      let x := f.decode false a
      let y := f.decode false b
      match op with
      | .add => f.encode Rnd.nearest (FVal.add .rne x y)
      | .min => f.encode Rnd.nearest (FVal.minmax false x y)
      | .max => f.encode Rnd.nearest (FVal.minmax true x y)
      | .and | .or | .xor | .minu | .maxu => (a, 0)
    else (a, 0)
  | none =>
    let sa := toSigned w a
    let sb := toSigned w b
    (match op with
      | .add => (a + b) % 2 ^ w
      | .and => a &&& b
      | .or => a ||| b
      | .xor => a ^^^ b
      | .min => if sa ≤ sb then a else b
      | .max => if sa ≤ sb then b else a
      | .minu => Nat.min a b
      | .maxu => Nat.max a b, 0)

/-- A tag after a reservation of a window by an index (R372): `v` the tag, `x` the reservation as WIN and IDX. -/
def tagFn (v x : Nat) : Nat := if v / 2 ^ 40 = x / 2 ^ 40 then Nat.min v x else x

/-- The value that an entry leaves in memory (R174, R199, R372). -/
def PartOp.apply (o : PartOp) (mem val : Nat) : Nat :=
  match o with
  | .red op ty => (redFn op ty mem val).1
  | .arrive => (mem + val) % 2 ^ 32
  | .rsv => tagFn mem val

/-- Inserts an entry into a list in fold order. -/
def Partial.insert (p : Partial) : List Partial → List Partial
  | [] => [p]
  | q :: r => if p.lc < q.lc then p :: q :: r else q :: Partial.insert p r
/-- The entries of a line in fold order: ascending logical core, then the order in which they were gathered (R174). -/
def Ctx.entriesOf (c : Ctx) (line : Nat) : List Partial :=
  (c.partials.filter (fun p => decide (p.line = line))).foldl (fun l p => p.insert l) []

/-- The line of a memory key, by the key of its first byte (R129, R144). -/
def keyLine (k : Nat) : Nat := if k < 2 ^ 48 then k - k % 192 else k - (k - 2 ^ 48) % lsSize % 192

/-- A byte of memory once its line's entries are folded, as any access other than a gather finds it (R174). -/
def State.seenByte (s : State) (c : Ctx) (pa : Nat) : Byte :=
  if c.partials.isEmpty || inWindow pa then s.physByte pa
  else Mem.read ((c.entriesOf (keyLine pa)).foldl (fun m p =>
    Mem.write m p.key (leBytes p.size (p.op.apply (leNat (Mem.bytes m p.key p.size)) p.val))) s.mem) pa
def State.seenNat (s : State) (c : Ctx) (pa : Nat) : Nat → Nat
  | 0 => 0
  | n + 1 => (s.seenByte c pa).toNat + 256 * State.seenNat s c (pa + 1) n

/-- What reading a table entry at a physical address meets: tables are read in the mode of their frame, encrypted ones under the
context's table key (R138, R147, R146). -/
def State.tableFault (s : State) (ctx : Nat) (c : Ctx) (pa : Nat) : Option TrapKind :=
  let e := s.frame pa
  if !inHbm pa then some .protection
  else if frameMode e ≠ 0 ∧ !s.keyOk ctx c.cr.tkey (frameMode e) then some .keyAbsent
  else if s.poisoned pa then some .integrity
  else none

/-- The checks of R140 on a leaf at `level`, other than its V bit. -/
def leafOk (c : Ctx) (va level w0 w1 : Nat) : Bool :=
  let f := field w0 16 32 * 65536
  let size := 2 ^ levelShift level
  decide (level < 3) && decide (field w0 48 16 = 0) && decide (field w0 15 1 = 0) && decide (field w0 7 1 = 0) &&
  decide (field w0 2 2 ≠ 3) && (decide (field w0 2 2 ≠ 0) || decide (field w0 8 7 = 0)) && decide (f % size = 0) &&
  decide (field w1 26 38 = 0) && (inHbm f || inWindow f) && decide (f / 65536 % 3 = (va - va % size) / 65536 % 3) &&
  decide (field w1 0 12 < c.cr.ncsets)

/-- The leaf fields of an entry for address `va` (R139). -/
def leafOf (va level w0 w1 : Nat) : Leaf :=
  { pa := field w0 16 32 * 65536 + va % 2 ^ levelShift level
    r := decide (field w0 4 1 = 1), w := decide (field w0 5 1 = 1), x := decide (field w0 6 1 = 1)
    mode := field w0 2 2, key := field w0 8 7, home := field w1 24 2, acnt := field w1 12 12, cset := field w1 0 12, level := level }

/-- One entry of a walk, in a table of level `n`: the leaf, or the table of the next level (R138, R140).
DEDUCED (log 74): a table in a host window is refused as one in an unassigned range. -/
def State.tableEntry (s : State) (ctx : Nat) (c : Ctx) (va n table : Nat) : Except TrapKind (Leaf ⊕ Nat) :=
  let ea := table + 16 * field va (levelShift n) (levelBits n)
  match s.tableFault ctx c ea with
  | some k => .error k
  | none =>
    let w0 := s.seenNat c ea 8
    let w1 := s.seenNat c (ea + 8) 8
    let next := field w0 9 39 * 512
    if w0 % 2 = 0 then .error .pageAbsent
    else if field w0 1 1 = 1 then (if leafOk c va n w0 w1 then .ok (.inl (leafOf va n w0 w1)) else .error .protection)
    else if n ≠ 0 ∧ w0 = next + 1 ∧ w1 = 0 ∧ next % (16 * 2 ^ levelBits (n - 1)) = 0 ∧ inHbm next = true then .ok (.inr next)
    else .error .protection

/-- The physical addresses of the entries that a walk from a table of level `n` reads. -/
def State.walkPath (s : State) (ctx : Nat) (c : Ctx) (va : Nat) : Nat → Nat → List Nat
  | 0, table => [table + 16 * field va (levelShift 0) (levelBits 0)]
  | m + 1, table =>
    (table + 16 * field va (levelShift (m + 1)) (levelBits (m + 1))) ::
      match s.tableEntry ctx c va (m + 1) table with
      | .ok (.inr next) => State.walkPath s ctx c va m next
      | _ => []

/-- What follows an entry of a walk. -/
def walked (r : Except TrapKind (Leaf ⊕ Nat)) (onward : Nat → Except TrapKind Leaf) : Except TrapKind Leaf :=
  match r with
  | .error k => .error k
  | .ok (.inl l) => .ok l
  | .ok (.inr next) => onward next

/-- A walk from a table of level `n` (R138, R140). -/
def State.walk (s : State) (ctx : Nat) (c : Ctx) (va : Nat) : Nat → Nat → Except TrapKind Leaf
  | 0, table => walked (s.tableEntry ctx c va 0 table) (fun _ => .error .protection)
  | m + 1, table => walked (s.tableEntry ctx c va (m + 1) table) (fun next => State.walk s ctx c va m next)

/-- The leaf that maps a global address of a context. -/
def State.leaf (s : State) (ctx va : Nat) : Except TrapKind Leaf :=
  let c := s.ctxOf ctx
  if c.cr.root % 4096 = 0 ∧ inHbm c.cr.root = true then s.walk ctx c va 4 c.cr.root else .error .protection

/-- What the memory controller refuses (R145, R146, R147, R398, R399). -/
def State.controller (s : State) (ctx : Nat) (l : Leaf) (pa : Nat) : Option TrapKind :=
  if inWindow pa then (if l.mode = 0 then none else some .modeAlias)
  else
    let e := s.frame pa
    if frameOwner e ≠ ctx ∨ frameMode e ≠ l.mode then some .modeAlias
    else if l.mode ≠ 0 ∧ !s.keyOk ctx l.key l.mode then some .keyAbsent
    else none

/-- A poisoned MAC unit among those of the bytes from `pa` (R146); a write that would raise a full version counter meets the same
(R401). -/
def State.integrity (s : State) (l : Leaf) (pa n : Nat) (write : Bool) : Bool :=
  (unitsOf pa n).any (fun u => Tab.get false s.poison u || (write && decide (l.mode = 2) && decide (Tab.get 0 s.versions u = 2 ^ 64 - 1)))

/-- The endpoint of a window refuses the `n` bytes from an address: it is not in RUN, or a byte lies at or above REMOTE LENGTH (R133,
R420). -/
def State.windowDown (s : State) (pa n : Nat) : Bool :=
  let e := Tab.get {} s.endpoints (winEp pa)
  decide (e.state ≠ .run) || decide (e.rlen ≤ pa % 2 ^ 30 + (n - 1))

/-- Bytes at a virtual address as an engine of the context finds them, by the tables alone. -/
def State.peekByte (s : State) (ctx va : Nat) : Option Byte :=
  match s.leaf ctx va with
  | .ok l => some (s.seenByte (s.ctxOf ctx) l.pa)
  | .error _ => none
def State.peekBytes (s : State) (ctx va : Nat) (n : Nat) : Option (List Byte) :=
  if n ≤ 65536 ∧ va % 65536 ≤ 65536 - n then
    match s.leaf ctx va with
    | .ok l => some ((List.range n).map (fun i => s.seenByte (s.ctxOf ctx) (l.pa + i)))
    | .error _ => none
  else (List.range n).mapM (fun i => s.peekByte ctx (va + i))
def State.peekNat (s : State) (ctx va n : Nat) : Option Nat := (s.peekBytes ctx va n).map leNat

/-- One piece of an access: its memory key, its length, its address or offset, and the core whose store it is in, if any. -/
structure Seg where
  key : Nat
  len : Nat
  off : Nat
  ls  : Option Nat := none
  deriving DecidableEq, Repr

/-- Cuts `[va, va + n)` at every 64 KiB boundary (R131). -/
def cut64K (va n : Nat) : List (Nat × Nat) :=
  if n ≤ 65536 - va % 65536 then [(va, n)]
  else
    (List.range ((va + n - 1) / 65536 + 1 - va / 65536)).map (fun i =>
      let lo := Nat.max va ((va / 65536 + i) * 65536)
      (lo, Nat.min (va + n) ((va / 65536 + i + 1) * 65536) - lo))

/-- The lines that a segment touches, by the key of their first byte. -/
def Seg.lines (g : Seg) : List Nat :=
  let lo := g.off / 192
  let hi := (g.off + (g.len - 1)) / 192
  (List.range (hi + 1 - lo)).map (fun i => g.key + (lo + i) * 192 - g.off)

/-- The bytes of segments, in order. -/
def State.segBytes (s : State) (gs : List Seg) : List Byte :=
  gs.flatMap (fun g => (List.range g.len).map (fun i => s.physByte (g.key + i)))

def State.segNat (s : State) (gs : List Seg) : Nat := leNat (s.segBytes gs)

/-- What a read of host windows sends: a READ for each piece (R420). -/
def State.askWindows (s : State) (gs : List Seg) : State :=
  { s with outbox := s.outbox ++ (gs.filter (fun g => inWindow g.key)).map (fun g => .windowRead (winEp g.key) (s.winAddr g.key) g.len) }

/-- The number under which stores of the hardware itself are noted: no slot has it. -/
def hwParty : Nat := 2 ^ 16

/-- A frame is poisoned as a whole (R401). -/
def State.poisonFrame (s : State) (f : Nat) : State :=
  { s with
    poison := (unitsOf (65536 * f) 65536).foldl (fun t u => Tab.set false t u true) s.poison
    frames := Tab.upd 0 s.frames f (fun e => e ||| 0x40000) }

/-- The GUARDED units of a segment whose version counter cannot rise by `n` (R401). -/
def State.worn (s : State) (g : Seg) (n : Nat) : Bool :=
  g.ls.isNone && decide (frameMode (s.frame g.key) = 2) && (unitsOf g.key g.len).any (fun u => decide (2 ^ 64 ≤ Tab.get 0 s.versions u + n))

/-- Writes bytes into segments; bytes for a host window leave the device (R420), and GUARDED units take a new version (R401). A write of the
hardware's own that a full counter refuses is dropped, and the frame is poisoned (R401, R433). -/
def State.putSegs (s : State) (party : Nat) : List Seg → List Byte → State
  | [], _ => s
  | g :: r, bs =>
    let b := bs.take g.len
    let s' :=
      if inWindow g.key then
        { s with outbox := s.outbox ++ [.window (winEp g.key) (s.winAddr g.key) b] }
      else if s.worn g 1 then s.poisonFrame (g.key / 65536)
      else
        { s with
          mem := Mem.write s.mem g.key b
          codeLog := if g.ls.isSome then s.codeLog else { party := party, key := g.key, old := Mem.bytes s.mem g.key g.len } :: s.codeLog
          versions := if g.ls.isNone ∧ frameMode (s.frame g.key) = 2 then (unitsOf g.key g.len).foldl (fun v u => Tab.upd 0 v u (· + 1)) s.versions
            else s.versions }
    State.putSegs s' party r (bs.drop g.len)

/-- Bytes written by hardware at a virtual address, by the tables alone: dropped where they do not map it, and where a window's endpoint
refuses it (R133, R433). -/
def State.rawWrite (s : State) (ctx va : Nat) (bs : List Byte) : State :=
  match (cut64K va bs.length).mapM (fun q => (s.leaf ctx q.1).map (fun l => ({ key := l.pa, len := q.2, off := q.1 } : Seg))) with
  | .ok gs => if gs.any (fun g => inWindow g.key && s.windowDown g.key g.len) then s else s.putSegs hwParty gs bs
  | .error _ => s

end Sys2Proof.Machine
end

