-- ==== Sys2Proof/Machine/Mailbox.lean ====
section
/-! DEFINITION. Messages, channels, mailboxes and ready queues (08 R186 to R194, 05 R96, R106, R109). -/

namespace Sys2Proof.Machine

/-- N, the size of an overflow ring (R189, R391). -/
def Ctx.ringN (c : Ctx) : Nat := 2 ^ (if c.cr.ovflog = 0 then 12 else c.cr.ovflog)

/-- H < 32 + N − 256: a MSG has a place (R189). -/
def State.msgRoom (s : State) (ctx lc : Nat) : Bool := decide ((s.core ctx lc).box.length + 256 < 32 + (s.ctxOf ctx).ringN)

/-- H < 32 + N: a generated event has a place (R189). -/
def State.eventRoom (s : State) (ctx lc : Nat) : Bool := decide ((s.core ctx lc).box.length < 32 + (s.ctxOf ctx).ringN)

/-- The header of a message (R186). -/
def Msg.header (m : Msg) : Word :=
  BitVec.ofNat 64 (m.src % 1024 + at' 10 m.kind.code + at' 16 m.nan.toNat + at' 17 (m.seq % 2 ^ 15) + at' 32 (m.tag % 2 ^ 16))

/-- Payload word i, 1 to 7. -/
def Msg.word (m : Msg) (i : Nat) : Word := m.words.getD (i - 1) 0

/-- The eight words that a take delivers: the header and the seven payload words (R24). -/
def Msg.deliver (m : Msg) : List Word := m.header :: (List.range 7).map (fun i => m.word (i + 1))

/-- An active message, which the service slot runs and no take returns (R98). -/
def Msg.active (m : Msg) : Bool := decide (m.kind = .msg) && decide (2 ^ 15 ≤ m.tag)

/-- A message answers an await word (R105). -/
def Await.matches (a : Await) (m : Msg) : Bool := decide (a.word = 0) && decide (a.kind = m.kind) && a.src.all (fun x => decide (x = m.src)) && !m.active

/-- Two await words may compete for one message. -/
def Await.meets (a b : Await) : Bool :=
  decide (a.word = 0) && decide (b.word = 0) && decide (a.kind = b.kind) && (decide (a.src = none) || decide (b.src = none) || decide (a.src = b.src))

/-- The clock of a party of a context (R164). -/
def State.clock (s : State) (ctx party : Nat) : Clock := Tab.get 0 (s.ctxOf ctx).clocks party

/-- The later of two times. -/
def Clock.later (a b : Clock) : Clock := if a.toNat ≤ b.toNat then b else a

/-- The stamp of an event that the machine itself sends: the latest clock of the context's parties, since the machine is none of them (log 58). -/
def State.now (s : State) (ctx : Nat) : Clock := (s.ctxOf ctx).clocks.foldl (fun t e => t.later e.2) 0

/-- A party's clock raised to at least `t`, and then by one (R172, R179). -/
def State.tick (s : State) (ctx party : Nat) (t : Clock) : State :=
  s.modCtx ctx (fun c => { c with clocks := Tab.set 0 c.clocks party ((Tab.get 0 c.clocks party).later t + 1) })

/-- Queues an entry at the tail of its logical core's ready queue of its priority (R109). -/
def State.enqueue (s : State) (ctx lc : Nat) (q : QEntry) : State :=
  let age := (s.ctxOf ctx).nextAge
  (s.modCore ctx lc (fun c => { c with ready := c.ready ++ [{ q with age := age }] })).modCtx ctx (fun c => { c with nextAge := age + 1 })

/-- The messages that answer `a` beyond those that continuations queued already will take (R193). -/
def LCore.spare (c : LCore) (a : Await) : Bool :=
  decide ((c.ready.filter (fun e => e.await.any (Await.meets a))).length < (c.box.filter a.matches).length)

/-- Takes the first suspended entry whose message has come. -/
def LCore.firstWoken (c : LCore) : List QEntry → Option (QEntry × List QEntry)
  | [] => none
  | e :: r =>
    if e.await.any (fun a => c.spare a) then some (e, r)
    else (LCore.firstWoken c r).map (fun p => (p.1, e :: p.2))

/-- The virtual address of pool record `i` (R106, R391). -/
def Ctx.recordAddr (c : Ctx) (i : Nat) : Nat := c.cr.pool.toNat + 192 * i

/-- The queue link of a record that enters a queue holds a value of the hardware's choosing (R103, R106). -/
def State.linkRecord (s : State) (ctx i : Nat) : State :=
  (s.rawWrite ctx ((s.ctxOf ctx).recordAddr i + 160) (leBytes 8 (Config.queueLink s.draws).toNat)).draw

/-- Queues a suspended continuation or waiting slot image whose awaited message has come (R193, R112). -/
def State.wake (s : State) (ctx lc : Nat) : State :=
  let c := s.core ctx lc
  match c.firstWoken c.suspended with
  | none => s
  | some (e, r) =>
    let s1 := (s.setCore ctx lc { c with suspended := r }).enqueue ctx lc e
    if e.image then s1 else s1.linkRecord ctx e.ref

/-- A published wait of a continuation begins: the cycle after this one, and the cycle from which its next probe is counted (R208). -/
def State.startWait (s : State) (ctx cid : Nat) : State :=
  s.modCtx ctx (fun c => { c with probed := Tab.set (0, 0) c.probed cid (s.cycle + 1, s.cycle) })

/-- Suspends an entry that awaits a message; it is queued at once if one is already held (R193). -/
def State.suspend (s : State) (ctx lc : Nat) (q : QEntry) : State :=
  ((if q.image then s else s.startWait ctx q.cid).modCore ctx lc (fun c => { c with suspended := c.suspended ++ [q] })).wake ctx lc

/-- The channel of a message at its destination (R188). -/
def Msg.channel (m : Msg) : Nat := m.src * 16 + m.kind.code

/-- The send step: appends a message to its channel with the channel's next SEQ and the sender's clock as stamp (R172, R188). -/
def State.append (s : State) (ctx dst : Nat) (m : Msg) (stamp : Clock) : State :=
  let c := s.core ctx dst
  let q := Tab.get 0 c.seqs m.channel
  (s.setCore ctx dst { c with
    box := c.box ++ [{ m with seq := q % 2 ^ 15, stamp := stamp }], seqs := Tab.set 0 c.seqs m.channel (q + 1) }).wake ctx dst

/-- A TRAPNOTE for the supervisor core: it is sent in a later step (R172, R187, R190). -/
def State.trapnote (s : State) (ctx cause src : Nat) (w2 w3 : Word) : State :=
  s.modCtx ctx (fun c => { c with notes := c.notes ++ [{ src := src, kind := .trapnote, words := [BitVec.ofNat 64 cause, w2, w3] }] })

/-- The send step of a TRAPNOTE: placed with the number of events dropped, or dropped and counted when the supervisor mailbox is full
(R187, R190). -/
def State.sendNote (s : State) (ctx : Nat) (m : Msg) : State :=
  let c := s.ctxOf ctx
  if s.eventRoom ctx c.cr.supcore then
    (s.append ctx c.cr.supcore { m with words := m.words ++ [0, 0, 0, BitVec.ofNat 64 c.dropped] } (s.now ctx)).modCtx ctx (fun c => { c with dropped := 0 })
  else s.modCtx ctx (fun c => { c with dropped := Nat.min (c.dropped + 1) (2 ^ 64 - 1) })

/-- The steps `ids` that would each generate an event of channel `ch` at `dst` wait for a place; the first such wait since the last completed
one sends a TRAPNOTE of cause 4 (R189). -/
def State.waitBox (s : State) (ctx dst ch : Nat) (ids : List Nat) : State :=
  let c := s.core ctx dst
  let new := (ids.map (fun i => (ch, i))).filter (fun w => !c.waits.contains w)
  if new.isEmpty then s
  else
    let s1 := s.setCore ctx dst { c with waits := c.waits ++ new, boxNoted := true }
    if c.boxNoted then s1 else s1.trapnote ctx 4 dst 0 0

/-- The step in hand, that of the slot in focus, waits for a place for its event (R189). -/
def State.fullWait (s : State) (ctx dst ch : Nat) : State := s.waitBox ctx dst ch [s.focus.key]

/-- The events of a channel that stand ready at `dst` wait for a place, each of them alone (R189, R200). -/
def State.pendingWait (s : State) (ctx dst ch : Nat) : State :=
  let c := s.ctxOf ctx
  s.waitBox ctx dst ch (((c.deferred.filter (fun d => decide (d.dst = dst) && decide (d.msg.channel = ch))).map (·.ticket) ++
    (c.cwatches.filter (fun q => q.hit && decide (q.lc = dst) && decide (ch = dst * 16 + Kind.count.code))).map (·.ticket)).map (2 ^ 40 + ·))

/-- An event of channel `ch` has found its place: a wait of its step is completed, that of the slot in focus before another (R189). -/
def LCore.served (c : LCore) (ch slot : Nat) : LCore :=
  match (if c.waits.contains (ch, slot) then some (ch, slot) else c.waits.find? (fun w => decide (w.1 = ch))) with
  | none => c
  | some w => { c with waits := c.waits.erase w, boxNoted := false }

/-- A generated event with its stamp: none when the mailbox is full, and then the step that generates it waits (R189). -/
def State.eventBy (s : State) (ctx dst : Nat) (m : Msg) (stamp : Clock) : Option State :=
  if s.eventRoom ctx dst then some ((s.append ctx dst m stamp).modCore ctx dst (·.served m.channel s.focus.key)) else none

/-- An event that the machine itself sends. -/
def State.event (s : State) (ctx dst : Nat) (m : Msg) : Option State := s.eventBy ctx dst m (s.now ctx)

/-- The channels of a kind that hold a message, each by its source, in the order of their oldest messages. -/
def LCore.channels (c : LCore) (k : Kind) : List Nat :=
  ((c.box.filter (fun m => decide (m.kind = k) && !m.active)).map (·.src)).eraseDups

/-- The source whose channel a take uses: the named one, or one that the machine chooses (R172, R188). -/
def State.channel (s : State) (ctx lc : Nat) (a : Await) : Option Nat :=
  match a.src with
  | some x => if (s.core ctx lc).box.any a.matches then some x else none
  | none =>
    let cs := (s.core ctx lc).channels a.kind
    if cs.length = 0 then none else some (cs.getD (Config.pick s.draws % cs.length) 0)

/-- The oldest message of a channel, or none. -/
def State.peek (s : State) (ctx lc : Nat) (a : Await) : Option Msg :=
  (s.channel ctx lc a).bind (fun x => (s.core ctx lc).box.find? (fun m => decide (m.kind = a.kind) && decide (m.src = x) && !m.active))

/-- The oldest outstanding event request of kind `k` is answered (R191). -/
def LCore.answered (c : LCore) (k : Kind) : LCore :=
  match c.requested.find? (fun r => decide (r.kind = k.code)) with
  | none => c
  | some r => { c with requested := c.requested.erase r }

/-- A logical core has taken the COUNT message by which a guard's cell was found reached in this phase (R30, R184). -/
def Ctx.countTaken (c : Ctx) (lc : Nat) (m : Msg) : Ctx :=
  if m.kind = .count ∧ m.reach = c.phase + 1 then
    { c with guards := c.guards.map (fun g => if g.cell = m.word 1 then { g with taken := lc :: g.taken } else g) }
  else c

/-- Takes a message in one step: it leaves its mailbox, and the receiver's clock passes its stamp (R172). -/
def State.takeMsg (s : State) (ctx lc party : Nat) (m : Msg) : State :=
  (((s.modCore ctx lc (fun c => { c with box := c.box.erase m }.answered m.kind)).modCtx ctx (·.countTaken lc m)).tick ctx party
    m.stamp).draw

/-- R191: another slot of this logical core has an untaken request for an event of kind `k` in this phase. -/
def LCore.requestClash (c : LCore) (phase pos : Nat) (k : Kind) : Bool :=
  c.requested.any (fun r => decide (r.kind = k.code) && decide (r.pos ≠ pos) && decide (r.phase = phase))

/-- Records an event request of kind `k` by slot `pos` (R191). -/
def LCore.request (c : LCore) (phase pos : Nat) (k : Kind) : LCore :=
  { c with requested := c.requested ++ [{ kind := k.code, pos := pos, phase := phase }] }

/-- A ticket for an event request: requests of one logical core are answered in this order in deterministic mode (R191). -/
def State.ticket (s : State) (ctx : Nat) : Nat × State :=
  let c := s.ctxOf ctx
  (c.nextAge, s.setCtx ctx { c with nextAge := c.nextAge + 1 })

/-- Takes a free record of the continuation pool; which one is not architectural (R106). -/
def Ctx.takeRecord (c : Ctx) : Option (Nat × Ctx) :=
  match c.poolFree with
  | [] => none
  | i :: r => some (i, { c with poolFree := r })

/-- A record returns to the pool; it keeps its bytes (R106). -/
def State.freeRecord (s : State) (ctx i : Nat) : State := s.modCtx ctx (fun c => { c with poolFree := c.poolFree ++ [i] })

/-- The instruction of slot `pos` holds it for want of a record; the first such hold since the last completed one sends a TRAPNOTE of cause
1 (R106). -/
def State.poolHold (s : State) (ctx lc pos : Nat) : State :=
  let c := s.core ctx lc
  if c.poolHolds.contains pos then s
  else
    let s1 := s.setCore ctx lc { c with poolHolds := c.poolHolds ++ [pos], poolNoted := true }
    if c.poolNoted then s1 else s1.trapnote ctx 1 lc 0 0

/-- Slot `pos` holds for no record any more; `got` says that it has its record (R106). -/
def State.poolOver (s : State) (ctx lc pos : Nat) (got : Bool) : State :=
  let c := s.core ctx lc
  if c.poolHolds.contains pos then s.setCore ctx lc { c with poolHolds := c.poolHolds.erase pos, poolNoted := c.poolNoted && !got } else s

end Sys2Proof.Machine
end

