-- ==== Sys2Proof/Machine/Image.lean ====
section
/-! DEFINITION. The byte layouts of hardware records: continuation records (05 R103 to R105), slot images (05 R111, 16 R335, R336)
and fault records (16 R325). -/

namespace Sys2Proof.Machine

/-- The number that `n` bytes at offset `o` of a record hold. -/
def fieldAt (bs : List Byte) (o n : Nat) : Nat := leNat ((bs.drop o).take n)

def zeros (n : Nat) : List Byte := List.replicate n 0

/-- The status word (R104). -/
def statusWord (bind cause : Nat) (nan : Bool) (prio : Nat) : Nat := at' 16 bind + at' 4 cause + at' 2 nan.toNat + prio % 4

/-- The await word (R105); zero when nothing is awaited. -/
def awaitWord : Option Await → Nat
  | none => 0
  | some a => if a.word ≠ 0 then a.word else at' 60 a.kind.code + at' 59 a.src.isSome.toNat + at' 54 a.xd + a.src.getD 0 % 1024

/-- The await word read back; no message answers one that names no kind (R105, R329). -/
def awaitOf (w : Nat) : Option Await :=
  let src := if field w 59 1 = 1 then some (field w 0 10) else none
  if w = 0 then none
  else
    match Kind.ofCode (field w 60 4) with
    | some k => some { kind := k, src := src, xd := field w 54 5 }
    | none => some { kind := .msg, src := src, xd := field w 54 5, word := w }

/-- The registers that a mask names, ascending (R23: bit 0 is ignored). -/
def maskRegs (m : BitVec 32) : List Nat := (List.range 32).filter (fun n => decide (0 < n) && m.getLsbD n)

/-- A continuation record as its fields (R103). -/
structure Record where
  pc    : Word
  mask  : BitVec 32
  bind  : Nat
  cause : Nat := 0
  nan   : Bool := false
  prio  : Nat := 0
  node  : Word := 0
  k1    : PReg := BitVec.allOnes 48
  live  : List Word := []
  link  : Word := 0
  await : Option Await := none
  deriving DecidableEq, Repr

/-- The 192 bytes of a record (R103). -/
def Record.bytes (r : Record) : List Byte :=
  leBytes 8 r.pc.toNat ++ leBytes 4 r.mask.toNat ++ leBytes 4 (statusWord r.bind r.cause r.nan r.prio) ++ leBytes 8 r.node.toNat ++
  leBytes 8 r.k1.toNat ++ (List.range 16).flatMap (fun i => leBytes 8 (r.live.getD i 0).toNat) ++ leBytes 8 r.link.toNat ++
  leBytes 8 (awaitWord r.await) ++ zeros 16

/-- The offset of the first field of a record that R106 refuses, if any. -/
def Record.badField (bs : List Byte) : Option Nat :=
  let st := fieldAt bs 12 4
  let m := fieldAt bs 8 4
  if field (fieldAt bs 0 8) 56 8 ≠ 0 then some 0
  else if m % 2 = 1 ∨ popCount 32 m > 16 then some 8
  else if field st 26 6 ≠ 0 ∨ field st 8 8 ≠ 0 ∨ field st 3 1 ≠ 0 ∨ (768 ≤ field st 16 10 ∧ field st 16 10 ≤ 1022) then some 12
  else if field (fieldAt bs 24 8) 48 16 ≠ 0 then some 24
  else if field (fieldAt bs 168 8) 10 44 ≠ 0 then some 168
  else if fieldAt bs 176 16 ≠ 0 then some 176
  else none

/-- The fields of a record (R103). -/
def Record.parse (bs : List Byte) : Record :=
  let st := fieldAt bs 12 4
  let m := BitVec.ofNat 32 (fieldAt bs 8 4)
  { pc := BitVec.ofNat 64 (fieldAt bs 0 8), mask := m, bind := field st 16 10, cause := field st 4 4
    nan := decide (field st 2 1 = 1), prio := field st 0 2, node := BitVec.ofNat 64 (fieldAt bs 16 8)
    k1 := BitVec.ofNat 48 (fieldAt bs 24 8)
    live := (List.range (popCount 32 m.toNat)).map (fun i => BitVec.ofNat 64 (fieldAt bs (32 + 8 * i) 8))
    link := BitVec.ofNat 64 (fieldAt bs 160 8), await := awaitOf (fieldAt bs 168 8) }

/-- The entry of a stopped instruction in the group save area (R335). -/
def Stopped.bytes (e : Stopped) : List Byte :=
  leBytes 8 e.ipc.toNat ++ leBytes 16 e.word ++ leBytes 4 e.prog ++ zeros 4 ++ leBytes 8 e.ra.toNat ++ leBytes 8 e.rb.toNat ++
  leBytes 192 e.a.toNat ++ leBytes 192 e.b.toNat ++ leBytes 96 e.c

/-- A stopped instruction read back from its entry at offset `o` (R335). -/
def Stopped.parse (bs : List Byte) (o : Nat) : Stopped :=
  { ipc := BitVec.ofNat 64 (fieldAt bs o 8), word := fieldAt bs (o + 8) 16, prog := fieldAt bs (o + 24) 4
    ra := BitVec.ofNat 64 (fieldAt bs (o + 32) 8), rb := BitVec.ofNat 64 (fieldAt bs (o + 40) 8)
    a := BitVec.ofNat 1536 (fieldAt bs (o + 48) 192), b := BitVec.ofNat 1536 (fieldAt bs (o + 240) 192)
    c := fieldAt bs (o + 432) 96 }

/-- The in and local registers x8 to x23 of the current window (R99). -/
def Slot.inLocal (t : Slot) : List Word := t.rxs 8 16

def wordsBytes (ws : List Word) : List Byte := ws.flatMap (fun w => leBytes 8 w.toNat)

/-- The two entries of stopped instructions in a slot image (R111). -/
def stoppedBytes : List Stopped → List Byte
  | [] => zeros 1056
  | [e] => e.bytes ++ zeros 528
  | e :: f :: _ => e.bytes ++ f.bytes

/-- Bytes 0 to 6831 of a slot image: the registers and windows (R111). -/
def Slot.imageRegs (t : Slot) : List Byte :=
  let wins := t.older ++ [t.inLocal]
  (List.range 32).flatMap (fun i => leBytes 192 (t.rv i).toNat) ++ wordsBytes (t.rxs 1 7) ++
  (List.range 4).flatMap (fun j => wordsBytes ((List.range 16).map (fun i => (wins.getD j []).getD i 0))) ++ wordsBytes (t.rxs 24 8) ++
  (List.range 7).flatMap (fun i => leBytes 8 (t.rk (i + 1)).toNat)

/-- Bytes 6832 to 8191 of a slot image with image PC `pc`: its status (R111). TOP has 19 bits: a spill top of 0x8_0000 stands as 0 (log 61). -/
def Slot.imageStatus (t : Slot) (pc : Word) : List Byte :=
  leBytes 8 pc.toNat ++ leBytes 8 t.region.toNat ++
  leBytes 4 t.rmask.toNat ++ leBytes 4 (statusWord t.bind 0 t.nanread t.prio) ++ leBytes 8 t.key.toNat ++ leBytes 8 t.rsrN ++
  leBytes 8 t.progress ++ leBytes 8 t.fflags.toNat ++ leBytes 8 (at' 32 t.spillLimit + t.spillTop % 2 ^ 19) ++
  leBytes 8 (t.depth + at' 16 t.w) ++ leBytes 8 (awaitWord t.await) ++
  leBytes 8 (t.stopped.length + at' 2 t.sup.toNat + at' 3 t.defbrk.toNat) ++ zeros 56 ++ stoppedBytes t.stopped ++ zeros 160

/-- The 8 KiB image of a slot with image PC `pc` (R111). -/
def Slot.image (t : Slot) (pc : Word) : List Byte := t.imageRegs ++ t.imageStatus pc

/-- The instruction word of a stopped entry passes the decode checks of R46 on the word itself. -/
def wordOk (w : Nat) : Bool := (decode (leBytes 16 w)).isOk

/-- The offset of the first field of a frame that breaks its layout (R329). -/
def Slot.imageBad (bs : List Byte) : Option Nat :=
  let st := fieldAt bs 6852 4
  let d := fieldAt bs 6896 8
  let h := fieldAt bs 6912 8
  if field st 26 6 ≠ 0 ∨ field st 8 8 ≠ 0 ∨ field st 3 1 ≠ 0 ∨ (768 ≤ field st 16 10 ∧ field st 16 10 ≤ 1022) then some 6852
  else if d / 2 ^ 19 ≠ 0 ∨ field d 16 3 = 0 ∨ field d 16 3 > 4 ∨ field d 16 3 > d % 2 ^ 16 + 1 then some 6896
  else if h % 4 = 3 ∨ h / 2 ^ 4 ≠ 0 then some 6912
  else if 0 < h % 4 ∧ !wordOk (fieldAt bs 6984 16) then some 6984
  else if 1 < h % 4 ∧ !wordOk (fieldAt bs 7512 16) then some 7512
  else none

/-- The slot that an image describes; what the image does not hold is taken from `t` (R111). -/
def Slot.restore (t : Slot) (bs : List Byte) : Slot :=
  let d := fieldAt bs 6896 8
  let w := field d 16 3
  let st := fieldAt bs 6852 4
  let h := fieldAt bs 6912 8
  let word (o : Nat) : Word := BitVec.ofNat 64 (fieldAt bs o 8)
  let block (j : Nat) : List Word := (List.range 16).map (fun i => word (6200 + 128 * j + 8 * i))
  let t1 : Slot := { t with
    x := [], k := []
    v := (List.range 32).foldl (fun v i => Tab.set 0 v i (BitVec.ofNat 1536 (fieldAt bs (192 * i) 192))) []
    older := (List.range (w - 1)).map block, depth := d % 2 ^ 16
    pc := word 6832, region := word 6840, rmask := BitVec.ofNat 32 (fieldAt bs 6848 4 / 2 * 2)
    bind := field st 16 10, nanread := decide (field st 2 1 = 1), prio := field st 0 2
    key := word 6856, rsrN := fieldAt bs 6864 8, progress := fieldAt bs 6872 4, fflags := BitVec.ofNat 5 (fieldAt bs 6880 8)
    spillTop := field (fieldAt bs 6888 8) 0 19, spillLimit := field (fieldAt bs 6888 8) 32 20
    await := awaitOf (fieldAt bs 6904 8), sup := decide (field h 2 1 = 1), defbrk := decide (field h 3 1 = 1)
    stopped := (if 0 < h % 4 then [Stopped.parse bs 6976] else []) ++ (if 1 < h % 4 then [Stopped.parse bs 7504] else [])
    tasks := [], longs := [], parked := false, pend := none, stopReq := .none, wait := .none }
  let t2 := (t1.wxs 1 ((List.range 7).map (fun i => word (6144 + 8 * i)))).wxs 8 (block (w - 1))
  let t3 := t2.wxs 24 ((List.range 8).map (fun i => word (6712 + 8 * i)))
  (List.range 7).foldl (fun t i => t.wk (i + 1) (BitVec.ofNat 48 (fieldAt bs (6776 + 8 * i) 8))) t3

/-- The 64 bytes of a fault record (R325) of slot `pos` of logical core `lc`. -/
def Trap.record (tr : Trap) (lc pos : Nat) (sup : Bool) : List Byte :=
  leBytes 2 tr.kind.code ++ leBytes 1 tr.cls.code ++ leBytes 1 tr.reason ++ leBytes 2 tr.lane ++ leBytes 2 tr.code ++
  leBytes 8 tr.pc.toNat ++ leBytes 8 tr.region.toNat ++ leBytes 8 tr.addr.toNat ++ leBytes 4 tr.seq ++ leBytes 4 tr.progress ++
  leBytes 4 tr.mask.toNat ++ leBytes 4 (lc + at' 16 pos + at' 31 sup.toNat) ++ zeros 16

/-- WHERE as a number (R325). -/
def whereWord (lc pos : Nat) (sup : Bool) : Nat := lc + at' 16 pos + at' 31 sup.toNat

/-- Where the image area of a logical core lies (R111, R326, R392): image frames, then the service frame, trap frames, fault-record
places, the frame of each accumulator and the descriptor frame. -/
def Ctx.imageArea (c : Ctx) (lc : Nat) : Nat := c.cr.images.toNat + 0x40000 * lc
def Ctx.imageFrame (c : Ctx) (lc pos : Nat) : Nat := c.imageArea lc + 0x2000 * pos
def Ctx.trapFrame (c : Ctx) (lc pos : Nat) : Nat := c.imageArea lc + 0x12000 + 0x2000 * pos
def Ctx.faultPlace (c : Ctx) (lc pos : Nat) : Nat := c.imageArea lc + 0x22000 + 64 * pos
def Ctx.accFrame (c : Ctx) (lc an : Nat) : Nat := c.imageArea lc + 0x22200 + 9216 * an
def Ctx.descFrame (c : Ctx) (lc : Nat) : Nat := c.imageArea lc + 0x34200

end Sys2Proof.Machine
end

