-- ==== Sys2Proof/Machine/Memory.lean ====
section
/-! DEFINITION. The memory path: the checks of R148 in the order of R431, sector shadows, watches, folds, and the perform steps of R167
(06, 07). -/

namespace Sys2Proof.Machine

/-- Why an access is not performed: a refusal with its kind and fault address, a wait, or a wait for a mailbox place of core `dst`
(R148, R168, R181, R189), and the channel of the event that waits. -/
inductive Halt where
  | refuse (kind : TrapKind) (addr : Word)
  | wait
  | full (dst ch : Nat)
  deriving DecidableEq, Repr

/-- The result of an access step. -/
abbrev Acc (α : Type) := Except Halt α

/-- For whom an access is made: the context and logical core it is attributed to (R183), its NANREAD, its party number (R163), the
source of a WATCH it causes in a store (R196), whether supervisor code makes it (R394), whether it is an access of a continuation
that is no iteration of the live loop (R368), its node pointer (R362), whether cluster sets and shadows apply (R142, R184). -/
structure Who where
  ctx     : Nat
  lc      : Nat
  nan     : Bool := false
  party   : Nat := 0
  hart    : Bool := false
  ep      : Option Nat := none
  sup     : Bool := false
  outside : Bool := false
  node    : Word := 0
  csets   : Bool := true
  shadows : Bool := true
  engine  : Bool := false
  deriving DecidableEq, Repr

/-- The mask that CSET names admits the logical cluster of `lc` (R142); an unreadable mask admits none (log 10). -/
def State.csetOk (s : State) (ctx lc cset : Nat) : Bool :=
  match s.peekNat ctx ((s.ctxOf ctx).cr.csets.toNat + 16 * cset) 16 with
  | some m => decide (m / 2 ^ (lc / 8) % 2 = 1)
  | none => false

/-- `[a, a + n)` and `[b, b + m)` meet. -/
def overlap (a n b m : Nat) : Bool := decide (a < b + m) && decide (b < a + n) && decide (0 < n) && decide (0 < m)

/-- Ranges of a context that programs may not use: the control block outside supervisor code, and the overflow rings
(R189, R394). -/
def Ctx.reserved (c : Ctx) (sup : Bool) (va n : Nat) : Bool :=
  (!sup && overlap va n c.cr.ccb.toNat 8192) || overlap va n c.cr.ovfrings.toNat (768 * c.ringN * 64)

/-- Bytes of a retry buffer for windows of `w` (R375). -/
def retryBytes (w : Nat) : Nat := 32 + 8 * w + 8 * ((w + 63) / 64)

/-- The loop that is live until its final phase step (R367, R368). -/
def Ctx.liveLoop (c : Ctx) : Option Loop := c.loop.filter (fun l => !l.ended)

/-- A plain write of a held record of a live graph, or of the retry buffer of a loop until its completion notice (R348, R375, R376). -/
def Ctx.held (c : Ctx) (va n : Nat) : Bool :=
  c.graphs.any (fun g => overlap va n g.2.addr 192 || overlap va n g.2.nodes (192 * g.2.ncap) ||
    g.2.lists.any (fun p => overlap va n p.1 p.2)) || c.loop.any (fun l => overlap va n l.rbuf.toNat (retryBytes l.w))

/-- The successor list of a node record that R348 holds, by the tables. -/
def State.listRange (s : State) (ctx rec' : Nat) : Option (Nat × Nat) :=
  match s.peekNat ctx (rec' + 16) 8, s.peekNat ctx (rec' + 24) 2, s.peekNat ctx (rec' + 26) 2 with
  | some a, some ns, some sc => if 0 < Nat.max ns sc then some (a, 4 * Nat.max ns sc) else none
  | _, _, _ => none

/-- What is held, with the lists of records that were absent when their graph was registered, once these can be read (R348, R433; DEDUCED,
log 86). -/
def State.held (s : State) (ctx va n : Nat) : Bool :=
  (s.ctxOf ctx).held va n || (s.ctxOf ctx).graphs.any (fun g => g.2.unlisted.any (fun i =>
    (s.listRange ctx (g.2.nodes + 192 * i)).any (fun p => overlap va n p.1 p.2)))

def Need.writes : Need → Bool
  | .w | .rw => true
  | .r | .x | .any => false

/-- The leaf's permission for an access (R141). -/
def Leaf.allows (l : Leaf) : Need → Bool
  | .r => l.r
  | .w => l.w
  | .rw => l.r && l.w
  | .x => l.x
  | .any => l.r || l.w || l.x

/-- The checks of R431 up to the memory controller, for `n` bytes of one 64 KiB page from `va`. -/
def State.checkGlobal (s : State) (w : Who) (need : Need) (va n : Nat) : Acc Seg :=
  let c := s.ctxOf w.ctx
  let a := BitVec.ofNat 64 va
  match s.leaf w.ctx va with
  | .error k => .error (.refuse k a)
  | .ok l =>
    if !l.allows need || c.reserved w.sup va n || (need.writes && !w.engine && s.held w.ctx va n) then .error (.refuse .protection a)
    else if w.csets && !s.csetOk w.ctx w.lc l.cset then .error (.refuse .clusterMask a)
    else if inWindow l.pa && s.windowDown l.pa n then .error (.refuse .lateRefusal a)
    else
      match s.controller w.ctx l l.pa with
      | some k => .error (.refuse k a)
      | none =>
        if !inWindow l.pa && s.integrity l l.pa n need.writes then .error (.refuse .integrity a)
        else .ok { key := l.pa, len := n, off := va }

/-- The checks on one piece of an access. -/
def State.checkPiece (s : State) (w : Who) (need : Need) (p : Place) (n : Nat) : Acc (List Seg) :=
  match p with
  | .glob va => (cut64K va n).mapM (fun q => s.checkGlobal w need q.1 q.2)
  | .ls l off =>
    if off + n > lsSize then .error (.refuse .protection (lsAddr w.lc l off))
    else if l ≠ w.lc ∧ !s.placed w.ctx l then .error (.refuse .lateRefusal (lsAddr w.lc l off))
    else .ok [{ key := lsKey w.ctx l off, len := n, off := off, ls := some l }]

/-- The checks on the pieces of one access step, in ascending order. -/
def State.check (s : State) (w : Who) (need : Need) (ps : List (Place × Nat)) : Acc (List Seg) :=
  (ps.mapM (fun p => s.checkPiece w need p.1 p.2)).map List.flatten

/-- The accesses of a logical core's slots and units are held between its barrier arrival and the phase step; an arrival while a loop is
live holds none until the loop's final phase step (R181). The logical core is that of the party number; a stream hart is a party of its
own (R163). -/
def State.barHeld (s : State) (w : Who) : Bool :=
  !(s.core w.ctx (w.party / 16)).arrivals.isEmpty && w.ep.isNone && !w.engine && !w.hart

/-- The time that no clock passes before a rebase (R180). -/
def clockLimit : Nat := 2 ^ 47
/-- A party of the context can take no step that raises its clock, so that no message is taken either before the rebase (R172, R180). -/
def Ctx.clockFull (c : Ctx) : Bool := c.clocks.any (fun e => decide (clockLimit ≤ e.2.toNat + 1))
/-- The party's next tick would pass the limit: its access waits for the rebase (R180). -/
def State.clockHeld (s : State) (w : Who) : Bool := decide (clockLimit ≤ (s.clock w.ctx w.party).toNat + 1)

/-- The party's accesses wait, at a barrier or for a rebase (R180, R181). -/
def State.paused (s : State) (w : Who) : Bool := s.barHeld w || s.clockHeld w

/-- The sectors that a segment touches, each with the mask of the words touched: the key of its shadow, address or offset, words. A sector
of global memory is named by its virtual address, so that the two parts of one that a page boundary cuts have one shadow (R131, R182). -/
def Seg.sectors (g : Seg) : List (Nat × Nat × Nat) :=
  let lo := g.off / 48
  let hi := (g.off + (g.len - 1)) / 48
  (List.range (hi + 1 - lo)).map (fun i =>
    let so := (lo + i) * 48
    let first := (Nat.max g.off so - so) / 8
    let last := (Nat.min (g.off + (g.len - 1)) (so + 47) - so) / 8
    (if g.ls.isSome then 2 ^ 56 + g.key + so - g.off else so, so,
      ((List.range 6).filter (fun j => decide (first ≤ j) && decide (j ≤ last))).foldl (fun m j => m + 2 ^ j) 0))

/-- What an access does to its sectors (R183): plain read, plain write, both, an atomic of a size code, or an engine operation with
its code. -/
inductive Use where
  | read
  | write
  | both
  | atomic (size : Nat)
  | engine (code : Nat)
  deriving DecidableEq, Repr

def Use.reads : Use → Bool
  | .read | .both | .atomic _ => true
  | .write | .engine _ => false
def Use.writes : Use → Bool
  | .write | .both | .atomic _ => true
  | .read | .engine _ => false

/-- A shadow reset to the current phase where it belongs to another (R182). -/
def Shadow.fresh (h : Shadow) (phase : Nat) : Shadow := if h.phase = phase then h else { phase := phase }

/-- The rows of R183 on one sector: none is CONFLICT. `words` are the words touched. -/
def Shadow.step (h : Shadow) (lc : Nat) (u : Use) (words : Nat) : Option Shadow :=
  match u with
  | .engine code =>
    if h.plain &&& words ≠ 0 ∨ (h.eop ≠ 0 ∧ h.eop ≠ code) then none
    else some { h with engine := h.engine ||| words, eop := if h.eop = 0 then code else h.eop }
  | _ =>
    let other (x : Nat) : Bool := decide (x ≠ 0x3FF) && decide (x ≠ lc)
    if (u.reads && other h.writer) || (u.writes && (other h.writer || other h.reader)) || decide (h.engine &&& words ≠ 0) then none
    else
      let h := { h with plain := h.plain ||| words }
      let h := if u.reads then { h with reader := if h.reader = 0x3FF ∨ h.reader = lc then lc else 0x3FE } else h
      let h := if u.writes then { h with writer := lc } else h
      match u with
      | .atomic size =>
        let bad := (List.range 6).any (fun j => decide (words / 2 ^ j % 2 = 1) && decide (field h.asz (3 * j) 3 ≠ 0) &&
          decide (field h.asz (3 * j) 3 ≠ size))
        if bad then none
        else some { h with asz := (List.range 6).foldl (fun a j =>
          if words / 2 ^ j % 2 = 1 ∧ field a (3 * j) 3 = 0 then a + size * 2 ^ (3 * j) else a) h.asz }
      | _ => some h

/-- The guard that covers a global sector in this phase (R184). -/
def Ctx.guardOf (c : Ctx) (va : Nat) : Option Guard :=
  c.guards.find? (fun g => decide (g.base.toNat ≤ va) && decide (va < g.base.toNat + g.len.toNat))

/-- The count and target of a cell: it is reached when TARGET ≠ 0 and COUNT ≥ TARGET (R198). -/
def cellReached (v : Nat) : Bool := decide (v / 2 ^ 32 ≠ 0) && decide (v / 2 ^ 32 ≤ v % 2 ^ 32)

/-- The value of a cell with its partial slots folded in, as the handoff rule judges it (R30, R174). -/
def State.cellNow (s : State) (ctx : Nat) (cell : Word) : Nat :=
  match s.leaf ctx cell.toNat with
  | .error _ => 0
  | .ok l =>
    let v := s.physNat l.pa 8
    let add := ((s.ctxOf ctx).partials.filter (fun p => decide (p.key = l.pa) && decide (p.op = .arrive))).foldl (fun a p => a + p.val) 0
    v / 2 ^ 32 * 2 ^ 32 + (v % 2 ^ 32 + add) % 2 ^ 32

/-- The rule of R30 and R184 on a guarded sector: true admits the access. -/
def State.guardAdmits (s : State) (ctx lc : Nat) (g : Guard) (u : Use) : Bool :=
  (!u.writes || !cellReached (s.cellNow ctx g.cell)) && (!u.reads || g.taken.contains lc)

/-- The registered ring of a logical core in which an offset lies: its base and its slot number, none for the header (R310). -/
def State.ringAt (s : State) (ctx lc off : Nat) : Option (Nat × Option Nat) :=
  (s.core ctx lc).rings.findSome? (fun base =>
    let geom := s.seenNat (s.ctxOf ctx) (lsKey ctx lc (base + 32)) 8
    let n := 2 ^ field geom 0 3
    let b := field geom 16 16 * 48
    if base ≤ off ∧ off < base + 192 then some (base, none)
    else if base + 192 ≤ off ∧ off < base + 192 + n * b ∧ 0 < b then some (base, some ((off - base - 192) / b))
    else none)

/-- The entry of a ring slot (R311). -/
def State.slotEntry (s : State) (ctx lc base i : Nat) : Nat := s.seenNat (s.ctxOf ctx) (lsKey ctx lc (base + 64 + 2 * i)) 2

/-- The rules of R314 and R315 on a sector of a registered ring: none outside rings, else whether the access is admitted. -/
def State.ringAdmits (s : State) (w : Who) (target off : Nat) (u : Use) : Option Bool :=
  match s.ringAt w.ctx target off with
  | none => none
  | some (_, none) => if u.writes then some false else some true
  | some (base, some i) =>
    let e := s.slotEntry w.ctx target base i
    some ((decide (e / 2 ^ 14 = 1) || decide (e / 2 ^ 14 = 3)) && decide (e % 1024 = w.lc))

/-- The node of a live graph whose record stands at an address (R343): graph, and index. -/
def Ctx.nodeOf (c : Ctx) (node : Word) : Option (Nat × Graph × Nat) :=
  c.graphs.findSome? (fun e =>
    let n := e.2.nodes
    if n ≤ node.toNat ∧ (node.toNat - n) % 192 = 0 ∧ (node.toNat - n) / 192 < e.2.ncount then some (e.1, e.2, (node.toNat - n) / 192) else none)

/-- A sector lies in a used range of node `m`, as the Marionette read its record when it became ready (R349, R351, R362). -/
def Graph.inRange (g : Graph) (m va : Nat) : Bool :=
  (Tab.get {} g.sts m).info.any (fun inf => inf.ranges.any (fun r => overlap va 48 r.1 r.2.1))

/-- `n` is a direct predecessor of `m`: its successor list, which the Marionette keeps, names m (R351, R362). -/
def Graph.precedes (g : Graph) (n m : Nat) : Bool := (Tab.get {} g.sts n).succ.contains m

/-- The node rule of R362 on one sector: the new node shadow, or none for CONFLICT. -/
def Graph.nodeStep (g : Graph) (m : Nat) (h : NShadow) (u : Use) : Option NShadow :=
  let pred (x : Nat) : Bool := decide (x = 0) || decide (x = m + 1) || g.precedes (x - 1) m
  if (u.reads || u.writes) && !pred h.writer then none
  else if u.writes && (decide (h.reader > 2 ^ 24) || !pred h.reader) then none
  else
    let h := if u.reads then { h with reader := if h.reader = 0 ∨ h.reader = m + 1 then m + 1 else 2 ^ 24 + 1 } else h
    some (if u.writes then { h with writer := m + 1 } else h)

/-- The check step of one sector in deterministic mode (R183 to R185, R315, R362), with the shadows it leaves.
DESIGN CHOICE (log 72): an engine operation on a guarded sector is checked by the engine rows alone. -/
def State.sectorStep (s : State) (w : Who) (u : Use) (g : Seg) (c : Ctx) (x : Nat × Nat × Nat) : Acc Ctx :=
  let (key, off, words) := x
  let bad : Halt := .refuse .conflict (match g.ls with
    | some l => lsAddr w.lc l off
    | none => BitVec.ofNat 64 off)
  let shadowStep (c : Ctx) : Acc Ctx :=
    match ((Tab.get {} c.shadows key).fresh c.phase).step w.lc u words with
    | none => .error bad
    | some h => .ok { c with shadows := Tab.set {} c.shadows key h }
  match u with
  | .engine _ => shadowStep c
  | _ =>
    match g.ls with
    | some t =>
      match s.ringAdmits w t off u with
      | some true => .ok c
      | some false => .error bad
      | none => shadowStep c
    | none =>
      match c.guardOf off with
      | some gd => if s.guardAdmits w.ctx w.lc gd u then .ok c else .error bad
      | none =>
        match c.nodeOf w.node with
        | some (gi, gr, m) =>
          if gr.inRange m off then
            match gr.nodeStep m (Tab.get {} gr.shadows key) u with
            | none => .error bad
            | some h =>
              let sh := (Tab.get {} c.shadows key).fresh c.phase
              .ok { c with
                graphs := Tab.set {} c.graphs gi { gr with shadows := Tab.set {} gr.shadows key h }
                shadows := Tab.set {} c.shadows key { sh with engine := sh.engine ||| words } }
          else shadowStep c
        | none => shadowStep c

/-- The check step of an access in deterministic mode: every sector it touches, and R368 (R183, R185). -/
def State.detStep (s : State) (w : Who) (u : Use) (gs : List Seg) : Acc Ctx :=
  let c := s.ctxOf w.ctx
  if !c.cr.det || !w.shadows then .ok c
  else if w.outside && c.liveLoop.isSome then
    .error (.refuse .conflict (match gs with
      | g :: _ =>
        match g.ls with
        | some l => lsAddr w.lc l (g.off - g.off % 48)
        | none => BitVec.ofNat 64 (g.off - g.off % 48)
      | [] => 0))
  else gs.foldlM (fun c g => g.sectors.foldlM (fun c x => s.sectorStep w u g c x) c) c

/-- The source code of a WATCH that a store to the store of core `target` causes, if any: the owner's own slots and units cause none (R196). -/
def Who.watchSource (w : Who) (target : Nat) : Option Nat :=
  match w.ep with
  | some e => some (0x300 + e)
  | none => if w.hart || decide (w.party / 16 ≠ target) then some w.lc else none

/-- Places the WATCH of one watched word unless one is undelivered (R29, R196), with the storing party's clock as stamp (R172). -/
def State.placeWatch (s : State) (ctx target src : Nat) (nan : Bool) (stamp : Clock) (word : Nat) : Acc State :=
  let c := s.core ctx target
  let m : Msg := { src := src, kind := .watch, nan := nan, words := [selfAddr (8 * word)] }
  if !Tab.get false c.watch word || c.box.any (fun q => decide (q.kind = .watch) && decide (q.word 1 = selfAddr (8 * word))) then .ok s
  else
    match s.eventBy ctx target m stamp with
    | some s' => .ok s'
    | none => .error (.full target m.channel)

/-- The WATCH messages of a store into segments of a local store (R167, R196). -/
def State.watches (s : State) (w : Who) (gs : List Seg) : Acc State :=
  gs.foldlM (fun s g =>
    match g.ls with
    | none => .ok s
    | some t =>
      match w.watchSource t with
      | none => .ok s
      | some src =>
        (List.range ((g.off + (g.len - 1)) / 8 + 1 - g.off / 8)).foldlM (fun s i => s.placeWatch w.ctx t src w.nan (s.clock w.ctx w.party) (g.off / 8 + i)) s) s

/-- An event of kind COUNT that answers a request of ticket `tk` of logical core `lc` waits, in deterministic mode, for those of its
earlier requests (R191). -/
def Ctx.countEarlier (c : Ctx) (lc tk : Nat) : Bool :=
  c.cr.det && (c.cwatches.any (fun p => decide (p.lc = lc) && decide (p.ticket < tk)) ||
    c.prefixes.any (fun p => decide (p.lc = lc) && decide (p.ticket < tk)) ||
    c.deferred.any (fun d => decide (d.dst = lc) && decide (d.msg.kind = .count) && decide (d.ticket < tk)))

/-- Answers a pending `cwatch` request whose cell has been found reached, when its turn has come and its mailbox has a place (R191,
R200). -/
def State.answerCwatch (s : State) (ctx : Nat) (q : CWatch) : State :=
  if !q.hit || (s.ctxOf ctx).countEarlier q.lc q.ticket then s
  else
    let m : Msg := { src := q.lc, kind := .count, nan := q.nan, words := [q.cell, BitVec.ofNat 64 q.target], reach := q.phase + 1 }
    match s.event ctx q.lc m with
    | some s' => s'.modCtx ctx (fun c => { c with cwatches := c.cwatches.erase q })
    | none => s.pendingWait ctx q.lc m.channel

/-- The request with what the cell's value `v` says of it: found reached, once (R200). -/
def CWatch.test (q : CWatch) (v phase : Nat) : CWatch :=
  if cellReached v && !q.hit then { q with hit := true, target := v / 2 ^ 32, phase := phase } else q

/-- Marks the pending requests of the cells within the bytes of a segment that now stand reached; a later step answers them (R200). A cell is
found by its address, whatever its page's leaf says by then, or by another address of its bytes. -/
def State.testCells (s : State) (ctx : Nat) (g : Seg) : State :=
  let c := s.ctxOf ctx
  if c.cwatches.isEmpty || g.ls.isSome then s
  else
    s.setCtx ctx { c with cwatches := c.cwatches.map (fun q =>
      let a := q.cell.toNat
      if overlap a 8 g.off g.len then q.test (s.physNat (g.key + a - g.off) 8) c.phase
      else
        match s.leaf ctx a with
        | .ok l => if overlap l.pa 8 g.key g.len then q.test (s.physNat l.pa 8) c.phase else q
        | .error _ => q) }

/-- Bytes of the notification queue's head (R155). -/
def Ctx.headAt (c : Ctx) : Nat := c.cr.notifyq.toNat + 4

/-- The registered rings of the logical core whose store a memory key lies in. -/
def State.ringsAt (s : State) (key : Nat) : List Nat := (Tab.get {} s.cores ((key - 2 ^ 48) / lsSize)).rings

/-- The bytes that a plain write leaves in segments: the slot entries of registered rings are read-only (R5, R311). -/
def State.shield (s : State) : List Seg → List Byte → List Byte
  | [], _ => []
  | g :: r, bs =>
    let rings := if g.ls.isSome then s.ringsAt g.key else []
    let b := bs.take g.len
    (if rings.isEmpty then b
      else b.zipIdx.map (fun p => if rings.any (fun base => decide (base + 64 ≤ g.off + p.2) && decide (g.off + p.2 < base + 192)) then
        Mem.read s.mem (g.key + p.2) else p.1)) ++ State.shield s r (bs.drop g.len)

/-- The bytes of a plain write go into segments. -/
def State.putPlain (s : State) (party : Nat) (gs : List Seg) (bs : List Byte) : State := s.putSegs party gs (s.shield gs bs)

/-- The piece of memory that an entry combines into. -/
def Partial.seg (p : Partial) : Seg :=
  { key := p.key, len := p.size, off := p.off, ls := if p.key < 2 ^ 48 then none else some (p.key / lsSize % 1024) }

/-- An entry's value goes into memory (R174): for a host window as a READ and a WRITE at the endpoint, or nowhere while the endpoint refuses
them (R133, R420, log 78). -/
def State.foldEntry (s : State) (p : Partial) : State :=
  if inWindow p.key && s.windowDown p.key p.size then s
  else
    let s1 := if inWindow p.key then (s.askWindows [p.seg]).draw else s
    s1.putPlain hwParty [p.seg] (leBytes p.size (p.op.apply (s.physNat p.key p.size) p.val))

/-- The fold step of a line (R174): values into memory, WATCH messages, reached cells. -/
def State.foldLine (s : State) (ctx line : Nat) : Acc State := do
  let c := s.ctxOf ctx
  let es := c.entriesOf line
  if es.isEmpty then .ok s
  else do
    let s1 := s.setCtx ctx { c with partials := c.partials.filter (fun p => decide (p.line ≠ line)) }
    let s2 := es.foldl State.foldEntry s1
    let s3 ← es.foldlM (fun s p =>
      if p.key < 2 ^ 48 then (.ok s : Acc State)
      else
        let o := p.key - 2 ^ 48
        let t := o / lsSize % 1024
        if p.lc = t then .ok s else s.placeWatch ctx t p.lc p.nan (s.now ctx) (o % lsSize / 8)) s2
    .ok (es.foldl (fun s p => s.testCells ctx p.seg) s3)

/-- The entries of global memory that stand in one of the virtual lines `vs`. -/
def Ctx.inLines (c : Ctx) (vs : List Nat) : List Partial := c.partials.filter (fun p => decide (p.key < 2 ^ 48) && vs.contains (p.off / 192))

/-- The lines, by key, whose entries a fold before an access to segments takes: those of the segments, and the other part of a virtual line
that a page boundary cuts (R131, R174). -/
def Ctx.linesMet (c : Ctx) (gs : List Seg) : List Nat :=
  let vs := (gs.filter (fun g => g.ls.isNone)).flatMap (fun g => (List.range ((g.off + (g.len - 1)) / 192 + 1 - g.off / 192)).map (g.off / 192 + ·))
  (gs.flatMap Seg.lines ++ (c.inLines vs).map (·.line)).eraseDups
/-- The lines that one fold step takes with a line: the two parts of a cut one together (R131, R174). -/
def Ctx.mates (c : Ctx) (line : Nat) : List Nat :=
  (line :: (c.inLines (((c.entriesOf line).filter (fun p => decide (p.key < 2 ^ 48))).map (·.off / 192))).map (·.line)).eraseDups

/-- Folds lines before an access other than a gather (R174). -/
def State.foldLines (s : State) (ctx : Nat) (ls : List Nat) : Acc State := ls.foldlM (fun s l => s.foldLine ctx l) s

/-- Folds lines of global memory, which places no WATCH and waits for nothing (R174). -/
def State.foldPlain (s : State) (ctx : Nat) (ls : List Nat) : State :=
  match s.foldLines ctx ls with
  | .ok s' => s'
  | .error _ => s

/-- The lines of the table entries that a walk for an address reads; none matters while no reduction is pending (R138, R174). -/
def State.walkLines (s : State) (ctx va : Nat) : List Nat :=
  let c := s.ctxOf ctx
  if c.partials.isEmpty then [] else (s.walkPath ctx c va 4 c.cr.root).map keyLine

/-- The lines of bytes of global memory, where the tables map them, and of the tables on the way (R138, R174). -/
def State.linesAt (s : State) (ctx va n : Nat) : List Nat :=
  let c := s.ctxOf ctx
  if c.partials.isEmpty then []
  else
    (cut64K va n).flatMap (fun q =>
      s.walkLines ctx q.1 ++
      match s.leaf ctx q.1 with
      | .ok l => c.linesMet [{ key := l.pa, len := q.2, off := q.1 }]
      | .error _ => [])

/-- A record written by hardware while the notification queue's own head is being settled. -/
def State.hwPlain (s : State) (ctx va : Nat) (bs : List Byte) : State := (s.foldPlain ctx (s.linesAt ctx va bs.length)).rawWrite ctx va bs

/-- A notification record goes into the queue if it has room; a record into an empty queue sends a TRAPNOTE (R154, R155). -/
def State.notifyRecord (s : State) (ctx : Nat) (page : Word) (cell die kind : Nat) : Option State :=
  let q := (s.ctxOf ctx).cr.notifyq.toNat
  let s := s.foldPlain ctx (s.linesAt ctx q 8)
  let tail := (s.peekNat ctx q 4).getD 0
  let head := (s.peekNat ctx (q + 4) 4).getD 0
  let used := (tail + 2 ^ 32 - head) % 2 ^ 32
  if used ≥ 256 then none
  else
    let s1 := s.hwPlain ctx (q + 16 + 16 * (tail % 256)) (leBytes 8 page.toNat ++ leBytes 4 cell ++ leBytes 1 die ++ leBytes 1 kind ++ leBytes 2 0)
    let s2 := s1.hwPlain ctx q (leBytes 4 (tail + 1))
    some (if used = 0 then s2.trapnote ctx 3 0x3FF 0 0 else s2)

/-- A head advance of the notification queue while an overflow is pending writes one OVERFLOW record, whose die byte is 0 (R155, log 60). -/
def State.headAdvance (s : State) (ctx off n : Nat) : State :=
  if (s.ctxOf ctx).ovfPending && overlap off n (s.ctxOf ctx).headAt 4 then
    match s.notifyRecord ctx 0 0 0 2 with
    | some s1 => s1.modCtx ctx (fun c => { c with ovfPending := false })
    | none => s
  else s

/-- The head advances of a fold of entries `es` (R155). -/
def State.foldHeads (s : State) (ctx : Nat) (es : List Partial) : State :=
  es.foldl (fun s p => if p.key < 2 ^ 48 then s.headAdvance ctx p.off p.size else s) s

/-- Folds lines, and what the folds set off (R155, R174). -/
def State.foldAll (s : State) (ctx : Nat) (ls : List Nat) : Acc State :=
  let es := ls.flatMap (s.ctxOf ctx).entriesOf
  (s.foldLines ctx ls).map (fun s => s.foldHeads ctx es)

/-- Folds the lines of bytes of global memory, and of the tables on the way, before hardware accesses them (R155, R174). -/
def State.foldGlobal (s : State) (ctx va n : Nat) : State :=
  match s.foldAll ctx (s.linesAt ctx va n) with
  | .ok s' => s'
  | .error _ => s

/-- A record written by hardware into a global structure of the context: its write is refused silently where the tables do not map it
(R433). -/
def State.hwWrite (s : State) (ctx va : Nat) (bs : List Byte) : State := (s.foldGlobal ctx va bs.length).rawWrite ctx va bs

/-- Counts one line fill of a page for a die other than the frame's home die, with its threshold record (R153, R154). -/
def State.countFill (s : State) (ctx die : Nat) (va : Nat) (l : Leaf) : State :=
  if l.acnt = 0 ∨ inWindow l.pa = true ∨ l.pa / 0xC00000000 / 3 = die then s
  else
    let a := (s.ctxOf ctx).cr.counters.toNat + 4 * l.acnt
    let s := s.foldGlobal ctx a 4
    match s.peekNat ctx a 4 with
    | none => s
    | some v =>
      let n := field v 0 16
      if n = 0xFFFF then s
      else
        let s1 := s.hwWrite ctx a (leBytes 4 (v + 1))
        if n + 1 ≠ (s.ctxOf ctx).cr.thresh ∨ field v 16 1 = 1 then s1
        else
          match (s1.foldGlobal ctx (s1.ctxOf ctx).cr.notifyq.toNat 8).notifyRecord ctx (BitVec.ofNat 64 (va - va % 2 ^ levelShift l.level)) l.acnt die 1 with
          | some s2 => s2.hwWrite ctx a (leBytes 4 (v + 1 + 2 ^ 16))
          | none => (s1.hwWrite ctx a (leBytes 4 ((v + 1) ||| 2 ^ 17))).modCtx ctx (fun c => { c with ovfPending := true })

/-- A global access may fill each of its lines into its die's slice; cache contents decide, so each is a free choice where the fill counts
(R136, R153). The die is that of the logical core to which the access is attributed, also for a hart, an endpoint or an engine (log 59). -/
def State.mayFill (s : State) (w : Who) (gs : List Seg) : State :=
  gs.foldl (fun s g =>
    if g.ls.isSome then s
    else
      match s.leaf w.ctx g.off with
      | .ok l => if l.acnt = 0 then s else g.lines.foldl (fun s _ => (if Config.fills s.draws then s.countFill w.ctx (s.dieOf w.ctx w.lc) g.off l else s).draw) s
      | .error _ => s) s

/-- Arms, re-arms or disarms the timer of a logical core (R397). -/
def State.armTimer (s : State) (ctx lc t : Nat) (nan : Bool) : State :=
  s.modCtx ctx (fun c => { c with timers := Tab.set {} c.timers lc (if t = 0 then {} else { armed := true, t := t, left := t, nan := nan }) })

/-- A store into the control block: DOORBELL starts a request unless BUSY, a timer word arms its timer (R394, R395, R397). -/
def State.ccbStore (s : State) (w : Who) (g : Seg) : State :=
  let c := s.ctxOf w.ctx
  let base := c.cr.ccb.toNat
  if g.ls.isSome || !w.sup || w.engine || !overlap g.off g.len base 8192 then s
  else
    let s1 :=
      if overlap g.off g.len base 8 && c.ccbReq.isNone then
        let q := (s.peekNat w.ctx base 8).getD 0
        let st := (s.peekNat w.ctx (base + 8) 8).getD 0
        ((s.setCtx w.ctx { c with ccbReq := some { q := q } }).foldGlobal w.ctx (base + 64) 64).hwWrite w.ctx (base + 8) (leBytes 8 (st % 2 ^ 63 + 2 ^ 63))
      else s
    (List.range 768).foldl (fun s l =>
      if overlap g.off g.len (base + 192 + 8 * l) 8 then s.armTimer w.ctx l ((s.peekNat w.ctx (base + 192 + 8 * l) 4).getD 0) w.nan
      else s) s1

/-- What a performed store sets off beside its bytes. -/
def State.afterStore (s : State) (w : Who) (gs : List Seg) : Acc State := do
  let s1 := gs.foldl (fun s g => (if g.ls.isSome then s else s.headAdvance w.ctx g.off g.len).ccbStore w g) s
  let s2 := gs.foldl (fun s g => s.testCells w.ctx g) s1
  s2.watches w gs

/-- The lines of the tables and of the cluster-set mask that the check of segments has read (R138, R142, R174). -/
def State.tableLines (s : State) (ctx : Nat) (gs : List Seg) : List Nat :=
  if (s.ctxOf ctx).partials.isEmpty then []
  else
    ((gs.filter (fun g => g.ls.isNone)).flatMap (fun g =>
      s.walkLines ctx g.off ++
      match s.leaf ctx g.off with
      | .ok l => s.linesAt ctx ((s.ctxOf ctx).cr.csets.toNat + 16 * l.cset) 16
      | .error _ => [])).eraseDups

/-- The lines of the registered rings' headers, whose geometry and slot entries the check of an access to a local store reads (R174, R310,
R315). -/
def State.ringLines (s : State) (ctx : Nat) (gs : List Seg) : List Nat :=
  if (s.ctxOf ctx).partials.isEmpty || !(s.ctxOf ctx).cr.det then []
  else
    (gs.flatMap (fun g => g.ls.elim [] (fun t => (s.core ctx t).rings.flatMap (fun base =>
      ({ key := lsKey ctx t base, len := 192, off := base, ls := some t } : Seg).lines)))).eraseDups

/-- Folds the lines of segments and of the tables that map them, and what the folds set off, before an access other than a gather (R155,
R174). -/
def State.settleLines (s : State) (ctx : Nat) (gs : List Seg) : Acc State :=
  s.foldAll ctx (s.tableLines ctx gs ++ s.ringLines ctx gs ++ (s.ctxOf ctx).linesMet gs)

/-- A write waits for the folds of its lines where they may raise a version counter so far that it is refused (R401): they are steps of their
own. -/
def State.foldFirst (s : State) (ctx : Nat) (need : Need) (gs : List Seg) : Bool :=
  need.writes && !((s.ctxOf ctx).linesMet gs).all (fun l => (s.ctxOf ctx).partials.all (fun p => decide (p.line ≠ l))) &&
    gs.any (fun g => s.worn g (1 + (s.ctxOf ctx).partials.length))

/-- The first half of every access step: the holds of R180 and R181, checks, shadows, folds, a possible fill, and the clock. -/
def State.enterAs (s : State) (fill : Bool) (w : Who) (need : Need) (u : Use) (ps : List (Place × Nat)) : Acc (State × List Seg) := do
  if s.paused w then .error .wait
  else do
    let gs ← s.check w need ps
    if s.foldFirst w.ctx need gs then .error .wait
    else do
      let c ← s.detStep w u gs
      let s1 ← (s.setCtx w.ctx c).settleLines w.ctx gs
      .ok (((if fill then s1.mayFill w gs else s1).tick w.ctx w.party 0).draw, gs)
def State.enter (s : State) (w : Who) (need : Need) (u : Use) (ps : List (Place × Nat)) : Acc (State × List Seg) := s.enterAs true w need u ps

/-- The bytes of segments, and what reading them sends (R420). -/
def State.readSegs (s : State) (gs : List Seg) : State × List Byte :=
  (if gs.any (fun g => inWindow g.key) then s.askWindows gs else s, s.segBytes gs)

/-- A read step (R167). -/
def State.readAt (s : State) (w : Who) (ps : List (Place × Nat)) : Acc (State × List Byte) := do
  let (s1, gs) ← s.enter w .r .read ps
  .ok (s1.readSegs gs)

/-- A write step (R167). -/
def State.writeAt (s : State) (w : Who) (ps : List (Place × Nat)) (bs : List Byte) : Acc State := do
  let (s1, gs) ← s.enter w .w .write ps
  (s1.putPlain w.party gs bs).afterStore w gs

/-- A read-modify-write step: the bytes read, and the bytes that `f` gives to write, if any (R167, R202, R203, R313). -/
def State.rmwAt (s : State) (w : Who) (u : Use) (ps : List (Place × Nat)) (f : List Byte → Option (List Byte)) :
    Acc (State × List Byte) := do
  let (s0, gs) ← s.enter w .rw u ps
  let (s1, old) := s0.readSegs gs
  match f old with
  | none => .ok (s1, old)
  | some bs => do
    let s2 ← (s1.putPlain w.party gs bs).afterStore w gs
    .ok (s2, old)

/-- The gather step of a reduction, an arrival or a reservation into the partial slot of its line (R173). An entry that another
operation, size or type overlaps forces the line to be folded first. -/
def State.gatherAt (s : State) (w : Who) (code : Nat) (p : Place) (size : Nat) (op : PartOp) (val : Nat) : Acc (State × FFlags) := do
  if s.paused w then .error .wait
  else do
    let gs ← s.check w .rw [(p, size)]
    let c ← s.detStep w (.engine code) gs
    match gs with
    | [g] =>
      let line := g.key - g.off % 192
      let s0 := (s.setCtx w.ctx c).draw
      let clash := c.partials.any (fun e => decide (e.line = line) && overlap e.key e.size g.key size &&
        !(decide (e.key = g.key) && decide (e.size = size) && decide (e.op = op)))
      let s1 ← if clash then s0.settleLines w.ctx [g] else s0.foldAll w.ctx (s0.tableLines w.ctx [g])
      let c1 := s1.ctxOf w.ctx
      let mine (e : Partial) : Bool := decide (e.line = line) && decide (e.lc = w.lc) && decide (e.key = g.key) && decide (e.op = op)
      let s2 := s1.tick w.ctx w.party 0
      match c1.partials.find? mine with
      | none =>
        .ok (s2.modCtx w.ctx (fun c => { c with
          partials := c.partials ++ [{ line := line, lc := w.lc, key := g.key, off := g.off, size := size, op := op, val := val, nan := w.nan }] }), 0)
      | some e =>
        let (v, fl) := match op with
          | .red o ty => redFn o ty e.val val
          | .arrive => ((e.val + val) % 2 ^ 32, 0)
          | .rsv => (tagFn e.val val, 0)
        .ok (s2.modCtx w.ctx (fun c => { c with partials := c.partials.map (fun e => if mine e then { e with val := v, nan := w.nan } else e) }), fl)
    | _ => .error .wait

/-- An access that changes no shadow is refused while a loop is live outside it, as every other (R368). -/
def State.loopChk (s : State) (w : Who) (ea : Word) : Acc Unit :=
  let c := s.ctxOf w.ctx
  if c.cr.det && w.outside && c.liveLoop.isSome then .error (.refuse .conflict (BitVec.ofNat 64 (ea.toNat - ea.toNat % 48))) else .ok ()

/-- Every descriptor of the context whose image meets a range becomes stale (R267, R282). -/
def State.staleImages (s : State) (ctx base n : Nat) : State :=
  let stale (d : Desc) : Desc := if d.holder ≠ 0 ∧ overlap d.base (4096 * d.extent) base n then { d with stale := true } else d
  { s with cores := s.cores.map (fun (e : Nat × LCore) =>
      if e.1 / 1024 = ctx then (e.1, { e.2 with descs := e.2.descs.map (fun (d : Nat × Desc) => (d.1, stale d.2)) }) else e) }

/-- The fold step of a line with what it sets off (R155, R174). -/
def State.foldStep (s : State) (ctx line : Nat) : Acc State := s.foldAll ctx ((s.ctxOf ctx).mates line)

/-- A write that a full version counter refuses poisons the frame (R401): the refused access, whose address is `a`, met no poisoned unit. -/
def State.poisonFull (s : State) (ctx : Nat) (kind : TrapKind) (a : Word) : State :=
  match s.leaf ctx a.toNat with
  | .error _ => s
  | .ok l =>
    let f := l.pa / 65536
    let near := unitsOf l.pa (Nat.min 4096 (65536 - l.pa % 65536))
    if kind ≠ .integrity ∨ frameMode (s.frame l.pa) ≠ 2 ∨ near.any (Tab.get false s.poison ·) = true ∨
        near.all (fun u => decide (Tab.get 0 s.versions u ≠ 2 ^ 64 - 1)) = true then s
    else s.poisonFrame f

/-- The 64 KiB page of a refusal (R151). -/
def pageOf (a : Word) : Nat := a.toNat / 65536

end Sys2Proof.Machine
end

