-- ==== Sys2Proof/Machine/Operands.lean ====
section
/-! DEFINITION. Operand forms: the second scalar operand, conditions, address forms, lanes and elements (03 R37 to R41, 05 R119,
09 R211, R212). -/

namespace Sys2Proof.Machine

/-- The bits of the low `n` positions. -/
def ones (n : Nat) : Nat := 2 ^ n - 1

/-- The second operand "xb or imm" (R119). -/
def Slot.src (t : Slot) : Src → Word
  | .reg r => t.rx r.val
  | .imm i => i

/-- A condition between two words (R121). -/
def condHolds (c : Cond) (a b : Word) : Bool :=
  match c with
  | .eq => a == b
  | .ne => a != b
  | .lt => a.slt b
  | .ge => !a.slt b
  | .le => !b.slt a
  | .gt => b.slt a
  | .ltu => a.ult b
  | .geu => !a.ult b
  | .leu => !b.ult a
  | .gtu => b.ult a

/-- Bytes of an access size (R157). -/
def sizeBytes : Size → Nat
  | .b => 1
  | .h => 2
  | .w => 4
  | .d => 8

/-- The size code of a sector shadow's ASZ (R182). -/
def sizeCode : Size → Nat
  | .b => 1
  | .h => 2
  | .w => 3
  | .d => 4

/-- A loaded value of `n` bytes extended to a register (R157). -/
def extend (n : Nat) (zext : Bool) (v : Nat) : Word :=
  if zext ∨ v < 2 ^ (8 * n - 1) then BitVec.ofNat 64 v else BitVec.ofInt 64 ((v : Int) - 2 ^ (8 * n))

/-- The address after an instruction of length `l`: an end at byte 27 skips the tail word of its fetch block (R43). -/
def nextPc (pc : Word) (l : Len) : Word :=
  let n := pc + BitVec.ofNat 64 l.bytes
  if n.toNat % 32 = 28 then n + 4 else n

/-- A transfer target that R43 or R123 refuses. -/
def badTarget (a : Word) : Bool := decide (a.toNat % 4 ≠ 0) || decide (a.toNat % 32 = 28) || decide (2 ^ 56 ≤ a.toNat)

/-- A PC that R43 refuses at issue. -/
def badPc (a : Word) : Bool := decide (a.toNat % 4 ≠ 0) || decide (a.toNat % 32 = 28)

/-- The number of elements of width `w` in a vector register (R211). -/
def elems (w : Nat) : Nat := 1536 / w

/-- Element j of width w (R211). -/
def elem (w : Nat) (v : VReg) (j : Nat) : Nat := field v.toNat (w * j) w

/-- A register built from its elements of width w, element 0 first (R211). -/
def ofElems (w : Nat) : List Nat → Nat
  | [] => 0
  | e :: r => e % 2 ^ w + 2 ^ w * ofElems w r
def vecOf (w : Nat) (es : List Nat) : VReg := BitVec.ofNat 1536 (ofElems w es)

/-- The elements of a register, element 0 first. -/
def toElems (w : Nat) (v : VReg) : List Nat := (List.range (elems w)).map (elem w v)

/-- The lanes on which a lane-wise instruction acts (R40). -/
def Slot.act (t : Slot) (p : Pred) : PReg := if p.kn then ~~~(t.rk p.k.val) else t.rk p.k.val

/-- The lane whose predicate bit governs element j of width w (R212). -/
def laneOf (w j : Nat) : Nat := w * j / 32

/-- Element j of width w is active (R212). -/
def active (act : PReg) (w j : Nat) : Bool := act.getLsbD (laneOf w j)

/-- The bits of the active elements of width w (R212). -/
def actMask (act : PReg) (w : Nat) : VReg :=
  vecOf w ((List.range (elems w)).map (fun j => if active act w j then ones w else 0))

/-- The active elements after the first `done` of them, ascending (R233, R235). -/
def elemsFrom (act : PReg) (w done : Nat) : List Nat := ((List.range (elems w)).filter (active act w)).drop done

/-- The bits of one lane. -/
def laneMask (i : Nat) : VReg := BitVec.ofNat 1536 (ones 32 * 2 ^ (32 * i))

/-- A predicate from its bits. -/
def predOf (f : Nat → Bool) : PReg := BitVec.ofNat 48 (ofElems 1 ((List.range 48).map (fun i => (f i).toNat)))

/-- The lanes that a predicate makes active, ascending. -/
def lanesOf (act : PReg) : List Nat := (List.range 48).filter (fun i => act.getLsbD i)

end Sys2Proof.Machine
end

