-- ==== Sys2Proof/Machine/Ops.lean ====
section
/-! DEFINITION. The shared operations of a slot: issue of short and long instructions, group close, regions, taking a trap and
returning from one, aborts, waits on absent pages, stopping inside a group, suspension and the ends of a continuation
(02, 03, 05, 06, 16). -/

namespace Sys2Proof.Machine

/-- The party number of the slot in focus (R163). -/
def State.party (s : State) : Nat := 16 * s.focus.lc + s.focus.pos

/-- For whom the slot in focus makes an access issued under reading `nan`. -/
def State.who (s : State) (nan : Bool) : Who :=
  { ctx := s.focus.ctx, lc := s.focus.lc, nan := nan, party := s.party, sup := s.slot.sup, outside := s.slot.iter.isNone
    node := s.slot.node }

/-- The accesses of the matrix unit (9) or automaton unit (10) for the slot in focus (R163, R176). -/
def State.unitWho (s : State) (unit : Nat) (nan : Bool) : Who := { s.who nan with party := 16 * s.focus.lc + unit }

/-! ### System registers (R116) -/

/-- The registers that only supervisor code uses (R116). -/
def sysPriv : SysReg → Bool
  | .slice | .slicestat | .trapvec | .spill => true
  | .lcid | .ctx | .mode | .phase | .nanread | .fflags | .fenable | .rngseed | .progress | .lsbase => false

/-- The value of a system register for the slot in focus (R116). TOP has bits 18:0: a spill top of 0x8_0000 shows as 0 (log 61). -/
def State.sysRead (s : State) (r : SysReg) : Word :=
  let t := s.slot
  BitVec.ofNat 64 (match r with
    | .lcid => s.focus.lc
    | .ctx => s.focus.ctx
    | .mode => s.here.cr.det.toNat + 2 * t.sup.toNat
    | .phase => s.here.phase
    | .nanread => t.nanread.toNat
    | .fflags => t.fflags.toNat
    | .fenable => s.me.fenable.toNat
    | .rngseed => s.me.rngseed.toNat
    | .progress => t.progress
    | .slice => t.slice
    | .slicestat => at' 32 t.forced + at' 1 t.yields + t.clamped.toNat
    | .trapvec => t.trapvec
    | .spill => at' 32 t.spillLimit + t.spillTop % 2 ^ 19
    | .lsbase => at' 55 0x1FC + at' 20 (s.focus.lc % 8))

/-- A value that a write of a system register refuses with ILLEGAL_FIELD (R116). -/
def sysBad (r : SysReg) (v : Word) : Bool :=
  match r with
  | .trapvec => decide (v.toNat % 32 ≠ 0)
  | .spill => decide (v.toNat % 128 ≠ 0) || decide (field v.toNat 32 20 > 0x80000)
  | .lcid | .ctx | .mode | .phase | .nanread | .fflags | .fenable | .rngseed | .progress | .slice | .slicestat | .lsbase => false

/-- A nonzero slice below save + restore + 4096 cycles is used as 8192 (R113). -/
def clampSlice (n : Nat) : Nat := if n ≠ 0 ∧ n < 8192 then 8192 else n

/-- A write of a system register; read-only registers and reserved bits ignore it (R5, R116, R118). -/
def State.sysWrite (s : State) (r : SysReg) (v : Word) : State :=
  let n := v.toNat
  match r with
  | .nanread => s.mod (fun t => { t with nanread := decide (n % 2 = 1) })
  | .fflags => s.mod (fun t => { t with fflags := BitVec.ofNat 5 n })
  | .fenable => s.modMe (fun c => { c with fenable := BitVec.ofNat 5 n })
  | .rngseed => s.modMe (fun c => { c with rngseed := v })
  | .slice => s.mod (fun t => { t with slice := clampSlice (n % 2 ^ 32), clamped := decide (clampSlice (n % 2 ^ 32) ≠ n % 2 ^ 32) })
  | .slicestat => s.mod (fun t => { t with forced := field n 32 32, yields := field n 1 31, clamped := decide (n % 2 = 1) })
  | .trapvec => s.mod (fun t => { t with trapvec := n % 2 ^ 56 })
  | .spill => s.mod (fun t => { t with spillTop := field n 0 19, spillLimit := field n 32 20 })
  | .lcid | .ctx | .mode | .phase | .progress | .lsbase => s

/-! ### Regions (R23, R80) -/

/-- The region key of R80 for a region of the slot in focus. -/
def State.keyOf (s : State) (t : Slot) (pc : Word) (mask : BitVec 32) : Word :=
  regionKey s.me.rngseed (BitVec.ofNat 64 s.focus.lc :: pc :: mask.setWidth 64 :: (maskRegs mask).map t.rx)

/-- A mask without bit 0, which is ignored (R23). -/
def inputMask (m : BitVec 32) : BitVec 32 := BitVec.ofNat 32 (m.toNat / 2 * 2)

/-- The rows of the accumulators that a continuation holds (R240, R252). -/
def LCore.heldRows (c : LCore) (cid : Nat) : Tab VReg :=
  if cid = 0 then [] else c.accs.filter (fun e => decide (Tab.get 0 c.holders (e.1 / 48) = cid))

/-- Starts a region of the slot in focus at `pc` with an input set: request numbers and n restart, K is computed, the stores of others
into code become visible, and the accumulators held and the inputs are noted (R23, R45, R80, R149, R252, R341). -/
def State.startRegion (s : State) (pc : Word) (mask : BitVec 32) : State :=
  let m := inputMask mask
  s.mod (fun t => { t with
    region := pc, rmask := m, rseq := 0, rsrN := 0, key := s.keyOf t pc m, viewAt := s.codeLog.length, accAt := s.me.heldRows t.cid
    inputs := t.x.filter (fun e => m.getLsbD e.1), inK := t.rk 1 })

/-- The registers of a region restart: k1, the input set and the window stack stay, every other register reads zero (R23). -/
def Slot.restart (t : Slot) : Slot :=
  { t with
    x := t.x.filter (fun e => t.rmask.getLsbD e.1), v := [], k := t.k.filter (fun e => decide (e.1 = 1)), fflags := 0
    pc := t.region, progress := 0, tasks := [], longs := [], parked := false, pend := none, stopped := [], stopReq := .none
    stopNew := 0, undone := [], wait := .none, await := none, drainAt := none }

/-! ### Group close (R21, R47, R169) -/

/-- The row key of an accumulator row. -/
def rowKey (an row : Nat) : Nat := an * 48 + row

/-- Delivers one result of a long instruction. -/
def Out.apply (o : Out) (s : State) : State :=
  match o with
  | .x rd w => s.mod (fun t => t.wx rd w)
  | .v vd m w => s.mod (fun t => t.wv vd ((t.rv vd &&& ~~~m) ||| (w &&& m)))
  | .k kd m w => s.mod (fun t => t.wk kd ((t.rk kd &&& ~~~m) ||| (w &&& m)))
  | .acc an rows => s.modMe (fun c => { c with accs := rows.foldl (fun a r => Tab.set 0 a (rowKey an r.1) r.2) c.accs })
  | .sysx rd r w => (s.mod (fun t => t.wx rd (s.sysRead r))).sysWrite r w
  | .take an => s.modMe (fun c => { c with
      holders := Tab.set 0 c.holders an s.slot.cid
      accs := Tab.clear c.accs (rowKey an 0) (rowKey (an + 1) 0) })
  | .free an => s.modMe (fun c => { c with holders := Tab.set 0 c.holders an 0 })
  | .bind dn d => s.modMe (fun c => { c with descs := Tab.set {} c.descs dn d })
  | .unbind dn => s.modMe (fun c => { c with descs := Tab.set {} c.descs dn {} })

/-- Closes the group of the slot in focus: results in program order, then the flags (R21, R169). -/
def State.closeGroup (s : State) : State :=
  let ls := s.slot.longs
  let s1 := ls.foldl (fun s l => l.outs.foldl (fun s o => o.apply s) s) s
  s1.mod (fun t => { t.collect ls with longs := [], parked := false, progress := if t.stopped.isEmpty then 0 else t.progress })

/-! ### Taking a trap (R50, R326, R327) -/

/-- A class I trap of the instruction that the slot issues. -/
def Slot.ipc (t : Slot) : Word :=
  match t.stopped with
  | [] => t.pc
  | e :: _ => e.ipc
def State.fault (s : State) (k : TrapKind) (a : Word) : Trap :=
  { kind := k, pc := s.slot.ipc, region := s.slot.region, addr := a, mask := s.slot.rmask }

/-- The spill top as it stood at depth 0 (R100). -/
def Slot.top0 (t : Slot) : Nat := t.spillTop - 128 * (t.depth + 1 - t.w)

/-- Writes the image of the slot in focus into its frame. There is one frame for a slot: an image that stands in it and has not resumed is
kept aside first, so that no continuation is lost (R112, R327, R388; DESIGN CHOICE, log 77). -/
def State.putFrame (s : State) : State :=
  let f := s.focus
  let a := s.here.imageFrame f.lc f.pos
  let aside (d : ImgSide) : ImgSide := if d.pos = f.pos ∧ d.kept.isNone then { d with kept := some ((s.peekBytes f.ctx a 8192).getD []) } else d
  (s.modMe (fun c => { c with sides := c.sides.map (fun (e : Nat × ImgSide) => (e.1, aside e.2)) })).hwWrite f.ctx a (s.slot.image s.slot.pc)

/-- A slot that stops issuing: its state goes to its image frame, the fault record to its place, and a TRAPNOTE of cause 5 to the
supervisor (R327). The service slot has no fault-record place (R326, log 11). -/
def State.halt (s : State) (tr : Trap) : State :=
  let t := s.slot
  let f := s.focus
  let c := s.here
  let s1 := s.putFrame
  let s2 := if f.pos < 8 then s1.hwWrite f.ctx (c.faultPlace f.lc f.pos) (tr.record f.lc f.pos t.sup) else s1
  (s2.mod (fun t => { t with mode := .halted, pend := none, stopReq := .none })).trapnote f.ctx 5 f.lc
    (if f.pos < 8 then BitVec.ofNat 64 (c.faultPlace f.lc f.pos) else 0) 0

/-- Delivers a trap, the group being closed and the PC of the slot being the image PC: trap frame and fault record, then supervisor
code at `sys.trapvec` (R326); in supervisor code, without a handler, or on the service slot, the slot halts (R327, log 11). -/
def State.deliverTrap (s : State) (tr : Trap) : State :=
  let t := s.slot
  let f := s.focus
  let c := s.here
  if t.sup || decide (t.trapvec = 0) || decide (8 ≤ f.pos) then s.halt tr
  else
    let frame := c.trapFrame f.lc f.pos
    let place := c.faultPlace f.lc f.pos
    let s1 := (s.hwWrite f.ctx frame (t.image t.pc)).hwWrite f.ctx place (tr.record f.lc f.pos t.sup)
    let t1 : Slot := { t with
      x := [], v := [], k := [], older := [], depth := 0, fflags := 0, progress := 0, spillTop := t.top0, sup := true
      stopped := [], await := none, wait := .none, pend := none, stopReq := .none, stopNew := 0, undone := [], tasks := [], longs := [], parked := false
      pc := BitVec.ofNat 64 t.trapvec }
    let t2 := (((t1.wx 8 (BitVec.ofNat 64 frame)).wx 9 (BitVec.ofNat 64 place)).wx 10 (BitVec.ofNat 64 tr.kind.code)).wk 1
      (BitVec.allOnes 48)
    (s1.setSlot f t2).startRegion t2.pc 0x700

/-- Delivers a trap whose group has no instruction left to complete: the group closes, and the image PC is the PC, or for TRAP the next
instruction (R50, R326, R330). -/
def State.closeAndTrap (s : State) (tr : Trap) : State :=
  (s.closeGroup.mod (fun t => { t with pc := tr.next.getD t.pc })).deliverTrap tr

/-- Takes a class I trap at the instruction in issue: at once when the group's long instructions have completed, whose results are
delivered first; else when they have (R50). The PC stays at the instruction until then. -/
def State.takeTrap (s : State) (tr : Trap) : State :=
  if s.slot.tasks.isEmpty then s.closeAndTrap tr else s.mod (fun t => { t with pend := some tr })

/-! ### Issue (R46 steps 7 and 8, R47, R49, R334) -/

/-- The checks of R46 steps 7 and 8. -/
def Slot.gate (t : Slot) (h : Hd) (long needS priv : Bool) : Option TrapKind :=
  if priv && !t.sup then some .protection
  else if (long && decide (8 ≤ t.longs.length)) || (needS && !h.s && t.stopped.isEmpty) then some .illegalGroup
  else none

/-- The slot after the issue of an instruction: its PC, and the end of its group (R43, R47). A stopped instruction that rejoins
moves neither, and `sys.progress` keeps its progress index until it completes (R116, R334). -/
def Slot.retire (t : Slot) (h : Hd) : Slot :=
  match t.stopped with
  | [] => { t with pc := nextPc t.pc h.len, parked := h.s && !t.longs.isEmpty }
  | _ :: r => { t with stopped := r }

/-- Issues a short instruction: checks, then its effect on the slot (R46, R166). -/
def State.issueShort (s : State) (h : Hd) (needS : Bool) (chk : Option Trap) (eff : Slot → Slot) : State :=
  match s.slot.gate h false needS false with
  | some k => s.takeTrap (s.fault k 0)
  | none =>
    match chk with
    | some tr => s.takeTrap tr
    | none => s.mod (fun t => (eff t).retire h)

/-- Issues a control transfer to `target`, or to the next instruction (R43, R48, R123). -/
def State.issueJump (s : State) (h : Hd) (target : Option Word) : State :=
  match s.slot.gate h false true false with
  | some k => s.takeTrap (s.fault k 0)
  | none =>
    match target with
    | none => s.mod (fun t => t.retire h)
    | some a => if badTarget a then s.takeTrap (s.fault .illegalFormat a) else s.mod (fun t => { t.retire h with pc := a })

/-- What a long instruction has to show after its issue: results complete at once, or an entry of the access queue with its address
and its remote requests; and whether it takes a number of the stochastic generator (R80). -/
structure Job where
  outs   : List Out := []
  flags  : BitVec 5 := 0
  task   : Option TaskOp := none
  ea     : Word := 0
  remote : Nat := 0
  rsr    : Bool := false

/-- Adds a long instruction that issues in cycle `now` to the open group (R49, R164, R166). -/
def Slot.addLong (t : Slot) (now word : Nat) (ra rb : Word) (j : Job) : Slot :=
  let id := (t.longs.foldl (fun n l => Nat.max n l.id) 0) + 1
  let l : Long :=
    { id := id, pc := t.ipc, word := word, ra := ra, rb := rb, done := j.task.isNone, outs := j.outs, flags := j.flags, again := !t.stopped.isEmpty }
  match j.task with
  | none => { t with longs := t.longs ++ [l], rsrN := t.rsrN + j.rsr.toNat }
  | some op =>
    { t with
      longs := t.longs ++ [l]
      tasks := t.tasks ++ [{ id := id, pc := t.ipc, ea := j.ea, remote := j.remote, nan := t.nanread, cycle := now, op := op }] }

/-- The scalar operand that an instruction reads through RA or RB; a stopped instruction that rejoins reads SCAL (R335). -/
def Slot.opA (t : Slot) (r : Nat) : Word :=
  match t.stopped with
  | [] => t.rx r
  | e :: _ => e.ra
def Slot.opB (t : Slot) (r : Nat) : Word :=
  match t.stopped with
  | [] => t.rx r
  | e :: _ => e.rb

/-- Issues a long instruction whose word and scalar operands the group keeps: checks, then the group buffer and access queue. -/
def State.issueLong (s : State) (h : Hd) (needS priv : Bool) (chk : Option Trap) (word : Nat) (ra rb : Word) (j : Job) : State :=
  match s.slot.gate h true needS priv with
  | some k => s.takeTrap (s.fault k 0)
  | none =>
    match chk with
    | some tr => s.takeTrap tr
    | none => s.mod (fun t => (t.addLong s.cycle word ra rb j).retire h)

/-- The instruction at the PC waits until every earlier access of the slot is performed; until then the slot is not ready (R94, R170). -/
def State.drainWait (s : State) : State := s.mod (fun t => { t with drainAt := some t.pc })

/-- Issues an instruction that ends a region or the group with an effect of its own: checks, then a wait until every earlier access
of the slot is performed, then `act` (R48, R170). -/
def State.issueEnd (s : State) (h : Hd) (long priv : Bool) (chk : Option Trap) (act : State → State) : State :=
  match s.slot.gate h long true priv with
  | some k => s.takeTrap (s.fault k 0)
  | none =>
    match chk with
    | some tr => s.takeTrap tr
    | none => if s.slot.tasks.isEmpty then act s else s.drainWait

/-! ### Refusals (R148 to R152, R168) -/

/-- A wait-list entry for page `page`; the first sends a TRAPNOTE of cause 2 (R151). -/
def State.waitOn (s : State) (ctx lc page : Nat) (w : Waiter) : State :=
  let l := Tab.get [] (s.ctxOf ctx).waitLists page
  let s1 := s.modCtx ctx (fun c => { c with waitLists := Tab.set [] c.waitLists page (l ++ [w]) })
  if l.isEmpty then s1.trapnote ctx 2 lc (BitVec.ofNat 64 (page * 65536)) 0 else s1

/-- The continuation record of the slot in focus (R103). -/
def Slot.record (t : Slot) (pc : Word) (mask : BitVec 32) (cause : Nat) (a : Option Await) : Record :=
  { pc := pc, mask := inputMask mask, bind := t.bind, cause := cause, nan := t.nanread, prio := t.prio, node := t.node, k1 := t.rk 1
    live := (maskRegs mask).map t.rx, await := a }

/-- The queue entry that stands for a record of the pool. -/
def Slot.entry (t : Slot) (i : Nat) (a : Option Await) : QEntry :=
  { ref := i, bind := t.bind, prio := t.prio, cid := t.cid, node := t.node, iter := t.iter, await := a }

/-- Takes a record from the pool and writes it (R106): its index and the state, or none when the pool is empty. `pos` is the slot that
needs it, if one does. The queue link is zero in a record that is suspended at a plain `recv` and so stands in no queue (R103). -/
def State.takeRecordFor (s : State) (ctx lc : Nat) (pos : Option Nat) (r : Record) : Option (Nat × State) :=
  match (s.ctxOf ctx).takeRecord with
  | none => none
  | some (i, c) =>
    let s1 := s.setCtx ctx c
    let s2 := pos.elim s1 (fun p => s1.poolOver ctx lc p true)
    some (i, (s2.hwWrite ctx (c.recordAddr i) { r with link := if r.cause = 1 then 0 else Config.queueLink s.draws }.bytes).draw)
def State.takeRecord (s : State) (r : Record) : Option (Nat × State) := s.takeRecordFor s.focus.ctx s.focus.lc (some s.focus.pos) r

/-- What of a slot outlives its continuation: the registers that belong to the slot (R117). -/
def Slot.freed (t : Slot) : Slot :=
  { trapvec := t.trapvec, slice := t.slice, forced := t.forced, yields := t.yields, clamped := t.clamped, spillTop := t.spillTop
    spillLimit := t.spillLimit, spillBase := t.spillBase, viewAt := t.viewAt, idemAt := t.idemAt }

/-- Frees the slot in focus. -/
def State.freeSlot (s : State) : State := (s.mod Slot.freed).poolOver s.focus.ctx s.focus.lc s.focus.pos false

/-- The instruction in issue holds its slot for want of a pool record (R106). -/
def State.holdPool (s : State) : State :=
  (s.mod (fun t => { t with wait := .pool })).poolHold s.focus.ctx s.focus.lc s.focus.pos

/-- The slot is held; its restart state stands in its image frame (R102, R151). -/
def State.holdSlot (s : State) : State :=
  s.putFrame.mod (fun t => { t with mode := .held })

/-- The region of the slot in focus, reset to its restart state, waits on an absent page: as a record at depth 0 with at most 16 inputs,
else as a held slot (R23, R151). On the service slot it is a held slot (R98); so it is while the pool has no record for it (R106, log 12). -/
def State.waitPage (s : State) (page : Nat) : State :=
  let t := s.slot
  let f := s.focus
  if t.depth = 0 ∧ popCount 32 t.rmask.toNat ≤ 16 ∧ f.pos < 8 then
    match s.takeRecord (t.record t.region t.rmask 2 none) with
    | some (i, s1) => s1.freeSlot.waitOn f.ctx f.lc page (.record f.lc (t.entry i none))
    | none => s.holdSlot.holdPool.waitOn f.ctx f.lc page (.slot s.party)
  else s.holdSlot.waitOn f.ctx f.lc page (.slot s.party)

/-- A held slot whose region a record can stand for takes its place on the wait list as that record, once the pool has one (R106, R151). -/
def State.heldRecord (s : State) : State :=
  let t := s.slot
  let f := s.focus
  match s.takeRecord (t.record t.region t.rmask 2 none) with
  | none => s
  | some (i, s1) =>
    s1.freeSlot.modCtx f.ctx (fun c => { c with waitLists := c.waitLists.map (fun (e : Nat × List Waiter) =>
      (e.1, e.2.map (fun w => if w = .slot s.party then .record f.lc (t.entry i none) else w))) })

/-- The accumulators that a continuation holds, brought back to what they held at its region's start (R252). -/
def LCore.rewind (c : LCore) (cid : Nat) (rows : Tab VReg) : LCore :=
  let mine (e : Nat × VReg) : Bool := decide (cid ≠ 0) && decide (Tab.get 0 c.holders (e.1 / 48) = cid)
  { c with accs := (rows.filter mine).foldl (fun a e => Tab.set 0 a e.1 e.2) (c.accs.filter (fun e => !mine e)) }

/-- Aborts the region of the slot in focus on a refusal (R150, R168): the restart state, then the wait list (R151) or the trap
(R152). `tr` carries the record's PC, SEQ, lane and progress index. -/
def State.abort (s : State) (tr : Trap) : State :=
  let t := s.slot
  let tr := { tr with cls := .refusal, region := t.region, mask := t.rmask }
  let s1 := (s.mod Slot.restart).modMe (fun c => { c.rewind t.cid t.accAt with parts := c.parts.filter (fun q => decide (q.cid ≠ t.cid)) })
  let s2 := s1.mod (fun t => { t with rseq := 0, rsrN := 0, key := s1.keyOf t t.region t.rmask })
  if tr.kind = .pageAbsent then s2.waitPage (pageOf tr.addr) else s2.deliverTrap tr

/-! ### Stopping inside a group (R334) -/

/-- The instructions that stop at a boundary of their own (R334 step 3). -/
def TaskOp.interruptible : TaskOp → Bool
  | .gather .. | .scatter .. | .mat .. | .autpin .. | .autrun .. | .maprun .. | .allow .. | .triewalk .. | .detok .. | .route ..
  | .autbind .. => true
  | _ => false

/-- The progress index of an instruction in the queue. -/
def TaskOp.progress : TaskOp → Nat
  | .gather _ _ _ _ _ _ j | .scatter _ _ _ _ _ j => j
  | .mat _ blk => blk
  | .autpin _ _ _ page => page
  | .autrun _ _ _ _ _ _ round => round
  | .maprun _ _ _ _ _ round => round
  | .allow _ _ _ _ _ blk _ _ => 1536 * blk
  | .triewalk _ _ _ _ _ round => round
  | .detok _ _ _ _ _ _ j => j
  | .route _ r => r.t
  | .autbind _ page _ => page
  | _ => 0

/-- The entry of the group save area for an instruction in the queue (R335, R336). -/
def stoppedOf (l : Long) (k : Task) : Stopped :=
  let base : Stopped := { ipc := l.pc, word := l.word, prog := k.op.progress, ra := l.ra, rb := l.rb }
  match k.op with
  | .gather _ _ offs st _ acc _ => { base with a := acc, b := if st.isNone then offs else 0 }
  | .scatter _ offs st _ data _ => { base with a := data, b := if st.isNone then offs else 0 }
  | .autstep _ _ _ va vb => { base with a := va, b := vb }
  | .autrun _ _ _ words cnts _ _ => { base with a := words, c := leNat (cnts.flatMap (leBytes 2)) }
  | .maprun _ _ _ states _ _ => { base with a := states }
  | .triewalk _ _ _ va _ _ => { base with a := va }
  | .allow _ _ _ vb _ _ _ _ => { base with a := vb }
  | _ => base

/-- The instruction stands at a boundary at which it may stop (R252, R274, R289 to R291, R334). -/
def Task.boundary (k : Task) : Bool :=
  k.op.interruptible && k.got.isEmpty && match k.op with
    | .allow _ _ _ _ _ _ line mask => decide (line = 0) && mask.isEmpty
    | _ => true

/-- Keeps what a stopped instruction has done, one for each (R252, R290). -/
def LCore.keepPart (c : LCore) (p : Part) : LCore :=
  { c with parts := c.parts.filter (fun q => !(decide (q.cid = p.cid) && decide (q.ipc = p.ipc))) ++ [p] }

/-- What is kept of the stopped instruction that rejoins next (R252, R334). -/
def State.partOf (s : State) : Option TaskOp :=
  if s.slot.stopped.isEmpty then none
  else (s.me.parts.find? (fun q => decide (q.cid = s.slot.cid) && decide (q.ipc = s.slot.ipc))).map (·.op)

/-- The active lanes with which a lane-wise instruction issued. -/
def TaskOp.act? : TaskOp → Option PReg
  | .gather _ _ _ _ act _ _ | .scatter _ _ _ act _ _ | .autstep _ _ act _ _ | .autrun _ _ act _ _ _ _ | .maprun _ _ act _ _ _ => some act
  | .triewalk _ _ act _ _ _ => some act
  | _ => none

/-- The active lanes of an instruction in issue: one that rejoins has those with which it issued first (R40, R213, R334). -/
def State.actOf (s : State) (p : Pred) : PReg := (s.partOf.bind TaskOp.act?).getD (s.slot.act p)

/-- Takes the oldest instruction of the queue out of the group at progress index `prog`: it goes to the group save area, behind those that
this stop has taken before, and what it has done is kept with its accumulator or descriptor (R334, R252, R290). -/
def State.stopEntry (s : State) (k : Task) (prog : Nat) : State :=
  let t := s.slot
  let l := t.longs.find? (fun l => decide (l.id = k.id))
  let ents := (l.map (fun l => { stoppedOf l k with prog := prog })).toList
  (s.modMe (fun c => c.keepPart { cid := t.cid, ipc := k.pc, op := k.op })).mod (fun t =>
    let st := t.stopped.take t.stopNew ++ ents ++ t.stopped.drop t.stopNew
    { t with
      stopped := st, stopNew := t.stopNew + 1, undone := t.undone ++ (l.map (fun l => (l, k))).toList
      longs := t.longs.filter (fun l => decide (l.id ≠ k.id)), tasks := t.tasks.tail, progress := (st.head?.map (·.prog)).getD 0 })

/-- The last instruction that the stop in progress has taken out of the group goes on in it (R334 step 5). -/
def Slot.goOn (t : Slot) : Slot :=
  match t.undone.getLast? with
  | none => t
  | some (l, k) =>
    { t with
      stopped := t.stopped.take (t.stopNew - 1) ++ t.stopped.drop t.stopNew, stopNew := t.stopNew - 1, undone := t.undone.dropLast
      longs := t.longs.filter (fun m => decide (m.id < l.id)) ++ l :: t.longs.filter (fun m => decide (l.id < m.id)), tasks := k :: t.tasks }

/-- Every instruction that the stop in progress has taken out of the group goes on in it. -/
def Slot.goOnAll (t : Slot) : Slot := t.undone.foldl (fun t _ => t.goOn) t

/-- A class E trap of the oldest instruction: it stops first, and the trap is delivered once the rest has stopped or completed. At most two
instructions stop and the trapping one is counted first: where two have stopped before it, the second of them goes on (R334). A class I trap
that waits for the group is not raised, since its instruction, at the PC, counts as unissued (R338's rule for a seal; DEDUCED, log 80). -/
def State.trapExec (s : State) (k : Task) (tr : Trap) : State :=
  let tr := { tr with cls := .exec, pc := k.pc, region := s.slot.region, mask := s.slot.rmask }
  let last := decide (2 ≤ s.slot.stopped.length) && !s.slot.undone.isEmpty
  let s0 := if last then s.mod (fun t => { t.goOn with tasks := k :: t.goOn.tasks.filter (fun j => decide (j.id ≠ k.id)) }) else s
  let s1 := (s0.stopEntry k tr.progress).mod (fun t => { t with pend := some tr, parked := true, stopReq := .none })
  if s1.slot.tasks.isEmpty then s1.closeAndTrap tr else s1

/-- The oldest instruction of the queue and all after it count as unissued (R334 step 2). -/
def State.unissueFrom (s : State) (k : Task) : State :=
  (s.mod (fun t => { t with
    pc := k.pc, tasks := [], longs := t.longs.filter (fun l => decide (l.id < k.id)), parked := false, wait := .none })).poolOver
      s.focus.ctx s.focus.lc s.focus.pos false

/-- The instructions that hold their slot while what they need is busy; while one waits at the head of the queue nothing younger
has issued (R20, R334 step 2, log 13). -/
def TaskOp.holds : TaskOp → Bool
  | .copy .. | .subTile .. | .spawn .. | .glaunch | .rloop | .gstat .. | .cwatch | .slrsv .. | .sltake .. | .autbind .. => true
  | _ => false

/-- Nothing issues behind a holding instruction, nor behind a `poll` or an instruction on an own ring, which may trap precisely at its step
(R194, R316, log 13). -/
def Task.alone (k : Task) : Bool :=
  k.op.holds || match k.op with
    | .poll _ | .ringinit .. => true
    | .slpost _ | .slfree _ => decide (k.remote = 0)
    | _ => false
def Slot.blocked (t : Slot) : Bool := t.tasks.any Task.alone

/-- The slot is to stop inside its group, for a pre-emption, a seal or a class E trap (R334). -/
def Slot.stopping (t : Slot) : Bool := decide (t.stopReq ≠ .none) || t.pend.any (fun tr => decide (tr.cls = .exec))

/-- A stop request for a pre-emption or a seal (R334); a wait of the instruction in issue ends, and it counts as unissued. -/
def State.stopSlot (s : State) (r : StopReq) : State :=
  (s.mod (fun t => { t with stopReq := r, stopNew := 0, undone := [], wait := if t.wait = .deliver then .deliver else .none })).poolOver
    s.focus.ctx s.focus.lc s.focus.pos false

/-! ### Suspension and ends of a continuation (R105, R111, R112, R125) -/

/-- What the hardware keeps beside an image frame (R353, R366). -/
def Slot.side (t : Slot) (pos : Nat) : ImgSide :=
  { pos := pos, node := t.node, iter := t.iter, cid := t.cid, await := t.await, pending := decide (t.wait = .deliver), seq := t.rseq, accAt := t.accAt
    inputs := t.inputs, inK := t.inK, tasks := t.tasks, longs := t.longs, parked := t.parked, pend := t.pend, stopNew := t.stopNew
    undone := t.undone }

/-- The image of the slot in focus in its frame, with what is kept beside it, under the continuation's name. -/
def State.keepImage (s : State) : State :=
  s.putFrame.modMe (fun c => { c with sides := Tab.set {} c.sides s.slot.cid (s.slot.side s.focus.pos) })

/-- Saves the slot in focus as a slot image and frees it: the image is queued, or, under an await word, waits for its message
(R112). An image that still stands in the slot's one frame is kept aside (DESIGN CHOICE, log 77). -/
def State.saveImage (s : State) : State :=
  let t := s.slot
  let f := s.focus
  let s2 := s.keepImage.freeSlot
  let q : QEntry := { image := true, ref := f.pos, bind := t.bind, prio := t.prio, cid := t.cid, node := t.node, iter := t.iter, await := t.await }
  if t.await.isSome then s2.suspend f.ctx f.lc q else s2.enqueue f.ctx f.lc q

/-- The accumulators and descriptors that the continuation in focus holds are released (R125, R243, R268). -/
def State.releaseUnits (s : State) : State :=
  let cid := s.slot.cid
  s.modMe (fun c => { c with
    holders := c.holders.filter (fun e => decide (e.2 ≠ cid)), parts := c.parts.filter (fun q => decide (q.cid ≠ cid)), descs := c.descs.filter (fun e => decide (e.2.holder ≠ cid)) })

/-- The continuation in focus holds an accumulator or a descriptor (R25, R207). -/
def State.holdsUnits (s : State) : Bool :=
  let cid := s.slot.cid
  s.me.holders.any (fun e => decide (e.2 = cid)) || s.me.descs.any (fun e => decide (e.2.holder = cid))

/-- A fresh continuation name (log 7). -/
def State.newCid (s : State) (ctx : Nat) : Nat × State :=
  let c := s.ctxOf ctx
  (c.nextCid, s.setCtx ctx { c with nextCid := c.nextCid + 1 })

/-- Delivers a taken message to xd to xd+7 (R24); registers past x31 receive nothing (log 14). -/
def Slot.receive (t : Slot) (xd : Nat) (m : Msg) : Slot := t.wxs xd (m.deliver.take (32 - xd))

/-- The input registers that a message adds (R24). -/
def recvMask (xd : Nat) : BitVec 32 := BitVec.ofNat 32 (0xFF * 2 ^ xd)

end Sys2Proof.Machine
end

