-- ==== Sys2Proof/Machine/Scalar.lean ====
section
/-! DEFINITION. The scalar instructions (05 R119 to R122). -/

namespace Sys2Proof.Machine

/-- What a step answers. -/
abbrev Result := Host.Outcome State Fault Refusal

/-- xd := f(xa, b), short (R119). -/
def State.alu (s : State) (h : Hd) (rd ra : Reg) (b : Src) (f : Word → Word → Word) : State :=
  s.issueShort h false none (fun t => t.wx rd.val (f (t.rx ra.val) (t.src b)))

/-- xd := f(xa), short (R121). -/
def State.alu1 (s : State) (h : Hd) (rd ra : Reg) (f : Word → Word) : State :=
  s.issueShort h false none (fun t => t.wx rd.val (f (t.rx ra.val)))

/-- The high half of the unsigned product (R119). -/
def mulHu (a b : Word) : Word := BitVec.ofNat 64 (a.toNat * b.toNat / 2 ^ 64)
/-- The high half of the signed product (R119). -/
def mulHs (a b : Word) : Word := BitVec.ofInt 64 (a.toInt * b.toInt / 2 ^ 64)
/-- Division (R120). -/
def divS (a b : Word) : Word := if b = 0 then BitVec.allOnes 64 else BitVec.ofInt 64 (a.toInt.tdiv b.toInt)
def divU (a b : Word) : Word := if b = 0 then BitVec.allOnes 64 else BitVec.ofNat 64 (a.toNat / b.toNat)
def remS (a b : Word) : Word := if b = 0 then a else BitVec.ofInt 64 (a.toInt.tmod b.toInt)
def remU (a b : Word) : Word := if b = 0 then a else BitVec.ofNat 64 (a.toNat % b.toNat)
/-- The shift count: bits 5:0 (R119). -/
def cnt (b : Word) : Nat := b.toNat % 64
def minS (a b : Word) : Word := if b.slt a then b else a
def maxS (a b : Word) : Word := if a.slt b then b else a
def minU (a b : Word) : Word := if b.ult a then b else a
def maxU (a b : Word) : Word := if a.ult b then b else a

/-- Leading zero bits among the low `n` (R121). -/
def clzN : Nat → Nat → Nat
  | 0, _ => 0
  | n + 1, v => if v / 2 ^ n % 2 = 1 then 0 else 1 + clzN n v
/-- Trailing zero bits among the low `n` (R121). -/
def ctzN : Nat → Nat → Nat
  | 0, _ => 0
  | n + 1, v => if v % 2 = 1 then 0 else 1 + ctzN n (v / 2)

/-- The field of `len` bits at `pos` (R122). -/
def bitField (signed : Bool) (a : Word) (pos len : Nat) : Word :=
  let v := field a.toNat pos len
  if signed ∧ v / 2 ^ (len - 1) = 1 then BitVec.ofInt 64 ((v : Int) - 2 ^ len) else BitVec.ofNat 64 v

/-- The insertion of R122. -/
def insertField (old a : Word) (pos len : Nat) : Word :=
  let m := BitVec.ofNat 64 (ones len * 2 ^ pos)
  (old &&& ~~~m) ||| ((a <<< pos) &&& m)

def execAdd (h : Hd) (rd ra : Reg) (b : Src) (s : State) : Result := .next (s.alu h rd ra b (fun x y => x + y))
def execSub (h : Hd) (rd ra : Reg) (b : Src) (s : State) : Result := .next (s.alu h rd ra b (fun x y => x - y))
def execMul (h : Hd) (rd ra : Reg) (b : Src) (s : State) : Result := .next (s.alu h rd ra b (fun x y => x * y))
def execMulh (h : Hd) (rd ra : Reg) (b : Src) (s : State) : Result := .next (s.alu h rd ra b mulHs)
def execMulhu (h : Hd) (rd ra : Reg) (b : Src) (s : State) : Result := .next (s.alu h rd ra b mulHu)
def execDiv (h : Hd) (rd ra : Reg) (b : Src) (s : State) : Result := .next (s.alu h rd ra b divS)
def execDivu (h : Hd) (rd ra : Reg) (b : Src) (s : State) : Result := .next (s.alu h rd ra b divU)
def execRem (h : Hd) (rd ra : Reg) (b : Src) (s : State) : Result := .next (s.alu h rd ra b remS)
def execRemu (h : Hd) (rd ra : Reg) (b : Src) (s : State) : Result := .next (s.alu h rd ra b remU)
def execAnd (h : Hd) (rd ra : Reg) (b : Src) (s : State) : Result := .next (s.alu h rd ra b (fun x y => x &&& y))
def execOr (h : Hd) (rd ra : Reg) (b : Src) (s : State) : Result := .next (s.alu h rd ra b (fun x y => x ||| y))
def execXor (h : Hd) (rd ra : Reg) (b : Src) (s : State) : Result := .next (s.alu h rd ra b (fun x y => x ^^^ y))
def execAndn (h : Hd) (rd ra : Reg) (b : Src) (s : State) : Result := .next (s.alu h rd ra b (fun x y => x &&& ~~~y))
def execOrn (h : Hd) (rd ra : Reg) (b : Src) (s : State) : Result := .next (s.alu h rd ra b (fun x y => x ||| ~~~y))
def execShl (h : Hd) (rd ra : Reg) (b : Src) (s : State) : Result := .next (s.alu h rd ra b (fun x y => x <<< cnt y))
def execShr (h : Hd) (rd ra : Reg) (b : Src) (s : State) : Result := .next (s.alu h rd ra b (fun x y => x >>> cnt y))
def execSra (h : Hd) (rd ra : Reg) (b : Src) (s : State) : Result := .next (s.alu h rd ra b (fun x y => x.sshiftRight (cnt y)))
def execRol (h : Hd) (rd ra : Reg) (b : Src) (s : State) : Result := .next (s.alu h rd ra b (fun x y => x.rotateLeft (cnt y)))
def execRor (h : Hd) (rd ra : Reg) (b : Src) (s : State) : Result := .next (s.alu h rd ra b (fun x y => x.rotateRight (cnt y)))
def execClz (h : Hd) (rd ra : Reg) (s : State) : Result := .next (s.alu1 h rd ra (fun x => BitVec.ofNat 64 (clzN 64 x.toNat)))
def execCtz (h : Hd) (rd ra : Reg) (s : State) : Result := .next (s.alu1 h rd ra (fun x => BitVec.ofNat 64 (ctzN 64 x.toNat)))
def execPopc (h : Hd) (rd ra : Reg) (s : State) : Result := .next (s.alu1 h rd ra (fun x => BitVec.ofNat 64 (popCount 64 x.toNat)))
def execMin (h : Hd) (rd ra : Reg) (b : Src) (s : State) : Result := .next (s.alu h rd ra b minS)
def execMax (h : Hd) (rd ra : Reg) (b : Src) (s : State) : Result := .next (s.alu h rd ra b maxS)
def execMinu (h : Hd) (rd ra : Reg) (b : Src) (s : State) : Result := .next (s.alu h rd ra b minU)
def execMaxu (h : Hd) (rd ra : Reg) (b : Src) (s : State) : Result := .next (s.alu h rd ra b maxU)
/-- `cmp.cond` (R121). -/
def execCmp (h : Hd) (c : Cond) (rd ra : Reg) (b : Src) (s : State) : Result :=
  .next (s.alu h rd ra b (fun x y => if condHolds c x y then 1 else 0))
/-- `sel` (R121). -/
def execSel (h : Hd) (rd rc ra rb : Reg) (s : State) : Result :=
  .next (s.issueShort h false none (fun t => t.wx rd.val (if t.rx rc.val ≠ 0 then t.rx ra.val else t.rx rb.val)))
/-- `li` (R121). -/
def execLi (h : Hd) (rd : Reg) (i : Word) (s : State) : Result := .next (s.issueShort h false none (fun t => t.wx rd.val i))
/-- `bfx` (R122). -/
def execBfx (h : Hd) (signed : Bool) (rd ra : Reg) (pos lenm1 : Fin 64) (s : State) : Result :=
  .next (s.alu1 h rd ra (fun x => bitField signed x pos.val (lenm1.val + 1)))
/-- `bfi`, which also reads xd (R122). -/
def execBfi (h : Hd) (rd ra : Reg) (pos lenm1 : Fin 64) (s : State) : Result :=
  .next (s.issueShort h false none (fun t => t.wx rd.val (insertField (t.rx rd.val) (t.rx ra.val) pos.val (lenm1.val + 1))))

end Sys2Proof.Machine
end

