-- ==== Sys2Proof/Machine/Steps.lean ====
section
/-! DEFINITION. What a step on the oldest entry of an access queue can come to, and what it does to the slot (07 R167, R168). -/

namespace Sys2Proof.Machine

/-- The outcome of trying the head of the queue: the instruction is done, or it comes to its next boundary, or one access before that is
performed and gives bytes that the instruction goes on with, `req` being its remote requests, or a class E trap, a refusal
with its lane, its progress index and the remote requests of the refused access (or the instruction's own, R149), a wait, a wait for a mailbox
place. -/
inductive Perf where
  | done (s : State) (outs : List Out) (flags : FFlags)
  | more (s : State) (op : TaskOp)
  | part (s : State) (bs : List Byte) (req : Nat)
  | trap (s : State) (tr : Trap)
  | refuse (kind : TrapKind) (addr : Word) (lane prog req : Nat)
  | wait
  | hold (s : State)
  | full (dst ch : Nat)

/-- An access of the head of the queue, and what follows when it is performed. -/
def perfOf {α : Type} (x : Acc α) (lane prog req : Nat) (f : α → Perf) : Perf :=
  match x with
  | .ok a => f a
  | .error (.refuse k a) => .refuse k a lane prog req
  | .error .wait => .wait
  | .error (.full dst ch) => .full dst ch

/-- A class E trap raised by a check during execution (R324). -/
def stepTrap (k : TrapKind) (a : Word) (lane prog : Nat) : Trap := { kind := k, cls := .exec, addr := a, lane := lane, progress := prog }

/-- The slot after its oldest entry has completed with results: `sys.progress` is 0 once a rejoined instruction completes (R116). -/
def Slot.complete (t : Slot) (k : Task) (outs : List Out) (flags : FFlags) : Slot :=
  { t with
    tasks := t.tasks.tail
    progress := if t.longs.any (fun l => decide (l.id = k.id) && l.again) then (t.stopped.head?.map (·.prog)).getD 0 else t.progress
    longs := t.longs.map (fun l => if l.id = k.id then { l with done := true, outs := l.outs ++ outs, flags := l.flags ||| flags } else l) }

/-- The slot after `n` more remote requests of its region have been performed (R149). -/
def Slot.requested (t : Slot) (n : Nat) : Slot := { t with rseq := t.rseq + n }

/-- The remote requests of a step by which an instruction completes or comes to a boundary of its own: each access of a vector, row or single
instruction is such a step (R149, R235). -/
def Task.reqs (k : Task) : Nat := Nat.min 1 k.remote

/-- Applies the outcome of a step on the head `k` (R167); a refusal is not taken here. -/
def State.settle (s : State) (k : Task) (p : Perf) : State :=
  match p with
  | .done s' outs fl => s'.mod (fun t => (t.complete k outs fl).requested k.reqs)
  | .more s' op => s'.mod (fun t => ({ t with tasks := { k with begun := true, got := [], op := op } :: t.tasks.tail } : Slot).requested k.reqs)
  | .part s' bs n => s'.mod (fun t => ({ t with tasks := { k with begun := true, got := k.got ++ [bs] } :: t.tasks.tail } : Slot).requested n)
  | .trap s' tr => s'.trapExec k tr
  | .hold s' => s'
  | .full dst ch => s.fullWait s.focus.ctx dst ch
  | .wait | .refuse .. => s

/-- A fault address in the own store as the access named it: by member 0xF or by the own position (R127). -/
def named (lc : Nat) (ea addr : Word) : Word :=
  if field addr.toNat 20 44 = 0xFE00000000F ∧ (ownPlace lc ea).isSome then
    addr - 0xF00000 + BitVec.ofNat 64 (field ea.toNat 20 4 * 2 ^ 20)
  else addr

/-- A refusal other than PAGE_ABSENT of an engine's access places a TRAPNOTE of cause 11 (R432, R433). -/
def State.engNote (s : State) (ctx lc : Nat) (k : TrapKind) (a : Word) : State := s.trapnote ctx 11 lc a (BitVec.ofNat 64 k.code)

/-- The read of a record for an engine, whose refusal is noted beside what it does to the slot (R433). -/
def TaskOp.launches : TaskOp → Bool
  | .glaunch | .rloop => true
  | _ => false

/-- Takes a refusal of the head `k` (R168); any other outcome leaves the state. The number of a refused remote request is one more than those
performed before it in the region, since a slot's accesses are performed in their issue order (R149). -/
def State.settleRefusal (s : State) (k : Task) (p : Perf) : State :=
  match p with
  | .refuse kind addr lane prog req =>
    let s1 := s.poisonFull s.focus.ctx kind addr
    (if k.op.launches && decide (kind ≠ .pageAbsent) then s1.engNote s.focus.ctx s.focus.lc kind addr else s1).abort
      { kind := kind, addr := named s.focus.lc k.ea addr, lane := lane, progress := prog, pc := k.pc
        seq := if k.remote = 0 ∧ req = 0 then 0 else s.slot.rseq + 1 }
  | _ => s

/-- The head of the queue can be tried: the slot runs and waits for nothing else (R94, R167). -/
def Slot.head? (t : Slot) : Option Task :=
  if t.mode = .running ∧ t.wait = .none then t.tasks.head? else none

/-- An address is not in the issuer's own store, so its access is a remote request (R127). -/
def remoteOf (lc : Nat) (ea : Word) : Nat := if (ownPlace lc ea).isNone then 1 else 0

/-- The form and alignment checks of R126 and R128 at issue. -/
def State.formChk (s : State) (ea : Word) (size : Nat) : Option Trap :=
  if (placeOf s.focus.lc ea).isNone ∨ ea.toNat % size ≠ 0 then some (s.fault .protection ea) else none

/-- An aligned access of `n` bytes at `ea`, whose form was checked at issue. -/
def spot (lc : Nat) (ea : Word) (n : Nat) : List (Place × Nat) := [((placeOf lc ea).getD (.glob ea.toNat), n)]

/-- A copy command requests an event only where its flag says so (R305). -/
def CopyCmd.asks (c : CopyCmd) : Option Kind := if c.done then some .copydone else none

/-- The event kind that an entry of a queue requests (R191). -/
def TaskOp.asks : TaskOp → Option Kind
  | .cwatch | .pfxadd _ => some .count
  | .drain _ => some .draindone
  | .xinv _ => some .xinvdone
  | .copy _ _ c => c.asks
  | .subTile _ _ => some .copydone
  | .glaunch | .rloop => some .node
  | .load _ _ _ | .store _ | .disc | .flushl | .send _ _ _ _ | .poll _ | .watch _ | .bar | .carrive | .guard _ _ _ | .amo _ _ _ _ => none
  | .cas _ _ _ _ | .red _ _ _ | .spawn _ _ _ _ _ _ | .vload _ _ _ _ | .vstore _ _ _ | .gather _ _ _ _ _ _ _ => none
  | .scatter _ _ _ _ _ _ | .ald _ _ | .ast _ _ | .mat _ _ | .mcap _ | .mreq _ _ _ | .route _ _ => none
  | .autbind _ _ _ | .autpin _ _ _ _ | .autstk _ _ | .autstep _ _ _ _ _ | .autrun _ _ _ _ _ _ _ | .maprun _ _ _ _ _ _ => none
  | .mapinit _ _ _ | .allow _ _ _ _ _ _ _ _ | .triewalk _ _ _ _ _ _ | .detok _ _ _ _ _ _ _ => none
  | .unsub _ | .ringinit _ _ | .slrsv _ | .slpost _ | .sltake _ | .slfree _ | .nodeadd _ _ | .edgeadd _ _ | .gstat _ => none
  | .rsv | .rchk _ => none

/-- The other slots of the logical core of slot `f`, and of the one in focus; with them the open groups that a seal or a move has saved with
their images (log 30). -/
def State.siblingsOf (s : State) (f : Focus) : List Slot :=
  ((List.range 9).filter (fun p => decide (p ≠ f.pos))).map (fun p => s.slotAt { f with pos := p }) ++
  (s.core f.ctx f.lc).sides.map (fun e => { tasks := e.2.tasks, longs := e.2.longs })
def State.siblings (s : State) : List Slot := s.siblingsOf s.focus

/-- R191: another slot has requested an event of kind `k` in this phase whose message is not taken: CONFLICT at issue. -/
def State.requestChk (s : State) (k : Kind) : Option Trap :=
  if s.here.cr.det && (s.me.requestClash s.here.phase s.focus.pos k ||
      s.siblings.any (fun t => t.tasks.any (fun e => decide (e.op.asks = some k)))) then some (s.fault .conflict 0)
  else none

/-- R191: another slot has sent to `dst` in this phase: CONFLICT at issue. -/
def State.sendClash (s : State) (dst : Nat) : Bool :=
  let v := Tab.get 0 s.me.sentTo dst
  (decide (v ≠ 0) && decide (v / 16 = s.here.phase) && decide (v % 16 ≠ s.focus.pos + 1)) ||
  s.siblings.any (fun t => t.tasks.any (fun e =>
    match e.op with
    | .send _ d _ _ => decide (d = dst)
    | _ => false))

/-- Records an event request of kind `k` by the slot in focus at its perform step, with its ticket (R191). -/
def State.ask (s : State) (k : Kind) : Nat × State :=
  let (t, s1) := s.ticket s.focus.ctx
  (t, s1.modMe (fun c => c.request s.here.phase s.focus.pos k))

/-- The first trap of several checks made in order. -/
def firstTrap : List (Option Trap) → Option Trap
  | [] => none
  | some t :: _ => some t
  | none :: r => firstTrap r

/-! ### Instructions of several accesses (R167, R176) -/

/-- Why an instruction that makes several accesses does not come to its next boundary: a halt of the next one, or the next one has just
been performed in a step of its own; and the remote requests of that access (R149). -/
inductive Pause where
  | halt (h : Halt) (req : Nat)
  | need (s : State) (bs : List Byte) (req : Nat)

/-- The state of such an instruction as it goes again from its last boundary, and what its accesses gave that it has not come to. -/
structure Run where
  s    : State
  left : List (List Byte)

/-- The remote requests of one access to pieces: one, unless they lie in the issuer's own store (R127, R149). -/
def reqsOf (lc : Nat) (ps : List (Place × Nat)) : Nat :=
  if ps.any (fun q => match q.1 with
    | .ls l _ => decide (l ≠ lc)
    | .glob _ => true) then 1 else 0

/-- An access of such an instruction, of `n` remote requests: what it gave when it was performed, or its step. -/
def Run.access (r : Run) (n : Nat) (x : State → Acc (State × List Byte)) : Except Pause (List Byte × Run) :=
  match r.left with
  | b :: l => .ok (b, { r with left := l })
  | [] =>
    match x r.s with
    | .ok (s, bs) => .error (.need s bs n)
    | .error h => .error (.halt h n)
def Run.read (r : Run) (w : Who) (ps : List (Place × Nat)) : Except Pause (List Byte × Run) := r.access (reqsOf w.lc ps) (fun s => s.readAt w ps)
def Run.write (r : Run) (w : Who) (ps : List (Place × Nat)) (bs : List Byte) : Except Pause Run :=
  (r.access (reqsOf w.lc ps) (fun s => (s.writeAt w ps bs).map (fun s => (s, [])))).map (·.2)

/-- A step of an instruction of several accesses: one access more, or its next boundary. -/
def runPerf {α : Type} (s : State) (k : Task) (lane prog : Nat) (x : Run → Except Pause (α × Run)) (f : State → α → Perf) : Perf :=
  match x { s := s, left := k.got } with
  | .ok (a, r) => f r.s a
  | .error (.need s' bs n) => .part s' bs n
  | .error (.halt (.refuse kind a) n) => .refuse kind a lane prog n
  | .error (.halt .wait _) => .wait
  | .error (.halt (.full dst ch) _) => .full dst ch

/-- The line of its space in which a place lies. -/
def Place.line : Place → Place
  | .glob va => .glob (va / 192)
  | .ls l o => .ls l (o / 192)

/-- The place `n` bytes further on. -/
def Place.plus : Place → Nat → Place
  | .glob a, n => .glob (a + n)
  | .ls l o, n => .ls l (o + n)
def Place.off : Place → Nat
  | .glob a => a
  | .ls _ o => o

/-- A piece cut at the lines of its space. -/
def cutLines (q : Place × Nat) : List (Place × Nat) :=
  let o := q.1.off
  (List.range ((o + (q.2 - 1)) / 192 + 1 - o / 192)).map (fun i =>
    let lo := Nat.max o ((o / 192 + i) * 192)
    (q.1.plus (lo - o), Nat.min (o + q.2) ((o / 192 + i + 1) * 192) - lo))

/-- Neighbours of a list that agree under `f` grouped together. -/
def byKey {α κ : Type} [DecidableEq κ] (f : α → κ) : List α → List (List α)
  | [] => []
  | q :: r =>
    match byKey f r with
    | (p :: g) :: rest => if f p = f q then (q :: p :: g) :: rest else [q] :: (p :: g) :: rest
    | l => [q] :: l

/-- The read steps of pieces, one for each line: neighbours in one line go together (R176). -/
def lineSteps (ps : List (Place × Nat)) : List (List (Place × Nat)) := byKey (fun q => q.1.line) (ps.flatMap cutLines)

/-- Reads pieces line by line; their bytes in order. -/
def Run.readLines (w : Who) : List (List (Place × Nat)) → Run → Except Pause (List Byte × Run)
  | [], r => .ok ([], r)
  | g :: gs, r => do
    let (b, r1) ← r.read w g
    let (bs, r2) ← Run.readLines w gs r1
    .ok (b ++ bs, r2)

/-- Writes bytes line by line, in ascending address order. -/
def Run.writeLines (w : Who) : List (List (Place × Nat)) → List Byte → Run → Except Pause Run
  | [], _, r => .ok r
  | g :: gs, bs, r => do
    let n := (g.map (·.2)).foldl (· + ·) 0
    Run.writeLines w gs (bs.drop n) (← r.write w g (bs.take n))

/-- An access of the slot in focus that no iteration of the live loop makes (R368). -/
def State.outsideLoop (s : State) : Bool := s.here.cr.det && s.slot.iter.isNone && s.here.liveLoop.isSome

/-! ### The units of a physical core (R238, R266) -/

/-- The unit that takes an instruction of the queue: the matrix unit 9, or the automaton unit 10 (R163). -/
def TaskOp.unit : TaskOp → Option Nat
  | .mat .. => some 9
  | .autbind .. | .autpin .. | .autstk .. | .autstep .. | .autrun .. | .maprun .. | .mapinit .. | .allow .. | .triewalk .. | .detok .. => some 10
  | _ => none

/-- Of two instructions for one unit, `a` goes first: one that has begun, else the one that issued first. -/
def Task.ahead (a b : Task) : Bool := (a.begun && !b.begun) || (decide (a.begun = b.begun) && decide (a.cycle < b.cycle))

/-- Another slot of the logical core of `f` is binding the descriptor, or has bound it in its open group. -/
def State.binding (s : State) (f : Focus) (dn : Nat) : Bool :=
  (s.siblingsOf f).any (fun t =>
    t.tasks.any (fun k =>
      match k.op with
      | .autbind n _ d => decide (n = dn) && d.isSome
      | _ => false) ||
    t.longs.any (fun l => l.outs.any (fun o =>
      match o with
      | .bind n _ => decide (n = dn)
      | _ => false)))

/-- An `autbind` of slot `f` that has not begun waits, unissued, for its descriptor (R268). -/
def State.bindWaits (s : State) (f : Focus) : TaskOp → Bool
  | .autbind dn _ none =>
    let h := (Tab.get {} (s.core f.ctx f.lc).descs dn).holder
    (decide (h ≠ 0) && decide (h ≠ (s.slotAt f).cid)) || (decide (h = 0) && s.binding f dn)
  | _ => false

/-- The heads of the queues of a physical core's other slots that its unit `u` could take (R181, R238, R266, log 65). -/
def State.rivals (s : State) (ctx core u : Nat) (me : Focus) : List Task :=
  (s.hosted ctx core).flatMap (fun l => (List.range 9).filterMap (fun p =>
    let f : Focus := { ctx := ctx, lc := l, pos := p }
    if f = me then none
    else (s.slotAt f).head?.filter (fun k => decide (k.op.unit = some u) && !s.paused { ctx := ctx, lc := l, party := 16 * l + u } && !s.bindWaits f k.op)))

/-- The head `k` waits for its unit, which takes one instruction at a time in the order of issue (R238, R266). -/
def State.unitWait (s : State) (k : Task) : Bool :=
  k.op.unit.any (fun u => (s.rivals s.focus.ctx (s.physCore s.focus.ctx s.focus.lc) u s.focus).any (fun r => r.ahead k))

/-- The word of an instruction, which the group keeps for the save area (R335). -/
def wordOf (i : Instr) : Nat := (i.raw.map Raw.word).getD 0

/-- The pieces of `[va, va + n)`, cut at every 64 KiB. -/
def pagePieces (va n : Nat) : List (Place × Nat) := if n = 0 then [] else (cut64K va n).map (fun q => (.glob q.1, q.2))

/-- An access that reads and changes no bytes: its checks, the folds before it and its clock (R141, R167, R174, R368). -/
def State.touch (s : State) (w : Who) (need : Need) (ea : Word) (ps : List (Place × Nat)) : Acc State := do
  if s.paused w then .error .wait
  else do
    let gs ← s.check w need ps
    s.loopChk w ea
    let s1 ← s.settleLines w.ctx gs
    .ok (s1.tick w.ctx w.party 0)

end Sys2Proof.Machine
end

