-- ==== Sys2Proof/Machine/Matrix.lean ====
section
/-! DEFINITION. Accumulators, the matrix unit and expert routing (10 R238 to R255, 04 R81, R89 to R91). -/

namespace Sys2Proof.Machine

/-- The rows of an accumulator, row 0 first (R239). -/
def LCore.accRows (c : LCore) (an : Nat) : List VReg := (List.range 48).map (fun r => Tab.get 0 c.accs (rowKey an r))

/-- An output that writes every row of an accumulator. -/
def accOut (an : Nat) (rows : List VReg) : Out := .acc an (rows.zipIdx.map (fun p => (p.2, p.1)))

/-- The continuation in focus holds each accumulator named, else PROTECTION with fault address 0 (R240). -/
def State.holdChk (s : State) (ans : List Nat) : Option Trap :=
  if ans.all (fun a => decide (Tab.get 0 s.me.holders a = s.slot.cid)) then none else some (s.fault .protection 0)

/-- An accumulator was written in this phase by a logical core other than `lc` (R254). -/
def State.accClash (s : State) (ctx target lc : Nat) (ans : List Nat) : Bool :=
  (s.ctxOf ctx).cr.det && ans.any (fun a =>
    let v := Tab.get 0 (s.core ctx target).accWriter a
    decide (v ≠ 0) && decide (v / 1024 = (s.ctxOf ctx).phase) && decide (v % 1024 ≠ lc + 1))

/-- Records `lc` as the writer of accumulators of `target` in this phase (R254). -/
def State.accMark (s : State) (ctx target lc : Nat) (ans : List Nat) : State :=
  if (s.ctxOf ctx).cr.det then
    s.modCore ctx target (fun c => { c with
      accWriter := ans.foldl (fun t a => Tab.set 0 t a ((s.ctxOf ctx).phase * 1024 + lc + 1)) c.accWriter })
  else s

/-- Issues a long instruction that writes accumulators: the conflict check of R254, and its mark once it has issued. -/
def State.issueAcc (s : State) (h : Hd) (ans : List Nat) (chk : Option Trap) (word : Nat) (ra rb : Word) (j : Job) : State :=
  let f := s.focus
  let clash := if s.accClash f.ctx f.lc f.lc ans then some (s.fault .conflict 0) else none
  let s1 := s.issueLong h false false (firstTrap [chk, clash]) word ra rb j
  if s.slot.longs.length < s1.slot.longs.length then s1.accMark f.ctx f.lc f.lc ans else s1

/-- A grant of the accumulator stands in another slot's open group: to an `aalloc` it counts as held already, though R242 speaks of holders
only (DESIGN CHOICE, log 81). -/
def State.granted (s : State) (an : Nat) : Bool :=
  s.siblings.any (fun t => t.longs.any (fun l => l.outs.any (fun o => decide (o = .take an))))

/-- `aalloc` (R242); in deterministic mode it waits, unissued, while another continuation holds the accumulator. -/
def execAalloc (h : Hd) (rd : Reg) (an : Reg8) (s : State) : Result :=
  let holder := Tab.get 0 s.me.holders an.val
  let mine := decide (holder = s.slot.cid)
  let busy := !mine && (decide (holder ≠ 0) || s.granted an.val)
  .next (if s.here.cr.det && busy && (s.slot.gate h true false false).isNone then s
    else s.issueAcc h (if mine || busy then [] else [an.val]) none 0 0 0
      { outs := if mine then [.x rd.val 0] else if busy then [.x rd.val 1] else [.take an.val, .x rd.val 0] })

/-- `afree` (R243). -/
def execAfree (h : Hd) (an : Reg8) (s : State) : Result :=
  .next (s.issueLong h false false none 0 0 0
    { outs := if Tab.get 0 s.me.holders an.val = s.slot.cid then [.free an.val] else [] })

/-- `azero` (R243). -/
def execAzero (h : Hd) (an : Reg8) (s : State) : Result :=
  .next (s.issueAcc h [an.val] (s.holdChk [an.val]) 0 0 0 { outs := [accOut an.val (List.replicate 48 0)] })

/-! ### Operand panels (R244, R245) -/

/-- The check of a panel of `n` bytes: local store, a multiple of 16, within the store (R245). -/
def State.panelChk (s : State) (base : Word) (n : Nat) : Option Trap :=
  match placeOf s.focus.lc base with
  | some (.ls _ off) => if off % 16 ≠ 0 ∨ lsSize < off + n then some (s.fault .protection base) else none
  | _ => some (s.fault .protection base)

/-- The depth that a depth field gives (R246). -/
def depthOf (i : Nat) : Nat := if i = 0 then 48 else i

/-- Dense positions of a k-block (R90, R252). -/
def blockLen : ETy → Nat
  | .bf16 | .f16 | .rn3 _ => 16
  | .mx4 => 64
  | _ => 32

/-- Bytes of `n` elements of width `w`. -/
def rowLen (w n : Nat) : Nat := w * n / 8

/-- The bytes of an A or B panel with its scale array (R244, R247): `n` elements in a row. -/
def panelLen (ty : ETy) (k n : Nat) : Nat := 48 * rowLen (widthOf ty) n + (if ty = .mx4 then 48 * (k / 32) else 0)

/-- The pieces that 48 rows of pitch `p` contribute: `n` bytes from byte `o` of each. -/
def rowPieces (b : Place) (p o n : Nat) : List (Place × Nat) := (List.range 48).map (fun r => (b.plus (r * p + o), n))

/-- What one panel contributes to dense positions k0 to k1 − 1, where `q` positions share an element: elements, then scales. -/
def panelPieces (b : Place) (ty : ETy) (k q k0 k1 : Nat) : List (Place × Nat) :=
  let w := widthOf ty
  let p := rowLen w (k / q)
  rowPieces b p (rowLen w (k0 / q)) (rowLen w ((k1 - k0) / q)) ++
  (if ty = .mx4 then rowPieces (b.plus (48 * p)) (k / 32) (k0 / 32) ((k1 - k0) / 32) else [])

/-- Cuts a list into 48 rows of `n` bytes. -/
def cutRows (bs : List Byte) (n : Nat) : List (List Byte) := (List.range 48).map (fun r => (bs.drop (r * n)).take n)

/-- Cuts the bytes of one panel: rows of elements, rows of scales, and what follows. -/
def cutPanel (ty : ETy) (q k0 k1 : Nat) (bs : List Byte) : List (List Byte) × List (List Byte) × List Byte :=
  let n := rowLen (widthOf ty) ((k1 - k0) / q)
  let sc := if ty = .mx4 then (k1 - k0) / 32 else 0
  (cutRows bs n, cutRows (bs.drop (48 * n)) sc, bs.drop (48 * n + 48 * sc))

/-- The element codes of a row. -/
def rowCodes (w : Nat) (bs : List Byte) : List Nat :=
  let v := leNat bs
  (List.range (8 * bs.length / w)).map (fun j => field v (w * j) w)

/-- A value under an E8M0 scale; scale 0xFF reads as NaN (R69). -/
def scaled (sc : Byte) (v : FVal) : FVal :=
  if sc = 0xFF then .nan false
  else
    match v with
    | .fin n m e => .fin n m (e + sc.toNat - 127)
    | v => v

/-- The values of a row, with its scales for a microscaled type: `per` elements to a scale. -/
def rowVals (nan : Bool) (ty : ETy) (per : Nat) (bs sc : List Byte) : List FVal :=
  match fmtOf nan ty with
  | some f => (rowCodes (widthOf ty) bs).zipIdx.map (fun p =>
      let v := f.decode false p.1
      if ty = .mx4 then scaled (sc.getD (p.2 / per) 0) v else v)
  | none => []

/-- The exact sum of several results (R90): NaN and opposite infinities as R77 and R83 give, a zero of the common sign, else +0. A sum that
holds a quiet NaN together with both infinities is that NaN and sets no invalid: the spec does not say which rule prevails (log 66). -/
def sumExact (rs : List Res) : Res :=
  let vs := rs.map (·.val)
  let fl := orFlags (rs.map (·.flags))
  match nanOf vs with
  | some r => { r with flags := r.flags ||| fl }
  | none =>
    if vs.any FVal.isInf then
      if vs.any (fun v => v.isInf && v.neg?) && vs.any (fun v => v.isInf && !v.neg?) then { Res.invalid with flags := FFlags.invalid ||| fl }
      else ⟨.inf (vs.any (fun v => v.isInf && v.neg?)), false, fl⟩
    else
      let q := vs.foldl (fun q v => if v.expo < q then v.expo else q) 0
      ⟨.ofInt (vs.all (fun v => v.isZero && v.neg?)) (vs.foldl (fun z v => z + v.scaled q) 0) q, false, fl⟩

/-- The FP32 format. -/
def f32Fmt : Fmt := ⟨8, 23, 127, .ieee, true, false⟩

/-- One k-block on one FP32 element (R90, R246). -/
def blockElem (acc : Nat) (a b : List FVal) : Nat × FFlags :=
  f32Fmt.encode Rnd.nearest (sumExact (.exact (f32Fmt.decode false acc) :: (a.zip b).map (fun p => FVal.mul p.1 p.2)))

/-- The elements of a B row that the kept positions of an A row meet: group g has its nibble in the metadata row (R247). -/
def pickB {α : Type} (d : α) (meta' : List Byte) (n : Nat) (b : List α) : List α :=
  (List.range (n / 4)).flatMap (fun g =>
    let nib := field (leNat meta') (4 * g) 4
    [b.getD (4 * g + nib % 4) d, b.getD (4 * g + nib / 4) d])

/-- A new accumulator from element results, row by row. -/
def accMap (rows : List VReg) (f : Nat → Nat → Nat → Nat × FFlags) : List VReg × FFlags :=
  let rs := rows.zipIdx.map (fun p =>
    let es := (List.range 48).map (fun n => f p.2 n (elem 32 p.1 n))
    (vecOf 32 (es.map (·.1)), orFlags (es.map (·.2))))
  (rs.map (·.1), orFlags (rs.map (·.2)))

/-- The bytes of one k-block applied to the accumulators of a matrix operation (R246 to R248). -/
def MatOp.block (m : MatOp) (nan : Bool) (k0 k1 : Nat) (bs : List Byte) : List (List VReg) × FFlags :=
  let qa := if m.sparse then 2 else 1
  let (ra, sa, r1) := cutPanel m.ty qa k0 k1 bs
  let (rb, sb, r2) := cutPanel m.ty 1 k0 k1 r1
  let rm := cutRows r2 ((k1 - k0) / 8)
  let n := k1 - k0
  let choose {α : Type} (d : α) (row : Nat) (b : List α) : List α := if m.sparse then pickB d (rm.getD row []) n b else b
  match m.ty with
  | .rn3 _ =>
    let ca := ra.map (rowCodes 32)
    let cb := rb.map (rowCodes 32)
    ((m.acc.zipIdx.map (fun p => (accMap p.1 (fun r c v =>
      let ch (x : Nat) : Nat := field x (8 * p.2) 8
      ((((ca.getD r []).zip (cb.getD c [])).foldl (fun z q => z + ch q.1 * ch q.2) v) % 2 ^ 32, 0))).1)), 0)
  | .i8 =>
    let ca := ra.map (fun b => (rowCodes 8 b).map (toSigned 8))
    let cb := rb.map (fun b => (rowCodes 8 b).map (toSigned 8))
    (m.acc.map (fun rows => (accMap rows (fun r c v =>
      (ofSigned 32 (((ca.getD r []).zip (choose 0 r (cb.getD c []))).foldl (fun z q => z + q.1 * q.2) (toSigned 32 v)), 0))).1), 0)
  | _ =>
    let va := (ra.zip sa).map (fun p => rowVals nan m.ty (32 / qa) p.1 p.2)
    let vb := (rb.zip sb).map (fun p => rowVals nan m.ty 32 p.1 p.2)
    let rs := m.acc.map (fun rows => accMap rows (fun r c v => blockElem v (va.getD r []) (choose (.fin false 0 0) r (vb.getD c []))))
    (rs.map (·.1), orFlags (rs.map (·.2)))

/-- The pieces that k-block positions k0 to k1 − 1 read. -/
def MatOp.pieces (m : MatOp) (pa pb pm : Place) (k0 k1 : Nat) : List (Place × Nat) :=
  panelPieces pa m.ty m.k (if m.sparse then 2 else 1) k0 k1 ++ panelPieces pb m.ty m.k 1 k0 k1 ++
  (if m.sparse then rowPieces pm (m.k / 8) (k0 / 8) ((k1 - k0) / 8) else [])

/-- The dense positions of k-block `blk`. -/
def MatOp.span (m : MatOp) (blk : Nat) : Nat × Nat := (blk * blockLen m.ty, Nat.min m.k ((blk + 1) * blockLen m.ty))

/-- The read steps of k-block `blk` for logical core `lc`, one for each line (R176). -/
def MatOp.steps (m : MatOp) (lc blk : Nat) : List (List (Place × Nat)) :=
  let place (a : Word) : Place := (placeOf lc a).getD (.glob 0)
  lineSteps (m.pieces (place m.a) (place m.b) (place m.m) (m.span blk).1 (m.span blk).2)

/-- The accumulators that a matrix operation on type `ty` names. -/
def groupOf (an : Nat) : ETy → List Nat
  | .rn3 _ => [an, an + 1, an + 2]
  | _ => [an]

/-- Issues `mma`, `mmas` or `mmr`; one that rejoins its group takes up the result kept with its accumulators, whose checks were made when it
issued first (R252, R334). -/
def State.issueMat (s : State) (h : Hd) (ty : ETy) (sparse : Bool) (an : Nat) (ra rb : Reg) (rc : Option Reg) (i word : Nat) : State :=
  let t := s.slot
  let k := depthOf i
  let a := t.opA ra.val
  let b := t.opB rb.val
  let m := (rc.map (fun r => t.rx r.val)).getD 0
  let ans := groupOf an ty
  let chk := firstTrap [s.holdChk ans, s.panelChk a (panelLen ty k (if sparse then k / 2 else k)), s.panelChk b (panelLen ty k k),
    if sparse then s.panelChk m (48 * (k / 8)) else none]
  let fresh : MatOp := { sparse := sparse, ty := ty, an := an, k := k, a := a, b := b, m := m, acc := ans.map s.me.accRows, nan := t.nanread }
  let (op, blk, chk) := match s.partOf, t.stopped with
    | some (.mat q _), e :: _ => ({ q with a := a, b := b }, e.prog, none)
    | _, _ => (fresh, 0, chk)
  s.issueAcc h ans chk word a b { task := some (.mat op blk), ea := a }

def execMma (h : Hd) (ty : ETy) (an : Reg8) (ra rb : Reg) (i : Nat) (s : State) : Result :=
  .next (s.issueMat h ty false an.val ra rb none i (wordOf (.mma h ty an ra rb i)))
def execMmas (h : Hd) (ty : ETy) (an : Reg8) (ra rb rc : Reg) (i : Nat) (s : State) : Result :=
  .next (s.issueMat h ty true an.val ra rb (some rc) i (wordOf (.mmas h ty an ra rb rc i)))
def execMmr (h : Hd) (t : Fin 4) (an : Reg8) (ra rb : Reg) (i : Nat) (s : State) : Result :=
  .next (s.issueMat h (.rn3 t) false an.val ra rb none i (wordOf (.mmr h t an ra rb i)))

/-- A k-block: its operand reads line by line, and its update (R90, R176, R252). -/
def State.perfMat (s : State) (tk : Task) (m : MatOp) (blk : Nat) : Perf :=
  let lc := s.focus.lc
  let gs := m.steps lc blk
  let k := m.span blk
  runPerf s tk 0 blk (Run.readLines (s.unitWho 9 m.nan) gs) (fun s bs =>
    let (acc, fl) := m.block m.nan k.1 k.2 bs
    let flags := m.flags ||| fl
    if m.k ≤ k.2 then .done s ((groupOf m.an m.ty).zip acc |>.map (fun p => accOut p.1 p.2)) flags
    else .more s (.mat { m with acc := acc, flags := flags } (blk + 1)))

/-! ### Rows and whole accumulators (R249 to R251) -/

/-- Channel i of a value reduced by its modulus. -/
def channelMod (t : Fin 4) (i v : Nat) : Nat :=
  let (m0, m1, m2) := moduli t
  v % (if i = 0 then m0 else if i = 1 then m1 else m2)

/-- A row rewritten lane by lane. -/
def rowMap (f : Nat → Nat → Nat) (v : VReg) : VReg := vecOf 32 ((List.range 48).map (fun n => f n (elem 32 v n)))

/-- `rnsred` (R249). -/
def execRnsred (h : Hd) (t : Fin 4) (an : Reg8) (s : State) : Result :=
  let ans := groupOf an.val (.rn3 t)
  .next (s.issueAcc h ans (s.holdChk ans) 0 0 0
    { outs := ans.zipIdx.map (fun p => accOut p.1 ((s.me.accRows p.1).map (rowMap (fun _ v => channelMod t p.2 v)))) })

/-- The row number of `ard` and `awr` (R250). -/
def State.rowChk (s : State) (row : Word) : Option Trap := if 47 < row.toNat then some (s.fault .illegalField 0) else none

/-- The accumulators of an `ard` or `awr`. -/
def rowGroup (an : Nat) : Option (Fin 4) → List Nat
  | none => [an]
  | some t => groupOf an (.rn3 t)

/-- `ard` (R250). Of an accumulator that is not held and a row beyond 47 the first is reported; the spec gives no order (DESIGN CHOICE, log
81). -/
def execArd (h : Hd) (t : Option (Fin 4)) (vd : Reg) (an : Reg8) (rb : Reg) (s : State) : Result :=
  let row := s.slot.rx rb.val
  let r (a : Nat) : VReg := Tab.get 0 s.me.accs (rowKey a row.toNat)
  let v := match t with
    | none => r an.val
    | some t => vecOf 32 ((List.range 48).map (fun n =>
        let ch (i : Nat) : Nat := channelMod t i (elem 32 (r (an.val + i)) n)
        ofResidues (ch 0) (ch 1) (ch 2)))
  .next (s.issueLong h false false (firstTrap [s.holdChk (rowGroup an.val t), s.rowChk row]) 0 0 0
    { outs := [.v vd.val (BitVec.allOnes 1536) v] })

/-- `awr` (R250). -/
def execAwr (h : Hd) (t : Option (Fin 4)) (an : Reg8) (va rb : Reg) (s : State) : Result :=
  let row := s.slot.rx rb.val
  let v := s.slot.rv va.val
  let ans := rowGroup an.val t
  let outs := match t with
    | none => [Out.acc an.val [(row.toNat, v)]]
    | some _ => ans.zipIdx.map (fun p => .acc p.1 [(row.toNat, rowMap (fun _ x => field x (8 * p.2) 8) v)])
  .next (s.issueAcc h ans (firstTrap [s.holdChk ans, s.rowChk row]) 0 0 0 { outs := outs })

/-- `ald` (R251). -/
def execAld (h : Hd) (an : Reg8) (ra : Reg) (s : State) : Result :=
  let ea := s.slot.rx ra.val
  .next (s.issueAcc h [an.val] (firstTrap [s.holdChk [an.val], s.panelChk ea 9216]) 0 0 0
    { task := some (.ald an.val []), ea := ea, remote := 48 * remoteOf s.focus.lc ea })
def State.perfAld (s : State) (tk : Task) (an : Nat) (rows : List VReg) : Perf :=
  let r := rows.length
  let p := (placeOf s.focus.lc tk.ea).getD (.glob 0)
  perfOf (s.readAt (s.who tk.nan) [(p.plus (192 * r), 192)]) 0 0 r (fun x =>
    let rows' := rows ++ [BitVec.ofNat 1536 (leNat x.2)]
    if r = 47 then .done x.1 [accOut an rows'] 0 else .more x.1 (.ald an rows'))

/-- `ast` (R251). -/
def execAst (h : Hd) (an : Reg8) (ra : Reg) (s : State) : Result :=
  let ea := s.slot.rx ra.val
  .next (s.issueLong h false false (firstTrap [s.holdChk [an.val], s.panelChk ea 9216]) 0 0 0
    { task := some (.ast (s.me.accRows an.val) 0), ea := ea, remote := 48 * remoteOf s.focus.lc ea })
def State.perfAst (s : State) (tk : Task) (rows : List VReg) (row : Nat) : Perf :=
  let p := (placeOf s.focus.lc tk.ea).getD (.glob 0)
  perfOf (s.writeAt (s.who tk.nan) [(p.plus (192 * row), 192)] (leBytes 192 (rows.getD row 0).toNat)) 0 0 row (fun s' =>
    if row = 47 then .done s' [] 0 else .more s' (.ast rows (row + 1)))

/-! ### Capabilities and remote commands (R253, R254) -/

/-- An entry is live in a phase (R253). -/
def Cap.live (c : Cap) (phase : Nat) : Bool := c.issued && decide ((c.expiry + 65536 - phase) % 65536 < 32768)

/-- The capability that a descriptor gives, with its target; none where a field breaks R253. -/
def capOf (bs : List Byte) : Option (Nat × Cap) :=
  let w (i : Nat) : Nat := fieldAt bs (8 * i) 8
  let win (v : Nat) : Bool := decide (field v 19 13 = 0) && decide (v / 2 ^ 52 = 0) && decide (field v 0 4 = 0) && decide (field v 32 20 ≤ lsSize)
  if field (w 0) 0 10 ≤ 767 ∧ field (w 0) 10 6 = 0 ∧ field (w 0) 24 8 = 0 ∧ field (w 0) 48 16 = 0 ∧ win (w 1) = true ∧ win (w 2) = true ∧ w 3 = 0 then
    some (field (w 0) 0 10, { issued := true, mask := field (w 0) 16 8, expiry := field (w 0) 32 16
                              off0 := field (w 1) 0 19, len0 := field (w 1) 32 20, off1 := field (w 2) 0 19, len1 := field (w 2) 32 20 })
  else none

/-- The pieces of `n` bytes from an address whose form was checked. -/
def span (lc : Nat) (ea : Word) (n : Nat) : List (Place × Nat) := [((placeOf lc ea).getD (.glob 0), n)]

/-- The form of the first and last byte of a range (R126). -/
def State.spanChk (s : State) (ea : Word) (n : Nat) : Option Trap :=
  let last := ea + BitVec.ofNat 64 (n - 1)
  if (placeOf s.focus.lc ea).isNone then some (s.fault .protection ea)
  else if (placeOf s.focus.lc last).isNone ∨ last.toNat < ea.toNat then some (s.fault .protection last) else none

/-- `mcap` (R253): it writes the lowest-numbered free entry, which the spec leaves open (log 67). -/
def execMcap (h : Hd) (rd ra : Reg) (s : State) : Result :=
  let ea := s.slot.opA ra.val
  .next (s.issueLong h false true (s.spanChk ea 32) (wordOf (.mcap h rd ra)) ea 0 { task := some (.mcap rd.val), ea := ea, remote := remoteOf s.focus.lc ea })
def State.perfMcap (s : State) (tk : Task) (rd : Nat) : Perf :=
  perfOf (s.readAt (s.who tk.nan) (span s.focus.lc tk.ea 32)) 0 0 0 (fun r =>
    match capOf r.2 with
    | none => .trap r.1 (stepTrap .illegalField tk.ea 0 0)
    | some (target, cap) =>
      let ctx := s.focus.ctx
      let c := s.core ctx target
      match (List.range 16).find? (fun i => !(Tab.get {} c.caps i).live s.here.phase) with
      | none => .done r.1 [.x rd 0] 0
      | some i =>
        let g := (Tab.get 0 c.gens i + 1) % 2 ^ 32
        .done (r.1.modCore ctx target (fun c => { c with caps := Tab.set {} c.caps i cap, gens := Tab.set 0 c.gens i g }))
          [.x rd (BitVec.ofNat 64 (target + at' 10 i + at' 16 g))] 0)

/-- A remote command decoded: its operation, or none where it would raise ILLEGAL_FIELD as an instruction (R254). -/
structure RemoteOp where
  op  : Nat
  ty  : ETy
  an  : Nat
  k   : Nat
  ans : List Nat
  ranges : List (Nat × Nat)
  deriving DecidableEq, Repr

def decodeRemote (cmd : List Word) : Option RemoteOp :=
  let w0 := (cmd.getD 0 0).toNat
  let op := field w0 0 4
  let t := field w0 4 4
  let an := field w0 8 3
  let i := field w0 16 12
  let off (j : Nat) : Nat := (cmd.getD j 0).toNat
  let rn := decide (op = 3) || decide (op = 6)
  let mat := decide (op = 1) || decide (op = 2)
  match (if mat || rn then ETy.ofCode t else some .i32) with
  | none => none
  | some ty =>
    let ok := decide (op ≤ 6) &&
      (if mat then matTyOk ty && depthOk (decide (ty = .mx4)) i
       else if rn then isRn ty && decide (an ≤ 5) && (if op = 6 then decide (i = 0) else depthOk false i)
       else decide (t = 0) && decide (i = 0))
    let k := depthOf i
    let half := if op = 2 then k / 2 else k
    let ranges :=
      if mat ∨ op = 3 then [(off 1, panelLen ty k half), (off 2, panelLen ty k k)] ++ (if op = 2 then [(off 3, 48 * (k / 8))] else [])
      else if op = 4 ∨ op = 5 then [(off 1, 9216)] else []
    if ok then some { op := op, ty := ty, an := an, k := k, ans := groupOf an (if rn then ty else .i32), ranges := ranges } else none

/-- The accumulators that a remote command writes: `ast` writes none. -/
def RemoteOp.writes (r : RemoteOp) : List Nat := if r.op = 5 then [] else r.ans

/-- A range lies in one window of a capability and in the store, at a multiple of 16 (R245, R254). A command whose range does not is refused
with CAPABILITY, whichever of the three it breaks; the rule names the window alone (DESIGN CHOICE, log 81). -/
def Cap.admits (c : Cap) (r : Nat × Nat) : Bool :=
  decide (r.1 % 16 = 0) && decide (r.1 + r.2 ≤ lsSize) &&
  ((decide (0 < c.len0) && decide (c.off0 ≤ r.1) && decide (r.1 + r.2 ≤ c.off0 + c.len0)) ||
   (decide (0 < c.len1) && decide (c.off1 ≤ r.1) && decide (r.1 + r.2 ≤ c.off1 + c.len1)))

/-- `mreq` (R254). -/
def execMreq (h : Hd) (rd ra rb : Reg) (s : State) : Result :=
  let t := s.slot
  .next (s.issueLong h false false none 0 0 0 { task := some (.mreq rd.val (t.rx ra.val) (t.rxs rb.val 4)), ea := t.rx ra.val, remote := 1 })

/-- The acceptance step of a remote command (R254, R431). -/
def State.perfMreq (s : State) (tk : Task) (rd : Nat) (handle : Word) (cmd : List Word) : Perf :=
  let f := s.focus
  let n := handle.toNat
  let target := n % 1024
  let i := field n 10 4
  let c := s.core f.ctx target
  let cap := Tab.get {} c.caps i
  let refuse (k : TrapKind) : Perf := .refuse k handle 0 0 0
  if s.paused (s.who tk.nan) then .wait
  else if 767 < target then refuse .capability
  else if !s.placed f.ctx target then refuse .lateRefusal
  else
    match decodeRemote cmd with
    | none => if s.outsideLoop then refuse .conflict else refuse .capability
    | some r =>
      if s.outsideLoop || s.accClash f.ctx target f.lc r.writes then refuse .conflict
      else if !cap.live s.here.phase || decide (Tab.get 0 c.gens i ≠ field n 16 32) || decide (field n 14 2 ≠ 0 ∨ n / 2 ^ 48 ≠ 0) ||
          r.ans.any (fun a => decide (cap.mask / 2 ^ a % 2 = 0)) || !r.ranges.all cap.admits then refuse .capability
      else if 8 ≤ c.remoteQ.length then .done (s.tick f.ctx s.party 0) [.x rd 1] 0
      else
        let q : RemoteCmd := { sender := f.lc, nan := tk.nan, outside := s.slot.iter.isNone, cycle := s.cycle, handle := handle, cmd := cmd }
        .done ((s.modCore f.ctx target (fun c => { c with remoteQ := c.remoteQ ++ [q] })).accMark f.ctx target f.lc r.writes |>.tick f.ctx s.party 0)
          [.x rd 0] 0

/-- The open group of some slot of a logical core writes one of the accumulators (R254). -/
def State.accOpen (s : State) (ctx lc : Nat) (ans : List Nat) : Bool :=
  (s.siblingsOf { ctx := ctx, lc := lc, pos := 9 }).any (fun t =>
    t.longs.any (fun l => l.outs.any (fun o =>
      match o with
      | .acc a _ | .take a => ans.contains a
      | _ => false)) ||
    t.tasks.any (fun k =>
      match k.op with
      | .ald a _ => ans.contains a
      | .mat m _ => (groupOf m.an m.ty).any ans.contains
      | _ => false))

/-- What a remote command does to the accumulators and the store of its target, as one whole update (R254). The flags of a floating update
go to no core's `sys.fflags`: the spec names none (R83, log 68). -/
def State.remoteEffect (s : State) (ctx lc : Nat) (q : RemoteCmd) (r : RemoteOp) : Acc State :=
  let w : Who := { ctx := ctx, lc := q.sender, nan := q.nan, party := 16 * lc + 9, outside := q.outside }
  let c := s.core ctx lc
  let off (j : Nat) : Nat := (q.cmd.getD j 0).toNat
  let put (s : State) (accs : List (Nat × List VReg)) : State :=
    s.modCore ctx lc (fun c => { c with accs := accs.foldl (fun t p => p.2.zipIdx.foldl (fun t v => Tab.set 0 t (rowKey p.1 v.2) v.1) t) c.accs })
  match r.op with
  | 0 => .ok (put s [(r.an, List.replicate 48 0)])
  | 4 => (s.readAt w [(.ls lc (off 1), 9216)]).map (fun x =>
      put x.1 [(r.an, (cutRows x.2 192).map (fun b => BitVec.ofNat 1536 (leNat b)))])
  | 5 => s.writeAt w [(.ls lc (off 1), 9216)] ((c.accRows r.an).flatMap (fun v => leBytes 192 v.toNat))
  | 6 =>
    match r.ty with
    | .rn3 t => .ok (put s (r.ans.zipIdx.map (fun p => (p.1, (c.accRows p.1).map (rowMap (fun _ v => channelMod t p.2 v))))))
    | _ => .ok s
  | _ =>
    let m : MatOp := { sparse := decide (r.op = 2), ty := r.ty, an := r.an, k := r.k, acc := r.ans.map c.accRows }
    ((List.range ((r.k + blockLen r.ty - 1) / blockLen r.ty)).foldlM (fun (p : State × MatOp) b =>
      let k := m.span b
      (p.1.readAt w (m.pieces (.ls lc (off 1)) (.ls lc (off 2)) (.ls lc (off 3)) k.1 k.2)).map (fun x =>
        (x.1, { p.2 with acc := (p.2.block q.nan k.1 k.2 x.2).1 }))) (s, m)).map (fun p => put p.1 (r.ans.zip p.2.acc))

/-- The bytes of the eight accumulators of a logical core, as `ast` writes them (R239, R392). -/
def LCore.accBytes (c : LCore) : List Byte := (List.range 8).flatMap (fun an => (c.accRows an).flatMap (fun v => leBytes 192 v.toNat))

/-- Accumulators from the bytes of a frame. -/
def accsOf (bs : List Byte) : Tab VReg :=
  (List.range 384).foldl (fun t i => Tab.set 0 t (rowKey (i / 48) (i % 48)) (BitVec.ofNat 1536 (leNat ((bs.drop (192 * i)).take 192)))) []

/-- The accumulators of a logical core go to its accumulator frame (R239). -/
def State.accStore (s : State) (ctx lc : Nat) : State := s.hwWrite ctx ((s.ctxOf ctx).accFrame lc 0) (s.core ctx lc).accBytes

/-- The accumulators of a logical core that stand in its frame come from there; where the tables do not map it they are as they were (R239). -/
def State.accLoad (s : State) (ctx lc : Nat) : State :=
  if !(s.core ctx lc).framed then s
  else
    let a := (s.ctxOf ctx).accFrame lc 0
    let s1 := s.foldGlobal ctx a 73728
    s1.modCore ctx lc (fun c => { c with framed := false, accs := (s1.peekBytes ctx a 73728).elim c.accs accsOf })

/-- The logical core, as its key + 1, whose state a unit of physical core `core` holds in `t`, none where another's takes its place anyhow:
the context has gone, or the logical core has moved. -/
def State.inUnit (s : State) (t : Tab Nat) (core : Nat) : Option (Nat × Nat) :=
  let r := Tab.get 0 t core
  let (ctx, lc) := ((r - 1) / 1024, (r - 1) % 1024)
  if r ≠ 0 ∧ (s.ctxOf ctx).status = .live ∧ s.placed ctx lc = true ∧ s.physCore ctx lc = core then some (ctx, lc) else none

/-- The matrix unit of a physical core takes an instruction or command of a logical core: the accumulators of the resident one go to their
frame, those of this one come from its frame, and it becomes resident (R239, log 76). -/
def State.unitTake (s : State) (ctx lc : Nat) : State :=
  let core := s.physCore ctx lc
  if Tab.get 0 s.resident core = coreKey ctx lc + 1 then s
  else
    let s1 := match s.inUnit s.resident core with
      | some (c, l) => (s.accStore c l).modCore c l (fun c => { c with framed := true })
      | none => s
    { s1.accLoad ctx lc with resident := Tab.set 0 s1.resident core (coreKey ctx lc + 1) }

/-- The automaton unit of a physical core takes an instruction of a logical core: the descriptors of the resident one go to its descriptor
frame, whose layout is not architectural, so that its bytes are free, and this one becomes resident (R261, R392, log 76). -/
def State.unitTakeAu (s : State) (ctx lc : Nat) : State :=
  let core := s.physCore ctx lc
  if Tab.get 0 s.residentAu core = coreKey ctx lc + 1 then s
  else
    let s1 := match s.inUnit s.residentAu core with
      | some (c, l) => (s.hwWrite c ((s.ctxOf c).descFrame l) (((Config.descFrame s.draws) ++ zeros 48640).take 48640)).draw
      | none => s
    { s1 with residentAu := Tab.set 0 s1.residentAu core (coreKey ctx lc + 1) }

/-- What a step writes into accumulators that stand in their frame goes there (R239). -/
def State.syncFrames (s t : State) : State :=
  (t.cores.filter (fun e => e.2.framed && decide (e.2.accs ≠ (Tab.get {} s.cores e.1).accs))).foldl (fun t e => t.accStore (e.1 / 1024) (e.1 % 1024)) t

/-- A remote command stands before the unit of physical core `core` since before cycle `now`, and could go (R238, R254, log 65). -/
def State.commandAhead (s : State) (ctx core now : Nat) (but : Option Nat) : Bool :=
  (s.hosted ctx core).any (fun l => decide (some l ≠ but) && ((s.core ctx l).remoteQ.head?).any (fun q =>
    decide (q.cycle < now) && (decodeRemote q.cmd).all (fun r => !s.accOpen ctx l r.ans) && s.eventRoom ctx q.sender &&
      !s.paused { ctx := ctx, lc := l, party := 16 * l + 9 }))

/-- REMOTE_COMMAND_APPLY: the oldest accepted command, and its completion message (R254). Its sender is the writer of its accumulators in the
phase in which it acts, too (log 19). One whose access is refused leaves memory and accumulators as they were (log 19). -/
def execRemoteCommandApply (ctx lc : Nat) (s : State) : Result :=
  let c := s.core ctx lc
  .next (match c.remoteQ with
    | [] => s
    | q :: rest =>
      match decodeRemote q.cmd with
      | none => s.setCore ctx lc { c with remoteQ := rest }
      | some r =>
        let party := 16 * lc + 9
        let m : Msg := { src := lc, kind := .msg, nan := q.nan, tag := 0x7FFE, words := [q.cmd.getD 0 0, q.handle] }
        let core := s.physCore ctx lc
        if s.accOpen ctx lc r.ans || s.commandAhead ctx core q.cycle (some lc) ||
            (s.rivals ctx core 9 { ctx := ctx, lc := lc, pos := 9 }).any (fun k => k.begun || decide (k.cycle < q.cycle)) then s
        else if !s.eventRoom ctx q.sender then s.fullWait ctx q.sender m.channel
        else
          let done (s : State) : State :=
            ((s.modCore ctx lc (fun c => { c with remoteQ := rest })).eventBy ctx q.sender m (s.clock ctx party)).getD s
          match (s.unitTake ctx lc).remoteEffect ctx lc q r with
          | .ok s' => done (s'.accMark ctx lc q.sender r.writes)
          | .error (.refuse ..) => done s
          | .error .wait => s
          | .error (.full dst ch) => s.fullWait ctx dst ch)

/-! ### Expert routing (R255) -/

/-- The record of a `route` at own-store offset `off`. -/
def State.routeRec (s : State) (off : Nat) : Nat × Nat × Nat × Nat × Nat :=
  let w (i : Nat) : Nat := s.seenNat s.here (lsKey s.focus.ctx s.focus.lc (off + 8 * i)) 8
  (w 0, w 1, w 2, w 3, w 4)

/-- The record keeps its limits (R255). -/
def routeOk (w0 w1 w2 w3 w4 : Nat) : Bool :=
  decide (1 ≤ field w0 0 16) && decide (field w0 0 16 ≤ 4096) && decide (1 ≤ field w0 16 16) && decide (field w0 16 16 ≤ 256) &&
  decide (1 ≤ field w0 32 16) && decide (field w0 48 16 = 0) && [w1, w2, w3, w4].all (fun w => decide (w < 2 ^ 19))

/-- Every array lies in the store (R255). -/
def routeFits (w0 w1 w2 w3 w4 : Nat) : Bool :=
  let t := field w0 0 16
  decide (w1 + 2 * t ≤ lsSize) && decide (w2 + 4 * field w0 16 16 ≤ lsSize) && decide (w3 + 4 * t ≤ lsSize) && decide (w4 + 2 * t ≤ lsSize)

/-- The pending reductions of the record of a `route` are folded before it is read at issue (R174, R255). -/
def State.routeFold (s : State) (ea : Word) : Acc State :=
  match ownPlace s.focus.lc ea with
  | some off =>
    if off + 40 ≤ lsSize then s.settleLines s.focus.ctx [{ key := lsKey s.focus.ctx s.focus.lc off, len := 40, off := off, ls := some s.focus.lc }]
    else .ok s
  | none => .ok s

/-- `route`; it issues once every earlier access of the slot is performed, since its arrays are checked at issue (R255). One that rejoins goes
on with the counts that it had (R334, log 79). -/
def execRoute (h : Hd) (rd ra rb : Reg) (s : State) : Result :=
  let t := s.slot
  let ea := t.opA ra.val
  let pass := (t.opB rb.val).toNat
  let fresh : RouteRun := { pass := pass, t := (t.stopped.head?.map (·.prog)).getD 0 }
  let (run, go) := match s.partOf with
    | some (.route _ q) => if q.known ∧ q.t = fresh.t ∧ q.pass = pass then (q, true) else (fresh, false)
    | _ => (fresh, false)
  .next (if !t.tasks.isEmpty then s.drainWait
    else
      match (if go then .ok s else s.routeFold ea) with
      | .error (.full d ch) => s.fullWait s.focus.ctx d ch
      | .error _ => s
      | .ok s =>
        let chk := if go then none else match ownPlace s.focus.lc ea with
          | none => some (s.fault .protection ea)
          | some off =>
            let (w0, w1, w2, w3, w4) := s.routeRec off
            if lsSize < off + 40 then some (s.fault .protection ea)
            else if 1 < pass then some (s.fault .illegalField ea)
            else if routeOk w0 w1 w2 w3 w4 && !routeFits w0 w1 w2 w3 w4 then some (s.fault .protection ea) else none
        s.issueLong h false false chk (wordOf (.route h rd ra rb)) ea (t.opB rb.val)
          { task := some (.route rd.val run), ea := ea })

/-- The expert of token `t`, or none, read as it stands. -/
def State.routeId (s : State) (r : RouteRun) (t : Nat) : Option Nat :=
  let e := s.seenNat s.here (lsKey s.focus.ctx s.focus.lc (r.ids + 2 * t)) 2
  if e < r.ne then some e else none

/-- What the tokens before `r.t` have left, where nothing is kept of them (a frame that software has changed, log 79): counts of pass 0, or the
tokens without an expert and the drops of pass 1. -/
def State.routeResume (s : State) (r : RouteRun) : RouteRun :=
  (List.range r.t).foldl (fun r t =>
    match s.routeId r t with
    | some e =>
      if r.pass = 0 then { r with sums := Tab.upd 0 r.sums e (· + 1) }
      else if s.seenNat s.here (lsKey s.focus.ctx s.focus.lc (r.slots + 4 * t)) 4 = 2 ^ 32 - 1 then { r with d := r.d + 1 } else r
    | none => if r.pass = 0 then r else { r with sums := Tab.set 0 r.sums t 1 }) r

/-- A number read from, or written to, the own store by a `route`. -/
def Run.num (r : Run) (w : Who) (lc o n : Nat) : Except Pause (Nat × Run) := (r.read w [(.ls lc o, n)]).map (fun x => (leNat x.1, x.2))
def Run.putNum (r : Run) (w : Who) (lc o n v : Nat) : Except Pause Run := r.write w [(.ls lc o, n)] (leBytes n v)

/-- One token of a `route` (R255): the counts and the capacity are compared as INT32. -/
def RouteRun.token (w : Who) (lc : Nat) (q : RouteRun) (r : Run) : Except Pause (RouteRun × Run) := do
  let (e, r1) ← r.num w lc (q.ids + 2 * q.t) 2
  let next := { q with t := q.t + 1 }
  if q.pass = 0 then .ok ({ next with sums := if e < q.ne then Tab.upd 0 q.sums e (· + 1) else q.sums }, r1)
  else if q.ne ≤ e then .ok ({ next with sums := Tab.set 0 q.sums q.t 1 }, r1)
  else do
    let (p, r2) ← r1.num w lc (q.cnts + 4 * e) 4
    let r3 ← r2.putNum w lc (q.cnts + 4 * e) 4 (p + 1)
    if toSigned 32 p < (q.cap : Int) then do
      let r4 ← r3.putNum w lc (q.slots + 4 * q.t) 4 (e * q.cap + p)
      .ok (next, r4)
    else do
      let r4 ← r3.putNum w lc (q.slots + 4 * q.t) 4 (2 ^ 32 - 1)
      let r5 ← r4.putNum w lc (q.drops + 2 * q.d) 2 q.t
      .ok ({ next with d := q.d + 1 }, r5)

/-- A step of a `route`: an access of its next token, or one of its closing writes (R255). -/
def State.perfRoute (s : State) (tk : Task) (rd : Nat) (r : RouteRun) : Perf :=
  let lc := s.focus.lc
  let w := s.who tk.nan
  let wr (s : State) (o n v : Nat) : Acc State := s.writeAt w [(.ls lc o, n)] (leBytes n v)
  if !r.known then
    perfOf (s.readAt w [((placeOf lc tk.ea).getD (.glob 0), 40)]) 0 r.t 0 (fun x =>
      let f (i : Nat) : Nat := fieldAt x.2 (8 * i) 8
      if routeOk (f 0) (f 1) (f 2) (f 3) (f 4) then
        .more x.1 (.route rd (x.1.routeResume { r with
          known := true, nt := field (f 0) 0 16, ne := field (f 0) 16 16, cap := field (f 0) 32 16
          ids := f 1, cnts := f 2, slots := f 3, drops := f 4 }))
      else .trap x.1 (stepTrap .illegalField tk.ea 0 r.t))
  else if r.t < r.nt then runPerf s tk 0 r.t (RouteRun.token w lc r) (fun s q => .more s (.route rd q))
  else if r.pass = 0 then
    perfOf (wr s (r.cnts + 4 * r.e) 4 (Tab.get 0 r.sums r.e)) 0 r.t 0 (fun s' =>
      if r.e + 1 < r.ne then .more s' (.route rd { r with e := r.e + 1 })
      else .done s' [.x rd (BitVec.ofNat 64 (r.sums.foldl (fun n p => n + p.2) 0))] 0)
  else
    match r.sums with
    | [] => .done s [.x rd (BitVec.ofNat 64 r.d)] 0
    | (t, _) :: rest => perfOf (wr s (r.slots + 4 * t) 4 (2 ^ 32 - 1)) 0 r.t 0 (fun s' => .more s' (.route rd { r with sums := rest }))

end Sys2Proof.Machine
end

