-- ==== Sys2Proof/Machine/MemInstr.lean ====
section
/-! DEFINITION. The scalar memory instructions and their perform steps (06 R157 to R161). -/

namespace Sys2Proof.Machine

/-- The address xa + I (R157). -/
def Slot.ea (t : Slot) (ra : Reg) (i : Word) : Word := t.rx ra.val + i

/-- The line that holds an address, cut at the end of its space (R158). -/
def lineOf (lc : Nat) (ea : Word) : Place × Nat :=
  match (placeOf lc ea).getD (.glob 0) with
  | .glob va => (.glob (va - va % 192), Nat.min 192 (2 ^ 56 - (va - va % 192)))
  | .ls l off => (.ls l (off - off % 192), 192)

/-- `ld` (R157). -/
def execLd (h : Hd) (size : Size) (zext : Bool) (rd ra : Reg) (i : Word) (s : State) : Result :=
  let ea := s.slot.ea ra i
  .next (s.issueLong h false false (s.formChk ea (sizeBytes size)) 0 0 0
    { task := some (.load size zext rd.val), ea := ea, remote := remoteOf s.focus.lc ea })
def State.perfLoad (s : State) (k : Task) (size : Size) (zext : Bool) (rd : Nat) : Perf :=
  perfOf (s.readAt (s.who k.nan) (spot s.focus.lc k.ea (sizeBytes size))) 0 0 0
    (fun r => .done r.1 [.x rd (extend (sizeBytes size) zext (leNat r.2))] 0)

/-- `st` (R157). -/
def execSt (h : Hd) (size : Size) (rb ra : Reg) (i : Word) (s : State) : Result :=
  let ea := s.slot.ea ra i
  .next (s.issueLong h false false (s.formChk ea (sizeBytes size)) 0 0 0
    { task := some (.store (leBytes (sizeBytes size) (s.slot.rx rb.val).toNat)), ea := ea, remote := remoteOf s.focus.lc ea })
def State.perfStore (s : State) (k : Task) (bs : List Byte) : Perf :=
  perfOf (s.writeAt (s.who k.nan) (spot s.focus.lc k.ea bs.length) bs) 0 0 0 (fun s' => .done s' [] 0)

/-- `pref`: complete at issue; a fill of the line where no check would fault (R158). -/
def execPref (h : Hd) (ra : Reg) (i : Word) (s : State) : Result :=
  let ea := s.slot.ea ra i
  let w := s.who s.slot.nanread
  let s1 := s.issueLong h false false none 0 0 0 {}
  .next (match placeOf s.focus.lc ea, s1.check w .r [lineOf s.focus.lc ea] with
    | some (.glob _), .ok gs => if (s.slot.gate h true false false).isNone then (s1.mayFill w gs).draw else s1
    | _, _ => s1)

/-- `disc` (R158); the last, partial line of the own store is refused at issue (log 15). -/
def execDisc (h : Hd) (ra : Reg) (i : Word) (s : State) : Result :=
  let ea := s.slot.ea ra i
  let short := (ownPlace s.focus.lc ea).any (fun off => decide (lsSize < off - off % 192 + 192))
  .next (s.issueLong h false false (if short then some (s.fault .protection ea) else s.formChk ea 1) 0 0 0
    { task := some .disc, ea := ea, remote := remoteOf s.focus.lc ea })
def State.perfDisc (s : State) (k : Task) : Perf :=
  let l := lineOf s.focus.lc k.ea
  let w := s.who k.nan
  perfOf (do
      let (s1, gs) ← s.enterAs false w .w .both [l]
      (s1.putPlain w.party gs (zeros l.2)).afterStore w gs) 0 0 0 (fun s' => .done s' [] 0)

/-- `flushl` changes no value; a local-store line has no effect (R158). -/
def execFlushl (h : Hd) (ra : Reg) (i : Word) (s : State) : Result :=
  let ea := s.slot.ea ra i
  let global := match placeOf s.focus.lc ea with
    | some (.glob _) => true
    | _ => false
  .next (s.issueLong h false false (s.formChk ea 1) 0 0 0
    (if global then { task := some .flushl, ea := ea, remote := 1 } else {}))
/-- The checks of a `flushl`. One in a host window is refused as any other access where the endpoint is not in RUN, though it has no effect: the
rule names the faults of R141's row only (DESIGN CHOICE, log 83). -/
def State.perfFlushl (s : State) (k : Task) : Perf :=
  perfOf (s.touch (s.who k.nan) .any k.ea [lineOf s.focus.lc k.ea]) 0 0 0 (fun s' => .done s' [] 0)

/-- `xinv`: the range in RA and RB (R159). -/
def execXinv (h : Hd) (ra rb : Reg) (s : State) : Result :=
  let base := s.slot.rx ra.val
  let len := s.slot.rx rb.val
  let bad := decide (base.toNat % 65536 ≠ 0) || decide (len = 0) || decide (len.toNat % 65536 ≠ 0) || decide (base.toNat + len.toNat > 2 ^ 56)
  .next (s.issueLong h false false (firstTrap [if bad then some (s.fault .illegalField 0) else none, s.requestChk .xinvdone]) 0 0 0
    { task := some (.xinv len.toNat), ea := base, remote := 1 })
/-- Every translating slice has accepted the request; the wait lists of the range are to be walked again before XINVDONE (R151,
R160), and descriptors whose images lie in it become stale (R267). -/
def State.perfXinv (s : State) (k : Task) (len : Nat) : Perf :=
  if s.paused (s.who k.nan) then .wait
  else
    let ctx := s.focus.ctx
    let (tk, s1) := s.ask .xinvdone
    let pages := ((s1.ctxOf ctx).waitLists.map (·.1)).filter (fun p => overlap (p * 65536) 65536 k.ea.toNat len)
    let s2 := s1.modCtx ctx (fun c => { c with
      xinvs := c.xinvs ++ [{ lc := s.focus.lc, pos := s.focus.pos, nan := k.nan, a := k.ea.toNat, b := len, ticket := tk, copies := pages }] })
    let s3 := s2.staleImages ctx k.ea.toNat len
    .done (s3.tick ctx s.party 0) [] 0

/-- `drain` (R161). -/
def execDrain (h : Hd) (path : Path) (s : State) : Result :=
  .next (s.issueLong h false false (s.requestChk .draindone) 0 0 0 { task := some (.drain path), remote := 1 })

/-- A copy command counts for a path (R161). -/
def CopyRun.onPath (r : CopyRun) (p : Path) : Bool :=
  match p with
  | .ls => (ownPlace r.lc r.c.dst).isSome
  | .l1 => r.c.l1
  | .cl => (ownPlace r.lc r.c.dst).isNone && decide (field r.c.dst.toNat 56 8 = 0xFE)
  | .gm => decide (r.c.dst.toNat < 2 ^ 56)

/-- The copies of a context and logical core that the harts have not completed. -/
def State.copiesOf (s : State) (ctx lc : Nat) : List CopyRun :=
  s.harts.flatMap (fun h => h.2.queue.filterMap (fun q =>
    match q with
    | .copy r => if r.ctx = ctx ∧ r.lc = lc then some r else none
    | .sub _ => none))

def State.perfDrain (s : State) (k : Task) (path : Path) : Perf :=
  if s.paused (s.who k.nan) then .wait
  else
    let ctx := s.focus.ctx
    let (tk, s1) := s.ask .draindone
    let cs := (s1.copiesOf ctx s.focus.lc).filter (·.onPath path)
    let s2 := s1.modCtx ctx (fun c => { c with
      drains := c.drains ++ [{ lc := s.focus.lc, pos := s.focus.pos, nan := k.nan, a := path.code, b := cs.length, ticket := tk, copies := cs.map (·.ticket) }] })
    .done (s2.tick ctx s.party 0) [] 0

end Sys2Proof.Machine
end

