-- ==== Sys2Proof/Machine/VectorMem.lean ====
section
/-! DEFINITION. The vector loads and stores (09 R232 to R235). -/

namespace Sys2Proof.Machine

/-- The line of its space in which lane `i` of a 192-byte range from `ea` lies. -/
def laneLine (lc : Nat) (ea : Word) (i : Nat) : Place := ((placeOf lc (ea + BitVec.ofNat 64 (4 * i))).getD (.glob 0)).line

/-- The active lanes of a 192-byte range from `ea`, grouped by line in ascending order of the first lane (R167, R232). -/
def lineGroups (lc : Nat) (ea : Word) (act : PReg) : List (List Nat) :=
  let ls := lanesOf act
  let first := ls.filter (fun i => decide (laneLine lc ea i = laneLine lc ea 0))
  let second := ls.filter (fun i => decide (laneLine lc ea i ≠ laneLine lc ea 0))
  [first, second].filter (fun g => !g.isEmpty)

/-- The pieces that a group of lanes touches. -/
def lanePieces (lc : Nat) (ea : Word) (g : List Nat) : List (Place × Nat) :=
  g.map (fun i => ((placeOf lc (ea + BitVec.ofNat 64 (4 * i))).getD (.glob 0), 4))

/-- Neighbouring pieces of one access merged into ranges. -/
def mergePieces : List (Place × Nat) → List (Place × Nat)
  | [] => []
  | (p, n) :: r =>
    match mergePieces r with
    | [] => [(p, n)]
    | (q, m) :: r' =>
      match p, q with
      | .glob a, .glob b => if a + n = b then (.glob a, n + m) :: r' else (p, n) :: (q, m) :: r'
      | .ls l a, .ls l' b => if l = l' ∧ a + n = b then (.ls l a, n + m) :: r' else (p, n) :: (q, m) :: r'
      | _, _ => (p, n) :: (q, m) :: r'

/-- The checks of R232 at issue: form, a multiple of 4, the end of the local store, and the form of each active lane. -/
def State.vecChk (s : State) (ea : Word) (act : PReg) : Option Trap :=
  match placeOf s.focus.lc ea with
  | none => some (s.fault .protection ea)
  | some p =>
    let ended := match p with
      | .ls _ off => decide (lsSize < off + 192)
      | .glob _ => false
    if decide (ea.toNat % 4 ≠ 0) || ended then some (s.fault .protection ea)
    else
      ((lanesOf act).find? (fun i => (placeOf s.focus.lc (ea + BitVec.ofNat 64 (4 * i))).isNone)).map (fun i =>
        { s.fault .protection (ea + BitVec.ofNat 64 (4 * i)) with lane := i })

/-- `vld` (R232); its group closes at once when no lane is active. -/
def execVld (h : Hd) (p : Pred) (vd ra : Reg) (i : Word) (s : State) : Result :=
  let t := s.slot
  let ea := t.ea ra i
  let act := t.act p
  let n := (lineGroups s.focus.lc ea act).length
  .next (s.issueLong h false false (s.vecChk ea act) 0 0 0
    (if n = 0 then {} else { task := some (.vload vd.val act 0 0), ea := ea, remote := n * remoteOf s.focus.lc ea }))

/-- Bytes of lanes placed in a register. -/
def putLanes (v : VReg) (g : List Nat) (bs : List Byte) : VReg :=
  g.zipIdx.foldl (fun v p => (v &&& ~~~(laneMask p.1)) ||| BitVec.ofNat 1536 (leNat ((bs.drop (4 * p.2)).take 4) * 2 ^ (32 * p.1))) v

/-- Active lanes before the group `k` of a `vld` or `vst` (R235). -/
def lanesDone (gs : List (List Nat)) (k : Nat) : Nat := ((gs.take k).map List.length).foldl (· + ·) 0

/-- A line of a `vld`. Where a page part or sector of it is refused, the record names the line's first active lane: the rule does not say
which of its lanes (DESIGN CHOICE, log 83). -/
def State.perfVload (s : State) (tk : Task) (vd : Nat) (act : PReg) (acc : VReg) (k : Nat) : Perf :=
  let gs := lineGroups s.focus.lc tk.ea act
  let g := gs.getD k []
  perfOf (s.readAt (s.who tk.nan) (mergePieces (lanePieces s.focus.lc tk.ea g))) (g.headD 0) (lanesDone gs k) 0 (fun r =>
    let acc' := putLanes acc g r.2
    if k + 1 < gs.length then .more r.1 (.vload vd act acc' (k + 1)) else .done r.1 [.v vd (actMask act 32) acc'] 0)

/-- `vst` (R232). -/
def execVst (h : Hd) (p : Pred) (vb ra : Reg) (i : Word) (s : State) : Result :=
  let t := s.slot
  let ea := t.ea ra i
  let act := t.act p
  let n := (lineGroups s.focus.lc ea act).length
  .next (s.issueLong h false false (s.vecChk ea act) 0 0 0
    (if n = 0 then {} else { task := some (.vstore act (t.rv vb.val) 0), ea := ea, remote := n * remoteOf s.focus.lc ea }))
/-- A line of a `vst`; the lane of a refusal is as in `perfVload` (DESIGN CHOICE, log 83). -/
def State.perfVstore (s : State) (tk : Task) (act : PReg) (val : VReg) (k : Nat) : Perf :=
  let gs := lineGroups s.focus.lc tk.ea act
  let g := gs.getD k []
  let bs := g.flatMap (fun i => leBytes 4 (elem 32 val i))
  perfOf (s.writeAt (s.who tk.nan) (mergePieces (lanePieces s.focus.lc tk.ea g)) bs) (g.headD 0) (lanesDone gs k) 0 (fun s' =>
    if k + 1 < gs.length then .more s' (.vstore act val (k + 1)) else .done s' [] 0)

/-! ### Gathers, scatters and strided accesses (R233 to R235) -/

/-- The address of element j: base and offset, or base and stride. -/
def elemAddr (base : Word) (w : Nat) (offs : VReg) (stride : Option Word) (j : Nat) : Word :=
  match stride with
  | some st => base + BitVec.ofNat 64 j * st
  | none => base + (if w = 32 then (BitVec.ofNat 32 (elem 32 offs j)).signExtend 64 else BitVec.ofNat 64 (elem w offs j))

/-- The form and alignment checks of each active element (R126, R233). A misaligned element is found at issue, as R126 and R128 are: R148 does
not name R233's alignment among these (DESIGN CHOICE, log 83). -/
def State.elemChk (s : State) (base : Word) (w : Nat) (offs : VReg) (stride : Option Word) (js : List Nat) (prog : Nat) : Option Trap :=
  (js.find? (fun j =>
    let a := elemAddr base w offs stride j
    (placeOf s.focus.lc a).isNone || decide (a.toNat % (w / 8) ≠ 0))).map (fun j =>
      { s.fault .protection (elemAddr base w offs stride j) with lane := laneOf w j, progress := prog })

/-- Issues a gather or scatter: operands and progress come from the save area when it rejoins (R334 to R336). -/
def State.issueElems (s : State) (h : Hd) (p : Pred) (ty : ETy) (ra rb : Reg) (strided : Bool) (word : Nat) (data : VReg)
    (op : Nat → VReg → Option Word → PReg → VReg → Nat → TaskOp) : State :=
  let t := s.slot
  let w := widthOf ty
  let act := s.actOf p
  let base := t.opA ra.val
  let rbv := if strided then t.opB rb.val else 0
  let (offs, data', j0) := match t.stopped with
    | [] => (if strided then 0 else t.rv rb.val, data, 0)
    | e :: _ => (e.b, e.a, e.prog)
  let stride := if strided then some rbv else none
  let js := elemsFrom act w j0
  s.issueLong h false false (s.elemChk base w offs stride js j0) word base rbv
    { task := some (op w offs stride act data' j0), ea := base, remote := js.length }

def execVldg (h : Hd) (p : Pred) (ty : ETy) (vd ra vb : Reg) (s : State) : Result :=
  .next (s.issueElems h p ty ra vb false (wordOf (.vldg h p ty vd ra vb)) 0 (fun w o st a d j => .gather vd.val w o st a d j))
def execVldc (h : Hd) (p : Pred) (ty : ETy) (vd ra rb : Reg) (s : State) : Result :=
  .next (s.issueElems h p ty ra rb true (wordOf (.vldc h p ty vd ra rb)) 0 (fun w o st a d j => .gather vd.val w o st a d j))
def execVsts (h : Hd) (p : Pred) (ty : ETy) (vc ra vb : Reg) (s : State) : Result :=
  .next (s.issueElems h p ty ra vb false (wordOf (.vsts h p ty vc ra vb)) (s.slot.rv vc.val) (fun w o st a d j => .scatter w o st a d j))
def execVstc (h : Hd) (p : Pred) (ty : ETy) (vc ra rb : Reg) (s : State) : Result :=
  .next (s.issueElems h p ty ra rb true (wordOf (.vstc h p ty vc ra rb)) (s.slot.rv vc.val) (fun w o st a d j => .scatter w o st a d j))

/-- Bytes placed at element j of width w. -/
def putElem (w : Nat) (v : VReg) (j e : Nat) : VReg :=
  (v &&& ~~~(BitVec.ofNat 1536 (ones w * 2 ^ (w * j)))) ||| BitVec.ofNat 1536 (e % 2 ^ w * 2 ^ (w * j))

/-- The next element, `j` being the number performed (R233, R235). -/
def State.perfGather (s : State) (tk : Task) (vd w : Nat) (offs : VReg) (stride : Option Word) (act : PReg) (acc : VReg) (j : Nat) : Perf :=
  match elemsFrom act w j with
  | [] => .done s [.v vd (actMask act w) acc] 0
  | e :: r =>
    let a := elemAddr tk.ea w offs stride e
    perfOf (s.readAt (s.who tk.nan) (spot s.focus.lc a (w / 8))) (laneOf w e) j 0 (fun x =>
      let acc' := putElem w acc e (leNat x.2)
      if r.isEmpty then .done x.1 [.v vd (actMask act w) acc'] 0 else .more x.1 (.gather vd w offs stride act acc' (j + 1)))
def State.perfScatter (s : State) (tk : Task) (w : Nat) (offs : VReg) (stride : Option Word) (act : PReg) (data : VReg) (j : Nat) : Perf :=
  match elemsFrom act w j with
  | [] => .done s [] 0
  | e :: r =>
    let a := elemAddr tk.ea w offs stride e
    perfOf (s.writeAt (s.who tk.nan) (spot s.focus.lc a (w / 8)) (leBytes (w / 8) (elem w data e))) (laneOf w e) j 0
      (fun s' => if r.isEmpty then .done s' [] 0 else .more s' (.scatter w offs stride act data (j + 1)))

end Sys2Proof.Machine
end

