-- ==== Sys2Proof/Machine/Automata.lean ====
section
/-! DEFINITION. The automaton unit: images, descriptors, lanes, stacks, transition maps (11 R258 to R278). -/

namespace Sys2Proof.Machine

def stDead : Nat := 0x3FFFFE
def stRet : Nat := 0x3FFFFF
def stUnres : Nat := 0x3FFFFD

/-- Why a step of the automaton unit does not come to its end: an access, or a class E check, with the lane it concerns. -/
inductive AuStop where
  | pause (p : Pause) (lane : Nat)
  | bad (kind : TrapKind) (addr : Word) (lane : Nat)

abbrev Au (α : Type) := Except AuStop α

/-- An access made for `lane`. -/
def auFor {α : Type} (lane : Nat) (x : Except Pause α) : Au α :=
  match x with
  | .ok a => .ok a
  | .error p => .error (.pause p lane)

/-- A step of the unit at progress index `prog`: an access, or what follows when it comes to its end. -/
def auOf {α : Type} (s : State) (tk : Task) (prog : Nat) (x : Run → Au (α × Run)) (f : State → α → Perf) : Perf :=
  match x { s := s, left := tk.got } with
  | .ok (a, r) => f r.s a
  | .error (.pause (.need s' bs n) _) => .part s' bs n
  | .error (.pause (.halt (.refuse k a) n) lane) => .refuse k a lane prog n
  | .error (.pause (.halt .wait _) _) => .wait
  | .error (.pause (.halt (.full dst ch) _) _) => .full dst ch
  | .error (.bad k a lane) => .trap s (stepTrap k a lane prog)

/-- Reads pieces that each concern a lane: neighbours in one line in one step, whose refusal names the first of them (R176). -/
def Run.forLanes (w : Who) : List (List (Nat × Place × Nat)) → Run → Au (List (Nat × List Byte) × Run)
  | [], r => .ok ([], r)
  | g :: gs, r => do
    let (b, r1) ← auFor ((g.head?.map (·.1)).getD 0) (r.read w (g.map (·.2)))
    let cut := g.foldl (fun (q : List (Nat × List Byte) × List Byte) x => (q.1 ++ [(x.1, q.2.take x.2.2)], q.2.drop x.2.2)) ([], b)
    let (bs, r2) ← Run.forLanes w gs r1
    .ok (cut.1 ++ bs, r2)
def Run.lanes (w : Who) (ps : List (Nat × Place × Nat)) (r : Run) : Au (List (Nat × List Byte) × Run) :=
  Run.forLanes w (byKey (fun q => q.2.1.line) ps) r

/-- What a read for lane `i` gave. -/
def ofLane (bs : List (Nat × List Byte)) (i : Nat) : List Byte := ((bs.find? (fun q => decide (q.1 = i))).map (·.2)).getD []

def State.desc (s : State) (dn : Nat) : Desc := Tab.get {} s.me.descs dn
def State.setDesc (s : State) (dn : Nat) (d : Desc) : State := s.modMe (fun c => { c with descs := Tab.set {} c.descs dn d })

/-- The descriptor is held by the continuation in focus, else PROTECTION with fault address 0 (R261). -/
def State.descChk (s : State) (dn : Nat) : Option Trap :=
  if (s.desc dn).holder = s.slot.cid then none else some (s.fault .protection 0)

/-- An instruction that uses a descriptor: one that is stale raises AUT_TABLE at the image base (R267). -/
def State.useDesc (s : State) (dn prog : Nat) (f : Desc → Perf) : Perf :=
  let d := s.desc dn
  if d.stale then .trap s (stepTrap .autTable (BitVec.ofNat 64 d.base) 0 prog) else f d

/-- Bytes of an image, read line by line through translation for the unit (R176, R267). -/
def Run.img (r : Run) (w : Who) (lane : Nat) (d : Desc) (off n : Nat) : Au (List Byte × Run) :=
  if n = 0 then .ok ([], r)
  else if 2 ^ 56 < d.base + off + n then .error (.bad .protection (BitVec.ofNat 64 (d.base + off)) lane)
  else auFor lane (Run.readLines w (lineSteps [(.glob (d.base + off), n)]) r)

/-! ### Images (R258 to R260, R281, R282) -/

/-- What is wrong with a transition entry (R260). -/
def Desc.entryBad (d : Desc) (e : Nat) : Option TrapKind :=
  let op := field e 24 2
  let nx := field e 0 22
  if op = 3 then some .illegalField
  else if (op ≠ 0 ∧ !d.pda) ∨ (op = 0 ∧ field e 26 6 ≠ 0) ∨ ¬(nx < d.states ∨ nx = stDead ∨ (nx = stRet ∧ op = 2)) then some .autTable
  else none

/-- Bytes of transition page `p` (R259). -/
def Desc.pageBytes (d : Desc) (p : Nat) : Nat := 4 * Nat.min 1024 (d.states * d.classes - 1024 * p)

/-- The vocabulary fields (R281, R282): offset of each, and whether it holds. -/
def vocabChecks (f : Nat → Nat → Nat) (states pages : Nat) : List (Nat × Bool) :=
  let v := f 32 4
  let vp := f 56 4
  let inside (o a n : Nat) : Bool := decide (o % a = 0) && decide (4096 * (pages + 1) ≤ o) && decide (o < 4096 * vp) && decide (o + n ≤ 4096 * vp)
  if v = 0 then [(36, 2), (38, 2), (40, 4), (44, 4), (48, 4), (52, 4), (56, 4), (60, 4)].map (fun p => (p.1, decide (f p.1 p.2 = 0)))
  else
    [(32, decide (v ≤ 2 ^ 20)), (36, decide (1 ≤ f 36 2) && decide (f 36 2 ≤ 32768)), (38, decide (f 38 2 = 0)),
     (40, inside (f 40 4) 2 (2 * states)), (44, inside (f 44 4) 8 (8 * f 36 2)), (48, inside (f 48 4) 16 0), (52, inside (f 52 4) 8 (8 * v)),
     (56, decide (pages + 2 ≤ vp)), (60, decide (f 60 4 = 0))]

/-- The header fields in ascending order (R258, R281): offset of each, and whether it holds. -/
def headerChecks (bs : List Byte) : List (Nat × Bool) :=
  let f := fieldAt bs
  let states := f 8 4
  let classes := f 12 2
  [(0, decide (f 0 4 = 0x5A4E4155)), (4, decide (f 4 1 = 1)), (5, decide (f 5 1 ≤ 1)), (6, decide (f 6 2 = 0)),
   (8, decide (1 ≤ states) && decide (states ≤ 0x3FFFFD)), (12, decide (1 ≤ classes) && decide (classes ≤ 256)), (14, decide (f 14 2 = 0)),
   (16, decide (f 16 4 < states)), (20, decide (f 20 4 = (states * classes + 1023) / 1024)), (24, decide (f 24 8 = 0))] ++
  vocabChecks f states (f 20 4) ++
  (List.range 256).map (fun b => (64 + b, decide (f (64 + b) 1 < classes))) ++
  (List.range 64).map (fun y => (320 + 4 * y, if f 5 1 = 1 then decide (f (320 + 4 * y) 4 < states) else decide (f (320 + 4 * y) 4 = 0)))

/-- The descriptor that a header fills (R262, R268 step 4). -/
def headerDesc (cid base : Nat) (bs : List Byte) : Desc :=
  let f := fieldAt bs
  { holder := cid, base := base, pda := decide (f 5 1 = 1), states := f 8 4, classes := f 12 2, start := f 16 4, pages := f 20 4
    classmap := (List.range 256).map (fun b => f (64 + b) 1), call := (List.range 64).map (fun y => f (320 + 4 * y) 4)
    vocab := f 32 4, mcls := f 36 2, smoff := f 40 4, mdoff := f 44 4, trieoff := f 48 4, ttoff := f 52 4, vpages := f 56 4 }

/-! ### Binding (R268 to R271) -/

/-- Step 2 of R268: every page is readable and not writable. -/
def State.extentChk (s : State) (d : Desc) : Au Unit :=
  let page (p : Nat) : Option AuStop :=
    let va := d.base + 4096 * p
    let a := BitVec.ofNat 64 va
    if 2 ^ 56 ≤ va then some (.bad .protection a 0)
    else
      match s.leaf s.focus.ctx va with
      | .error k => some (.pause (.halt (.refuse k a) 1) 0)
      | .ok l => if l.r && !l.w then none else some (.bad .protection a 0)
  match (List.range d.extent).findSome? page with
  | some e => .error e
  | none => .ok ()

/-- Steps 1 and 2 of R268. -/
def Run.bindHeader (w : Who) (base : Nat) (r : Run) : Au (Desc × Run) := do
  let (bs, r1) ← r.img w 0 { base := base } 0 576
  match (headerChecks bs).find? (fun p => !p.2) with
  | some p => .error (.bad .autTable (BitVec.ofNat 64 (base + p.1)) 0)
  | none => do
    let d := headerDesc r1.s.slot.cid base bs
    r1.s.extentChk d
    .ok (d, r1)

/-- The table-store copy of a page of the image of `d`, pinned through any descriptor of the logical core that is bound to it; empty where it
is not pinned (R267, R270). -/
def LCore.pinCopy (c : LCore) (d : Desc) (p : Nat) : List Byte :=
  (c.descs.findSome? (fun e =>
    if e.2.holder ≠ 0 ∧ e.2.base = d.base ∧ e.2.stale = false ∧ (Tab.get [] e.2.pins p).isEmpty = false then some (Tab.get [] e.2.pins p) else none)).getD []

/-- One transition page, from its pinned copy or read, and checked (R267, R268 step 3). -/
def Run.bindPage (w : Who) (d : Desc) (p : Nat) (r : Run) : Au (Unit × Run) := do
  let off := 4096 * (p + 1)
  let (bs, r1) ← match r.s.me.pinCopy d p with
    | [] => r.img w 0 d off (d.pageBytes p)
    | bs => .ok (bs, r)
  match (List.range (bs.length / 4)).findSome? (fun i => (d.entryBad (fieldAt bs (4 * i) 4)).map (fun k => (i, k))) with
  | some (i, k) => .error (.bad k (BitVec.ofNat 64 (d.base + off + 4 * i)) 0)
  | none => .ok ((), r1)

/-- `autbind` (R268). -/
def execAutbind (h : Hd) (dn : Reg8) (ra : Reg) (s : State) : Result :=
  let base := s.slot.opA ra.val
  let prog := (s.slot.stopped.head?.map (·.prog)).getD 0
  .next (s.issueLong h false false (if 2 ^ 56 ≤ base.toNat ∨ base.toNat % 4096 ≠ 0 then some (s.fault .protection base) else none)
    (wordOf (.autbind h dn ra)) base 0 { task := some (.autbind dn.val prog none), ea := base })

/-- A step of a binding: the release of the own one, then an access of the header or of a page (R268). -/
def State.perfAutbind (s : State) (tk : Task) (dn page : Nat) (d : Option Desc) : Perf :=
  let w := s.unitWho 10 tk.nan
  match d with
  | none =>
    let holder := (s.desc dn).holder
    if holder ≠ 0 ∧ holder = s.slot.cid then .more (s.setDesc dn {}) (.autbind dn page none)
    else if s.bindWaits s.focus (.autbind dn page none) then .hold s
    else auOf s tk page (Run.bindHeader w tk.ea.toNat) (fun s d => .more s (.autbind dn page (some d)))
  | some d =>
    if d.pages ≤ page then .done s [.bind dn d] 0
    else auOf s tk page (Run.bindPage w d page) (fun s _ =>
      if page + 1 < d.pages then .more s (.autbind dn (page + 1) (some d)) else .done s [.bind dn d] 0)

/-- `autunbind` (R269): released at the close of its group (R261). -/
def execAutunbind (h : Hd) (dn : Reg8) (s : State) : Result :=
  .next (s.issueLong h false false none 0 0 0 { outs := if (s.desc dn.val).holder = s.slot.cid then [.unbind dn.val] else [] })

/-- The distinct pages that a logical core has pinned, by image and number (R270). -/
def LCore.pinned (c : LCore) : List (Nat × Nat) := (c.descs.flatMap (fun e => e.2.pins.map (fun p => (e.2.base, p.1)))).eraseDups

/-- `autpin` (R270). -/
def execAutpin (h : Hd) (dn : Reg8) (ra rb : Reg) (s : State) : Result :=
  let a := s.slot.opA ra.val
  let b := s.slot.opB rb.val
  let bad := decide (2 ^ 32 ≤ a.toNat) || decide (2 ^ 32 ≤ b.toNat) || decide ((s.desc dn.val).pages < a.toNat + b.toNat)
  let prog := (s.slot.stopped.head?.map (·.prog)).getD 0
  .next (s.issueLong h false false (firstTrap [s.descChk dn.val, if bad then some (s.fault .illegalField 0) else none])
    (wordOf (.autpin h dn ra rb)) a b { task := some (.autpin dn.val a.toNat b.toNat prog) })

/-- A step towards the next resident page; a page that is pinned already is not read again (R270). -/
def State.perfAutpin (s : State) (tk : Task) (dn first count page : Nat) : Perf :=
  s.useDesc dn page (fun d =>
    let have' := s.me.pinned
    let new := ((List.range count).map (fun i => (d.base, first + i))).filter (fun p => !have'.contains p)
    let p := first + page
    let pin (s : State) (bs : List Byte) : Perf :=
      let s1 := s.setDesc dn { d with pins := Tab.set [] d.pins p bs }
      if page + 1 < count then .more s1 (.autpin dn first count (page + 1)) else .done s1 [] 0
    if count = 0 then .done (s.setDesc dn { d with pins := [] }) [] 0
    else if 48 < have'.length + new.length then .trap s (stepTrap .protection 0 0 page)
    else if count ≤ page then .done s [] 0
    else if !(s.me.pinCopy d p).isEmpty then pin s (s.me.pinCopy d p)
    else auOf s tk page (fun r => r.img (s.unitWho 10 tk.nan) 0 d (4096 * (p + 1)) (d.pageBytes p)) pin)

/-- `autstk` (R271). -/
def execAutstk (h : Hd) (dn : Reg8) (ra rb : Reg) (s : State) : Result :=
  let a := s.slot.opA ra.val
  let b := s.slot.opB rb.val
  let n := field b.toNat 0 20
  let bad := decide (field b.toNat 20 43 ≠ 0) || decide (n % 192 ≠ 0) || decide (lsSize < n)
  let prot := decide (n ≠ 0) && !(ownPlace s.focus.lc a).any (fun off => decide (off % 4 = 0) && decide (off + n ≤ lsSize))
  .next (s.issueLong h false false (firstTrap [s.descChk dn.val, if bad then some (s.fault .illegalField 0) else none,
      if prot then some (s.fault .protection a) else none]) (wordOf (.autstk h dn ra rb)) a b
    { task := some (.autstk dn.val b), ea := a })
def State.perfAutstk (s : State) (tk : Task) (dn : Nat) (xb : Word) : Perf :=
  s.useDesc dn 0 (fun d => .done (s.setDesc dn { d with
    stkBase := (ownPlace s.focus.lc tk.ea).getD 0, stkBytes := field xb.toNat 0 20, trap := decide (field xb.toNat 63 1 = 1), lanes := [] }) [] 0)

/-! ### Stepping (R263 to R265) -/

/-- The entry of a state and a class, from a pinned copy or from memory, checked (R259, R260, R267). -/
def Run.entry (r : Run) (w : Who) (lane : Nat) (d : Desc) (st c : Nat) : Au (Nat × Run) := do
  let e := st * d.classes + c
  let p := e / 1024
  let o := 4 * (e % 1024)
  let (v, r1) ← match r.s.me.pinCopy d p with
    | [] => (r.img w lane d (4096 * (p + 1) + o) 4).map (fun x => (leNat x.1, x.2))
    | bs => .ok (fieldAt bs o 4, r)
  match d.entryBad v with
  | some k => .error (.bad k (BitVec.ofNat 64 (d.base + 4096 * (p + 1) + o)) lane)
  | none => .ok (v, r1)

/-- What a step does to a lane's stack (R264). -/
inductive StkOp where
  | keep
  | push (entry : Nat)
  | pop (ret : Bool)
  | ended
  deriving DecidableEq, Repr

/-- A step as R264 decides it: next state, ACC, BND and what becomes of the stack. -/
structure Move where
  next : Nat
  acc  : Nat := 0
  bnd  : Nat := 0
  stk  : StkOp := .keep
  deriving DecidableEq, Repr

def Desc.maxDepth (d : Desc) : Nat := 16 + d.stkBytes / 192

/-- The decision of R264 for a state, a byte, and a stack of `depth` entries with the given top. -/
def Run.move (r : Run) (w : Who) (lane : Nat) (d : Desc) (st byte depth top : Nat) : Au (Move × Run) :=
  if st = stDead ∨ st = stUnres then .ok ({ next := st }, r)
  else if d.states ≤ st then .ok ({ next := stDead }, r)
  else (r.entry w lane d st (d.classmap.getD byte 0)).map (fun x =>
    let e := x.1
    let acc := field e 22 1
    let bnd := field e 23 1
    let y := field e 26 6
    let nx := field e 0 22
    (match field e 24 2 with
      | 0 => { next := nx, acc := acc, bnd := bnd }
      | 1 => if d.maxDepth ≤ depth then { next := stDead, stk := .ended }
             else { next := d.call.getD y 0, acc := acc, bnd := bnd, stk := .push (y * 2 ^ 22 + nx) }
      | _ => if depth = 0 ∨ field top 22 6 ≠ y then { next := stDead }
             else { next := nx, acc := acc, bnd := bnd, stk := .pop (decide (nx = stRet)) }, x.2))

/-- A lane state word (R263). -/
def laneWord (n acc ovf bnd depth : Nat) : Nat := n + at' 22 acc + at' 23 ovf + at' 24 bnd + at' 25 (Nat.min depth 63)

/-- Offset of the spill area of a lane in the own store (R265). -/
def Desc.area (d : Desc) (lane : Nat) : Nat := d.stkBase + lane * (d.stkBytes / 48)

/-- A push: at depth 16 or more the oldest window entry goes to the spill area (R265). -/
def Run.push (r : Run) (w : Who) (d : Desc) (lane : Nat) (l : LaneStk) (entry : Nat) : Au (LaneStk × Run) :=
  if 16 ≤ l.depth then
    (auFor lane (r.write w [(.ls r.s.focus.lc (d.area lane + 4 * (l.depth - 16)), 4)] (leBytes 4 (l.win.getLastD 0)))).map
      (fun r1 => ({ l with depth := l.depth + 1, win := entry :: l.win.dropLast }, r1))
  else .ok ({ l with depth := l.depth + 1, win := entry :: l.win }, r)

/-- A pop: at a depth above 16 the newest spilled entry comes back (R265). -/
def Run.pop (r : Run) (w : Who) (d : Desc) (lane : Nat) (l : LaneStk) : Au ((LaneStk × Nat) × Run) :=
  let top := l.win.headD 0
  if 16 < l.depth then
    (auFor lane (r.read w [(.ls r.s.focus.lc (d.area lane + 4 * (l.depth - 17)), 4)])).map
      (fun x => (({ l with depth := l.depth - 1, win := l.win.tail ++ [leNat x.1] }, top), x.2))
  else .ok (({ l with depth := l.depth - 1, win := l.win.tail }, top), r)

/-- A step's effect on its lane (R264): the lane, and its output word. -/
def Run.stepLane (r : Run) (w : Who) (d : Desc) (lane : Nat) (l : LaneStk) (m : Move) : Au ((LaneStk × Nat) × Run) :=
  let out (n : Nat) (l : LaneStk) : Nat := laneWord n m.acc l.ovf.toNat m.bnd l.depth
  match m.stk with
  | .keep => .ok ((l, out m.next l), r)
  | .ended => .ok (({ l with ovf := true }, out m.next { l with ovf := true }), r)
  | .push e => (r.push w d lane l e).map (fun x => ((x.1, out m.next x.1), x.2))
  | .pop ret => (r.pop w d lane l).map (fun x => ((x.1.1, out (if ret then field x.1.2 0 22 else m.next) x.1.1), x.2))

/-- One round over lanes, each with its state word and byte: the steps are decided with all their traps, then they take effect in
ascending lane order, each followed by `after` (R264, R266). It gives the lanes of the descriptor and the words. -/
def Run.round (r : Run) (w : Who) (d : Desc) (lanes : List (Nat × Nat × Nat)) (after : Run → Nat → Nat → Au Run) :
    Au ((Tab LaneStk × List (Nat × Nat)) × Run) := do
  let (plan, r1) ← lanes.foldlM (fun (p : List (Nat × LaneStk × Move) × Run) (x : Nat × Nat × Nat) => (do
    let reset := decide (field x.2.1 31 1 = 1)
    let l := if reset then {} else Tab.get {} d.lanes x.1
    let (m, r) ← p.2.move w x.1 d (if reset then d.start else field x.2.1 0 22) x.2.2 l.depth (l.win.headD 0)
    if m.stk = .ended ∧ d.trap = true then .error (.bad .autStack 0 x.1) else .ok (p.1 ++ [(x.1, l, m)], r) :
      Au (List (Nat × LaneStk × Move) × Run))) ([], r)
  plan.foldlM (fun (p : (Tab LaneStk × List (Nat × Nat)) × Run) (x : Nat × LaneStk × Move) => (do
    let ((l, word), r) ← p.2.stepLane w d x.1 x.2.1 x.2.2
    let r' ← after r x.1 word
    .ok ((Tab.set {} p.1.1 x.1 l, p.1.2 ++ [(x.1, word)]), r') : Au ((Tab LaneStk × List (Nat × Nat)) × Run))) ((d.lanes, []), r1)

/-- A register with some lanes replaced. -/
def setLanes (v : VReg) (ws : List (Nat × Nat)) : VReg := ws.foldl (fun v p => putElem 32 v p.1 p.2) v

/-- `autstep` (R272). -/
def execAutstep (h : Hd) (p : Pred) (dn : Reg8) (vd va vb : Reg) (s : State) : Result :=
  let t := s.slot
  let (a, b) := match t.stopped with
    | [] => (t.rv va.val, t.rv vb.val)
    | e :: _ => (e.a, e.b)
  .next (s.issueLong h false false (s.descChk dn.val) (wordOf (.autstep h p dn vd va vb)) 0 0
    { task := some (.autstep dn.val vd.val (s.actOf p) a b) })
def State.perfAutstep (s : State) (tk : Task) (dn vd : Nat) (act : PReg) (va vb : VReg) : Perf :=
  s.useDesc dn 0 (fun d =>
    auOf s tk 0 (fun r => r.round (s.unitWho 10 tk.nan) d ((lanesOf act).map (fun i => (i, elem 32 va i, elem 32 vb i % 256))) (fun r _ _ => .ok r))
      (fun s q => .done (s.setDesc dn { d with lanes := q.1 }) [.v vd (actMask act 32) (setLanes 0 q.2)] 0))

/-- `autrun` (R273, R274). -/
def execAutrun (h : Hd) (p : Pred) (dn : Reg8) (vd va rb : Reg) (s : State) : Result :=
  let t := s.slot
  let xb := t.opB rb.val
  let ok := (ownPlace s.focus.lc xb).any (fun off => decide (off % 16 = 0) && decide (off + 768 ≤ lsSize))
  let (words, cnts, round) := match t.stopped with
    | [] => (t.rv va.val, List.replicate 48 0, 0)
    | e :: _ => (e.a, (List.range 48).map (fun i => field e.c (16 * i) 16), e.prog)
  .next (s.issueLong h false false (firstTrap [s.descChk dn.val, if ok then none else some (s.fault .protection xb)])
    (wordOf (.autrun h p dn vd va rb)) 0 xb { task := some (.autrun dn.val vd.val (s.actOf p) words cnts [] round), ea := xb })

/-- A run entry keeps its limits (R273). -/
def runOk (e : List Nat) : Bool :=
  match e with
  | [off, len, list, cap] =>
    decide (off < 2 ^ 19) && decide (len ≤ lsSize) && decide (off + len ≤ lsSize) && decide (list < 2 ^ 19) && decide (list % 4 = 0) &&
    decide (list + 4 * cap ≤ lsSize)
  | _ => false

/-- The run entries of the active lanes (R273). -/
def Run.recs (w : Who) (ea : Word) (act : PReg) (r : Run) : Au (List (List Nat) × Run) := do
  let lc := r.s.focus.lc
  let off := (ownPlace lc ea).getD 0
  let (bs, r1) ← Run.lanes w ((lanesOf act).map (fun i => (i, .ls lc (off + 16 * i), 16))) r
  let es ← (List.range 48).mapM (fun i =>
    let b := ofLane bs i
    let e := [fieldAt b 0 4, fieldAt b 4 4, fieldAt b 8 4, fieldAt b 12 2]
    if !act.getLsbD i then (.ok [] : Au (List Nat))
    else if runOk e then .ok e else .error (.bad .protection (ea + BitVec.ofNat 64 (16 * i)) i))
  .ok (es, r1)

/-- One round of an `autrun` over the lanes `live` (R273). -/
def Run.runRound (w : Who) (d : Desc) (words : VReg) (cnts : List Nat) (recs : List (List Nat)) (round : Nat) (live : List Nat) (r : Run) :
    Au ((Tab LaneStk × List (Nat × Nat)) × Run) := do
  let lc := r.s.focus.lc
  let rec' (i j : Nat) : Nat := (recs.getD i []).getD j 0
  let (bs, r1) ← Run.lanes w (live.map (fun i => (i, .ls lc (rec' i 0 + round), 1))) r
  r1.round w d (live.map (fun i => (i, elem 32 words i, leNat (ofLane bs i)))) (fun r i word =>
    let c := cnts.getD i 0
    if field word 24 1 = 1 ∧ c < rec' i 3 then auFor i (r.write w [(.ls lc (rec' i 2 + 4 * c), 4)] (leBytes 4 round)) else .ok r)

/-- A step of an `autrun`: towards its entries, the end of a round, or the closing reset and count writes (R273, R274). -/
def State.perfAutrun (s : State) (tk : Task) (dn vd : Nat) (act : PReg) (words : VReg) (cnts : List Nat) (recs : List (List Nat)) (round : Nat) : Perf :=
  let lc := s.focus.lc
  let w := s.unitWho 10 tk.nan
  let len (i : Nat) : Nat := (recs.getD i []).getD 1 0
  let live := (lanesOf act).filter (fun i => decide (round < len i))
  s.useDesc dn round (fun d =>
    if recs.isEmpty then auOf s tk round (Run.recs w tk.ea act) (fun s es => .more s (.autrun dn vd act words cnts es round))
    else if !live.isEmpty then
      auOf s tk round (Run.runRound w d words cnts recs round live) (fun s q =>
        let cnts' := q.2.foldl (fun cs p => if field p.2 24 1 = 1 then cs.set p.1 (Nat.min (cs.getD p.1 0 + 1) 0xFFFF) else cs) cnts
        .more (s.setDesc dn { d with lanes := q.1 }) (.autrun dn vd act (setLanes words q.2) cnts' recs (round + 1)))
    else
      let idle := (lanesOf act).filter (fun i => decide (len i = 0) && decide (field (elem 32 words i) 31 1 = 1))
      let off := (ownPlace lc tk.ea).getD 0
      auOf s tk round (fun r => ((lanesOf act).foldlM (fun (r : Run) i =>
          auFor i (r.write w [(.ls lc (off + 16 * i + 14), 2)] (leBytes 2 (cnts.getD i 0)))) r).map (fun r => ((), r)))
        (fun s _ => .done (s.setDesc dn { d with lanes := idle.foldl (fun t i => Tab.set {} t i {}) d.lanes })
          [.v vd (actMask act 32) (setLanes words (idle.map (fun i => (i, d.start))))] 0))

/-! ### Transition maps (R275 to R277) -/

/-- A range of `n` bytes lies in a local store that `ea` names. -/
def inStore (lc : Nat) (ea : Word) (n : Nat) : Bool :=
  match placeOf lc ea with
  | some (.ls _ off) => decide (off + n ≤ lsSize)
  | _ => false

/-- `mapinit` (R275). -/
def execMapinit (h : Hd) (p : Pred) (dn : Reg8) (vd ra : Reg) (s : State) : Result :=
  let ea := s.slot.opA ra.val
  .next (s.issueLong h false false
    (firstTrap [s.descChk dn.val, if inStore s.focus.lc ea 196 && decide (ea.toNat % 4 = 0) then none else some (s.fault .protection ea)])
    (wordOf (.mapinit h p dn vd ra)) ea 0
    { task := some (.mapinit dn.val vd.val (s.slot.act p)), ea := ea })

/-- A descriptor of KIND PDA raises AUT_TABLE at the image base (R275, R276). -/
def Desc.fsaChk (d : Desc) : Au Unit := if d.pda then .error (.bad .autTable (BitVec.ofNat 64 d.base) 0) else .ok ()

/-- The states of a start-set record, its words read line by line and checked (R275). -/
def Run.startSet (w : Who) (d : Desc) (ea : Word) (r : Run) : Au (List Nat × Run) := do
  let p := (placeOf r.s.focus.lc ea).getD (.glob 0)
  let bad {α : Type} (k : Nat) : Au α := .error (.bad .autTable (ea + BitVec.ofNat 64 (4 * k)) 0)
  d.fsaChk
  let (b, r1) ← auFor 0 (r.read w [(p, 4)])
  let n := leNat b
  if n = 0 ∨ 48 < n then bad 0
  else do
    let (bs, r2) ← auFor 0 (Run.readLines w (lineSteps [(p.plus 4, 4 * n)]) r1)
    let ss := (List.range n).map (fun k => fieldAt bs (4 * k) 4)
    match (List.range n).find? (fun k => decide (d.states ≤ ss.getD k 0) || (ss.take k).contains (ss.getD k 0)) with
    | some k => bad (k + 1)
    | none => .ok (ss, r2)

def State.perfMapinit (s : State) (tk : Task) (dn vd : Nat) (act : PReg) : Perf :=
  s.useDesc dn 0 (fun d => auOf s tk 0 (Run.startSet (s.unitWho 10 tk.nan) d tk.ea) (fun s ss =>
    .done s [.v vd (actMask act 32) (vecOf 32 ((List.range 48).map (fun i => ss.getD i stUnres)))] 0))

/-- `maprun` (R276). DEDUCED (log 69): RC is read again when it rejoins. -/
def execMaprun (h : Hd) (p : Pred) (dn : Reg8) (vd va rb rc : Reg) (s : State) : Result :=
  let t := s.slot
  let xb := t.opB rb.val
  let n := (t.rx rc.val).toNat
  let (a, prog) := match t.stopped with
    | [] => (vecOf 32 ((toElems 32 (t.rv va.val)).map (fun x => field x 0 22)), 0)
    | e :: _ => (e.a, e.prog)
  .next (s.issueLong h false false
    (firstTrap [s.descChk dn.val, if decide (n ≤ lsSize) && inStore s.focus.lc xb n then none else some (s.fault .protection xb)])
    (wordOf (.maprun h p dn vd va rb rc)) 0 xb { task := some (.maprun dn.val vd.val (s.actOf p) a n prog), ea := xb })

/-- One byte of a `maprun` over the active lanes (R276). -/
def Run.mapRound (w : Who) (d : Desc) (p : Place) (act : PReg) (states : VReg) (r : Run) : Au (VReg × Run) := do
  d.fsaChk
  let (b, r1) ← auFor 0 (r.read w [(p, 1)])
  let (ws, r2) ← (lanesOf act).foldlM (fun (q : List (Nat × Nat) × Run) i =>
    ((q.2.move w i d (field (elem 32 states i) 0 22) (leNat b) 0 0).map (fun x => (q.1 ++ [(i, x.1.next)], x.2)) : Au (List (Nat × Nat) × Run))) ([], r1)
  .ok (setLanes states ws, r2)

def State.perfMaprun (s : State) (tk : Task) (dn vd : Nat) (act : PReg) (states : VReg) (len round : Nat) : Perf :=
  let p := (placeOf s.focus.lc tk.ea).getD (.glob 0)
  let w := s.unitWho 10 tk.nan
  s.useDesc dn round (fun d =>
    if len ≤ round then auOf s tk round (fun r => d.fsaChk.map (fun u => (u, r))) (fun s _ => .done s [.v vd (actMask act 32) states] 0)
    else auOf s tk round (Run.mapRound w d (p.plus round) act states) (fun s v => .more s (.maprun dn vd act v len (round + 1))))

/-- The lanes of `compose` (R277). -/
def composeLane (vb vs : VReg) (a : Nat) : Nat :=
  if a = stDead ∨ a = stUnres then a
  else
    match (List.range 48).find? (fun j => decide (field (elem 32 vs j) 0 22 = a)) with
    | some j => field (elem 32 vb j) 0 22
    | none => stUnres

/-- `compose` (R277). -/
def execCompose (h : Hd) (p : Pred) (vd va vb vs : Reg) (s : State) : Result :=
  let t := s.slot
  let r := vecOf 32 ((toElems 32 (t.rv va.val)).map (fun x => composeLane (t.rv vb.val) (t.rv vs.val) (field x 0 22)))
  .next (s.issueLong h false false none 0 0 0 { outs := [.v vd.val (actMask (t.act p) 32) r] })

/-- A lane word meets a query (R278). -/
def queryMeets (q : Query) (w : Nat) : Bool :=
  match q with
  | .unres => decide (field w 0 22 = stUnres)
  | .acc => decide (field w 22 1 = 1)
  | .dead => decide (field w 0 22 = stDead)
  | .ovf => decide (field w 23 1 = 1)

/-- `autq` (R278). -/
def execAutq (h : Hd) (q : Query) (kd : Reg8) (va : Reg) (s : State) : Result :=
  let v := s.slot.rv va.val
  .next (s.issueLong h false false none 0 0 0 { outs := [.k kd.val (BitVec.allOnes 48) (predOf (fun i => queryMeets q (elem 32 v i)))] })

end Sys2Proof.Machine
end

