-- ==== Sys2Proof/Machine/Control.lean ====
section
/-! DEFINITION. Control transfers, regions, `nop`, `yield` and the trap instructions (02 R22, R23, R34; 03 R48, R51; 05 R100 to R102,
R115, R123, R124; 16 R329 to R332). -/

namespace Sys2Proof.Machine

/-- `br.cond` (R123). -/
def execBr (h : Hd) (c : Cond) (ra rb : Reg) (off : Word) (s : State) : Result :=
  let t := s.slot
  .next (s.issueJump h (if condHolds c (t.rx ra.val) (t.rx rb.val) then some (t.pc + off) else none))
/-- `jmp` (R123). -/
def execJmp (h : Hd) (off : Word) (s : State) : Result := .next (s.issueJump h (some (s.slot.pc + off)))
/-- `jmpr` (R123). -/
def execJmpr (h : Hd) (ra : Reg) (s : State) : Result := .next (s.issueJump h (some (s.slot.rx ra.val)))

/-- The window after a `call` with return address `link` (R100, R124). -/
def Slot.rotate (t : Slot) (link : Word) : Slot :=
  let t1 := t.wx 31 link
  let t2 := { t1 with older := t1.older ++ [t1.inLocal], depth := t1.depth + 1 }
  (t2.wxs 8 (t1.rxs 24 8)).wxs 16 (List.replicate 16 0)

/-- The window after a `ret` to a resident window (R100). -/
def Slot.rotateBack (t : Slot) : Slot :=
  let t1 := { t with older := t.older.dropLast, depth := t.depth - 1 }
  (t1.wxs 24 (t.rxs 8 8)).wxs 8 (t.older.getLastD [])

/-- The checks of a call to `a` (R101, R123), in the order target, depth, spill limit: for a call that breaks several, the spec does not say
which is reported (R124, log 62). -/
def State.callChk (s : State) (a : Word) : Option Trap :=
  let t := s.slot
  if badTarget a then some (s.fault .illegalFormat a)
  else if t.depth = 65535 then some (s.fault .protection 0)
  else if t.older.length = 3 ∧ t.spillLimit < t.spillTop + 128 then some (s.fault .protection (selfAddr t.spillTop))
  else none

/-- A call to `a`: the spill of the oldest window first, if four are resident (R101), then the rotation and the new region. -/
def State.doCall (s : State) (h : Hd) (a : Word) : State :=
  s.issueEnd h false false (s.callChk a) (fun s =>
    if s.slot.older.length = 3 then s.mod (fun t => { t with wait := .spill })
    else
      let link := s.slot.pc + BitVec.ofNat 64 h.len.bytes
      (s.closeGroup.mod (fun t => { t.rotate link with pc := a })).startRegion a 0xFFFE)

/-- `call` (R124). -/
def execCall (h : Hd) (off : Word) (s : State) : Result := .next (s.doCall h (s.slot.pc + off))
/-- `callr` (R124). -/
def execCallr (h : Hd) (ra : Reg) (s : State) : Result := .next (s.doCall h (s.slot.rx ra.val))

/-- `ret`: a fill first, if no older window is resident (R101), then the rotation back and the new region (R102, R124). -/
def execRet (h : Hd) (s : State) : Result :=
  let t := s.slot
  let a := t.rx 15
  let chk := if t.depth = 0 then some (s.fault .protection 0)
    else if badTarget a then some (s.fault .illegalFormat a) else none
  .next (s.issueEnd h false false chk (fun s =>
    if s.slot.older.isEmpty then s.mod (fun t => { t with wait := .fill })
    else (s.closeGroup.mod (fun t => { t.rotateBack with pc := a })).startRegion a 0x1FF00FE))

/-- `idem` (R23, R45). -/
def execIdem (h : Hd) (mask : BitVec 32) (s : State) : Result :=
  .next (s.issueEnd h false false none (fun s =>
    let s1 := s.closeGroup
    let pc := nextPc s1.slot.pc h.len
    (s1.mod (fun t => { t with pc := pc, idemAt := s1.codeLog.length })).startRegion pc mask))

/-- `trapf` (R34, R331). -/
def execTrapf (h : Hd) (s : State) : Result :=
  .next (s.issueShort h false
    (if s.raised = 0 then none else some { s.fault .arith 0 with reason := s.raised.toNat }) id)

/-- `trap`: its image PC is the next instruction (R330). -/
def execTrap (h : Hd) (code : BitVec 16) (s : State) : Result :=
  .next (match s.slot.gate h false true false with
    | some k => s.takeTrap (s.fault k 0)
    | none => s.takeTrap { s.fault .trap 0 with code := code.toNat, next := some (nextPc s.slot.pc h.len) })

/-- `brk` (R332, R340). -/
def execBrk (h : Hd) (code : BitVec 16) (s : State) : Result :=
  .next (match s.slot.gate h false true false with
    | some k => s.takeTrap (s.fault k 0)
    | none => (s.mod (fun t => { t with defbrk := false })).takeTrap
        { s.fault .break 0 with code := code.toNat, reason := if s.slot.defbrk then 2 else 1 })

/-- `nop` (R51). -/
def execNop (h : Hd) (s : State) : Result := .next (s.issueShort h false none id)

/-- `yield` (R115); in supervisor code and on the service slot it raises PROTECTION (R98, R327). -/
def execYield (h : Hd) (s : State) : Result :=
  .next (s.issueEnd h false false (if s.slot.sup || decide (8 ≤ s.focus.pos) then some (s.fault .protection 0) else none) (fun s =>
    (s.closeGroup.mod (fun t => { t with
      pc := nextPc t.pc h.len, yields := Nat.min (t.yields + 1) (2 ^ 31 - 1), sliceCount := 0 })).saveImage))

/-- A FORMAT_MISMATCH of a delivery: the fault address is the header (R194). -/
def State.mismatch (s : State) (m : Msg) : Trap := { s.fault .formatMismatch m.header with pc := s.slot.pc }

/-- Delivers the message that the slot's await word names, before its first instruction, and starts the region there; without a
message, or before a rebase of the clocks, the slot waits (R107, R180, R194, R329). -/
def State.deliverAwait (s : State) (a : Await) : State :=
  let t := s.slot
  match (if s.here.clockFull then none else s.peek s.focus.ctx s.focus.lc a) with
  | none => s.mod (fun t => { t with wait := .deliver })
  | some m =>
    if m.nan ≠ t.nanread then (s.mod (fun t => { t with wait := .none })).deliverTrap (s.mismatch m)
    else
      ((s.takeMsg s.focus.ctx s.focus.lc s.party m).mod (fun t => { t.receive a.xd m with await := none, wait := .none })).startRegion
        t.pc (t.rmask ||| recvMask a.xd)

/-- What `eret` refuses in a trap frame: ILLEGAL_FIELD at the first failing field, then ILLEGAL_FORMAT for the PC (R329). A frame that
the tables do not map fails at its first byte (log 16). -/
def State.frameChk (s : State) (frame : Nat) : Option Trap :=
  match s.peekBytes s.focus.ctx frame 8192 with
  | none => some (s.fault .illegalField (BitVec.ofNat 64 frame))
  | some bs =>
    match Slot.imageBad bs with
    | some o => some (s.fault .illegalField (BitVec.ofNat 64 (frame + o)))
    | none =>
      let pc := BitVec.ofNat 64 (fieldAt bs 6832 8)
      if badTarget pc then some (s.fault .illegalFormat pc) else none

/-- Resumes the slot from the trap frame at `frame` (R329). -/
def State.returnFrom (s : State) (frame : Nat) : State :=
  match s.frameChk frame with
  | some tr => s.takeTrap tr
  | none =>
    let bs := (s.peekBytes s.focus.ctx frame 8192).getD []
    let s1 := s.closeGroup.mod (fun t => { t.restore bs with sup := false })
    let s2 := s1.mod (fun t => { t with progress := (t.stopped.head?.map (·.prog)).getD 0 })
    let t := s2.slot
    match t.await with
    | none => s2.startRegion t.pc t.rmask
    | some a => (s2.startRegion t.pc t.rmask).deliverAwait a

/-- `eret` (R329). -/
def execEret (h : Hd) (s : State) : Result :=
  .next (s.issueEnd h false true none (fun s =>
    let frame := s.here.trapFrame s.focus.lc s.focus.pos
    (s.foldGlobal s.focus.ctx frame 8192).returnFrom frame))

end Sys2Proof.Machine
end

