-- ==== Sys2Proof/Machine/Sync.lean ====
section
/-! DEFINITION. Messages, watches, the barrier, count cells, atomics, reductions, `spawn` and `migrate` (08 R192 to R207). -/

namespace Sys2Proof.Machine

/-- The kinds whose channels may hold messages from several sources (R24). -/
def manySources : Kind → Bool
  | .msg | .watch | .node | .deadlock | .trapnote => true
  | .count | .bar | .copydone | .draindone | .xinvdone | .timer => false

/-- `send` (R192). -/
def execSend (h : Hd) (rd ra rb : Reg) (s : State) : Result :=
  let t := s.slot
  let dst := (t.rx ra.val).toNat % 1024
  let tag := field (t.rx rb.val).toNat 32 16
  let chk := if s.here.cr.det && (decide (2 ^ 15 ≤ tag) || s.sendClash dst) then some (s.fault .conflict 0) else none
  .next (s.issueLong h false false chk 0 0 0 { task := some (.send rd.val dst tag (t.rxs (rb.val + 1) 7)), remote := 1 })

/-- The slot has sent to `dst` in this phase: a send that is not placed sends nothing (R191, R192). -/
def State.markSent (s : State) (dst : Nat) : State :=
  s.modMe (fun c => { c with sentTo := Tab.set 0 c.sentTo dst (s.here.phase * 16 + s.focus.pos + 1) })

/-- The send step and its status (R172, R186, R189, R192, R421). A message to an endpoint has the next SEQ of its channel there (R188, log 63). -/
def State.perfSend (s : State) (k : Task) (rd dst tag : Nat) (words : List Word) : Perf :=
  let f := s.focus
  let w := s.who k.nan
  let m : Msg := { src := f.lc, kind := .msg, nan := s.slot.nanread, tag := tag, words := words }
  let answer (s : State) (st : Nat) : Perf := .done (s.tick f.ctx s.party 0) [.x rd (BitVec.ofNat 64 st)] 0
  if s.paused w then .wait
  else if 0x300 ≤ dst ∧ dst ≤ 0x3BF then
    let e := Tab.get {} s.endpoints (dst - 0x300)
    let q := Tab.get 0 e.seqs (coreKey f.ctx f.lc)
    if e.state = .run then
      answer { s.markSent dst with
        endpoints := Tab.set {} s.endpoints (dst - 0x300) { e with seqs := Tab.set 0 e.seqs (coreKey f.ctx f.lc) (q + 1) }
        outbox := s.outbox ++ [.message (dst - 0x300) (({ m with seq := q % 2 ^ 15 } : Msg).header :: words)] } 0
    else answer s 3
  else if 767 < dst then answer s 2
  else if s.msgRoom f.ctx dst then answer ((s.markSent dst).append f.ctx dst m (s.clock f.ctx s.party)) 0
  else answer s 1

/-- The await word of a `recv` or `poll` (R105, R193). -/
def Slot.awaitFor (t : Slot) (kind : Kind) (src : Option Reg) (rd : Reg) : Await :=
  { kind := kind, src := src.map (fun r => (t.rx r.val).toNat % 1024), xd := rd.val }

/-- The checks that `recv` and `poll` share (R24, R98, R195, R327): `sup` says whether supervisor code is refused. -/
def State.takeChk (s : State) (sup : Bool) (kind : Kind) (src : Option Reg) : List (Option Trap) :=
  [if decide (8 ≤ s.focus.pos) || (sup && s.slot.sup) then some (s.fault .protection 0) else none,
   if s.here.cr.det && src.isNone && manySources kind then some (s.fault .conflict 0) else none]

/-- A plain `recv` (R24, R193). The group closes before the live set is saved, so that a register that a long instruction of the same group
writes is saved as delivered: the rule does not say (DESIGN CHOICE, log 82). -/
def execRecv (h : Hd) (kind : Kind) (src : Option Reg) (rd : Reg) (mask : BitVec 32) (s : State) : Result :=
  let a := s.slot.awaitFor kind src rd
  let depth := if s.slot.depth = 0 then none else some (s.fault .illegalGroup 0)
  .next (s.issueEnd h true false (firstTrap ((s.takeChk true kind src).insertIdx 1 depth)) (fun s =>
    if s.here.poolFree.isEmpty then s.holdPool
    else
      let s1 := s.closeGroup
      let s2 := if s1.holdsUnits then s1.mod (fun t => { t with bind := s1.focus.lc }) else s1
      let t := s2.slot
      match s2.takeRecord (t.record (nextPc t.pc h.len) mask 1 (some a)) with
      | some (i, s3) => s3.freeSlot.suspend s.focus.ctx s.focus.lc (t.entry i (some a))
      | none => s2))

/-- A take that holds its slot until a message comes: `recv.keep`, and `poll` in deterministic mode. The instruction counts as
unissued until then, with its await word published (R25, R194, R195, R334). -/
def State.holdTake (s : State) (a : Await) (deliver : Msg → State → State) : State :=
  match s.peek s.focus.ctx s.focus.lc a with
  | none => if s.slot.await = some a then s else (s.startWait s.focus.ctx s.slot.cid).mod (fun t => { t with await := some a })
  | some m =>
    let s1 := s.mod (fun t => { t with await := none })
    if m.nan ≠ s.slot.nanread then s1.takeTrap (s1.mismatch m)
    else deliver m (s1.takeMsg s.focus.ctx s.focus.lc s.party m)

/-- `recv.keep` (R25, R193, R194). Its region's inputs are every register (R80). -/
def execRecvKeep (h : Hd) (kind : Kind) (src : Option Reg) (rd : Reg) (s : State) : Result :=
  let a := s.slot.awaitFor kind src rd
  .next (s.issueEnd h true false (firstTrap (s.takeChk true kind src)) (fun s =>
    s.holdTake a (fun m s =>
      let s1 := s.closeGroup
      let pc := nextPc s1.slot.pc h.len
      (s1.mod (fun t => { t.receive rd.val m with pc := pc })).startRegion pc 0xFFFFFFFE)))

/-- The results of a take: header and payload in xd to xd + 7. -/
def takeOuts (rd : Nat) (ws : List Word) : List Out := ws.zipIdx.map (fun p => .x (rd + p.2) p.1)

/-- `poll` (R195). -/
def execPoll (h : Hd) (kind : Kind) (src : Option Reg) (rd : Reg) (s : State) : Result :=
  let a := s.slot.awaitFor kind src rd
  let chk := firstTrap (s.takeChk false kind src)
  .next (if s.here.cr.det then
      match s.slot.gate h true false false with
      | some k => s.takeTrap (s.fault k 0)
      | none =>
        match chk with
        | some tr => s.takeTrap tr
        | none =>
          if s.slot.tasks.isEmpty then
            s.holdTake a (fun m s => s.mod (fun t => (t.addLong s.cycle 0 0 0 { outs := takeOuts rd.val m.deliver }).retire h))
          else s.drainWait
    else s.issueLong h false false chk 0 0 0 { task := some (.poll a) })

/-- A class I trap found when the oldest entry of the queue is performed, nothing younger having issued: the instruction leaves the
group and the trap is precise at it (R50, R194). -/
def State.trapAt (s : State) (k : Task) (tr : State → Trap) : State :=
  let s1 := s.mod (fun t => { t with
    tasks := t.tasks.tail, longs := t.longs.filter (fun l => decide (l.id ≠ k.id)), pc := k.pc, parked := false })
  s1.takeTrap (tr s1)

/-- The take step of a free-mode `poll` (R172, R194, R195). -/
def State.perfPoll (s : State) (k : Task) (a : Await) : Perf :=
  if s.here.clockFull then .wait
  else
  match s.peek s.focus.ctx s.focus.lc a with
  | none => .done s (takeOuts a.xd (BitVec.allOnes 64 :: List.replicate 7 0)) 0
  | some m =>
    if m.nan ≠ s.slot.nanread then .hold (s.trapAt k (fun s => s.mismatch m))
    else .done (s.takeMsg s.focus.ctx s.focus.lc s.party m) (takeOuts a.xd m.deliver) 0

/-- Sets or clears a watch bit at its perform step (R196). -/
def State.issueWatch (s : State) (h : Hd) (ra : Reg) (on : Bool) : State :=
  let ea := s.slot.rx ra.val
  let ok := (ownPlace s.focus.lc ea).any (fun off => decide (off % 8 = 0))
  s.issueLong h false false (if ok then none else some (s.fault .protection ea)) 0 0 0 { task := some (.watch on), ea := ea }
def execWatch (h : Hd) (ra : Reg) (s : State) : Result := .next (s.issueWatch h ra true)
def execUnwatch (h : Hd) (ra : Reg) (s : State) : Result := .next (s.issueWatch h ra false)
def State.perfWatch (s : State) (k : Task) (on : Bool) : Perf :=
  .done (s.modMe (fun c => { c with watch := Tab.set false c.watch (((ownPlace s.focus.lc k.ea).getD 0) / 8) on })) [] 0

/-- `bar` (R197); in deterministic mode a continuation outside a live loop may not arrive (R368). -/
def execBar (h : Hd) (s : State) : Result :=
  .next (s.issueLong h false false
    (if s.here.cr.det && s.here.liveLoop.isSome && s.slot.iter.isNone then some (s.fault .conflict 0) else none) 0 0 0
    { task := some .bar, remote := 1 })
def State.perfBar (s : State) (k : Task) : Perf :=
  .done (s.modMe (fun c => if s.here.liveLoop.isSome then { c with lateArrivals := c.lateArrivals ++ [k.nan] }
    else { c with arrivals := c.arrivals ++ [k.nan] })) [] 0

/-- The address rule of a count cell (R199): PROTECTION with the address. -/
def State.cellChk (s : State) (ea : Word) : Option Trap :=
  if ea.toNat % 8 ≠ 0 ∨ 2 ^ 56 ≤ ea.toNat then some (s.fault .protection ea) else none

/-- The operation and type code of a reduction in EOP (R182, log 17). -/
def ropCode : ROp → Nat
  | .add => 0 | .and => 1 | .or => 2 | .xor => 3 | .min => 4 | .max => 5 | .minu => 6 | .maxu => 7
def redCode (op : ROp) (ty : ETy) : Nat := 1 + ropCode op * 4 + (if isFlt ty then 2 else 0) + (if widthOf ty = 64 then 1 else 0)
def pfxCode : Nat := 0xF2

/-- `carrive` (R199). -/
def execCarrive (h : Hd) (ra : Reg) (s : State) : Result :=
  let ea := s.slot.rx ra.val
  .next (s.issueLong h false false (s.cellChk ea) 0 0 0 { task := some .carrive, ea := ea, remote := 1 })
def State.perfCarrive (s : State) (k : Task) : Perf :=
  perfOf (s.gatherAt (s.who k.nan) (redCode .add .i32) (.glob k.ea.toNat) 4 .arrive 1) 0 0 0 (fun r => .done r.1 [] r.2)

/-- `cwatch` (R200). -/
def execCwatch (h : Hd) (ra : Reg) (s : State) : Result :=
  let ea := s.slot.rx ra.val
  .next (s.issueLong h false false (firstTrap [s.cellChk ea, s.requestChk .count]) 0 0 0
    { task := some .cwatch, ea := ea, remote := 1 })

/-- The registration of a COUNT request; a ninth holds the slot (R200). -/
def State.perfCwatch (s : State) (k : Task) : Perf :=
  let f := s.focus
  let w := s.who k.nan
  if 8 ≤ (s.here.cwatches.filter (fun q => decide (q.lc = f.lc))).length then .hold s
  else if s.paused w then .wait
  else
    perfOf (do
      let gs ← s.check w .r [(.glob k.ea.toNat, 8)]
      s.loopChk w k.ea
      let s1 ← s.settleLines f.ctx gs
      let v := s1.segNat gs
      let (tk, s2) := (s1.readSegs gs).1.ask .count
      let q : CWatch := { lc := f.lc, cell := k.ea, nan := k.nan, ticket := tk }
      let q := q.test v s1.here.phase
      .ok ((s2.modCtx f.ctx (fun c => { c with cwatches := c.cwatches ++ [q] })).answerCwatch f.ctx q)) 0 0 0
      (fun s' => .done (s'.tick f.ctx s.party 0) [] 0)

/-- `guard` (R201). DEDUCED (log 69): its third scalar operand RC has no field of a stopped entry, so a
rejoining guard reads it again. -/
def execGuard (h : Hd) (ra rb rc : Reg) (target : BitVec 32) (s : State) : Result :=
  let t := s.slot
  let base := t.opB rb.val
  let len := t.rx rc.val
  let bad := decide (base.toNat % 48 ≠ 0) || decide (len.toNat % 48 ≠ 0) || decide (len = 0) || decide (2 ^ 56 < base.toNat + len.toNat)
  let a := t.opA ra.val
  .next (s.issueLong h false false (firstTrap [s.cellChk a, if bad then some (s.fault .protection 0) else none])
    (wordOf (.guard h ra rb rc target)) a base { task := some (.guard base len target.toNat), ea := a, remote := 1 })
def State.perfGuard (s : State) (k : Task) (base len : Word) (target : Nat) : Perf :=
  let gs := s.here.guardsNext
  if s.paused (s.who k.nan) then .wait
  else if 256 ≤ gs.length ∨ gs.any (fun g => overlap g.base.toNat g.len.toNat base.toNat len.toNat) then
    .trap s (stepTrap .protection 0 0 0)
  else
    let g : Guard := { cell := k.ea, base := base, len := len, target := target, lc := s.focus.lc }
    .done ((s.modHere (fun c => { c with guardsNext := c.guardsNext ++ [g] })).tick s.focus.ctx s.party 0) [] 0

/-- The new value of an atomic of `n` bytes (R202). -/
def amoFn (op : AmoOp) (n old b : Nat) : Nat :=
  match op with
  | .swap => b % 2 ^ (8 * n)
  | .rop o => (redFn o (if n = 4 then .i32 else .i64) old (b % 2 ^ (8 * n))).1

/-- `amo` (R202). -/
def execAmo (h : Hd) (op : AmoOp) (size : Size) (rd ra rb : Reg) (s : State) : Result :=
  let ea := s.slot.rx ra.val
  .next (s.issueLong h false false (s.formChk ea (sizeBytes size)) 0 0 0
    { task := some (.amo op size rd.val (s.slot.rx rb.val)), ea := ea, remote := remoteOf s.focus.lc ea })
def State.perfAmo (s : State) (k : Task) (op : AmoOp) (size : Size) (rd : Nat) (b : Word) : Perf :=
  let n := sizeBytes size
  perfOf (s.rmwAt (s.who k.nan) (.atomic (sizeCode size)) (spot s.focus.lc k.ea n)
      (fun old => some (leBytes n (amoFn op n (leNat old) b.toNat)))) 0 0 0
    (fun r => .done r.1 [.x rd (extend n false (leNat r.2))] 0)

/-- `cas` (R203). -/
def execCas (h : Hd) (size : Size) (rd ra rb rc : Reg) (s : State) : Result :=
  let t := s.slot
  let ea := t.rx ra.val
  .next (s.issueLong h false false (s.formChk ea (sizeBytes size)) 0 0 0
    { task := some (.cas size rd.val (t.rx rb.val) (t.rx rc.val)), ea := ea, remote := remoteOf s.focus.lc ea })
def State.perfCas (s : State) (k : Task) (size : Size) (rd : Nat) (expect new : Word) : Perf :=
  let n := sizeBytes size
  perfOf (s.rmwAt (s.who k.nan) (.atomic (sizeCode size)) (spot s.focus.lc k.ea n)
      (fun old => if leNat old = expect.toNat % 2 ^ (8 * n) then some (leBytes n new.toNat) else none)) 0 0 0
    (fun r => .done r.1 [.x rd (extend n false (leNat r.2))] 0)

/-- `red` (R204); a floating add in deterministic mode is refused at issue (R184). -/
def execRed (h : Hd) (op : ROp) (ty : ETy) (ra rb : Reg) (s : State) : Result :=
  let ea := s.slot.rx ra.val
  let n := widthOf ty / 8
  .next (s.issueLong h false false
    (firstTrap [s.formChk ea n, if s.here.cr.det && isFlt ty && decide (op = .add) then some (s.fault .conflict 0) else none]) 0 0 0
    { task := some (.red op ty (s.slot.rx rb.val)), ea := ea, remote := remoteOf s.focus.lc ea })
def State.perfRed (s : State) (k : Task) (op : ROp) (ty : ETy) (b : Word) : Perf :=
  let n := widthOf ty / 8
  perfOf (s.gatherAt (s.who k.nan) (redCode op ty) ((placeOf s.focus.lc k.ea).getD (.glob 0)) n (.red op ty) (b.toNat % 2 ^ (8 * n)))
    0 0 0 (fun r => .done r.1 [] r.2)

/-- A `pfxadd` of this logical core on `cell` stands in the phase or in a queue (R205). -/
def State.pfxTwice (s : State) (cell : Word) : Bool :=
  s.here.prefixes.any (fun p => decide (p.cell = cell) && decide (p.lc = s.focus.lc)) ||
  (s.slot :: s.siblings).any (fun t => t.tasks.any (fun k =>
    match k.op with
    | .pfxadd _ => decide (k.ea = cell)
    | _ => false))

/-- `pfxadd` (R205). DEDUCED (log 69): the addend, xa+1, is read again when it rejoins. -/
def execPfxadd (h : Hd) (ra : Reg) (s : State) : Result :=
  let t := s.slot
  let ea := t.opA ra.val
  .next (s.issueLong h false false
    (firstTrap [s.cellChk ea, s.requestChk .count, if s.here.cr.det && s.pfxTwice ea then some (s.fault .conflict 0) else none])
    (wordOf (.pfxadd h ra)) ea 0
    { task := some (.pfxadd (t.rx (ra.val + 1))), ea := ea, remote := 1 })

/-- The record of a contribution; a 257th distinct cell in the phase traps (R205). -/
def State.perfPfxadd (s : State) (k : Task) (c : Word) : Perf :=
  let f := s.focus
  let w := s.who k.nan
  let cells := (s.here.prefixes.map (·.cell)).eraseDups
  if s.paused w then .wait
  else if 256 ≤ cells.length ∧ !cells.contains k.ea then .trap s (stepTrap .protection 0 0 0)
  else
    perfOf (do
      let gs ← s.check w .rw [(.glob k.ea.toNat, 8)]
      let cx ← s.detStep w (.engine pfxCode) gs
      .ok (s.setCtx f.ctx cx)) 0 0 0 (fun s1 =>
        let (tk, s2) := s1.ask .count
        let p : Contrib := { cell := k.ea, lc := f.lc, val := c, nan := k.nan, ticket := tk }
        .done ((s2.modHere (fun c => { c with prefixes := c.prefixes ++ [p] })).tick f.ctx s.party 0) [] 0)

/-- The checks of a resume PC (R206). -/
def State.resumeChk (s : State) (pc : Word) : Option Trap := if badTarget pc then some (s.fault .illegalFormat pc) else none

/-- `spawn` (R26, R206). Of a bad binding and a bad resume PC the binding is reported; the rules give no order (DESIGN CHOICE, log 82). -/
def execSpawn (h : Hd) (prio : Fin 4) (ra rb : Reg) (mask : BitVec 32) (s : State) : Result :=
  let t := s.slot
  let b := (t.rx ra.val).toNat
  let bind := if b = 0x3FF ∧ s.here.cr.det = true then s.focus.lc else b
  .next (s.issueLong h false false
    (firstTrap [if 767 < b ∧ b ≠ 0x3FF then some (s.fault .illegalField 0) else none, s.resumeChk (t.rx rb.val)]) 0 0 0
    { task := some (.spawn bind prio.val (t.rx rb.val) (inputMask mask) (t.rk 1) ((maskRegs mask).map t.rx)), remote := 1 })

/-- The queue step of `spawn`; an empty pool holds the slot (R106, R108, R206). -/
def State.perfSpawn (s : State) (k : Task) (bind prio : Nat) (pc : Word) (mask : BitVec 32) (k1 : PReg) (live : List Word) : Perf :=
  let f := s.focus
  if s.paused (s.who k.nan) then .wait
  else
    match s.takeRecord { pc := pc, mask := mask, bind := bind, nan := k.nan, prio := prio, k1 := k1, live := live } with
    | none => .hold (s.poolHold f.ctx f.lc f.pos)
    | some (i, s1) =>
      let (cid, s2) := s1.newCid f.ctx
      let q : QEntry := { ref := i, bind := bind, prio := prio, cid := cid }
      .done ((s2.enqueue f.ctx (if bind = 0x3FF then f.lc else bind) q).tick f.ctx s.party 0) [] 0

/-- The home logical core of an address: its named store, or the leaf's home die and line number (R143). -/
def State.homeOf (s : State) (ea : Word) : Except TrapKind Nat :=
  match placeOf s.focus.lc ea with
  | some (.ls l _) => .ok l
  | _ => (s.leaf s.focus.ctx ea.toNat).map (fun l => 192 * l.home + ea.toNat / 192 % 192)

/-- `migrate` (R27, R207, R327, R374). Its group closes before the live set is saved, as for `recv` (DESIGN CHOICE, log 82). -/
def execMigrate (h : Hd) (ra : Reg) (mask : BitVec 32) (s : State) : Result :=
  let ea := s.slot.rx ra.val
  let prot := decide (8 ≤ s.focus.pos) || s.slot.sup || s.holdsUnits || s.slot.iter.isSome
  .next (s.issueEnd h true false (firstTrap [
      if prot then some (s.fault .protection 0) else none,
      if s.slot.depth = 0 then none else some (s.fault .illegalGroup 0),
      if (placeOf s.focus.lc ea).isNone then some (s.fault .protection ea) else none]) (fun s =>
    match s.homeOf ea with
    | .error k => s.abort { kind := k, pc := s.slot.pc, addr := ea }
    | .ok home =>
      if s.here.poolFree.isEmpty then s.holdPool
      else
        let s1 := s.closeGroup.mod (fun t => { t with bind := home })
        let t := s1.slot
        match s1.takeRecord (t.record (nextPc t.pc h.len) mask 3 none) with
        | some (i, s2) => s2.freeSlot.enqueue s.focus.ctx home (t.entry i none)
        | none => s1))

end Sys2Proof.Machine
end

