-- ==== Sys2Proof/Machine/Streams.lean ====
section
/-! DEFINITION. Rings, copies, tile subscriptions and the steps of the stream harts (15 R302 to R321). -/

namespace Sys2Proof.Machine

/-! ### Rings (R310 to R316) -/

/-- The four slot instructions as steps at the ring's home (R313). -/
inductive RingOp where
  | rsv | take | post | free
  deriving DecidableEq, Repr

/-- Why a ring step is not taken: RING or CONFLICT with its address, a condition that does not hold, a full mailbox. -/
inductive RingStop where
  | ring (a : Word)
  | conflict (a : Word)
  | miss
  | full (dst ch : Nat)
  deriving DecidableEq, Repr

/-- `q` raised over the slots in state `want`, at most `f` times (R313). -/
def advance (st : Nat → Nat) (want n : Nat) : Nat → Nat → Nat
  | 0, q => q
  | f + 1, q => if st (q % n) = want then advance st want n f ((q + 1) % 2 ^ 64) else q

/-- `a − b` modulo 2^64. -/
def subMod (a b : Nat) : Nat := (a + 2 ^ 64 - b) % 2 ^ 64

/-- The slots and the slot bytes of the ring at offset `off` of the store of a logical core (R310). -/
def State.ringGeom (s : State) (ctx lc off : Nat) : Nat × Nat :=
  let g := s.seenNat (s.ctxOf ctx) (lsKey ctx lc (off + 32)) 8
  (2 ^ field g 0 3, field g 16 16 * 48)

/-- The ATTACH word of a ring (R310). -/
def State.ringAttach (s : State) (ctx lc off : Nat) : Nat := s.seenNat (s.ctxOf ctx) (lsKey ctx lc (off + 40)) 8

/-- The slot index of an address in the ring at offset `off` of the store of `own`. -/
def slotIndex (lc own off n b : Nat) (slot : Word) : Option Nat :=
  match placeOf lc slot with
  | some (.ls l o) =>
    if l = own ∧ off + 192 ≤ o ∧ 0 < b ∧ (o - off - 192) % b = 0 ∧ (o - off - 192) / b < n then some ((o - off - 192) / b) else none
  | _ => none

/-- The DET word after an operation in a role by `lc`: none where another logical core has that role in this phase (R314). -/
def detRole (det phase lc : Nat) (consumer : Bool) : Option Nat :=
  let d := if field det 32 16 = phase then det else phase * 2 ^ 32 + 0x3FF03FF
  let sh := if consumer then 16 else 0
  let cur := field d sh 10
  if cur = 0x3FF ∨ cur = lc then some (d - cur * 2 ^ sh + lc * 2 ^ sh) else none

/-- Replaces the header of the ring at offset `off` of the store of `own`, and places the WATCH of each word that changes where the step is a
peer's or a hart's (R196, R313). -/
def State.putHeader (s : State) (w : Who) (own off : Nat) (bs : List Byte) : Acc State := do
  let key := lsKey w.ctx own off
  let old := Mem.bytes s.mem key 192
  let s1 := { s with mem := Mem.write s.mem key bs }
  match w.watchSource own with
  | none => .ok s1
  | some l =>
    (List.range 24).foldlM (fun s i =>
      if fieldAt old (8 * i) 8 = fieldAt bs (8 * i) 8 then (.ok s : Acc State)
      else s.placeWatch w.ctx own l w.nan (s.clock w.ctx w.party) (off / 8 + i)) s1

/-- A slot step on a ring at offset `off` of the store of `own`, made for `who`: the new state and the slot's address (R313, R314). -/
def State.ringStep (s : State) (who : Who) (own off : Nat) (base slot : Word) (kind : RingOp) : Except RingStop (State × Word) :=
  let ctx := who.ctx
  let lc := who.lc
  if !(s.core ctx own).rings.contains off then .error (.ring base)
  else
    match s.foldLine ctx (lsKey ctx own off) with
    | .error (.full d ch) => .error (.full d ch)
    | .error _ => .error .miss
    | .ok s =>
      let key := lsKey ctx own off
      let w (i : Nat) : Nat := s.physNat (key + 8 * i) 8
      let (pub, rsv, take, free, att, det) := (w 0, w 1, w 2, w 3, w 5, w 6)
      let (n, b) := s.ringGeom ctx own off
      let entry (i : Nat) : Nat := s.physNat (key + 64 + 2 * i) 2
      let named := decide (kind = .post) || decide (kind = .free)
      match (if named then slotIndex lc own off n b slot else some ((if kind = .rsv then rsv else take) % n)) with
      | none => .error (.ring slot)
      | some i =>
        if !who.hart && ((decide (kind = .rsv) && decide (att ≠ 0) && decide (field att 63 1 = 0)) || (decide (kind = .take) && decide (field att 63 1 = 1))) then
          .error (.ring base)
        else
          let c := s.ctxOf ctx
          match (if c.cr.det then detRole det c.phase lc (decide (kind = .take) || decide (kind = .free)) else some det) with
          | none => .error (.conflict base)
          | some det' =>
            if kind = .rsv ∧ n ≤ subMod rsv free then .error .miss
            else if kind = .take ∧ subMod pub take = 0 then .error .miss
            else if named ∧ (entry i / 2 ^ 14 ≠ (if kind = .post then 1 else 3) ∨ entry i % 1024 ≠ lc) then .error (.ring slot)
            else
              let e := match kind with
                | .rsv => 2 ^ 14 + lc
                | .take => 3 * 2 ^ 14 + lc
                | .post => 2 * 2 ^ 14 + lc
                | .free => 0x3FF
              let st (j : Nat) : Nat := (if j = i then e else entry j) / 2 ^ 14
              let pub' := if kind = .post then advance st 2 n (subMod rsv pub) pub else pub
              let free' := if kind = .free then advance st 0 n (subMod take free) free else free
              let rsv' := if kind = .rsv then (rsv + 1) % 2 ^ 64 else rsv
              let take' := if kind = .take then (take + 1) % 2 ^ 64 else take
              let bs := leBytes 8 pub' ++ leBytes 8 rsv' ++ leBytes 8 take' ++ leBytes 8 free' ++ leBytes 8 (w 4) ++ leBytes 8 att ++
                leBytes 8 det' ++ leBytes 8 (w 7) ++ (List.range 64).flatMap (fun j => leBytes 2 (if j = i then e else entry j))
              match s.putHeader who own off bs with
              | .error (.full d ch) => .error (.full d ch)
              | .error _ => .error .miss
              | .ok s' => .ok (s'.tick ctx who.party 0, base + BitVec.ofNat 64 (192 + i * b))

/-- Issues one of the four slot instructions; RING is precise at issue where the operand names no local store (R316). -/
def State.issueRing (s : State) (h : Hd) (ra : Reg) (op : TaskOp) : State :=
  let ea := s.slot.rx ra.val
  let chk := match placeOf s.focus.lc ea with
    | some (.ls ..) => none
    | _ => some (s.fault .ring ea)
  s.issueLong h false false chk 0 0 0 { task := some op, ea := ea, remote := remoteOf s.focus.lc ea }

/-- The step of a slot instruction; RING on an own ring is precise at the instruction, behind which nothing has issued (R313 to R316). -/
def State.perfRing (s : State) (tk : Task) (kind : RingOp) (slot : Word) (res : Word → List Out) : Perf :=
  let f := s.focus
  match placeOf f.lc tk.ea with
  | some (.ls own off) =>
    if s.paused (s.who tk.nan) then .wait
    else if own ≠ f.lc ∧ !s.placed f.ctx own then .refuse .lateRefusal tk.ea 0 0 0
    else if s.outsideLoop then .refuse .conflict tk.ea 0 0 0
    else
      match s.ringStep (s.who tk.nan) own off tk.ea slot kind with
      | .ok (s', a) => .done s' (res a) 0
      | .error .miss => if s.here.cr.det then .hold s else .done (s.tick f.ctx s.party 0) (res 0) 0
      | .error (.ring a) => if own = f.lc then .hold (s.trapAt tk (fun s => s.fault .ring a)) else .refuse .ring a 0 0 0
      | .error (.conflict a) => .refuse .conflict a 0 0 0
      | .error (.full d ch) => .full d ch
  | _ => .wait

def execSlrsv (h : Hd) (rd ra : Reg) (s : State) : Result := .next (s.issueRing h ra (.slrsv rd.val))
def execSltake (h : Hd) (rd ra : Reg) (s : State) : Result := .next (s.issueRing h ra (.sltake rd.val))
def execSlpost (h : Hd) (ra rb : Reg) (s : State) : Result := .next (s.issueRing h ra (.slpost (s.slot.rx rb.val)))
def execSlfree (h : Hd) (ra rb : Reg) (s : State) : Result := .next (s.issueRing h ra (.slfree (s.slot.rx rb.val)))
def State.perfSlrsv (s : State) (tk : Task) (rd : Nat) : Perf := s.perfRing tk .rsv 0 (fun a => [.x rd a])
def State.perfSltake (s : State) (tk : Task) (rd : Nat) : Perf := s.perfRing tk .take 0 (fun a => [.x rd a])
def State.perfSlpost (s : State) (tk : Task) (slot : Word) : Perf := s.perfRing tk .post slot (fun _ => [])
def State.perfSlfree (s : State) (tk : Task) (slot : Word) : Perf := s.perfRing tk .free slot (fun _ => [])

/-- `ringinit` (R312). -/
def execRinginit (h : Hd) (ra rb rc : Reg) (s : State) : Result :=
  let t := s.slot
  let ea := t.rx ra.val
  let n := (t.rx rb.val).toNat
  let b := (t.rx rc.val).toNat
  let off := ownPlace s.focus.lc ea
  let count := decide (n = 0) || [2, 4, 8, 16, 32, 64].contains n
  let size := decide (n = 0) || (decide (b % 48 = 0) && decide (48 ≤ b) && decide (b ≤ 49152))
  .next (s.issueLong h false false (firstTrap [
      if off.any (fun o => decide (o % 192 = 0)) then none else some (s.fault .protection ea),
      if count && size then none else some (s.fault .illegalField 0),
      if n ≠ 0 ∧ lsSize < off.getD 0 + 192 + n * b then some (s.fault .protection ea) else none]) 0 0 0
    { task := some (.ringinit n b), ea := ea })

/-- The header that `ringinit` writes (R312). -/
def ringHeader (n b : Nat) : List Byte :=
  zeros 32 ++ leBytes 8 (Nat.log2 n + at' 16 (b / 48)) ++ zeros 8 ++ leBytes 8 0x3FF03FF ++ zeros 8 ++
  (List.range 64).flatMap (fun i => leBytes 2 (if i < n then 0x3FF else 0))

/-- The registration step of `ringinit` (R312). -/
def State.perfRinginit (s : State) (tk : Task) (n b : Nat) : Perf :=
  let f := s.focus
  let off := (ownPlace f.lc tk.ea).getD 0
  let rings := s.me.rings
  let meets (o : Nat) : Bool :=
    let (m, c) := s.ringGeom f.ctx f.lc o
    decide (o ≠ off) && overlap off (192 + n * b) o (192 + m * c)
  let attached := rings.contains off && decide (s.ringAttach f.ctx f.lc off ≠ 0)
  if s.paused (s.who tk.nan) then .wait
  else if s.outsideLoop then .refuse .conflict tk.ea 0 0 0
  else if attached || (decide (n ≠ 0) && (rings.any meets || (!rings.contains off && decide (16 ≤ rings.length)))) then
    .hold (s.trapAt tk (fun s => s.fault .ring tk.ea))
  else if n = 0 then .done (s.modMe (fun c => { c with rings := c.rings.erase off })) [] 0
  else
    perfOf (do
      let s1 ← s.foldLine f.ctx (lsKey f.ctx f.lc off)
      s1.putHeader (s.who tk.nan) f.lc off (ringHeader n b)) 0 0 0 (fun s1 =>
        .done ((s1.modMe (fun c => { c with rings := if c.rings.contains off then c.rings else c.rings ++ [off] })).tick f.ctx s.party 0) [] 0)

/-! ### Copies (R305 to R309) -/

/-- A copy command from its eight words; none where R305 refuses a field. -/
def copyOf (ws : List Word) : Option CopyCmd :=
  let w (i : Nat) : Nat := (ws.getD i 0).toNat
  let cont := decide (field (w 0) 1 1 = 1)
  let l1 := decide (field (w 0) 2 1 = 1)
  let recOk := if cont then decide (w 4 % 192 = 0) && decide (w 4 + 192 ≤ 2 ^ 56) else decide (w 4 = 0)
  if field (w 0) 3 29 = 0 ∧ field (w 0) 48 16 = 0 ∧ 1 ≤ w 3 ∧ w 3 ≤ 2 ^ 32 ∧ recOk = true ∧ (l1 = false ∨ field (w 2) 56 8 ≠ 0xFE) ∧
      w 5 = 0 ∧ w 6 = 0 ∧ w 7 = 0 then
    some { done := decide (field (w 0) 0 1 = 1), cont := cont, l1 := l1, tag := field (w 0) 32 16, src := ws.getD 1 0, dst := ws.getD 2 0
           len := w 3, recAddr := ws.getD 4 0 }
  else none

/-- The check of the ends of a range of a copy (R306). -/
def State.endsChk (s : State) (a : Word) (n : Nat) : Option Trap :=
  let last := a + BitVec.ofNat 64 (n - 1)
  match placeOf s.focus.lc a with
  | none => some (s.fault .protection a)
  | some (.glob va) => if 2 ^ 56 < va + n then some (s.fault .protection last) else none
  | some (.ls _ off) => if lsSize < off + n then some (s.fault .protection last) else none

/-- The two ranges of a copy overlap in one space (R306). -/
def copyOverlap (lc : Nat) (c : CopyCmd) : Bool :=
  match placeOf lc c.src, placeOf lc c.dst with
  | some (.glob a), some (.glob b) => overlap a c.len b c.len
  | some (.ls l a), some (.ls m b) => decide (l = m) && overlap a c.len b c.len
  | _, _ => false

/-- `copy` (R306). -/
def execCopy (h : Hd) (rd ra rb : Reg) (s : State) : Result :=
  let t := s.slot
  let hart := (t.rx ra.val).toNat
  .next (if 47 < hart then s.issueLong h false false none 0 0 0 { outs := [.x rd.val 2] }
    else
      match copyOf (t.rxs rb.val 8) with
      | none => s.issueLong h false false (some (s.fault .illegalField 0)) 0 0 0 {}
      | some c =>
        s.issueLong h false false (firstTrap [s.endsChk c.src c.len, s.endsChk c.dst c.len,
            if copyOverlap s.focus.lc c then some (s.fault .illegalField 0) else none, if c.done then s.requestChk .copydone else none]) 0 0 0
          { task := some (.copy rd.val hart c), ea := c.src, remote := 1 })

def State.hart (s : State) (h : Nat) : Hart := Tab.get {} s.harts h
def State.setHart (s : State) (h : Nat) (x : Hart) : State := { s with harts := Tab.set {} s.harts h x }

/-- The command queue of a hart has a free place: the commands that have not started count (R303, R323). -/
def Hart.room (x : Hart) : Bool :=
  decide ((x.queue.filter (fun q =>
    match q with
    | .copy r => !r.started
    | .sub _ => true)).length < 32)

/-- The kick step of a copy (R175, R306). -/
def State.perfCopy (s : State) (tk : Task) (rd h : Nat) (c : CopyCmd) : Perf :=
  let f := s.focus
  let x := s.hart h
  if s.paused (s.who tk.nan) then .wait
  else if s.outsideLoop then .refuse .conflict 0 0 0 0
  else if !x.room then (if s.here.cr.det then .hold s else .done (s.tick f.ctx s.party 0) [.x rd 1] 0)
  else
    let (t, s1) := if c.done then s.ask .copydone else s.ticket f.ctx
    let r : CopyRun := { ctx := f.ctx, lc := f.lc, nan := tk.nan, c := c, left := [(0, c.len)], ticket := t }
    .done ((s1.setHart h { x with queue := x.queue ++ [.copy r] }).tick f.ctx s.party 0) [.x rd 0] 0

/-! ### The harts (R302 to R304, R307 to R309, R318 to R321) -/

/-- The issuer of a queued command. -/
def Hart.issuer (x : Hart) (q : HCmd) : Nat × Nat :=
  match q with
  | .copy r => (r.ctx, r.lc)
  | .sub e => ((Tab.get {} x.subs e).ctx, (Tab.get {} x.subs e).lc)

/-- The oldest command of each issuer, in queue order (R304). -/
def Hart.heads (x : Hart) : List HCmd :=
  x.queue.foldl (fun acc q => if acc.any (fun p => decide (x.issuer p = x.issuer q)) then acc else acc ++ [q]) []

/-- A hart number is served: its hart works, or a substitute does (R302, R426). -/
def Hart.up (x : Hart) : Bool := !x.stopped || x.served.isSome

/-- Hart `h` working for an issuer (R303). -/
def hartWho (h ctx lc : Nat) (nan : Bool) : Who := { ctx := ctx, lc := lc, nan := nan, party := 12288 + h, hart := true }

/-- The status of a refusal (R308). -/
def TrapKind.status : TrapKind → Nat
  | .protection => 1 | .clusterMask => 2 | .modeAlias => 3 | .keyAbsent => 4 | .integrity => 5 | .lateRefusal => 6 | .conflict => 7
  | .ring => 10
  | _ => 1

/-- Replaces the run of a queued copy, found by its issuer and ticket. -/
def Hart.putRun (x : Hart) (r : CopyRun) : Hart :=
  { x with queue := x.queue.map (fun q =>
      match q with
      | .copy r' => if r'.ctx = r.ctx ∧ r'.ticket = r.ticket then .copy r else q
      | .sub _ => q) }

/-- Removes a copy. -/
def Hart.dropRun (x : Hart) (r : CopyRun) : Hart :=
  { x with queue := x.queue.filter (fun q =>
      match q with
      | .copy r' => !(decide (r'.ctx = r.ctx) && decide (r'.ticket = r.ticket))
      | .sub _ => true) }

/-- An earlier subscription of the issuer waits on a page, and the issuer's later commands behind it (R309). -/
def Hart.behind (x : Hart) (ctx lc ticket : Nat) : Bool :=
  x.subs.any (fun e => e.2.live && e.2.waiting && decide (e.2.ctx = ctx) && decide (e.2.lc = lc) && decide (e.2.ticket < ticket))

/-- Byte offset number `k` among the ranges. -/
def nthByte : List (Nat × Nat) → Nat → Nat
  | [], _ => 0
  | (o, n) :: r, k => if k < n then o + k else nthByte r (k - n)

/-- Ranges with `[a, b)` cut out. -/
def cutOut (a b : Nat) (rs : List (Nat × Nat)) : List (Nat × Nat) :=
  rs.flatMap (fun p => [(p.1, Nat.min (p.1 + p.2) a - p.1), (Nat.max p.1 b, p.1 + p.2 - Nat.max p.1 b)].filter (fun q => decide (0 < q.2)))

/-- The address within its space, by which sectors are counted (R182). -/
def placeOff : Place → Nat
  | .glob a => a
  | .ls _ o => o

/-- The refusal of a hart access (R309): a wait on an absent page, or the end of the command with its status. -/
def State.hartRefused (s : State) (h ctx lc ticket : Nat) (k : TrapKind) (a : Word) (wait : State → State) (fail : Nat × Word → State → State) : State :=
  if k = .pageAbsent then (wait s).waitOn ctx lc (pageOf a) (.hart h ticket) else fail (k.status, a) (s.poisonFull ctx k a)

/-- A hart works for a context that is live; a seal lets it begin nothing new (R339). -/
def Ctx.going (c : Ctx) (new : Bool) : Bool := decide (c.status = .live) && !(new && c.sealing)

/-- COPY_CHUNK: one source sector of a copy read and written (R175, R307, R309); `pick` chooses the issuer and the chunk. -/
def execCopyChunk (hart pick : Nat) (s : State) : Result :=
  let x := s.hart hart
  let runs := x.heads.filterMap (fun q =>
    match q with
    | .copy r => if r.waiting || r.refused.isSome || r.left.isEmpty || x.behind r.ctx r.lc r.ticket || !(s.ctxOf r.ctx).going (!r.started) then none else some r
    | .sub _ => none)
  .next (if !x.up then s
    else
      match runs[pick % runs.length]? with
      | none => s
      | some r =>
        let total := r.left.foldl (fun n p => n + p.2) 0
        let o := nthByte r.left (pick / runs.length % total)
        let src := (placeOf r.lc r.c.src).getD (.glob 0)
        let dst := (placeOf r.lc r.c.dst).getD (.glob 0)
        let sec := (placeOff src + o) / 48 * 48
        let (lo, hi) := (r.left.foldl (fun (p : Nat × Nat) q => if q.1 ≤ o ∧ o < q.1 + q.2 then (q.1, q.1 + q.2) else p) (o, o + 1))
        let a := Nat.max lo (sec - placeOff src)
        let b := Nat.min hi (sec + 48 - placeOff src)
        let w := hartWho hart r.ctx r.lc r.nan
        match (do
            let (s1, bs) ← s.readAt w [(src.plus a, b - a)]
            s1.writeAt w [(dst.plus a, b - a)] bs : Acc State) with
        | .ok s' =>
          s'.setHart hart ((s'.hart hart).putRun { r with started := true, left := cutOut a b r.left, bytes := r.bytes + (b - a) })
        | .error (.refuse k ad) =>
          s.hartRefused hart r.ctx r.lc r.ticket k ad (fun s => s.setHart hart (x.putRun { r with started := true, waiting := true }))
            (fun st s => s.setHart hart (x.putRun { r with started := true, left := [], refused := some st }))
        | .error (.full d ch) => s.fullWait r.ctx d ch
        | .error .wait => s)

/-- In deterministic mode a COPYDONE waits for the earlier requests of its logical core (R191). -/
def State.copyBefore (s : State) (ctx lc ticket : Nat) : Bool :=
  (s.ctxOf ctx).cr.det && s.harts.any (fun e =>
    e.2.queue.any (fun q =>
      match q with
      | .copy r => decide (r.ctx = ctx) && decide (r.lc = lc) && r.c.done && decide (r.ticket < ticket)
      | .sub _ => false) ||
    e.2.subs.any (fun p => p.2.live && decide (p.2.ctx = ctx) && decide (p.2.lc = lc) && decide (p.2.ticket < ticket)))

/-- The number under which a hart holds for want of a record, beside the slots of its issuer (R106). -/
def hartHold (hart : Nat) : Nat := 16 + hart

/-- The continuation of a completed copy: the record of the command copied into the pool and queued (R106, R307). -/
def State.copyCont (s : State) (hart : Nat) (r : CopyRun) (bs : List Byte) : Option State :=
  let q := Record.parse bs
  let bind := if (s.ctxOf r.ctx).cr.det && decide (q.bind = 0x3FF) then r.lc else q.bind
  (s.takeRecordFor r.ctx r.lc (some (hartHold hart)) { q with bind := bind, cause := 0, await := none }).map (fun p =>
    let (cid, s2) := p.2.newCid r.ctx
    s2.enqueue r.ctx (if bind = 0x3FF then r.lc else bind) { ref := p.1, bind := bind, prio := q.prio, cid := cid, node := q.node })

/-- A copy counts complete for every `drain` that waits for it (R161, R307). -/
def State.countCopy (s : State) (r : CopyRun) : State :=
  s.modCtx r.ctx (fun c => { c with drains := c.drains.map (fun e => { e with copies := e.copies.erase r.ticket }) })

/-- The end of one copy with a status: its count and its COPYDONE, none where that waits for its turn or for a place (R191, R307 to R309). -/
def State.endCopy (s : State) (hart : Nat) (r : CopyRun) (st : Nat × Word) : Option State :=
  let s1 := (s.setHart hart ((s.hart hart).dropRun r)).countCopy r
  if !r.c.done && decide (st.1 = 0) then some s1
  else if r.c.done && s.copyBefore r.ctx r.lc r.ticket then none
  else
    s1.eventBy r.ctx r.lc { src := r.lc, kind := .copydone, nan := r.nan, tag := r.c.tag, words :=
      [BitVec.ofNat 64 st.1, BitVec.ofNat 64 r.bytes, r.c.src, r.c.dst, st.2, r.c.recAddr, 0] } (s.clock r.ctx (12288 + hart))

/-- A copy whose end waits: for its turn, or for a place in its issuer's mailbox (R189, R191). -/
def State.copyWaits (s : State) (r : CopyRun) : Option State :=
  let ch := ({ src := r.lc, kind := .copydone } : Msg).channel
  if s.eventRoom r.ctx r.lc || (s.core r.ctx r.lc).waits.contains (ch, s.focus.key) then none else some (s.fullWait r.ctx r.lc ch)

/-- The end of one copy: its continuation, its COPYDONE and its count in one step; none while it waits (R307 to R309). -/
def State.completeCopy (s : State) (hart : Nat) (r : CopyRun) : Option State :=
  let x := s.hart hart
  let ended (s1 : State) (st : Nat × Word) : Option State :=
    match s1.endCopy hart r st with
    | some s' => some s'
    | none => s.copyWaits r
  if r.waiting || x.behind r.ctx r.lc r.ticket || !(s.ctxOf r.ctx).going false then none
  else
    match r.refused with
    | some st => ended s st
    | none =>
      if !r.left.isEmpty then none
      else if !r.c.cont then ended s (0, 0)
      else
        match s.readAt (hartWho hart r.ctx r.lc r.nan) [(.glob r.c.recAddr.toNat, 192)] with
        | .error (.refuse k a) =>
          some (s.hartRefused hart r.ctx r.lc r.ticket k a (fun s => s.setHart hart (x.putRun { r with waiting := true }))
            (fun st s => s.setHart hart (x.putRun { r with refused := some st })))
        | .error _ => none
        | .ok (s1, bs) =>
          if (Record.badField bs).isSome then ended s1 (9, 0)
          else
            match s1.copyCont hart r bs with
            | some s2 => ended s2 (0, 0)
            | none => if (s.core r.ctx r.lc).poolHolds.contains (hartHold hart) then none else some (s.poolHold r.ctx r.lc (hartHold hart))

/-- COPY_COMPLETE (R307). -/
def execCopyComplete (hart : Nat) (s : State) : Result :=
  let x := s.hart hart
  .next (if !x.up then s
    else (x.heads.findSome? (fun q =>
      match q with
      | .copy r => s.completeCopy hart r
      | .sub _ => none)).getD s)

/-! ### Subscriptions (R317 to R321) -/

/-- A subscription record from its 64 bytes; none where R317 refuses a field. -/
def subOf (bs : List Byte) : Option SubRec :=
  let f := fieldAt bs
  let fl := f 40 2
  let ret := decide (field fl 7 1 = 1)
  match ETy.ofCode (field fl 0 4) with
  | none => none
  | some ty =>
    let part := widthOf ty / 8
    let conj := decide (field fl 5 1 = 1)
    if field fl 0 4 ≤ 9 ∧ field fl 8 8 = 0 ∧ (conj = false ∨ (field fl 4 1 = 1 ∧ (fmtOf false ty).isSome = true)) ∧ f 0 8 < 2 ^ 56 ∧ f 0 8 % part = 0 ∧ 1 ≤ f 8 4 ∧
        1 ≤ f 12 4 ∧ 1 ≤ f 32 2 ∧ f 32 2 ≤ 48 ∧ 1 ≤ f 34 2 ∧ f 34 2 ≤ 3072 ∧ 1 ≤ f 36 4 ∧ f 42 2 ≤ 47 ∧ f 46 2 = 0 ∧
        (if ret then f 48 8 < 2 ^ 56 else f 48 8 = 0 ∧ f 56 8 = 0) then
      some { base := BitVec.ofNat 64 (f 0 8), rows := f 8 4, cols := f 12 4, rstride := BitVec.ofNat 64 (f 16 8), bstride := BitVec.ofNat 64 (f 24 8)
             tr := f 32 2, tc := f 34 2, batch := f 36 4, ty := field fl 0 4, cplx := decide (field fl 4 1 = 1), conj := conj
             trans := decide (field fl 6 1 = 1), ret := ret, hart := f 42 2, tag := f 44 2, rbase := BitVec.ofNat 64 (f 48 8)
             rring := BitVec.ofNat 64 (f 56 8) }
    else none

/-- Bytes of a part of an element (R317). -/
def SubRec.part (r : SubRec) : Nat :=
  match ETy.ofCode r.ty with
  | some ty => widthOf ty / 8
  | none => 1
def SubRec.parts (r : SubRec) : Nat := if r.cplx then 2 else 1
/-- The element size e (R317). -/
def SubRec.elem (r : SubRec) : Nat := r.part * r.parts
/-- Tile rows and tile columns of a plane, and the tiles in all (R318). -/
def SubRec.trows (r : SubRec) : Nat := (r.rows + r.tr - 1) / r.tr
def SubRec.tcols (r : SubRec) : Nat := (r.cols + r.tc - 1) / r.tc
def SubRec.total (r : SubRec) : Nat := r.batch * r.trows * r.tcols
def SubRec.tileBytes (r : SubRec) : Nat := r.tr * r.tc * r.elem

/-- `sub.tile` (R319). Its record is read and its rings are judged at its step, behind which nothing issues. The subscription takes the
lowest-numbered free entry, which the spec leaves open (log 67). -/
def execSubTile (h : Hd) (rd ra rb : Reg) (s : State) : Result :=
  let t := s.slot
  let ring := t.opA ra.val
  let xb := t.opB rb.val
  .next (s.issueLong h false false (firstTrap [if (ownPlace s.focus.lc ring).isSome then none else some (s.fault .ring ring),
      s.requestChk .copydone]) (wordOf (.subTile h rd ra rb)) ring xb { task := some (.subTile rd.val xb), ea := ring, remote := 1 })

/-- A registered ring of the logical core in focus without ATTACH (R319). -/
def State.freeRing (s : State) (a : Word) : Option Nat :=
  match ownPlace s.focus.lc a with
  | some off =>
    if s.me.rings.contains off ∧ s.ringAttach s.focus.ctx s.focus.lc off = 0 then some off else none
  | none => none

/-- Writes the ATTACH word of a ring, its line folded (R174, R310). -/
def State.attach (s : State) (ctx lc off v : Nat) : Acc State :=
  (s.foldLine ctx (lsKey ctx lc off)).map (fun s => { s with mem := Mem.write s.mem (lsKey ctx lc (off + 40)) (leBytes 8 v) })

/-- The first of a hart's sixteen subscription entries that is free (R303). -/
def Hart.freeSub (x : Hart) : Option Nat := (List.range 16).find? (fun e => !(Tab.get {} x.subs e).live)

/-- The acceptance of a subscription (R319). -/
def State.acceptSub (s : State) (tk : Task) (rd off : Nat) (r : SubRec) (ret : Option Nat) : Perf :=
  let f := s.focus
  let x := s.hart r.hart
  match (if x.room then x.freeSub else none) with
  | none => if s.here.cr.det then .hold s else .done (s.tick f.ctx s.party 0) [.x rd 0] 0
  | some e =>
    let old := (Tab.get {} x.subs e).gen
    let g := if old + 1 < 2 ^ 32 then old + 1 else 1
    let handle := r.hart + at' 6 e + at' 16 g
    let (t, s1) := s.ask .copydone
    let sub : Sub := { live := true, ctx := f.ctx, lc := f.lc, nan := tk.nan, r := r, feed := tk.ea, gen := g, ticket := t }
    let s2 := s1.setHart r.hart { x with queue := x.queue ++ [.sub e], subs := Tab.set {} x.subs e sub }
    perfOf (do
      let s3 ← s2.attach f.ctx f.lc off handle
      match ret with
      | some o => s3.attach f.ctx f.lc o (2 ^ 63 + handle)
      | none => .ok s3 : Acc State) 0 0 0 (fun s => .done (s.tick f.ctx s.party 0) [.x rd (BitVec.ofNat 64 handle)] 0)

def State.perfSubTile (s : State) (tk : Task) (rd : Nat) (xb : Word) : Perf :=
  let f := s.focus
  let bad (s : State) : Perf := .trap s (stepTrap .illegalField xb 0 0)
  let ring (a : Word) : Perf := .hold (s.trapAt tk (fun s => s.fault .ring a))
  if s.paused (s.who tk.nan) then .wait
  else if s.outsideLoop then .refuse .conflict tk.ea 0 0 0
  else
    match ownPlace f.lc xb with
    | none => bad s
    | some o =>
      if o % 8 ≠ 0 ∨ lsSize < o + 64 then bad s
      else
        perfOf (s.readAt (s.who tk.nan) [(.ls f.lc o, 64)]) 0 0 0 (fun p =>
          let s1 := p.1
          match subOf p.2 with
          | none => bad s1
          | some r =>
            match s1.freeRing tk.ea with
            | none => ring tk.ea
            | some off =>
              let big (o : Nat) : Bool := decide ((s1.ringGeom f.ctx f.lc o).2 < r.tileBytes)
              if r.ret then
                match s1.freeRing r.rring with
                | none => ring r.rring
                | some ro => if ro = off then ring r.rring else if big off || big ro then bad s1 else s1.acceptSub tk rd off r (some ro)
              else if big off then bad s1 else s1.acceptSub tk rd off r none)

/-- `unsub` (R321). -/
def execUnsub (h : Hd) (ra : Reg) (s : State) : Result :=
  .next (s.issueLong h false false none 0 0 0 { task := some (.unsub (s.slot.rx ra.val)), remote := 1 })
def State.perfUnsub (s : State) (tk : Task) (handle : Word) : Perf :=
  let f := s.focus
  let n := handle.toNat
  let h := field n 0 6
  let e := field n 6 4
  let x := s.hart h
  let b := Tab.get {} x.subs e
  if s.paused (s.who tk.nan) then .wait
  else
    let s1 := if b.live && decide (b.ctx = f.ctx) && decide (b.lc = f.lc) && decide (n = h + at' 6 e + at' 16 b.gen) then
        s.setHart h { x with subs := Tab.set {} x.subs e { b with unsub := true } }
      else s
    .done (s1.tick f.ctx s.party 0) [] 0

/-- A live subscription that its hart has started: its turn among its issuer's commands has come (R304), and neither it nor an earlier one of
its issuer waits on a page (R309). -/
def State.subAt (s : State) (hart entry : Nat) : Option (Sub × State) :=
  let x := s.hart hart
  let b := Tab.get {} x.subs entry
  if !x.up || !b.live || b.waiting || x.behind b.ctx b.lc b.ticket || !(s.ctxOf b.ctx).going false then none
  else if !x.queue.contains (.sub entry) then some (b, s)
  else if x.heads.contains (.sub entry) then some (b, s.setHart hart { x with queue := x.queue.erase (.sub entry) })
  else none

def State.setSub (s : State) (hart entry : Nat) (b : Sub) : State :=
  let x := s.hart hart
  s.setHart hart { x with subs := Tab.set {} x.subs entry b }

/-- The tile row and column of chunk `id`, and its part (R318). A chunk is one part of an element, or one of the two pieces of a part
that a sector boundary cuts. -/
def SubRec.chunk (r : SubRec) (id : Nat) : Nat × Nat × Nat :=
  let p := id / 2
  (p / (r.tc * r.parts), p / r.parts % r.tc, p % r.parts)

/-- The region address of an element of tile `k`, or none outside the region (R317, R318). -/
def SubRec.addr (r : SubRec) (base : Word) (k i j part : Nat) : Option Word :=
  let per := r.trows * r.tcols
  let row := k % per / r.tcols * r.tr + i
  let col := k % r.tcols * r.tc + j
  if row < r.rows ∧ col < r.cols then
    some (base + BitVec.ofNat 64 (k / per) * r.bstride + BitVec.ofNat 64 row * r.rstride + BitVec.ofNat 64 (col * r.elem + part * r.part))
  else none

/-- The slot byte of a part of an element (R318). -/
def SubRec.pos (r : SubRec) (i j part : Nat) : Nat := (if r.trans then j * r.tr + i else i * r.tc + j) * r.elem + part * r.part

/-- The piece of a part that a chunk moves: its first byte within the part and its length; none where the part is whole in chunk 0. -/
def SubRec.piece (r : SubRec) (a : Word) (half : Nat) : Option (Nat × Nat) :=
  let first := Nat.min r.part (48 - a.toNat % 48)
  if half = 0 then some (0, first) else if first < r.part then some (first, r.part - first) else none

/-- The chunks of a tile. -/
def SubRec.chunks (r : SubRec) (base : Word) (k : Nat) (zero : Bool) : List Nat :=
  (List.range (2 * (r.tr * r.tc * r.parts))).filter (fun id =>
    let (i, j, p) := r.chunk id
    match r.addr base k i j p with
    | none => zero && decide (id % 2 = 0)
    | some a => (r.piece a (id % 2)).isSome)

/-- What a ring step of a hart comes to: a wait leaves the state (R308, R309). -/
def State.hartRing (s : State) (hart entry : Nat) (b : Sub) (ring : Word) (slot : Word) (kind : RingOp) (f : State → Word → State) : State :=
  let w := hartWho hart b.ctx b.lc b.nan
  if s.paused w then s
  else
    let off := (ownPlace b.lc ring).getD 0
    match s.ringStep w b.lc off ring slot kind with
    | .ok (s', a) => f s' a
    | .error (.ring a) => s.setSub hart entry { b with refused := some (10, a) }
    | .error (.conflict a) => s.setSub hart entry { b with refused := some (7, a) }
    | .error .miss => s
    | .error (.full d ch) => s.fullWait b.ctx d ch

/-- TILE_PUSH: the reservation of a slot, one chunk, or the posting (R318). -/
def execTilePush (hart entry pick : Nat) (s : State) : Result :=
  .next (match s.subAt hart entry with
    | none => s
    | some (b, s1) =>
      let r := b.r
      let base := (ownPlace b.lc b.feed).getD 0
      if b.refused.isSome then s
      else
        match b.push with
        | none =>
          if b.unsub ∨ r.total ≤ b.pushed ∨ (s.ctxOf b.ctx).sealing then s
          else
            let s2 := s1.hartRing hart entry b b.feed 0 .rsv (fun s a =>
              s.setSub hart entry { b with push := some ((a - b.feed).toNat, r.chunks r.base b.pushed true) })
            s2
        | some (slot, []) =>
          s1.hartRing hart entry b b.feed (b.feed + BitVec.ofNat 64 slot) .post (fun s _ =>
            s.setSub hart entry { b with push := none, pushed := b.pushed + 1 })
        | some (slot, ids) =>
          let id := ids.getD (pick % ids.length) 0
          let (i, j, p) := r.chunk id
          let w := hartWho hart b.ctx b.lc b.nan
          let at0 := base + slot + r.pos i j p
          let res : Acc State := match r.addr r.base b.pushed i j p with
            | none => s1.writeAt w [(.ls b.lc at0, r.part)] (zeros r.part)
            | some a =>
              match placeOf b.lc a, r.piece a (id % 2) with
              | some pl, some (o, n) => do
                let (s2, bs) ← s1.readAt w [(pl.plus o, n)]
                let flip := r.conj && decide (p = 1) && decide (o + n = r.part)
                s2.writeAt w [(.ls b.lc (at0 + o), n)] (if flip then bs.dropLast ++ [bs.getLastD 0 ^^^ 0x80] else bs)
              | _, _ => .error (.refuse .protection a)
          match res with
          | .ok s' => s'.setSub hart entry { b with push := some (slot, ids.erase id) }
          | .error (.refuse k a) =>
            s1.hartRefused hart b.ctx b.lc b.ticket k a (fun s => s.setSub hart entry { b with waiting := true })
              (fun st s => s.setSub hart entry { b with refused := some st })
          | .error (.full d ch) => s1.fullWait b.ctx d ch
          | .error .wait => s)

/-- TILE_RETURN: the take of a posted return slot, one chunk, or the freeing (R318). -/
def execTileReturn (hart entry pick : Nat) (s : State) : Result :=
  .next (match s.subAt hart entry with
    | none => s
    | some (b, s1) =>
      let r := b.r
      let base := (ownPlace b.lc r.rring).getD 0
      if b.refused.isSome ∨ !r.ret then s
      else
        match b.ret with
        | none =>
          if r.total ≤ b.returned ∨ (s.ctxOf b.ctx).sealing then s
          else
            s1.hartRing hart entry b r.rring 0 .take (fun s a =>
              s.setSub hart entry { b with ret := some ((a - r.rring).toNat, r.chunks r.rbase b.returned false) })
        | some (slot, []) =>
          s1.hartRing hart entry b r.rring (r.rring + BitVec.ofNat 64 slot) .free (fun s _ =>
            s.setSub hart entry { b with ret := none, returned := b.returned + 1 })
        | some (slot, ids) =>
          let id := ids.getD (pick % ids.length) 0
          let (i, j, p) := r.chunk id
          let w := hartWho hart b.ctx b.lc b.nan
          let at0 := base + slot + r.pos i j p
          let res : Acc State := match r.addr r.rbase b.returned i j p with
            | none => .ok s1
            | some a =>
              match placeOf b.lc a, r.piece a (id % 2) with
              | some pl, some (o, n) => do
                let (s2, bs) ← s1.readAt w [(.ls b.lc (at0 + o), n)]
                s2.writeAt w [(pl.plus o, n)] bs
              | _, _ => .error (.refuse .protection a)
          match res with
          | .ok s' => s'.setSub hart entry { b with ret := some (slot, ids.erase id) }
          | .error (.refuse k a) =>
            s1.hartRefused hart b.ctx b.lc b.ticket k a (fun s => s.setSub hart entry { b with waiting := true })
              (fun st s => s.setSub hart entry { b with refused := some st })
          | .error (.full d ch) => s1.fullWait b.ctx d ch
          | .error .wait => s)

/-- A ring step that ends a subscription; one that is refused changes nothing, one that waits is tried again (R309). A feed-ring slot that the
hart had reserved is posted after a refusal too, as R309 says; R386 tells of its program that decode then finds no tile (DEDUCED, log 85). -/
def State.endRing (s : State) (hart : Nat) (b : Sub) (ring : Word) (held : Option (Nat × List Nat)) (kind : RingOp) : Acc State :=
  match held with
  | none => .ok s
  | some (slot, _) =>
    match s.ringStep (hartWho hart b.ctx b.lc b.nan) b.lc ((ownPlace b.lc ring).getD 0) ring (ring + BitVec.ofNat 64 slot) kind with
    | .ok (s', _) => .ok s'
    | .error (.full d ch) => .error (.full d ch)
    | .error _ => .ok s

/-- Clears the ATTACH word of a ring, as a store of the hart (R196, R320). -/
def State.detach (s : State) (hart : Nat) (b : Sub) (ring : Word) : Acc State := do
  let off := (ownPlace b.lc ring).getD 0
  let s1 ← s.attach b.ctx b.lc off 0
  let s2 ← s1.placeWatch b.ctx b.lc b.lc b.nan (s.clock b.ctx (12288 + hart)) (off / 8 + 5)
  .ok (s2.tick b.ctx (12288 + hart) 0)

/-- The status with which a subscription ends now, if it does (R320, R321). -/
def State.subOver (s : State) (b : Sub) : Option (Nat × Word) :=
  let pushedAll := decide (b.r.total ≤ b.pushed)
  let all := pushedAll && (!b.r.ret || decide (b.r.total ≤ b.returned))
  let c := s.ctxOf b.ctx
  let key := lsKey b.ctx b.lc ((ownPlace b.lc b.r.rring).getD 0)
  let posted := b.r.ret && decide (subMod (s.seenNat c key 8) (s.seenNat c (key + 16) 8) ≠ 0) && decide (b.returned < b.r.total)
  match b.refused with
  | some st => some st
  | none =>
    if all then some (0, 0)
    else if b.unsub && b.push.isNone && b.ret.isNone && !posted then some (if pushedAll then 0 else 8, 0)
    else none

/-- SUBSCRIPTION_END: the last ring steps, the cleared ATTACH words and COPYDONE in one step (R309, R320, R321). -/
def execSubscriptionEnd (hart entry : Nat) (s : State) : Result :=
  .next (match s.subAt hart entry with
    | none => s
    | some (b, s1) =>
      match s1.subOver b with
      | none => s
      | some st =>
        let w := hartWho hart b.ctx b.lc b.nan
        let handle := hart + at' 6 entry + at' 16 b.gen
        let m : Msg := { src := b.lc, kind := .copydone, nan := b.nan, tag := b.r.tag, words :=
          [BitVec.ofNat 64 st.1, BitVec.ofNat 64 b.pushed, BitVec.ofNat 64 b.returned, BitVec.ofNat 64 handle, st.2, 0, 1] }
        if s.copyBefore b.ctx b.lc b.ticket || s.paused w then s
        else
          match (do
              let s2 ← s1.endRing hart b b.feed b.push .post
              let s3 ← s2.endRing hart b b.r.rring b.ret .free
              let s4 ← s3.detach hart b b.feed
              let s5 ← if b.r.ret then s4.detach hart b b.r.rring else .ok s4
              match (s5.setSub hart entry { gen := b.gen }).eventBy b.ctx b.lc m (s5.clock b.ctx w.party) with
              | some s6 => .ok s6
              | none => .error (.full b.lc m.channel) : Acc State) with
          | .error (.full d ch) => s.fullWait b.ctx d ch
          | .error _ => s
          | .ok s' => s')

end Sys2Proof.Machine
end

