-- ==== Sys2Proof/Machine/Graphs.lean ====
section
/-! DEFINITION. Graphs and the Marionette (17 R343 to R362, R433). -/

namespace Sys2Proof.Machine

/-! ### Accesses of the engines (R433) -/

/-- An access of an engine on behalf of a logical core: no cluster set and no shadow is checked (R142, R433). R163 gives an engine no party
number; the model uses that of slot 0 of the logical core, and its clock (DESIGN CHOICE, log 84). -/
def engWho (ctx lc : Nat) (nan : Bool) : Who :=
  { ctx := ctx, lc := lc, nan := nan, party := 16 * lc, csets := false, shadows := false, engine := true }

/-- A read by an engine: none where it is refused; an absent page stops the step (R433). -/
def State.engRead (s : State) (w : Who) (va n : Nat) : Acc (State × Option (List Byte)) :=
  if 2 ^ 56 < va + n then .ok (s.engNote w.ctx w.lc .protection (BitVec.ofNat 64 va), none)
  else
    match s.readAt w (pagePieces va n) with
    | .ok (s', bs) => .ok (s', some bs)
    | .error (.refuse k a) => if k = .pageAbsent then .error (.refuse k a) else .ok (s.engNote w.ctx w.lc k a, none)
    | .error h => .error h

/-- A write by an engine: dropped where it is refused; an absent page stops the step (R433). -/
def State.engWrite (s : State) (w : Who) (va : Nat) (bs : List Byte) : Acc State :=
  if 2 ^ 56 < va + bs.length then .ok (s.engNote w.ctx w.lc .protection (BitVec.ofNat 64 va))
  else
    match s.writeAt w (pagePieces va bs.length) bs with
    | .ok s' => .ok s'
    | .error (.refuse k a) => if k = .pageAbsent then .error (.refuse k a) else .ok ((s.poisonFull w.ctx k a).engNote w.ctx w.lc k a)
    | .error h => .error h

/-- An engine's step that meets an absent page waits on its list, once (R433). -/
def State.engWait (s : State) (ctx lc tag : Nat) (a : Word) : State :=
  s.waitOn ctx lc (pageOf a) (.engine tag)

/-- A step of an engine stands on a wait list, which its release alone ends (R151, R433). -/
def State.engHeld (s : State) (ctx tag : Nat) : Bool := (s.ctxOf ctx).waitLists.any (fun e => e.2.contains (.engine tag))

/-- A step of an engine as a whole. -/
def State.engStep (s : State) (ctx lc tag : Nat) (x : Acc State) : State :=
  if s.engHeld ctx tag then s else
  match x with
  | .ok s' => s'
  | .error (.refuse _ a) => s.engWait ctx lc tag a
  | .error (.full d ch) => s.fullWait ctx d ch
  | .error .wait => s

/-- An engine's step taken by an instruction, which waits with it. -/
def State.engPerf {α : Type} (s : State) (tag : Nat) (x : Acc α) (f : α → Perf) : Perf :=
  if s.engHeld s.focus.ctx tag then .hold s else
  match x with
  | .ok a => f a
  | .error (.refuse _ a) => .hold (s.engWait s.focus.ctx s.focus.lc tag a)
  | .error (.full d ch) => .full d ch
  | .error .wait => .wait

/-- An event that hardware places when its mailbox has room (R189). -/
def State.defer (s : State) (ctx dst : Nat) (m : Msg) : State :=
  let (t, s1) := s.ticket ctx
  s1.modCtx ctx (fun c => { c with deferred := c.deferred ++ [{ dst := dst, msg := m, ticket := t }] })

/-! ### Nodes -/

def State.graph (s : State) (ctx gi : Nat) : Graph := Tab.get {} (s.ctxOf ctx).graphs gi
def State.setGraph (s : State) (ctx gi : Nat) (g : Graph) : State := s.modCtx ctx (fun c => { c with graphs := Tab.set {} c.graphs gi g })
def State.modGraph (s : State) (ctx gi : Nat) (f : Graph → Graph) : State := s.setGraph ctx gi (f (s.graph ctx gi))
def Graph.node (g : Graph) (i : Nat) : NodeSt := Tab.get {} g.sts i
def Graph.setNode (g : Graph) (i : Nat) (n : NodeSt) : Graph := { g with sts := Tab.set {} g.sts i n }
def Graph.at (g : Graph) (i : Nat) : Nat := g.nodes + 192 * i
def Graph.who (g : Graph) (ctx : Nat) : Who := engWho ctx g.lc g.nan
/-- The number by which a step of a graph waits on a page. -/
def graphTag (gi i kind : Nat) : Nat := (gi * 2 ^ 25 + i) * 8 + kind + 1

/-- The code of a malformed node (R354), of a `quit` without retirement (R125), and of a lasting fault (R342). -/
def codeMalformed : Nat := 0xFFFD
def codeQuit : Nat := 0xFFFF
def codeLost : Nat := 0xFFFE

/-- The counts of NSTATE with one node moved between states. -/
def moveCount (cs : List Nat) (old new : Nat) : List Nat :=
  let c := cs.set old (cs.getD old 0 - 1)
  c.set new (c.getD new 0 + 1)
def countBytes (cs : List Nat) : List Byte := (List.range 7).flatMap (fun k => leBytes 4 (cs.getD k 0))

/-- Gives a node a state, in the engine's own state and in memory (R345, R433). -/
def State.nodeState (s : State) (ctx gi i new : Nat) (f : NodeSt → NodeSt) : Acc State := do
  let g := s.graph ctx gi
  let n := g.node i
  let cs := moveCount g.counts n.state new
  let s1 := s.setGraph ctx gi ({ g with counts := cs }.setNode i { f n with known := true, state := new })
  let s2 ← s1.engWrite (g.who ctx) (g.at i) (leBytes 4 new)
  s2.engWrite (g.who ctx) (g.addr + 32) (countBytes cs)

/-- Inserts a number into a rising list without repeats. -/
def insertUniq (a : Nat) : List Nat → List Nat
  | [] => [a]
  | b :: r => if a < b then a :: b :: r else if a = b then b :: r else b :: insertUniq a r
def risingUniq (l : List Nat) : List Nat := l.foldl (fun acc a => insertUniq a acc) []

/-- The successors of a node for a sweep (R357): those read when it became ready, else those that its record names; none where the record or
the list cannot be read (R433). -/
def State.succsOf (s : State) (ctx : Nat) (g : Graph) (i : Nat) : Acc (State × Option (List Nat)) :=
  if (g.node i).info.isSome then .ok (s, some (g.node i).succ)
  else do
    let (s1, r) ← s.engRead (g.who ctx) (g.at i + 16) 10
    match r with
    | none => .ok (s1, none)
    | some bs =>
      let k := fieldAt bs 8 2
      if k = 0 then .ok (s1, some [])
      else do
        let (s2, l) ← s1.engRead (g.who ctx) (fieldAt bs 0 8) (4 * k)
        .ok (s2, l.map (fun l => ((List.range k).map (fun j => fieldAt l (4 * j) 4)).filter (fun j => decide (j < g.ncount))))

/-- The home logical core of a global address (R143). -/
def State.homeAt (s : State) (ctx va : Nat) : Option Nat :=
  match s.leaf ctx va with
  | .ok l => some (192 * l.home + va / 192 % 192)
  | .error _ => none

/-- A PP field is well-formed (R346). -/
def ppOk (pp : Nat) : Bool := decide (field pp 12 4 = 0) && (decide (field pp 2 10 < 768) || decide (field pp 2 10 = 0x3FF))

/-- The queue core of a node, or the home of its record (R346, R360). -/
def State.queueCore (s : State) (ctx : Nat) (g : Graph) (i : Nat) : Option Nat :=
  match s.peekNat ctx (g.at i + 30) 2 with
  | some pp => if ppOk pp && decide (field pp 2 10 < 768) then some (field pp 2 10) else s.homeAt ctx (g.at i)
  | none => s.homeAt ctx (g.at i)

/-- A node fails past its budget or is malformed (R354, R355): its code and state, FIRSTFAIL, in free mode a notice, and the start of its
sweep over `level`. -/
def State.failWith (s : State) (ctx gi i code : Nat) (level : List Nat) : Acc State := do
  let g := s.graph ctx gi
  let n := g.node i
  let s0 := if n.q.isSome then s else s.foldGlobal ctx (g.at i) 192
  let q := match n.q with
    | some q => some q
    | none => s0.queueCore ctx g i
  let s1 ← s0.nodeState ctx gi i 5 (fun n => { n with code := code, q := q })
  let s2 ← s1.engWrite (g.who ctx) (g.at i + 106) (leBytes 2 code)
  let ff := Nat.min g.ff i
  let s3 ← s2.engWrite (g.who ctx) (g.addr + 60) (leBytes 4 ff)
  let s4 := s3.modGraph ctx gi (fun g => { g with ff := ff, sweeps := g.sweeps ++ [{ f := i, level := risingUniq level, next := [] }] })
  .ok (if (s.ctxOf ctx).cr.det then s4
    else s4.defer ctx g.notify { src := 0x3FE, kind := .node, nan := g.nan, tag := g.tag, words :=
      [2, BitVec.ofNat 64 g.addr, BitVec.ofNat 64 i, BitVec.ofNat 64 code, BitVec.ofNat 64 n.attempts, 0, 0] })

/-- A node whose record or list cannot be read is malformed (R354, R433). A settled node does not change. -/
def State.failUnread (s : State) (ctx gi i : Nat) : Acc State :=
  if ((s.graph ctx gi).node i).known && decide (4 ≤ ((s.graph ctx gi).node i).state) then .ok s else s.failWith ctx gi i codeMalformed []

/-- A node that is not settled fails with a code; its sweep begins with its successors (R354, R355, R357). -/
def State.failNode (s : State) (ctx gi i code : Nat) : Acc State :=
  if ((s.graph ctx gi).node i).known && decide (4 ≤ ((s.graph ctx gi).node i).state) then .ok s
  else do
    let (s1, l) ← s.succsOf ctx (s.graph ctx gi) i
    s1.failWith ctx gi i code (l.getD [])

/-- The successor list that a node record names is held with the graph's records (R348). -/
def Graph.hold (g : Graph) (rec' : List Byte) : Graph :=
  let p := (fieldAt rec' 16 8, 4 * Nat.max (fieldAt rec' 24 2) (fieldAt rec' 26 2))
  if p.2 = 0 ∨ g.lists.contains p then g else { g with lists := g.lists ++ [p] }

/-- A node as its record gives it. -/
def nodeOfBytes (n : NodeSt) (bs : List Byte) : NodeSt :=
  { n with state := fieldAt bs 0 4, count := fieldAt bs 4 4, ctag := fieldAt bs 96 8, attempts := fieldAt bs 104 2, code := fieldAt bs 106 2 }
/-- STATE, ATTEMPTS and CODE are zero, as they must be when the Marionette first reaches a node (R347). -/
def NodeSt.unreached (n : NodeSt) : Bool := decide (n.state = 0) && decide (n.attempts = 0) && decide (n.code = 0)

/-- The Marionette reaches a node by the scan or by a token, for the first time if it is not known: its fields are read. False where the node
is malformed, which it then becomes (R347, R354, R433). -/
def State.reachNode (s : State) (ctx gi i : Nat) : Acc (State × Bool) := do
  let g := s.graph ctx gi
  if (g.node i).known then .ok (s, true)
  else do
    let (s1, r) ← s.engRead (g.who ctx) (g.at i) 108
    match r with
    | none => (s1.failUnread ctx gi i).map (fun s => (s, false))
    | some bs =>
      let n := nodeOfBytes (g.node i) bs
      let s2 := s1.setGraph ctx gi ((g.hold bs).setNode i { n with known := n.unreached, state := 0 })
      if n.unreached then .ok (s2, true) else (s2.failNode ctx gi i codeMalformed).map (fun s => (s, false))

/-! ### Launch (R343, R347, R361) -/

/-- The fields of a graph record in ascending order (R343): offset of each, and whether it holds. -/
def graphChecks (bs : List Byte) : List (Nat × Bool) :=
  let f := fieldAt bs
  [(0, decide (f 0 8 % 192 = 0) && decide (f 0 8 + 192 * f 12 4 ≤ 2 ^ 56)), (8, decide (1 ≤ f 8 4) && decide (f 8 4 ≤ f 12 4)),
   (12, decide (1 ≤ f 12 4) && decide (f 12 4 ≤ 2 ^ 24)), (24, decide (f 24 2 ≤ 767)), (28, decide (f 28 2 = 0)), (30, decide (f 30 2 = 0))] ++
  [(32, decide (f 32 28 = 0)), (60, decide (f 60 4 = 0)), (64, decide (f 64 128 = 0))]

/-- `glaunch` (R347). -/
def execGlaunch (h : Hd) (ra : Reg) (s : State) : Result :=
  let ea := s.slot.opA ra.val
  .next (s.issueLong h false false
    (firstTrap [if 2 ^ 56 ≤ ea.toNat then some (s.fault .protection ea) else s.spanChk ea 192, s.requestChk .node])
    (wordOf (.glaunch h ra)) ea 0 { task := some .glaunch, ea := ea, remote := 1 })

/-- The read of the graph record, its checks, the hold while 256 graphs are live, and the registration step (R347). -/
def State.perfGlaunch (s : State) (tk : Task) : Perf :=
  let f := s.focus
  let w := s.who tk.nan
  let va := tk.ea.toNat
  let bad (s : State) (o : Nat) : Perf := .trap s (stepTrap .illegalField (BitVec.ofNat 64 (va + o)) 0 0)
  if s.paused w then .wait
  else
    perfOf (s.enter { w with engine := true, csets := false } .rw .read [(.glob va, 192)]) 0 0 0 (fun r =>
      let (s1, bs) := r.1.readSegs r.2
      let b := fieldAt bs
      match (if va % 192 ≠ 0 then some (0, false) else (graphChecks bs).find? (fun p => !p.2)) with
      | some p => bad s1 p.1
      | none =>
        if s.here.cr.det && decide (b 24 2 ≠ f.lc) then .hold (s.trapAt tk (fun s => s.fault .conflict 0))
        else
          match (List.range 256).find? (fun i => decide ((s.graph f.ctx i).ncap = 0)) with
          | none => .hold s
          | some gi =>
            let (t, s2) := s1.ask .node
            let counts := [b 8 4, 0, 0, 0, 0, 0, 0]
            let list (i : Nat) : Option (Nat × Nat) := s.listRange f.ctx (b 0 8 + 192 * i)
            let g : Graph := {
              addr := va, nodes := b 0 8, ncount := b 8 4, ncap := b 12 4, fpool := b 16 8, notify := b 24 2, tag := b 26 2, lc := f.lc, nan := tk.nan
              ticket := t, counts := counts
              lists := (List.range (b 8 4)).filterMap list
              unlisted := (List.range (b 8 4)).filter (fun i => (s.peekBytes f.ctx (b 0 8 + 192 * i) 192).isNone) }
            s.engPerf (graphTag gi 0 0) (do
              let s3 ← s2.engWrite (g.who f.ctx) (va + 28) (leBytes 2 1)
              let s4 ← s3.engWrite (g.who f.ctx) (va + 32) (countBytes counts)
              s4.engWrite (g.who f.ctx) (va + 60) (leBytes 4 0xFFFFFFFF)) (fun s5 => .done (s5.setGraph f.ctx gi g) [] 0))

/-- `gstat` (R361). -/
def execGstat (h : Hd) (rd ra : Reg) (s : State) : Result :=
  let ea := s.slot.rx ra.val
  .next (s.issueLong h false false (s.spanChk ea 64) 0 0 0 { task := some (.gstat rd.val), ea := ea, remote := remoteOf s.focus.lc ea })

/-- The snapshot: the engine's own state of a registered graph, else the words of the record (R361, R433); in deterministic mode not
before GSTATE = 2. -/
def State.perfGstat (s : State) (tk : Task) (rd : Nat) : Perf :=
  let f := s.focus
  let det := s.here.cr.det
  let live := (s.here.graphs.find? (fun e => decide (e.2.addr = tk.ea.toNat))).map (·.2)
  if det && (live.isSome || (s.peekNat f.ctx (tk.ea.toNat + 28) 2).any (fun g => decide (g ≠ 2))) then
    .hold (s.foldGlobal f.ctx (tk.ea.toNat + 28) 2)
  else
    perfOf (s.readAt (s.who tk.nan) (span f.lc tk.ea 64)) 0 0 0 (fun r =>
      let b := fieldAt r.2
      let (st, ff, cs) := match live with
        | some g => (1, g.ff, g.counts)
        | none => (b 28 2, b 60 4, (List.range 7).map (fun k => b (32 + 4 * k) 4))
      .done r.1 (takeOuts rd (((st + at' 32 ff) :: cs).map (BitVec.ofNat 64))) 0)

/-! ### Steps of the Marionette (R347, R349 to R352) -/

/-- A node that is PENDING with COUNT 0 is due to become ready (R351). -/
def Graph.dueIf (g : Graph) (i : Nat) : Graph :=
  if (g.node i).state = 0 ∧ (g.node i).count = 0 ∧ !g.due.contains i then { g with due := g.due ++ [i] } else g

/-- The used ranges of a node record; none where a descriptor breaks R349. -/
def rangesOf (bs : List Byte) : Option (List (Nat × Nat × Bool)) :=
  ((List.range 4).mapM (fun k =>
    let b := fieldAt bs (32 + 16 * k) 8
    let c := fieldAt bs (40 + 16 * k) 8
    let n := field c 0 48
    if field c 48 15 ≠ 0 ∨ 2 ^ 30 < n ∨ (n ≠ 0 ∧ 2 ^ 56 < b + n) then none
    else some (if n = 0 then [] else [(b, n, decide (field c 63 1 = 1))]))).map List.flatten

/-- What the Marionette keeps of a node record; none where the record breaks R344, R346 or R349. -/
def nodeInfo (bs : List Byte) : Option NodeInfo :=
  let f := fieldAt bs
  let pp := f 30 2
  match rangesOf bs with
  | none => none
  | some rs =>
    if f 8 8 % 192 = 0 ∧ f 8 8 < 2 ^ 56 ∧ f 16 8 % 4 = 0 ∧ f 16 8 < 2 ^ 56 ∧ (f 24 2 ≠ 0 ∨ f 26 2 ≠ 0 ∨ f 16 8 = 0) ∧
        (f 26 2 = 0 ∨ f 24 2 ≤ f 26 2) ∧ ppOk pp = true ∧ f 96 8 < 2 ^ 63 ∧ (bs.drop 108).all (· == 0) = true then
      some { cont := f 8 8, retry := f 28 2, place := field pp 2 10, prio := field pp 0 2, ranges := rs }
    else none

/-- One entry of a walk: the address of the entry of a 64 KiB leaf, or the next table. -/
def State.entryStep (s : State) (ctx va n table : Nat) : Option (Nat ⊕ Nat) :=
  let ea := table + 16 * field va (levelShift n) (levelBits n)
  let w0 := s.seenNat (s.ctxOf ctx) ea 8
  if n = 0 then some (.inl ea) else if w0 % 4 = 1 then some (.inr (field w0 9 39 * 512)) else none

/-- What follows an entry. -/
def entered (r : Option (Nat ⊕ Nat)) (onward : Nat → Option Nat) : Option Nat :=
  match r with
  | none => none
  | some (.inl ea) => some ea
  | some (.inr next) => onward next

/-- The physical address of the 64 KiB leaf entry of an address, also where V = 0. -/
def State.leafEntry (s : State) (ctx va : Nat) : Nat → Nat → Option Nat
  | 0, table => entered (s.entryStep ctx va 0 table) (fun _ => none)
  | m + 1, table => entered (s.entryStep ctx va (m + 1) table) (fun next => State.leafEntry s ctx va m next)

/-- Lines of a page filled into the RDC of die `d` (R153, R349). -/
def State.prefetchPage (s : State) (ctx d page : Nat) (l : Leaf) : State :=
  (List.range 342).foldl (fun s i => if Config.fills s.draws then (s.countFill ctx d (page + 192 * i) l).draw else s.draw) s

/-- An entry of a frame pool (R350): list, count, capacity. -/
def State.poolEntry (s : State) (w : Who) (fpool d : Nat) : Acc (State × Option (Nat × Nat × Nat)) :=
  (s.engRead w (fpool + 16 * d) 16).map (fun r => (r.1, r.2.map (fun bs => (fieldAt bs 0 8, fieldAt bs 8 4, fieldAt bs 12 4))))

/-- The frame that a pool gives for a page (R350): the highest-index one of its colour. -/
def pickFrame (fs : List Nat) (page : Nat) : Option Nat :=
  ((List.range fs.length).filter (fun j => decide (fs.getD j 0 % 3 = page / 65536 % 3))).getLast?

/-! ### Wait lists (R151, R160) -/

/-- The logical core concerned by a wait. -/
def State.waiterCore (s : State) (ctx : Nat) : Waiter → Nat
  | .record lc _ => lc
  | .slot party => party / 16
  | .hart h t =>
    let x := s.hart h
    match x.queue.findSome? (fun q =>
      match q with
      | .copy r => if r.ctx = ctx ∧ r.ticket = t then some r.lc else none
      | .sub _ => none) with
    | some l => l
    | none => ((x.subs.find? (fun e => decide (e.2.ctx = ctx) && decide (e.2.ticket = t))).map (fun e => e.2.lc)).getD 0
  | .phase => 0
  | .engine tag =>
    if tag / 8 / 2 ^ 25 = 0x100 then tag / 8 % 2 ^ 25 / 16
    else if tag < 2 ^ 48 then (s.graph ctx (tag / 8 / 2 ^ 25 % 2 ^ 9)).lc else (((s.ctxOf ctx).loop).map (·.lc)).getD 0

/-- A command or subscription of a hart goes on after the release of its page (R309). -/
def State.resumeHart (s : State) (ctx h t : Nat) : State :=
  let x := s.hart h
  s.setHart h { x with
    queue := x.queue.map (fun q =>
      match q with
      | .copy r => if r.ctx = ctx ∧ r.ticket = t then .copy { r with waiting := false } else q
      | .sub _ => q)
    subs := x.subs.map (fun e => if e.2.ctx = ctx ∧ e.2.ticket = t then (e.1, { e.2 with waiting := false }) else e) }

/-- One entry of a released list: a record is queued, a held slot is to restart, a step of hardware goes on (R109, R151). -/
def State.releaseWaiter (s : State) (ctx : Nat) : Waiter → State
  | .record lc q => s.enqueue ctx lc q
  | .slot party => s.modSlot { ctx := ctx, lc := party / 16, pos := party % 16 } (fun t => if t.mode = .held then { t with mode := .released } else t)
  | .hart h t => s.resumeHart ctx h t
  | .phase | .engine _ => s

/-- The translating slice of a page walks the tables again: the page's wait list is released, or stays with a new TRAPNOTE (R151, R160). -/
def State.reexamine (s : State) (ctx page : Nat) : State :=
  let ws := Tab.get [] (s.ctxOf ctx).waitLists page
  match s.leaf ctx (page * 65536) with
  | .error .pageAbsent =>
    match ws with
    | [] => s
    | w :: _ => s.trapnote ctx 2 (s.waiterCore ctx w) (BitVec.ofNat 64 (page * 65536)) 0
  | _ => ws.foldl (fun s w => s.releaseWaiter ctx w) (s.modCtx ctx (fun c => { c with waitLists := Tab.set [] c.waitLists page [] }))

/-! ### The ranges of a node (R156, R349, R350) -/

/-- A frame can take the contents of the page that `l` maps: it is the context's, of the leaf's mode, and no read of the old frame or write
of the new one is refused (R146, R156, R399). -/
def State.frameFits (s : State) (ctx : Nat) (l : Leaf) (frame : Nat) : Bool :=
  let pa := frame * 65536
  inHbm pa && decide (frameOwner (s.frame pa) = ctx) && decide (frameMode (s.frame pa) = l.mode) && (s.controller ctx l l.pa).isNone &&
    !s.integrity l l.pa 65536 false && !s.integrity l pa 65536 true

/-- Takes a frame for a page from the pool entry of die `d`, if it has one of the page's colour that fits and the entry of the page's die
has a place for the old one (R350). -/
def State.takeFrame (s : State) (ctx : Nat) (g : Graph) (d page : Nat) (l : Leaf) : Acc (State × Option Nat) := do
  let w := g.who ctx
  let (s1, ed) ← s.poolEntry w g.fpool d
  let (s2, ee) ← s1.poolEntry w g.fpool l.home
  match ed, ee with
  | some (ld, cd, _), some (_, ce, cap) => do
    let (s3, fs) ← s2.engRead w ld (4 * cd)
    let frames := (List.range cd).map (fun j => fieldAt (fs.getD []) (4 * j) 4)
    match (if fs.isSome ∧ ce < cap then pickFrame frames page else none) with
    | none => .ok (s3, none)
    | some j =>
      if !s.frameFits ctx l (frames.getD j 0) then .ok (s3, none)
      else do
        let s4 ← s3.engWrite w (ld + 4 * j) (leBytes 4 (frames.getD (cd - 1) 0))
        let s5 ← s4.engWrite w (g.fpool + 16 * d + 8) (leBytes 4 (cd - 1))
        .ok (s5, some (frames.getD j 0))
  | _, _ => .ok (s2, none)

/-- Appends a frame to the pool entry of a die, if it has a place (R350). -/
def State.giveFrame (s : State) (ctx : Nat) (g : Graph) (d frame : Nat) : Acc State := do
  let (s1, e) ← s.poolEntry (g.who ctx) g.fpool d
  match e with
  | none => .ok s1
  | some (l, c, cap) =>
    if cap ≤ c then .ok s1
    else do
      let s2 ← s1.engWrite (g.who ctx) (l + 4 * c) (leBytes 4 frame)
      s2.engWrite (g.who ctx) (g.fpool + 16 * d + 8) (leBytes 4 (c + 1))

/-- Writes a leaf entry by its place in memory. -/
def State.writeEntry (s : State) (ctx lc ea w0 w1 : Nat) : Acc State := do
  let g : Seg := { key := ea, len := 16, off := ea }
  let s1 ← s.settleLines ctx [g]
  .ok (s1.putSegs (16 * lc) [g] (leBytes 8 w0 ++ leBytes 8 w1))

/-- Replaces what a graph keeps of a node's ranges, or ends it. -/
def Graph.setMove (g : Graph) (m : NodeMove) : Graph := { g with moves := g.moves.map (fun x => if x.node = m.node then m else x) }
def Graph.endMove (g : Graph) (i : Nat) : Graph := { g with moves := g.moves.filter (fun x => decide (x.node ≠ i)) }

/-- The next page of a node's ranges for target die `d`: left alone, prefetched, or a frame is taken for it (R349); after the last the
node is to be queued (R351). -/
def State.nextPage (s : State) (ctx gi d : Nat) (m : NodeMove) : Acc State :=
  let g := s.graph ctx gi
  match m.pages with
  | [] => .ok (s.setGraph ctx gi { g.endMove m.node with dispatch := g.dispatch ++ [m.node] })
  | (page, pre) :: r =>
    let past (s : State) : State := s.modGraph ctx gi (·.setMove { m with pages := r })
    match s.leaf ctx page with
    | .error _ => .ok (past s)
    | .ok l =>
      if pre || (s.ctxOf ctx).cr.det || decide (l.level ≠ 0) then .ok (past (s.prefetchPage ctx d page l))
      else if l.home = d then .ok (past s)
      else if g.fpool = 0 ∨ inWindow l.pa = true then .ok (past (s.prefetchPage ctx d page l))
      else (s.takeFrame ctx g d page l).map (fun r =>
        match r.2 with
        | none => past (r.1.prefetchPage ctx d page l)
        | some f => r.1.modGraph ctx gi (·.setMove { m with stage := .taken, frame := f, die := d, old := l.pa / 65536 }))

/-- One step of the move of page `page` to die `d` (R156, R349, R350; log 46). A step that would be refused gives the page its old frame
back, and it is prefetched instead. -/
def State.pageStep (s : State) (ctx gi d page : Nat) (m : NodeMove) : Acc State :=
  let g := s.graph ctx gi
  let into (st : MoveStage) (s : State) : State := s.modGraph ctx gi (·.setMove { m with stage := st })
  let s := s.foldPlain ctx (s.walkLines ctx page)
  match s.leafEntry ctx page 4 (s.ctxOf ctx).cr.root with
  | none => .ok (into .give s)
  | some ea =>
    let w0 := s.seenNat (s.ctxOf ctx) ea 8
    let w1 := s.seenNat (s.ctxOf ctx) (ea + 8) 8
    let l := leafOf page 0 w0 w1
    match m.stage with
    | .next => .ok s
    | .taken => if w0 % 2 = 0 ∨ l.pa / 65536 ≠ m.old then .ok (into .give s) else (s.writeEntry ctx g.lc ea (w0 - 1) w1).map (into .cleared)
    | .cleared => do
      let s1 ← s.settleLines ctx [{ key := m.old * 65536, len := 65536, off := page }]
      .ok (into .absent ((s1.staleImages ctx page 65536).reexamine ctx (page / 65536)))
    | .absent =>
      if s.frameFits ctx l m.frame then
        .ok (into .copied (s.putSegs (16 * g.lc) [{ key := m.frame * 65536, len := 65536, off := page }] (Mem.bytes s.mem (m.old * 65536) 65536)))
      else (s.writeEntry ctx g.lc ea (w0 / 2 * 2 + 1) w1).map (fun s => into .mapped (s.prefetchPage ctx d page l))
    | .copied =>
      (s.writeEntry ctx g.lc ea (w0 / 2 * 2 + 1 - at' 16 (field w0 16 32) + at' 16 m.frame) (w1 - at' 24 (field w1 24 2) + at' 24 d)).map (fun s =>
        s.modGraph ctx gi (·.setMove { m with stage := .mapped, frame := m.old, die := l.home }))
    | .mapped => .ok (into .give ((s.staleImages ctx page 65536).reexamine ctx (page / 65536)))
    | .give => (s.giveFrame ctx g m.die m.frame).map (·.modGraph ctx gi (·.setMove { m with stage := .next, pages := m.pages.tail }))

/-- The next step on a node's ranges (R349, R351 step 2). Those of a node that has failed are left, once its page in hand is mapped. -/
def State.rangeStep (s : State) (ctx gi : Nat) (m : NodeMove) : Acc State :=
  let n := (s.graph ctx gi).node m.node
  let d := n.q.getD 0 / 192
  if m.stage ≠ .next then s.pageStep ctx gi d (m.pages.headD (0, false)).1 m
  else if n.state = 1 ∨ n.state = 3 then s.nextPage ctx gi d m
  else .ok (s.modGraph ctx gi (·.endMove m.node))

/-- The pages that ranges overlap, with their PREFETCH bits. -/
def rangePages (rs : List (Nat × Nat × Bool)) : List (Nat × Bool) :=
  rs.flatMap (fun r =>
    let first := r.1 / 65536
    (List.range ((r.1 + r.2.1 - 1) / 65536 + 1 - first)).map (fun i => ((first + i) * 65536, r.2.2)))

/-- The ranges of a node are to be treated (R351 step 2). -/
def Graph.treat (g : Graph) (i : Nat) (inf : NodeInfo) : Graph := { g with moves := g.moves ++ [{ node := i, pages := rangePages inf.ranges }] }

/-- NODE_READY: the record and the successor list are read and the state becomes READY (R351 step 1); and each later step that treats the
node's ranges (R351 step 2). -/
def execNodeReady (ctx gi i : Nat) (s : State) : Result :=
  let g := s.graph ctx gi
  .next (match g.moves.find? (fun m => decide (m.node = i)) with
    | some m => s.engStep ctx g.lc (graphTag gi i 2) (s.rangeStep ctx gi m)
    | none =>
      if !g.due.contains i then s
      else
        let s0 := s.setGraph ctx gi { g with due := g.due.erase i }
        if (g.node i).state ≠ 0 ∨ (g.node i).count ≠ 0 then s0
        else s.engStep ctx g.lc (graphTag gi i 2) (do
          let (s1, r) ← s0.engRead (g.who ctx) (g.at i) 192
          match r with
          | none => s1.failUnread ctx gi i
          | some bs =>
            let s2 := s1.modGraph ctx gi (·.hold bs)
            match nodeInfo bs with
            | none => s2.failNode ctx gi i codeMalformed
            | some inf => do
              let k := fieldAt bs 24 2
              let (s3, l) ← if k = 0 then .ok (s2, some []) else s2.engRead (g.who ctx) (fieldAt bs 16 8) (4 * k)
              match l, (if inf.place < 768 then some inf.place else s.homeAt ctx (g.at i)) with
              | none, _ => s3.failUnread ctx gi i
              | some lb, some q =>
                let succ := (List.range k).map (fun j => fieldAt lb (4 * j) 4)
                if succ.any (fun j => decide (g.ncount ≤ j)) then s3.failNode ctx gi i codeMalformed
                else do
                  let s4 ← s3.nodeState ctx gi i 1 (fun n => { n with info := some inf, succ := succ, q := some q })
                  .ok (s4.modGraph ctx gi (·.treat i inf))
              | _, none => s3.failNode ctx gi i codeMalformed))

/-- The record built from a template (R352); none where R106 or the limit of sixteen registers refuses it. -/
def nodeRecord (bs : List Byte) (addr i bind prio : Nat) : Option Record :=
  let t := Record.parse bs
  let mask := t.mask ||| 0x300
  if (Record.badField bs).isSome ∨ 16 < popCount 32 mask.toNat then none
  else
    let old := (maskRegs t.mask).zip t.live
    let val (r : Nat) : Word := if r = 8 then BitVec.ofNat 64 addr else if r = 9 then BitVec.ofNat 64 i else
      ((old.find? (fun p => decide (p.1 = r))).map (·.2)).getD 0
    some { pc := t.pc, mask := mask, bind := bind, nan := t.nan, prio := prio, node := BitVec.ofNat 64 addr, k1 := t.k1
           live := (maskRegs mask).map val }

/-- The number by which a node's dispatch holds for want of a record, beyond every slot's (R106). -/
def nodeHold (gi i : Nat) : Nat := 64 + gi * 2 ^ 25 + i

/-- NODE_DISPATCH: the template is read, and the record built from it is queued (R351 steps 3 and 4, R352). -/
def execNodeDispatch (ctx gi i : Nat) (s : State) : Result :=
  let g := s.graph ctx gi
  let n := g.node i
  .next (if !g.dispatch.contains i || (s.ctxOf ctx).sealing then s
    else
      let s0 := s.setGraph ctx gi { g with dispatch := g.dispatch.erase i }
      let place := nodeHold gi i
      match (if n.state = 1 ∨ n.state = 3 then n.info else none), n.q with
      | some inf, some q =>
        s.engStep ctx g.lc (graphTag gi i 3) (do
          let (s1, r) ← s0.engRead (g.who ctx) inf.cont 192
          let bind := if (s.ctxOf ctx).cr.det then q else inf.place
          match r.bind (fun bs => nodeRecord bs (g.at i) i bind inf.prio) with
          | none => s1.failNode ctx gi i codeMalformed
          | some rec' =>
            match s1.takeRecordFor ctx q (some place) rec' with
            | none => .ok (s.poolHold ctx q place)
            | some (k, s2) =>
              let (cid, s3) := s2.newCid ctx
              .ok (s3.enqueue ctx q { ref := k, bind := bind, prio := inf.prio, cid := cid, node := rec'.node }))
      | _, q => s0.poolOver ctx (q.getD 0) place false)

/-- The grant of a node's continuation makes it RUNNING (R351). -/
def State.nodeGranted (s : State) (ctx : Nat) (node : Word) : Acc State :=
  match (if node = 0 then none else (s.ctxOf ctx).nodeOf node) with
  | some (gi, g, i) => if (g.node i).state = 1 ∨ (g.node i).state = 3 then s.nodeState ctx gi i 2 id else .ok s
  | none => .ok s

/-! ### Retirement, tokens and the sweep (R354 to R357) -/

/-- The retirement step of a node: as by `nodedone`, or by `nodefail` with a code, which within the retry budget builds a new continuation
under R351 steps 2 to 4 (R355). -/
def State.retireNode (s : State) (ctx : Nat) (node : Word) (fail : Option Nat) : Acc State :=
  match (if node = 0 then none else (s.ctxOf ctx).nodeOf node) with
  | none => .ok s
  | some (gi, g, i) =>
    let n := g.node i
    if 4 ≤ n.state then .ok s
    else
      match fail with
      | none => (s.nodeState ctx gi i 4 id).map (fun s1 =>
          if n.succ.isEmpty then s1 else s1.modGraph ctx gi (fun g => { g with tokens := g.tokens ++ [n.succ] }))
      | some code =>
        if n.attempts < (n.info.map (·.retry)).getD 0 then do
          let s1 ← s.nodeState ctx gi i 3 (fun n => { n with attempts := n.attempts + 1, code := code })
          let s2 ← s1.engWrite (g.who ctx) (g.at i + 104) (leBytes 2 (n.attempts + 1) ++ leBytes 2 code)
          .ok (n.info.elim s2 (fun inf => s2.modGraph ctx gi (·.treat i inf)))
        else s.failNode ctx gi i code

/-- The number by which the retirement of a node whose continuation is lost waits on a page. -/
def Graph.lostTag (g : Graph) (gi : Nat) (node : Word) : Nat := graphTag (2 ^ 9 + gi) ((node.toNat - g.nodes) / 192) 4

/-- GRAPH_SCAN: a node whose continuation a lasting fault has lost is retired (R342); else the next node of the scan (R347). The scan does not
wait for a retirement that waits on a page (R433). -/
def execGraphScan (ctx gi : Nat) (s : State) : Result :=
  let g := s.graph ctx gi
  let i := g.scan
  .next (match g.lost.find? (fun node => !s.engHeld ctx (g.lostTag gi node)) with
    | some node =>
      s.engStep ctx g.lc (g.lostTag gi node) ((s.setGraph ctx gi { g with lost := g.lost.erase node }).retireNode ctx node (some codeLost))
    | none =>
      if g.ncap = 0 ∨ g.ncount ≤ i then s
      else s.engStep ctx g.lc (graphTag gi i 1) (do
        let (s1, ok) ← s.reachNode ctx gi i
        .ok (s1.modGraph ctx gi (fun g => { (if ok then g.dueIf i else g) with scan := i + 1 }))))

/-- The node of a continuation that a lasting fault has lost is to be retired (R342). -/
def State.loseNode (s : State) (ctx : Nat) (node : Word) : State :=
  match (if node = 0 then none else (s.ctxOf ctx).nodeOf node) with
  | none => s
  | some (gi, g, _) => s.setGraph ctx gi { g with lost := g.lost ++ [node] }

/-- Issues `nodedone` or `nodefail`, whose step waits for every earlier access of the slot (R170, R355). -/
def State.issueRetire (s : State) (h : Hd) (fail : Option Nat) : State :=
  let node := s.slot.node
  match s.slot.gate h true false false with
  | some k => s.takeTrap (s.fault k 0)
  | none =>
    if node = 0 ∨ 8 ≤ s.focus.pos then s.takeTrap (s.fault .protection 0)
    else if !s.slot.tasks.isEmpty then s.drainWait
    else
      s.engStep s.focus.ctx s.focus.lc (graphTag 0x100 s.party 4) ((s.retireNode s.focus.ctx node fail).map (fun s1 =>
        s1.mod (fun t => { (t.addLong s.cycle 0 0 0 {}).retire h with node := 0 })))
def execNodedone (h : Hd) (s : State) : Result := .next (s.issueRetire h none)
def execNodefail (h : Hd) (code : BitVec 16) (s : State) : Result := .next (s.issueRetire h (some code.toNat))

/-- NODE_TOKEN: the oldest token of one of the retirements on their way (R354, R355). -/
def execNodeToken (ctx gi : Nat) (s : State) : Result :=
  let g := s.graph ctx gi
  let k := if g.tokens.length = 0 then 0 else Config.pick s.draws % g.tokens.length
  .next (match g.tokens.getD k [] with
    | [] => s
    | j :: rest =>
      let s0 := (s.setGraph ctx gi { g with tokens := if rest.isEmpty then g.tokens.eraseIdx k else g.tokens.set k rest }).draw
      s.engStep ctx g.lc (graphTag gi j 5) (do
        let (s1, ok) ← s0.reachNode ctx gi j
        if !ok then .ok s1
        else
          let n := (s1.graph ctx gi).node j
          if 4 ≤ n.state then .ok s1
          else if n.state ≠ 0 ∨ n.count = 0 then s1.failNode ctx gi j codeMalformed
          else
            let s2 := s1.modGraph ctx gi (fun g => { g.setNode j { n with count := n.count - 1 } with
              due := if n.count = 1 ∧ !g.due.contains j then g.due ++ [j] else g.due })
            s2.engWrite (g.who ctx) (g.at j + 4) (leBytes 4 (n.count - 1))))

/-- One node of a sweep level, and its successors for the next (R357); a node whose record or list cannot be read is malformed (R433). -/
def State.sweepNode (s : State) (ctx gi f i : Nat) : Acc (State × List Nat) := do
  let g := s.graph ctx gi
  let n := g.node i
  let tag := 2 ^ 63 + f
  let (s1, st) ← if n.known then .ok (s, some n.state) else (s.engRead (g.who ctx) (g.at i) 4).map (fun r => (r.1, r.2.map leNat))
  match st with
  | none => (s1.failUnread ctx gi i).map (fun s => (s, []))
  | some st =>
    if st = 0 ∨ (n.known = true ∧ st = 6 ∧ f < n.ctag % 2 ^ 24) then do
      let (s2, l) ← s1.succsOf ctx g i
      match l with
      | none => (s2.failUnread ctx gi i).map (fun s => (s, []))
      | some succ => do
        let s3 ← if st = 0 then s2.nodeState ctx gi i 6 (fun n => { n with ctag := tag })
          else .ok (s2.modGraph ctx gi (·.setNode i { n with ctag := tag }))
        (s3.engWrite (g.who ctx) (g.at i + 96) (leBytes 8 tag)).map (fun s => (s, succ))
    else .ok (s1, [])

/-- DOMINO_SWEEP: the next node of one of the sweeps in progress (R357). -/
def execDominoSweep (ctx gi : Nat) (s : State) : Result :=
  let g := s.graph ctx gi
  let k := if g.sweeps.length = 0 then 0 else Config.pick s.draws % g.sweeps.length
  .next (match g.sweeps[k]? with
    | none => s
    | some w =>
      match w.level with
      | [] =>
        (s.setGraph ctx gi { g with sweeps := if w.next.isEmpty then g.sweeps.eraseIdx k else g.sweeps.set k { w with level := risingUniq w.next, next := [] } }).draw
      | i :: rest =>
        s.engStep ctx g.lc (graphTag gi i 6) (do
          let (s1, succ) ← s.draw.sweepNode ctx gi w.f i
          .ok (s1.modGraph ctx gi (fun g => { g with sweeps := g.sweeps.set k { w with level := rest, next := w.next ++ succ } }))))

/-! ### Live graphs (R358) -/

/-- The scan has finished, every node is settled, and every token and sweep has been taken (R360); no page is on its way (R349). -/
def Graph.ended (g : Graph) : Bool :=
  decide (g.ncap ≠ 0) && decide (g.ncount ≤ g.scan) && (g.counts.take 4).all (· == 0) && g.tokens.isEmpty && g.sweeps.isEmpty && g.moves.isEmpty

/-- `nodeadd` (R358). -/
def execNodeadd (h : Hd) (rd ra rb : Reg) (s : State) : Result :=
  let t := s.slot
  .next (s.issueLong h false false (s.spanChk (t.rx rb.val) 192) 0 0 0
    { task := some (.nodeadd rd.val (t.rx rb.val)), ea := t.rx ra.val, remote := 1 })

/-- The copy of a prepared record into the node array (R358). A graph that is done takes none, though its notice is still to come (R360, log
64). -/
def State.perfNodeadd (s : State) (tk : Task) (rd : Nat) (rec' : Word) : Perf :=
  let ctx := s.focus.ctx
  let none' (s : State) : Perf := .done s [.x rd 0xFFFFFFFF] 0
  perfOf (s.readAt (s.who tk.nan) (span s.focus.lc rec' 192)) 0 0 0 (fun r =>
    let s0 := r.1
    match s0.here.graphs.find? (fun e => decide (e.2.addr = tk.ea.toNat)) with
    | none => none' s0
    | some (gi, g) =>
      if g.ncap ≤ g.ncount ∨ g.ended = true then none' s0
      else
        let i := g.ncount
        let b := fieldAt r.2
        let cs := g.counts.set 0 (g.counts.getD 0 0 + 1)
        let added := match s.here.nodeOf s.slot.node with
          | some (gj, _, j) => if gj = gi ∧ s.slot.node ≠ 0 then j + 1 else 0
          | none => 0
        let bad := decide (b 0 4 ≠ 0) || decide (b 104 4 ≠ 0) || !(r.2.drop 108).all (· == 0)
        let n : NodeSt := { known := true, count := b 4 4, ctag := b 96 8, attempts := b 104 2, added := added }
        let g1 := { (g.setNode i n).hold r.2 with ncount := i + 1, counts := cs, due := if b 4 4 = 0 ∧ !bad then g.due ++ [i] else g.due }
        s.engPerf (graphTag gi i 7) (do
          let s1 ← s0.engWrite (g.who ctx) (g.at i) r.2
          let s2 ← s1.engWrite (g.who ctx) (g.addr + 8) (leBytes 4 (i + 1))
          let s3 ← s2.engWrite (g.who ctx) (g.addr + 32) (countBytes cs)
          let s4 := s3.setGraph ctx gi g1
          if bad then s4.failNode ctx gi i codeMalformed else .ok s4) (fun s5 => .done s5 [.x rd (BitVec.ofNat 64 i)] 0))

/-- `edgeadd` (R358). -/
def execEdgeadd (h : Hd) (rd ra rb : Reg) (s : State) : Result :=
  let t := s.slot
  let own := decide (t.rx ra.val = t.node) && match s.here.nodeOf t.node, s.here.nodeOf (t.rx rb.val) with
    | some (gi, _, i), some (gj, g, j) => decide (gi = gj) && decide ((g.node j).added = i + 1)
    | _, _ => false
  .next (s.issueLong h false false (if s.here.cr.det && !own then some (s.fault .conflict 0) else none) 0 0 0
    { task := some (.edgeadd rd.val (t.rx rb.val)), ea := t.rx ra.val, remote := 1 })

/-- A node as `edgeadd` finds it, which does not reach it as the scan and tokens do: none where its record cannot be read (R358, R433). -/
def State.lookNode (s : State) (ctx gi i : Nat) : Acc (State × Option NodeSt) := do
  let g := s.graph ctx gi
  if (g.node i).known then .ok (s, some (g.node i))
  else do
    let (s1, r) ← s.engRead (g.who ctx) (g.at i) 108
    match r with
    | none => (s1.failUnread ctx gi i).map (fun s => (s, none))
    | some bs => .ok (s1, some (nodeOfBytes (g.node i) bs))

/-- The engine's own state of a node after `edgeadd`: a node that the scan will still find malformed stays as its record gives it. -/
def Graph.edged (g : Graph) (i : Nat) (n : NodeSt) : Graph :=
  if (g.node i).known || n.unreached then g.setNode i { n with known := true } else g

/-- The addition of an edge, or the status that refuses it and changes nothing (R358). -/
def State.addEdge (s : State) (ctx gi i j : Nat) : Acc (State × Nat) := do
  let w := (s.graph ctx gi).who ctx
  let (s1, n) ← s.lookNode ctx gi i
  let (s2, m) ← s1.lookNode ctx gi j
  let g := s2.graph ctx gi
  match n, m with
  | none, _ => .ok (s2, 1)
  | _, none => .ok (s2, 2)
  | some n, some m =>
    if 4 ≤ n.state then .ok (s2, 1)
    else if m.state ≠ 0 then .ok (s2, 2)
    else do
      let (s3, r) ← s2.engRead w (g.at i + 16) 12
      match r with
      | none => (s3.failUnread ctx gi i).map (fun s => (s, 1))
      | some bs => do
        let k := fieldAt bs 8 2
        if (if fieldAt bs 10 2 = 0 then k else fieldAt bs 10 2) ≤ k then .ok (s3, 3)
        else do
          let s4 ← s3.engWrite w (fieldAt bs 0 8 + 4 * k) (leBytes 4 j)
          let s5 ← s4.engWrite w (g.at i + 24) (leBytes 2 (k + 1))
          let s6 ← s5.engWrite w (g.at j + 4) (leBytes 4 (m.count + 1))
          let n1 := { n with succ := if n.info.isSome then n.succ ++ [j] else n.succ }
          .ok (s6.modGraph ctx gi (fun g => (g.edged i n1).edged j { (if i = j then n1 else m) with count := m.count + 1 }), 0)
def State.perfEdgeadd (s : State) (tk : Task) (rd : Nat) (succ : Word) : Perf :=
  let f := s.focus
  if s.paused (s.who tk.nan) then .wait
  else if s.outsideLoop then .refuse .conflict tk.ea 0 0 0
  else
    match s.here.nodeOf tk.ea, s.here.nodeOf succ with
    | some (gi, _, i), some (gj, _, j) =>
      if gi = gj then
        s.engPerf (graphTag gi i 7) (s.addEdge f.ctx gi i j) (fun r => .done (r.1.tick f.ctx s.party 0) [.x rd (BitVec.ofNat 64 r.2)] 0)
      else .done (s.tick f.ctx s.party 0) [.x rd 4] 0
    | _, _ => .done (s.tick f.ctx s.party 0) [.x rd 4] 0

/-! ### Completion (R360) -/

/-- The logical core under which a FAILED node is counted (R360). -/
def State.failCore (s : State) (ctx : Nat) (n : NodeSt) : Nat :=
  match n.q with
  | some q => if s.placed ctx q then q else (s.members ctx).headD 0
  | none => (s.members ctx).headD 0

/-- What a logical core adds to the status word: its FAILED nodes and the lowest of them (R360). -/
def State.ownReport (s : State) (ctx : Nat) (g : Graph) (lc : Nat) : Nat × Nat :=
  let fs := g.sts.filter (fun e => decide (e.2.state = 5) && decide (s.failCore ctx e.2 = lc))
  (fs.length, fs.foldl (fun m e => Nat.min m e.1) 0xFFFFFFFF)

/-- The children of a logical core in the spanning tree (R360). -/
def treeChildren (lc : Nat) : List Nat := ((List.range 4).map (fun k => 4 * lc + 1 + k)).filter (fun l => decide (l < 768))

/-- TREE_REPORT: a logical core whose children have reported sends its combined word upward (R360). -/
def execTreeReport (ctx gi lc : Nat) (s : State) : Result :=
  let g := s.graph ctx gi
  .next (if !g.ended || decide (768 ≤ lc) || g.reported.contains lc || (treeChildren lc).any (fun c => !g.reported.contains c) then s
    else
      let rs := s.ownReport ctx g lc :: (treeChildren lc).map (Tab.get (0, 0xFFFFFFFF) g.reports)
      let r := rs.foldl (fun p q => (p.1 + q.1, Nat.min p.2 q.2)) (0, 0xFFFFFFFF)
      s.setGraph ctx gi { g with reports := Tab.set (0, 0xFFFFFFFF) g.reports lc r, reported := lc :: g.reported })

/-- The channel of the notices of graphs (R187, R359). -/
def nodeChannel : Nat := 0x3FE * 16 + Kind.node.code

/-- GRAPH_DONE: the root's step (R359, R360). In deterministic mode it waits for the graphs launched earlier with the same NOTIFY. -/
def execGraphDone (ctx gi : Nat) (s : State) : Result :=
  let g := s.graph ctx gi
  let c := s.ctxOf ctx
  let early := (c.cr.det && (c.graphs.any (fun e => decide (e.2.notify = g.notify) && decide (e.2.ticket < g.ticket)) ||
      c.loop.any (fun l => decide (l.lc = g.notify) && decide (l.ticket < g.ticket)))) ||
    c.deferred.any (fun d => decide (d.dst = g.notify) && decide (d.msg.channel = nodeChannel))
  .next (if !g.ended || !g.reported.contains 0 || early then s
    else
      let r := Tab.get (0, 0xFFFFFFFF) g.reports 0
      let w := g.who ctx
      s.engStep ctx g.lc (graphTag gi 0 0) (do
        let s1 ← s.engWrite w (g.addr + 28) (leBytes 2 2)
        let s2 ← s1.engWrite w (g.addr + 32) (countBytes g.counts ++ leBytes 4 r.2)
        match (s2.setGraph ctx gi {}).event ctx g.notify { src := 0x3FE, kind := .node, nan := g.nan, tag := g.tag, words :=
            ([1, g.addr, g.counts.getD 4 0, r.1, g.counts.getD 6 0, r.2, g.ncount].map (BitVec.ofNat 64)) } with
        | some s3 => .ok s3
        | none => .error (.full g.notify nodeChannel)))

end Sys2Proof.Machine
end

