-- ==== Sys2Proof/Machine/Phase.lean ====
section
/-! DEFINITION. The phase step, the placing of its events, and the fold of a line (07 R174, R181, R182; 08 R189, R197, R201, R205,
R432). -/

namespace Sys2Proof.Machine

/-- A cell access of a phase step, made for logical core `lc` (R432), under the party number of its slot 0 (DESIGN CHOICE, log 84). -/
def phaseWho (ctx lc : Nat) : Who := { ctx := ctx, lc := lc, party := 16 * lc, shadows := false, engine := true }

/-- A read, or a write of `bs`, by hardware that needs R and W: dropped where it is refused; an absent page stops the step (R432,
R433, R375). -/
def State.engRW (s : State) (w : Who) (va n : Nat) (bs : Option (List Byte)) : Acc (State × Option (List Byte)) :=
  match (do
    let (s1, gs) ← s.enter w .rw (if bs.isNone then .read else .write) (pagePieces va n)
    match bs with
    | none => .ok ((s1.readSegs gs).1, some (s1.segBytes gs))
    | some b => ((s1.putPlain w.party gs b).afterStore w gs).map (fun s2 => (s2, some b)) : Acc (State × Option (List Byte))) with
  | .ok r => .ok r
  | .error (.refuse k a) => if k = .pageAbsent then .error (.refuse k a) else .ok ((s.poisonFull w.ctx k a).engNote w.ctx w.lc k a, none)
  | .error h => .error h

/-- Inserts a contribution after those of lower or equal logical core. -/
def Contrib.insert (p : Contrib) : List Contrib → List Contrib
  | [] => [p]
  | q :: r => if q.lc ≤ p.lc then q :: Contrib.insert p r else p :: q :: r
/-- Ascending logical core, then perform order (R205). -/
def contribOrder (ps : List Contrib) : List Contrib := ps.foldl (fun l p => p.insert l) []

/-- Inserts an event by its ticket. -/
def Deferred.insert (d : Deferred) : List Deferred → List Deferred
  | [] => [d]
  | e :: r => if e.ticket ≤ d.ticket then e :: Deferred.insert d r else d :: e :: r

/-- The COUNT messages of one prefix cell (R205). -/
def prefixMsgs (cell base total : Word) (run : Word) : List Contrib → List Deferred
  | [] => []
  | p :: r =>
    { dst := p.lc, ticket := p.ticket, msg := { src := p.lc, kind := .count, nan := p.nan, words := [cell, base + run, total, base + total] } } ::
      prefixMsgs cell base total (run + p.val) r

/-- Completes the contributions to one prefix cell (R205, R432). -/
def State.prefixCell (s : State) (ctx : Nat) (cell : Word) : Acc (State × List Deferred) := do
  let ps := contribOrder ((s.ctxOf ctx).prefixes.filter (fun p => decide (p.cell = cell)))
  let w := phaseWho ctx ((ps.head?.map (·.lc)).getD 0)
  let (s1, r) ← s.engRW w cell.toNat 8 none
  let base := BitVec.ofNat 64 ((r.map leNat).getD 0)
  let total := ps.foldl (fun a p => a + p.val) 0
  let (s2, _) ← s1.engRW w cell.toNat 8 (some (leBytes 8 (base + total).toNat))
  .ok (s2, prefixMsgs cell base total 0 ps)

/-- Places an event in its channel, or keeps it until a place frees; it goes behind an earlier one of its channel (R189, R191). -/
def State.placeEvent (s : State) (ctx : Nat) (d : Deferred) : State :=
  let c := s.ctxOf ctx
  let keep (s : State) : State := s.modCtx ctx (fun c => { c with deferred := c.deferred ++ [d] })
  if c.deferred.any (fun e => decide (e.dst = d.dst) && decide (e.msg.kind = d.msg.kind) && decide (e.msg.src = d.msg.src)) ||
      (decide (d.msg.kind = .count) && c.countEarlier d.dst d.ticket) then keep s
  else
    match s.event ctx d.dst d.msg with
    | some s' => s'
    | none => (keep s).pendingWait ctx d.dst d.msg.channel

/-- The phase after one step (R181). -/
def nextPhase (p : Nat) : Nat := (p + 1) % 2 ^ 16

/-- The tables of a context after a phase step: the declarations take effect or end, and at a multiple of 32768 every stale shadow is
reset (R182, R201). -/
def Ctx.advance (c : Ctx) : Ctx :=
  let p := nextPhase c.phase
  { c with
    phase := p, guards := c.guardsNext, guardsNext := [], prefixes := []
    shadows := if p % 32768 = 0 then c.shadows.filter (fun e => decide (e.2.phase = p)) else c.shadows }

/-- The capability entries that the phase has ended become free (R253), and at a multiple of 32768 a writer noted in an earlier phase is
forgotten, as a sector's is (R182, R254). -/
def State.endCaps (s : State) (ctx : Nat) : State :=
  let p := (s.ctxOf ctx).phase
  ((s.cores.filter (fun e => decide (e.1 / 1024 = ctx) && !(e.2.caps.isEmpty && e.2.accWriter.isEmpty))).map (·.1)).foldl (fun s k => s.modCore ctx (k % 1024) (fun c =>
    { c with
      caps := c.caps.filter (fun e => e.2.live p)
      accWriter := if p % 32768 = 0 then c.accWriter.filter (fun e => decide (e.2 / 1024 = p)) else c.accWriter })) s

/-- Steps 1 and 2 of R197, the advance of `sys.phase`, and the COUNT messages in the order of their requests. -/
def State.phaseAdvance (s : State) (ctx : Nat) : Acc State := do
  let c := s.ctxOf ctx
  let s1 ← c.guardsNext.foldlM (fun s g => s.engWrite (phaseWho ctx g.lc) g.cell.toNat (leBytes 8 (g.target * 2 ^ 32))) s
  let (s2, ds) ← ((c.prefixes.map (·.cell)).eraseDups).foldlM (fun (r : State × List Deferred) cell =>
    (r.1.prefixCell ctx cell).map (fun q => (q.1, r.2 ++ q.2))) (s1, [])
  .ok (((ds.foldl (fun l d => d.insert l) []).foldl (fun s d => s.placeEvent ctx d) (s2.modCtx ctx Ctx.advance)).endCaps ctx)

/-- The BARRIER message of a member, whose oldest arrival is taken (R197, R187, R430). -/
def State.barrierMsg (s : State) (ctx lc : Nat) : State :=
  let c := s.core ctx lc
  (s.setCore ctx lc { c with arrivals := c.arrivals.tail }).placeEvent ctx
    { dst := lc, msg := { src := lc, kind := .bar, nan := c.arrivals.headD false, words := [BitVec.ofNat 64 (s.ctxOf ctx).phase] } }

/-- The logical core whose cell access a phase step makes at an address (R432). -/
def Ctx.cellCore (c : Ctx) (a : Word) : Nat :=
  match c.guardsNext.find? (fun g => decide (g.cell = a)) with
  | some g => g.lc
  | none => ((contribOrder (c.prefixes.filter (fun p => decide (p.cell = a)))).head?.map (·.lc)).getD 0

/-- PHASE_STEP: when every member of the barrier group has arrived (R181, R197). A cell on an absent page holds it (R432). -/
def execPhaseStep (ctx : Nat) (s : State) : Result :=
  let c := s.ctxOf ctx
  let ms := s.members ctx
  .next (if ms.isEmpty || ms.any (fun l => (s.core ctx l).arrivals.isEmpty) || c.waitLists.any (fun e => e.2.contains .phase) then s
    else
      match s.phaseAdvance ctx with
      | .ok s1 => ms.foldl (fun s l => s.barrierMsg ctx l) s1
      | .error (.refuse _ a) => s.waitOn ctx (c.cellCore a) (pageOf a) .phase
      | .error _ => s)

/-- The first waiting event of logical core `lc` whose turn has come. -/
def Ctx.readyEvent (c : Ctx) (lc : Nat) : List Deferred → List Deferred → Option Deferred
  | _, [] => none
  | before, d :: r =>
    if decide (d.dst = lc) && !before.any (fun e => decide (e.dst = lc) && decide (e.msg.kind = d.msg.kind) && decide (e.msg.src = d.msg.src)) &&
        !(decide (d.msg.kind = .count) && c.countEarlier lc d.ticket) then some d
    else Ctx.readyEvent c lc (before ++ [d]) r

/-- The first request of logical core `lc` that has found its cell reached and whose answer no earlier one holds back (R191, R200). -/
def Ctx.dueAnswer (c : Ctx) (lc : Nat) : Option CWatch :=
  c.cwatches.find? (fun q => q.hit && decide (q.lc = lc) && !c.countEarlier lc q.ticket)

/-- A TRAPNOTE of cause 10 follows the repair of its unit: the move of a core's logical cores, the remap of a lane, the promotion of the
standby (R426, R428). -/
def State.noteHeld (s : State) (ctx : Nat) (m : Msg) : Bool :=
  let w := (m.words.getD 1 0).toNat
  let number := field w 32 32
  decide (m.words.head? = some 10) && match field w 0 8 with
    | 1 => (s.ctxOf ctx).fled.contains number
    | 3 => s.lanePend.any (fun e => decide (e.1 = number))
    | 7 => decide (number = 0) && !s.standby && !Tab.get false s.retired (7 * 2 ^ 16 + 1)
    | _ => false

/-- The first TRAPNOTE that can be sent: one of cause 6 not before one of cause 10 that is held back (R428). -/
def State.dueNote (s : State) (ctx : Nat) (back : Bool) : List Msg → Option Msg
  | [] => none
  | m :: r =>
    if s.noteHeld ctx m then State.dueNote s ctx true r
    else if back && decide (m.words.head? = some 6) then State.dueNote s ctx back r
    else some m

/-- EVENT_DEFERRED_PLACE: an event of `lc` that waits for a step of its own is placed: the answer of a request whose cell has been found
reached (R200), an event that had to wait for a place or for its turn (R189, R191), or a TRAPNOTE of the machine, which follows a repair in
progress (R172, R190, R428). -/
def execEventDeferredPlace (ctx lc : Nat) (s : State) : Result :=
  let c := s.ctxOf ctx
  .next (match (if lc = c.cr.supcore then s.dueNote ctx false c.notes else none) with
    | some m => (s.setCtx ctx { c with notes := c.notes.erase m }).sendNote ctx m
    | none =>
      match c.dueAnswer lc with
      | some q => s.answerCwatch ctx q
      | none =>
        match c.readyEvent lc [] c.deferred with
        | none => s
        | some d =>
          match s.event ctx lc d.msg with
          | some s2 => s2.modCtx ctx (fun c => { c with deferred := c.deferred.erase d })
          | none => s.pendingWait ctx lc d.msg.channel)

/-- LINE_FOLD: the machine may fold a line whose partial slots hold entries (R174); `line` is the key of its first byte. -/
def execLineFold (ctx line : Nat) (s : State) : Result :=
  .next (match s.foldStep ctx line with
    | .ok s' => s'
    | .error (.full dst ch) => s.fullWait ctx dst ch
    | .error _ => s)

end Sys2Proof.Machine
end

