-- ==== Sys2Proof/Machine/Loops.lean ====
section
/-! DEFINITION. Reserving loops and the reservation engine (18 R365 to R376), and `quit` (05 R125). -/

namespace Sys2Proof.Machine

/-- The number by which a step of the reservation engine waits on a page. -/
def loopTag (kind : Nat) : Nat := 2 ^ 48 + kind

def State.modLoop (s : State) (ctx : Nat) (f : Loop → Loop) : State := s.modCtx ctx (fun c => { c with loop := c.loop.map f })
def Loop.who (l : Loop) (ctx : Nat) : Who := engWho ctx l.lc l.nan

/-- A write of the retry buffer, which needs R and W (R375, R433). -/
def State.bufWrite (s : State) (ctx : Nat) (l : Loop) (o : Nat) (bs : List Byte) : Acc State :=
  (s.engRW (l.who ctx) (l.rbuf.toNat + o) bs.length (some bs)).map (·.1)

/-- The retry buffer's bytes: header, LIST, BITMAP (R375). -/
def bufBytes (w win next done wins : Nat) (list : List Nat) : List Byte :=
  leBytes 8 win ++ leBytes 8 next ++ leBytes 8 done ++ leBytes 8 wins ++ list.flatMap (leBytes 8) ++
  List.replicate (8 * (w - list.length)) 0xFF ++ zeros (8 * ((w + 63) / 64))

/-! ### Registration (R365, R369, R371) -/

/-- The fields of a loop record in ascending order: offset of each, and whether it holds (R365, R371). -/
def loopChecks (bs : List Byte) : List (Nat × Bool) :=
  let f := fieldAt bs
  [(0, decide (1 ≤ f 0 8) && decide (f 0 8 ≤ 2 ^ 40)), (8, decide (1 ≤ f 8 4) && decide (f 8 4 ≤ 65536)), (12, decide (f 12 2 ≤ 767)),
   (14, decide (1 ≤ f 14 2) && decide (f 12 2 + f 14 2 ≤ 768)),
   (32, decide (f 32 8 % 8 = 0) && decide (f 32 8 + retryBytes (f 8 4) ≤ 2 ^ 56)), (64, decide (f 64 2 < 4)), (72, decide (f 72 120 = 0))]

/-- The loop that a record describes (R365). -/
def loopOf (bs : List Byte) (addr : Word) (lc : Nat) (nan : Bool) : Loop :=
  let f := fieldAt bs
  let word (o : Nat) : Word := BitVec.ofNat 64 (f o 8)
  { addr := addr, n := f 0 8, w := f 8 4, first := f 12 2, ncores := f 14 2, rsvpc := word 16, cmtpc := word 24, rbuf := word 32
    args := [word 40, word 48, word 56], prio := f 64 2, tag := f 66 2, maxwin := f 68 4, lc := lc, nan := nan }

/-- `rloop` (R369, R371). -/
def execRloop (h : Hd) (ra : Reg) (s : State) : Result :=
  let ea := s.slot.opA ra.val
  .next (s.issueLong h false false
    (firstTrap [if 2 ^ 56 ≤ ea.toNat then some (s.fault .protection ea) else s.spanChk ea 192, s.requestChk .node])
    (wordOf (.rloop h ra)) ea 0 { task := some .rloop, ea := ea, remote := 1 })

/-- The read of the loop record, its checks and the registration step (R369, R371). -/
def State.perfRloop (s : State) (tk : Task) : Perf :=
  let f := s.focus
  let w := s.who tk.nan
  let bad (s : State) (k : TrapKind) (a : Word) : Perf := .trap s (stepTrap k a 0 0)
  if s.here.loop.isSome then .hold s
  else if s.paused w then .wait
  else
    perfOf (s.enter { w with engine := true, csets := false } .r .read [(.glob tk.ea.toNat, 192)]) 0 0 0 (fun r =>
      let (s1, bs) := r.1.readSegs r.2
      let l := loopOf bs tk.ea f.lc tk.nan
      match (if tk.ea.toNat % 192 ≠ 0 then some (0, false) else (loopChecks bs).find? (fun p => !p.2)) with
      | some p => bad s1 .illegalField (tk.ea + BitVec.ofNat 64 p.1)
      | none =>
        if badTarget l.rsvpc then bad s1 .illegalFormat l.rsvpc
        else if badTarget l.cmtpc then bad s1 .illegalFormat l.cmtpc
        else
          s.engPerf (loopTag 0) (s1.bufWrite f.ctx l 0 (bufBytes l.w 0 0 0 0 [])) (fun s2 =>
            let (t, s3) := s2.ask .node
            .done (s3.modCtx f.ctx (fun c => { c with loop := some { l with ticket := t } })) [] 0))

/-! ### Windows and rounds (R366, R367, R370, R375) -/

/-- The positions of the window that hold a failed iteration, ascending. -/
def Loop.lost (l : Loop) : List Nat := (List.range l.list.length).filter (fun p => l.failed.contains p)

/-- The number by which the engine holds for want of a record for an iteration, beyond every slot's (R106). -/
def loopHold : Nat := 63

/-- Queues the continuation of position `p` (R366); none when the pool is empty. -/
def State.queueIter (s : State) (ctx : Nat) (l : Loop) (p : Nat) : Option State :=
  let lc := l.first + p % l.ncores
  let i := l.list.getD p 0
  match s.takeRecordFor ctx lc (some loopHold) { pc := if l.commit then l.cmtpc else l.rsvpc, mask := 0xF00, bind := lc, nan := l.nan
                                                 prio := l.prio, live := BitVec.ofNat 64 i :: l.args } with
  | none => none
  | some (k, s1) =>
    let (cid, s2) := s1.newCid ctx
    some (s2.enqueue ctx lc { ref := k, bind := lc, prio := l.prio, cid := cid, iter := some { index := i, pos := p, commit := l.commit } })

/-- Queues the continuations of a round in position order, as far as the pool goes. -/
def State.queueRound (s : State) (ctx : Nat) (l : Loop) : List Nat → State
  | [] => s
  | p :: r =>
    match s.queueIter ctx l p with
    | none => s.poolHold ctx (l.first + p % l.ncores) loopHold
    | some s1 => State.queueRound (s1.modLoop ctx (fun l => { l with toQueue := r })) ctx l r

/-- Starts a round over positions `ps`. -/
def State.startRound (s : State) (ctx : Nat) (commit : Bool) (ps : List Nat) : State :=
  let s1 := s.modLoop ctx (fun l => { l with round := true, commit := commit, opened := ps, toQueue := ps })
  match (s1.ctxOf ctx).loop with
  | some l => s1.queueRound ctx l ps
  | none => s1

/-- The window counter after window `w` (R370). -/
def nextWindow (w : Nat) : Nat := if w = 0xFFFFFF then 1 else w + 1

/-- The fresh iterations of the next window (R366). -/
def Loop.fresh (l : Loop) : Nat := Nat.min (l.w - l.lost.length) (l.n - l.next)
/-- The indices of the next window: the retries, then the fresh iterations, both ascending (R366). -/
def Loop.window (l : Loop) : List Nat := l.lost.map (fun p => l.list.getD p 0) ++ (List.range l.fresh).map (· + l.next)

/-- The start step of a window (R366, R375). -/
def State.openWindow (s : State) (ctx : Nat) (l : Loop) : Acc State := do
  let k := l.fresh
  let list := l.window
  let win := (s.ctxOf ctx).windowCtr
  let s1 ← s.bufWrite ctx l 0 (bufBytes l.w win (l.next + k) l.done (l.wins + 1) list)
  let s2 := s1.modCtx ctx (fun c => { c with windowCtr := nextWindow win })
  .ok ((s2.modLoop ctx (fun l => { l with list := list, failed := [], next := l.next + k, wins := l.wins + 1, win := win })).startRound ctx
    false (List.range list.length))

/-- WINDOW_START: the engine's first phase step, and then the start of a window and its reserve round (R366, R367, R375). -/
def execWindowStart (ctx : Nat) (s : State) : Result :=
  .next (match (s.ctxOf ctx).loop with
    | none => s
    | some l =>
      if l.ended || (s.ctxOf ctx).sealing then s
      else if !l.started then
        s.engStep ctx l.lc (loopTag 1) ((s.phaseAdvance ctx).map (fun s1 => s1.modLoop ctx (fun l => { l with started := true })))
      else if l.round then (if l.commit || l.toQueue.isEmpty then s else s.queueRound ctx l l.toQueue)
      else s.engStep ctx l.lc (loopTag 1) (s.openWindow ctx l))

/-- The loop ends after the commit round in hand (R376). -/
def Loop.last (l : Loop) : Bool := decide (l.done = l.n) || (decide (l.maxwin ≠ 0) && decide (l.wins = l.maxwin))

/-- The engine counts the end of an iteration: its outcome, and the words of the retry buffer that change (R374, R375). -/
def Loop.endIter (l : Loop) (it : Iter) (ok : Bool) : Loop × Nat × List Byte :=
  let l1 := { l with opened := l.opened.erase it.pos }
  if ok then
    if it.commit then ({ l1 with done := l.done + 1 }, 16, leBytes 8 (l.done + 1)) else (l1, 0, [])
  else
    let fs := it.pos :: l.failed
    let wd := it.pos / 64
    let bits := (List.range 64).foldl (fun b k => if fs.contains (64 * wd + k) then b + 2 ^ k else b) 0
    ({ l1 with failed := fs }, 32 + 8 * l.w + 8 * wd, leBytes 8 bits)

/-- The end of a continuation that is an iteration of the live loop (R374). -/
def State.endIter (s : State) (ctx : Nat) (it : Option Iter) (ok : Bool) : Acc State :=
  match it, (s.ctxOf ctx).liveLoop with
  | some i, some l =>
    let (l1, o, bs) := l.endIter i ok
    let s1 := s.modLoop ctx (fun _ => l1)
    if bs.isEmpty then .ok s1 else s1.bufWrite ctx l o bs
  | _, _ => .ok s

/-- Every reservation still gathered is folded, as every gather is before the next round (R174, R367). -/
def State.foldTags (s : State) (ctx : Nat) : Acc State :=
  ((((s.ctxOf ctx).partials.filter (fun p => decide (p.op = .rsv))).map (·.line)).eraseDups).foldlM (fun s l => s.foldStep ctx l) s

/-- The positions that the commit round runs: those that did not fail in the reserve round (R374). -/
def Loop.toCommit (l : Loop) : List Nat := (List.range l.list.length).filter (fun p => !l.failed.contains p)

/-- ROUND_END: an iteration that a lasting fault has ended is counted (R342, R374); and when every continuation of the round has ended, the
engine's phase step, and the commit round or the next window (R367). -/
def execRoundEnd (ctx : Nat) (s : State) : Result :=
  .next (match (s.ctxOf ctx).loop with
    | none => s
    | some l =>
      if l.ended || !l.round || (s.ctxOf ctx).sealing then s
      else
        match l.ends with
        | it :: r => s.engStep ctx l.lc (loopTag 1) ((s.modLoop ctx (fun l => { l with ends := r })).endIter ctx (some it) false)
        | [] =>
          if l.commit && !l.toQueue.isEmpty then s.queueRound ctx l l.toQueue
          else if !l.opened.isEmpty || (l.commit && l.last) then s
          else
            s.engStep ctx l.lc (loopTag 1) (do
              let s1 ← s.foldTags ctx
              let s2 ← s1.phaseAdvance ctx
              .ok (if l.commit then s2.modLoop ctx (fun l => { l with round := false }) else s2.startRound ctx true l.toCommit)))

/-- An iteration that a lasting fault has ended is to be counted as failed (R342, R374). -/
def State.loseIter (s : State) (ctx : Nat) (it : Option Iter) : State :=
  match it with
  | none => s
  | some i => s.modLoop ctx (fun l => if l.ended then l else { l with ends := l.ends ++ [i] })

/-- The completion notice (R376). -/
def Loop.notice (l : Loop) : Msg :=
  { src := 0x3FF, kind := .node, nan := l.nan, tag := l.tag, words :=
    [3, l.addr, if l.done = l.n then 0 else 1, BitVec.ofNat 64 l.wins, BitVec.ofNat 64 l.done, BitVec.ofNat 64 (l.n - l.done), BitVec.ofNat 64 l.win] }

/-- The final phase step of a loop; arrivals made while it was live take effect (R367, R376). -/
def State.lastPhase (s : State) (ctx : Nat) : Acc State :=
  (s.phaseAdvance ctx).map (fun s1 =>
    (s1.members ctx).foldl (fun s lc => s.modCore ctx lc (fun c => { c with arrivals := c.arrivals ++ c.lateArrivals, lateArrivals := [] }))
      (s1.modLoop ctx (fun l => { l with ended := true })))

/-- LOOP_COMPLETE: the final phase step, which releases the buffer; then the notice, which in deterministic mode waits for the earlier
requests of its logical core (R191, R376). -/
def execLoopComplete (ctx : Nat) (s : State) : Result :=
  let c := s.ctxOf ctx
  .next (match c.loop with
    | none => s
    | some l =>
      if !l.ended then
        if l.round && l.commit && l.opened.isEmpty && l.last then s.engStep ctx l.lc (loopTag 1) (s.lastPhase ctx) else s
      else if c.cr.det && c.graphs.any (fun e => decide (e.2.notify = l.lc) && decide (e.2.ticket < l.ticket)) then s
      else
        match s.event ctx l.lc l.notice with
        | some s1 => s1.modCtx ctx (fun c => { c with loop := none })
        | none => s.fullWait ctx l.lc l.notice.channel)

/-! ### The guarantee (R377) -/

/-- What stands in the cells of a loop, by their numbers. -/
abbrev Cells := Nat → Word

/-- An iteration of a loop as R377 takes it: the cells that it reserves, computed from the memory at its reserve round, and what its commit body
makes of the cells. -/
structure Body where
  set : Cells → List Nat
  act : Cells → Cells

/-- The iteration reserves every cell that its commit body reads or writes (R377). -/
def Body.covered (b : Body) : Prop :=
  ∀ m, (∀ c, c ∉ b.set m → b.act m c = m c) ∧
    ∀ m', b.set m' = b.set m → (∀ c, c ∈ b.set m → m c = m' c) → ∀ c, c ∈ b.set m → b.act m c = b.act m' c

/-- No other iteration's commit changes what the iteration reserves. -/
def Body.settled (b o : Body) : Prop := ∀ m, b.set (o.act m) = b.set m

/-- The tag that iteration `i` reserves with in window `win` (R370, R372). -/
def tagOf (win i : Nat) : Nat := at' 40 win + i

/-- The tag of cell `c` once the reservations made in memory `m` in a window are folded, whatever their order (R372). -/
def tagAfter (bodies : Nat → Body) (m : Cells) (win : Nat) (list : List Nat) (c tag : Nat) : Nat :=
  (list.filter (fun i => ((bodies i).set m).contains c)).foldl (fun v i => tagFn v (tagOf win i)) tag

/-- Every `rchk` of iteration `i` gives 1 (R373). -/
def holdsAll (bodies : Nat → Body) (m : Cells) (win : Nat) (tags : Nat → Nat) (i : Nat) : Bool :=
  ((bodies i).set m).all (fun c => decide (tags c = tagOf win i))

/-- A window of a loop whose bodies fail only on lost reservations: the cells, the tags, and what the engine holds of the loop (R366, R367). -/
def windowRun (bodies : Nat → Body) (m : Cells) (tags : Nat → Nat) (l : Loop) : Cells × (Nat → Nat) × Loop :=
  let list := l.window
  let tags1 (c : Nat) : Nat := tagAfter bodies m l.win list c (tags c)
  let won := (List.range list.length).filter (fun p => holdsAll bodies m l.win tags1 (list.getD p 0))
  (won.foldl (fun m p => (bodies (list.getD p 0)).act m) m, tags1,
    { l with
      list := list, failed := (List.range list.length).filter (fun p => !won.contains p), next := l.next + l.fresh
      done := l.done + won.length, wins := l.wins + 1, win := nextWindow l.win })

/-- The loop run for so many windows, or until every iteration is done (R376). -/
def loopRun (bodies : Nat → Body) (m : Cells) (tags : Nat → Nat) (l : Loop) : Nat → Cells × Loop
  | 0 => (m, l)
  | k + 1 =>
    if l.done = l.n then (m, l)
    else
      let r := windowRun bodies m tags l
      loopRun bodies r.1 r.2.1 r.2.2 k

/-- The commit bodies executed serially in ascending index (R377). -/
def serialRun (bodies : Nat → Body) (n : Nat) (m : Cells) : Cells := (List.range n).foldl (fun m i => (bodies i).act m) m

/-! ### Instructions of the iterations (R372, R373, R374) -/

/-- The address rule of a reservation tag (R372). -/
def State.tagChk (s : State) (ea : Word) : Option Trap :=
  if ea.toNat % 8 ≠ 0 ∨ 2 ^ 56 ≤ ea.toNat then some (s.fault .protection ea) else none

/-- The slot in focus runs an iteration of the live loop in the named round (R372, R373). -/
def State.inRound (s : State) (commit : Bool) : Bool := s.here.liveLoop.isSome && s.slot.iter.any (fun i => i.commit == commit)
def State.roundChk (s : State) (commit : Bool) : Option Trap := if s.inRound commit then none else some (s.fault .protection 0)

/-- The tag that the iteration in focus reserves with (R370, R372). -/
def State.myTag (s : State) : Nat := tagOf ((s.here.loop.map (·.win)).getD 0) ((s.slot.iter.map (·.index)).getD 0)

/-- `rsv` (R372). -/
def execRsv (h : Hd) (ra : Reg) (s : State) : Result :=
  let ea := s.slot.rx ra.val
  .next (s.issueLong h false false (firstTrap [s.roundChk false, s.tagChk ea]) 0 0 0 { task := some .rsv, ea := ea, remote := 1 })
def State.perfRsv (s : State) (k : Task) : Perf :=
  perfOf (s.gatherAt (s.who k.nan) 0xF0 (.glob k.ea.toNat) 8 .rsv s.myTag) 0 0 0 (fun r => .done r.1 [] 0)

/-- `rchk` (R373). -/
def execRchk (h : Hd) (rd ra : Reg) (s : State) : Result :=
  let ea := s.slot.rx ra.val
  .next (s.issueLong h false false (firstTrap [s.roundChk true, s.tagChk ea]) 0 0 0 { task := some (.rchk rd.val), ea := ea, remote := 1 })
def State.perfRchk (s : State) (k : Task) (rd : Nat) : Perf :=
  let w := s.who k.nan
  if s.paused w then .wait
  else
    perfOf (do
      let gs ← s.check w .r [(.glob k.ea.toNat, 8)]
      let c ← s.detStep w (.engine 0xF1) gs
      let s1 ← (s.setCtx w.ctx c).settleLines w.ctx gs
      .ok ((s1.readSegs gs).1.tick w.ctx w.party 0, s1.segBytes gs)) 0 0 0 (fun r => .done r.1 [.x rd (if leNat r.2 = s.myTag then 1 else 0)] 0)

/-- The end of the continuation in focus: the iteration is counted, its node retired, units and windows released, the slot freed
(R100, R125, R374). -/
def State.endCont (s : State) (ok : Bool) (code : Nat) : Acc State := do
  let s0 := s.closeGroup
  let t := s0.slot
  let s1 ← s0.endIter s.focus.ctx t.iter ok
  let s2 ← s1.retireNode s.focus.ctx t.node (some code)
  .ok ((s2.releaseUnits.mod (fun t => { t with spillTop := t.top0 })).freeSlot)

/-- An end that meets an absent page of an engine's record waits for it (R433). -/
def State.finish (s : State) (ok : Bool) : State :=
  s.engStep s.focus.ctx s.focus.lc (loopTag (16 + s.party)) (s.endCont ok codeQuit)

/-- `quit` (R125). -/
def execQuit (h : Hd) (s : State) : Result := .next (s.issueEnd h false false none (fun s => s.finish false))

/-- `rdone` (R374). -/
def State.issueRdone (s : State) (h : Hd) (ok : Bool) : State :=
  let inside := s.here.liveLoop.isSome && s.slot.iter.isSome && decide (s.focus.pos < 8)
  s.issueEnd h true false (if inside then none else some (s.fault .protection 0)) (fun s => s.finish ok)
def execRdoneOk (h : Hd) (s : State) : Result := .next (s.issueRdone h true)
def execRdoneFail (h : Hd) (s : State) : Result := .next (s.issueRdone h false)

end Sys2Proof.Machine
end

