-- ==== Sys2Proof/Machine/Vocab.lean ====
section
/-! DEFINITION. Vocabulary masks and detokenisation (12 R283 to R292). -/

namespace Sys2Proof.Machine

/-- AUT_TABLE at an offset of the image. -/
def Desc.bad {α : Type} (d : Desc) (off lane : Nat) : Au α := .error (.bad .autTable (BitVec.ofNat 64 (d.base + off)) lane)

/-- An instruction that needs a vocabulary: an image without one raises AUT_TABLE at its base (R289 to R291). -/
def State.useVocab (s : State) (dn prog : Nat) (f : Desc → Perf) : Perf :=
  s.useDesc dn prog (fun d => if d.vocab = 0 then .trap s (stepTrap .autTable (BitVec.ofNat 64 d.base) 0 prog) else f d)

/-- The stored mask of a class, as runs: whether allowed, and how many tokens (R284). -/
def Run.runList (r : Run) (w : Who) (lane : Nat) (d : Desc) (cls : Nat) : Au (List (Bool × Nat) × Run) := do
  let de := d.mdoff + 8 * cls
  let (e, r1) ← r.img w lane d de 8
  let off := fieldAt e 0 4
  let n := fieldAt e 4 4
  if off % 4 ≠ 0 ∨ 4096 * d.vpages < off + 4 * n then d.bad de lane
  else do
    let (bs, r2) ← r1.img w lane d off (4 * n)
    let (rs, t) ← (List.range n).foldlM (fun (p : List (Bool × Nat) × Nat) k =>
      let w := fieldAt bs (4 * k) 4
      let len := field w 0 21 + 1
      if field w 21 10 ≠ 0 ∨ d.vocab < p.2 + len then (d.bad (off + 4 * k) lane : Au (List (Bool × Nat) × Nat))
      else .ok (p.1 ++ [(decide (field w 31 1 = 1), len)], p.2 + len)) ([], 0)
    if t < d.vocab then d.bad de lane else .ok (rs, r2)

/-- Token `t` is set in a stored mask. -/
def runAt : List (Bool × Nat) → Nat → Bool
  | [], _ => false
  | (b, n) :: r, t => if t < n then b else runAt r (t - n)

/-- A copy of a lane that a walk steps (R288): its state word, overflow bit and stack, top first. -/
structure Copy where
  word : Nat
  ovf  : Bool := false
  stk  : List Nat := []
  deriving DecidableEq, Repr

/-- A copy as it is kept, with the place and length of its string (R290), and back. -/
def Copy.kept (c : Copy) (off n : Nat) : List Nat := [c.word, c.ovf.toNat, off, n] ++ c.stk
def Copy.ofKept (l : List Nat) : Copy := { word := l.getD 0 0, ovf := decide (l.getD 1 0 = 1), stk := l.drop 4 }

/-- The copy of a lane under state word `word`, with RESET applied; spilled entries are read (R287, R288). -/
def Run.laneCopy (r : Run) (w : Who) (d : Desc) (lane word : Nat) : Au (Copy × Run) :=
  let l := Tab.get {} d.lanes lane
  if field word 31 1 = 1 then .ok ({ word := d.start }, r)
  else if l.depth ≤ 16 then .ok ({ word := word, ovf := l.ovf, stk := l.win }, r)
  else
    (auFor lane (Run.readLines w (lineSteps [(.ls r.s.focus.lc (d.area lane), 4 * (l.depth - 16))]) r)).map (fun x =>
      ({ word := word, ovf := l.ovf, stk := l.win ++ ((List.range (l.depth - 16)).map (fun i => fieldAt x.1 (4 * i) 4)).reverse }, x.2))

/-- A walk step of a copy (R288). -/
def Run.walkStep (r : Run) (w : Who) (lane : Nat) (d : Desc) (c : Copy) (byte : Nat) : Au (Copy × Run) :=
  (r.move w lane d (field c.word 0 22) byte c.stk.length (c.stk.headD 0)).map (fun x =>
    let m := x.1
    let (n, ovf, stk) := match m.stk with
      | .keep => (m.next, c.ovf, c.stk)
      | .ended => (m.next, true, c.stk)
      | .push e => (m.next, c.ovf, e :: c.stk)
      | .pop ret => (if ret then field (c.stk.headD 0) 0 22 else m.next, c.ovf, c.stk.tail)
    ({ word := laneWord n m.acc ovf.toNat m.bnd stk.length, ovf := ovf, stk := stk }, x.2))

/-- A trie node (R285): byte, child, sibling and token. -/
structure TrieNode where
  byte  : Nat
  child : Nat
  sib   : Nat
  tok   : Nat
  deriving DecidableEq, Repr

/-- A trie node read and checked (R285). -/
def Run.trieNode (r : Run) (w : Who) (lane : Nat) (d : Desc) (k : Nat) : Au (TrieNode × Run) :=
  let off := d.trieoff + 16 * k
  if 4096 * d.vpages < off + 16 then d.bad off lane
  else do
    let (b, r1) ← r.img w lane d off 16
    let n : TrieNode := { byte := fieldAt b 0 1, child := fieldAt b 4 4, sib := fieldAt b 8 4, tok := fieldAt b 12 4 }
    if fieldAt b 1 3 ≠ 0 ∨ field n.tok 20 11 ≠ 0 ∨ (field n.tok 31 1 = 1 ∧ d.vocab ≤ field n.tok 0 20) ∨ (n.child ≠ 0 ∧ n.child ≤ k) ∨
        (n.sib ≠ 0 ∧ n.sib ≤ k) then d.bad off lane
    else .ok (n, r1)

/-- The walk of the trie from node `k`, whose parent's copy is `c`: the tokens whose path ends in a state other than DEAD (R287). Links
lead to higher indices, so a bound of one more than the nodes that fit suffices; nothing below a DEAD node is read. -/
def Run.trieWalk (w : Who) (lane : Nat) (d : Desc) : Nat → Nat → Copy → List Nat → Run → Au (List Nat × Run)
  | 0, _, _, acc, r => .ok (acc, r)
  | f + 1, k, c, acc, r => do
    let (n, r1) ← r.trieNode w lane d k
    let (c1, r2) ← if k = 0 then .ok (c, r1) else r1.walkStep w lane d c n.byte
    let alive := decide (field c1.word 0 22 ≠ stDead)
    let acc1 := if alive && decide (field n.tok 31 1 = 1) then field n.tok 0 20 :: acc else acc
    let (acc2, r3) ← if alive && decide (n.child ≠ 0) then Run.trieWalk w lane d f n.child c1 acc1 r2 else .ok (acc1, r2)
    if n.sib ≠ 0 ∧ k ≠ 0 then Run.trieWalk w lane d f n.sib c acc2 r3 else .ok (acc2, r3)

/-- Which tokens of a block of 1536 are allowed to the lane's copy `cp` (R283, R287). -/
def Run.allowed (w : Who) (lane : Nat) (d : Desc) (cp : Copy) (blk : Nat) (r : Run) : Au (List Bool × Run) := do
  let toks := (List.range (Nat.min 1536 (d.vocab - 1536 * blk))).map (· + 1536 * blk)
  let st := field cp.word 0 22
  if d.states ≤ st then .ok (toks.map (fun _ => false), r)
  else do
    let se := d.smoff + 2 * st
    let (b, r1) ← r.img w lane d se 2
    let c := leNat b
    if d.mcls ≤ field c 0 15 then d.bad se lane
    else do
      let (rs, r2) ← r1.runList w lane d (field c 0 15)
      if field c 15 1 = 0 then .ok (toks.map (runAt rs), r2)
      else if toks.all (fun t => !runAt rs t) then .ok (toks.map (fun _ => false), r2)
      else do
        let (ok, r3) ← Run.trieWalk w lane d ((4096 * d.vpages - d.trieoff) / 16 + 1) 0 cp [] r2
        .ok (toks.map (fun t => runAt rs t && ok.contains t), r3)

/-- Issues `allow` (R289). -/
def State.issueAllow (s : State) (h : Hd) (apply : Bool) (dn : Reg8) (ra vb : Reg) (lane word : Nat) : State :=
  let t := s.slot
  let ea := t.opA ra.val
  let v := (s.desc dn.val).vocab
  let (b, prog) := match t.stopped with
    | [] => (t.rv vb.val, 0)
    | e :: _ => (e.a, e.prog)
  let ok := match ownPlace s.focus.lc ea with
    | some off => if apply then decide (ea.toNat % 4 = 0) && decide (off + 4 * v ≤ lsSize) else decide (off + (v + 7) / 8 ≤ lsSize)
    | none => apply && decide (ea.toNat % 4 = 0) && decide (ea.toNat + 4 * v ≤ 2 ^ 56)
  s.issueLong h false false (firstTrap [s.descChk dn.val, if ok then none else some (s.fault .protection ea)]) word ea 0
    { task := some (.allow apply dn.val lane b [] (prog / 1536) 0 []), ea := ea }

def execAllowStore (h : Hd) (dn : Reg8) (ra vb : Reg) (lane : Fin 48) (s : State) : Result :=
  .next (s.issueAllow h false dn ra vb lane.val (wordOf (.allowStore h dn ra vb lane)))
def execAllowApply (h : Hd) (dn : Reg8) (ra vb : Reg) (lane : Fin 48) (s : State) : Result :=
  .next (s.issueAllow h true dn ra vb lane.val (wordOf (.allowApply h dn ra vb lane)))

/-- Mask bytes, token 0 in bit 0 of byte 0 (R289). -/
def maskBytes (a : List Bool) : List Byte := leBytes ((a.length + 7) / 8) (ofElems 1 (a.map Bool.toNat))

/-- A step of an `allow`: towards the lane's copy or the decision on a block, then its mask bytes or the words of one 48-token line (R289). -/
def State.perfAllow (s : State) (tk : Task) (apply : Bool) (dn lane : Nat) (vb : VReg) (copy : List Nat) (blk line : Nat) (mask : List Bool) : Perf :=
  let w := s.unitWho 10 tk.nan
  let p := (placeOf s.focus.lc tk.ea).getD (.glob 0)
  let prog := 1536 * blk
  s.useVocab dn prog (fun d =>
    let next (s : State) : Perf :=
      if 1536 * (blk + 1) < d.vocab then .more s (.allow apply dn lane vb copy (blk + 1) 0 []) else .done s [] 0
    let put (ps : List (Place × Nat)) (bs : List Byte) (go : State → Perf) : Perf :=
      auOf s tk prog (fun r => (auFor lane (r.write w ps bs)).map (fun r => ((), r))) (fun s _ => go s)
    if copy.isEmpty then
      auOf s tk prog (fun r => r.laneCopy w d lane (elem 32 vb lane)) (fun s c => .more s (.allow apply dn lane vb (c.kept 0 0) blk 0 []))
    else if mask.isEmpty then
      auOf s tk prog (Run.allowed w lane d (Copy.ofKept copy) blk) (fun s m => .more s (.allow apply dn lane vb copy blk 0 m))
    else if !apply then
      let bs := maskBytes mask
      put [(p.plus (192 * blk), bs.length)] bs next
    else
      let off := (List.range 48).filter (fun i => decide (48 * line + i < mask.length) && !mask.getD (48 * line + i) true)
      let ps := mergePieces (off.map (fun i => (p.plus (4 * (prog + 48 * line + i)), 4)))
      let go (s : State) : Perf := if 48 * (line + 1) < mask.length then .more s (.allow apply dn lane vb copy blk (line + 1) mask) else next s
      if off.isEmpty then go s
      else put ps (off.flatMap (fun _ => leBytes 4 0xFF800000)) go)

/-- A token's entry in the token table: the place and length of its string (R286). -/
def Run.tokEntry (r : Run) (w : Who) (lane : Nat) (d : Desc) (t : Nat) : Au ((Nat × Nat) × Run) := do
  let te := d.ttoff + 8 * t
  let (e, r1) ← r.img w lane d te 8
  let off := fieldAt e 0 4
  let n := fieldAt e 4 2
  if fieldAt e 6 2 ≠ 0 ∨ 1024 < n ∨ 4096 * d.vpages < off + n then d.bad te lane else .ok ((off, n), r1)

/-- `triewalk` (R290). A resumed one takes up the copies kept with its descriptor. -/
def execTriewalk (h : Hd) (p : Pred) (dn : Reg8) (vd va rb : Reg) (s : State) : Result :=
  let t := s.slot
  let xb := t.opB rb.val
  let ok := (ownPlace s.focus.lc xb).any (fun off => decide (off % 4 = 0) && decide (off + 192 ≤ lsSize))
  let (a, prog) := match t.stopped with
    | [] => (t.rv va.val, 0)
    | e :: _ => (e.a, e.prog)
  let kept := decide (0 < prog) && !(s.desc dn.val).walk.isEmpty
  .next (s.issueLong h false false (firstTrap [s.descChk dn.val, if ok then none else some (s.fault .protection xb)])
    (wordOf (.triewalk h p dn vd va rb)) 0 xb
    { task := some (.triewalk dn.val vd.val (s.actOf p) a kept (if kept then prog else 0)), ea := xb })

/-- The copies at the start of a `triewalk`, one per lane; only the words of active lanes are read (R40, R290). -/
def Run.walkStart (w : Who) (d : Desc) (ea : Word) (act : PReg) (va : VReg) (r : Run) : Au (List (List Nat) × Run) := do
  let lc := r.s.focus.lc
  let off := (ownPlace lc ea).getD 0
  let (bs, r1) ← Run.lanes w ((lanesOf act).map (fun i => (i, .ls lc (off + 4 * i), 4))) r
  (List.range 48).foldlM (fun (p : List (List Nat) × Run) i =>
    let t := leNat (ofLane bs i)
    if !act.getLsbD i then .ok (p.1 ++ [[]], p.2)
    else if d.vocab ≤ t then .ok (p.1 ++ [({ word := stDead } : Copy).kept 0 0], p.2)
    else do
      let (c, ra) ← p.2.laneCopy w d i (elem 32 va i)
      let ((o, n), rb) ← ra.tokEntry w i d t
      .ok (p.1 ++ [c.kept o n], rb)) ([], r1)

/-- One round of walk steps (R290). -/
def Run.walkRound (w : Who) (d : Desc) (round : Nat) (r : Run) : Au (List (List Nat) × Run) :=
  d.walk.zipIdx.foldlM (fun (p : List (List Nat) × Run) x =>
    if x.1.getD 3 0 ≤ round then .ok (p.1 ++ [x.1], p.2)
    else do
      let (b, ra) ← p.2.img w x.2 d (x.1.getD 2 0 + round) 1
      let (c, rb) ← ra.walkStep w x.2 d (Copy.ofKept x.1) (leNat b)
      .ok (p.1 ++ [c.kept (x.1.getD 2 0) (x.1.getD 3 0)], rb)) ([], r)

/-- A step of a `triewalk`: towards its copies or the end of a round (R290). -/
def State.perfTriewalk (s : State) (tk : Task) (dn vd : Nat) (act : PReg) (va : VReg) (started : Bool) (round : Nat) : Perf :=
  let w := s.unitWho 10 tk.nan
  s.useVocab dn round (fun d =>
    let keep (s : State) (l : List (List Nat)) : State := s.setDesc dn { d with walk := l }
    if !started then auOf s tk round (Run.walkStart w d tk.ea act va) (fun s l => .more (keep s l) (.triewalk dn vd act va true 0))
    else if d.walk.any (fun l => decide (round < l.getD 3 0)) then
      auOf s tk round (Run.walkRound w d round) (fun s l => .more (keep s l) (.triewalk dn vd act va true (round + 1)))
    else .done (keep s []) [.v vd (actMask act 32) (vecOf 32 (d.walk.map (fun l => l.getD 0 0)))] 0)

/-- `detok` (R291). DEDUCED (log 69): RC is read again when it rejoins. -/
def execDetok (h : Hd) (dn : Reg8) (rd ra rb rc : Reg) (s : State) : Result :=
  let t := s.slot
  let a := t.opA ra.val
  let b := t.opB rb.val
  let c := (t.rx rc.val).toNat
  let n := field c 0 16
  let cap := field c 32 20
  let bad := decide (field c 16 16 ≠ 0) || decide (field c 52 12 ≠ 0) || decide (4096 < n) || decide (lsSize < cap)
  let fits (x : Word) (k : Nat) : Bool := (ownPlace s.focus.lc x).any (fun off => decide (off + k ≤ lsSize))
  let prog := (t.stopped.head?.map (·.prog)).getD 0
  .next (s.issueLong h false false (firstTrap [s.descChk dn.val, if bad then some (s.fault .illegalField 0) else none,
      if fits a (4 * n) && decide (a.toNat % 4 = 0) then none else some (s.fault .protection a),
      if fits b cap then none else some (s.fault .protection b)]) (wordOf (.detok h dn rd ra rb rc)) a b
    { task := some (.detok dn.val rd.val b n cap (if prog = 0 then some 0 else none) prog), ea := a })

/-- Token `j` of a `detok`: its number read, and the place and length of its string (R286, R291). -/
def Run.tokAt (r : Run) (w : Who) (ea : Word) (d : Desc) (j : Nat) : Au ((Nat × Nat) × Run) := do
  let off := (ownPlace r.s.focus.lc ea).getD 0
  let (b, r1) ← auFor 0 (r.read w [(.ls r.s.focus.lc (off + 4 * j), 4)])
  if d.vocab ≤ leNat b then .error (.bad .autTable (ea + BitVec.ofNat 64 (4 * j)) 0) else r1.tokEntry w 0 d (leNat b)

/-- Token `j` of a `detok` read and its string written behind `o` bytes: the string's length, or none where it does not fit (R291). -/
def Run.detokOne (w : Who) (ea xb : Word) (d : Desc) (cap o j : Nat) (r : Run) : Au (Option Nat × Run) := do
  let lc := r.s.focus.lc
  let ((p, len), r1) ← r.tokAt w ea d j
  if cap < o + len then .ok (none, r1)
  else if len = 0 then .ok (some 0, r1)
  else do
    let (bs, r2) ← r1.img w 0 d p len
    let r3 ← auFor 0 (Run.writeLines w (lineSteps [(.ls lc ((ownPlace lc xb).getD 0 + o), len)]) bs r2)
    .ok (some len, r3)

/-- A step of a `detok`: towards its next token; `o` is none until a resumed one has recomputed it (R291). -/
def State.perfDetok (s : State) (tk : Task) (dn rd : Nat) (xb : Word) (n cap : Nat) (o : Option Nat) (j : Nat) : Perf :=
  let w := s.unitWho 10 tk.nan
  s.useVocab dn j (fun d =>
    match o with
    | none =>
      auOf s tk j (fun r => (List.range j).foldlM (fun (p : Nat × Run) i => (p.2.tokAt w tk.ea d i).map (fun x => (p.1 + x.1.2, x.2))) (0, r))
        (fun s o => .more s (.detok dn rd xb n cap (some o) j))
    | some o =>
      let done (s : State) : Perf := .done s [.x rd (BitVec.ofNat 64 (o + at' 32 j))] 0
      if n ≤ j then done s
      else
        auOf s tk j (Run.detokOne w tk.ea xb d cap o j) (fun s l =>
          match l with
          | none => done s
          | some len => .more s (.detok dn rd xb n cap (some (o + len)) (j + 1))))

end Sys2Proof.Machine
end

