-- ==== Sys2Proof/Machine/Barrel.lean ====
section
/-! DEFINITION. The steps of the cores: performing and refusing the oldest access of a slot, group close, window spill and fill,
trap delivery, pre-emption, slot grants, active messages and the wait-cycle probe (05 R96 to R115, 07 R166 to R171, 08 R208,
16 R326, R334). -/

namespace Sys2Proof.Machine

/-! ### Accesses (R167, R168) -/

/-- Tries the oldest entry `k` of the access queue of the slot in focus. -/
def State.perform (s : State) (k : Task) : Perf :=
  match k.op with
  | .load size zext rd => s.perfLoad k size zext rd
  | .store bytes => s.perfStore k bytes
  | .disc => s.perfDisc k
  | .flushl => s.perfFlushl k
  | .xinv len => s.perfXinv k len
  | .drain path => s.perfDrain k path
  | .send rd dst tag words => s.perfSend k rd dst tag words
  | .poll a => s.perfPoll k a
  | .watch on => s.perfWatch k on
  | .bar => s.perfBar k
  | .carrive => s.perfCarrive k
  | .cwatch => s.perfCwatch k
  | .guard base len target => s.perfGuard k base len target
  | .amo op size rd b => s.perfAmo k op size rd b
  | .cas size rd expect new => s.perfCas k size rd expect new
  | .red op ty b => s.perfRed k op ty b
  | .pfxadd c => s.perfPfxadd k c
  | .spawn bind prio pc mask k1 live => s.perfSpawn k bind prio pc mask k1 live
  | .vload vd act acc j => s.perfVload k vd act acc j
  | .vstore act val j => s.perfVstore k act val j
  | .gather vd w offs stride act acc j => s.perfGather k vd w offs stride act acc j
  | .scatter w offs stride act data j => s.perfScatter k w offs stride act data j
  | .ald an rows => s.perfAld k an rows
  | .ast rows row => s.perfAst k rows row
  | .mat m blk => s.perfMat k m blk
  | .mcap rd => s.perfMcap k rd
  | .mreq rd handle cmd => s.perfMreq k rd handle cmd
  | .route rd r => s.perfRoute k rd r
  | .autbind dn page d => s.perfAutbind k dn page d
  | .autpin dn first count page => s.perfAutpin k dn first count page
  | .autstk dn xb => s.perfAutstk k dn xb
  | .autstep dn vd act va vb => s.perfAutstep k dn vd act va vb
  | .autrun dn vd act words cnts recs round => s.perfAutrun k dn vd act words cnts recs round
  | .maprun dn vd act states len round => s.perfMaprun k dn vd act states len round
  | .mapinit dn vd act => s.perfMapinit k dn vd act
  | .allow apply dn lane vb copy blk line mask => s.perfAllow k apply dn lane vb copy blk line mask
  | .triewalk dn vd act va started round => s.perfTriewalk k dn vd act va started round
  | .detok dn rd xb n cap o j => s.perfDetok k dn rd xb n cap o j
  | .copy rd hart c => s.perfCopy k rd hart c
  | .subTile rd xb => s.perfSubTile k rd xb
  | .unsub handle => s.perfUnsub k handle
  | .ringinit count bytes => s.perfRinginit k count bytes
  | .slrsv rd => s.perfSlrsv k rd
  | .slpost slot => s.perfSlpost k slot
  | .sltake rd => s.perfSltake k rd
  | .slfree slot => s.perfSlfree k slot
  | .glaunch => s.perfGlaunch k
  | .nodeadd rd xb => s.perfNodeadd k rd xb
  | .edgeadd rd succ => s.perfEdgeadd k rd succ
  | .gstat rd => s.perfGstat k rd
  | .rloop => s.perfRloop k
  | .rsv => s.perfRsv k
  | .rchk rd => s.perfRchk k rd

/-- The instruction stands at a boundary at which it may stop; an `autbind` that waits for its descriptor does not (R268, R334). -/
def State.atBoundary (s : State) (k : Task) : Bool := k.boundary && !s.bindWaits s.focus k.op

/-- The head `k` holds its slot in a wait, so that it counts as unissued when the slot stops (R20, R334 step 2). -/
def State.waitingHead (s : State) (k : Task) : Bool :=
  match s.perform k with
  | .hold _ => k.alone
  | _ => false

/-- The head `k` waits for what nothing in a stopped context or cluster will do (log 30). -/
def State.stuck (s : State) (k : Task) : Bool :=
  match s.perform k with
  | .hold _ => !k.alone
  | .wait | .full .. => true
  | _ => false

/-- The head `k` goes no further when its slot stops: it stands at a boundary, of which two entries can be kept, or it waits (R334). -/
def State.stands (s : State) (k : Task) : Bool := (s.atBoundary k && decide (s.slot.stopped.length < 2)) || s.waitingHead k

/-- Takes out of the group what of the access queue stops now, the oldest first (R334 steps 2, 3 and 5). -/
def State.stopHeads (s : State) : Nat → State
  | 0 => s
  | n + 1 =>
    match s.slot.tasks.head? with
    | none => s
    | some k =>
      if s.atBoundary k && decide (s.slot.stopped.length < 2) then State.stopHeads (s.stopEntry k k.op.progress) n
      else if s.waitingHead k then s.unissueFrom k
      else s
/-- A group has at most eight long instructions (R49). -/
def State.stopQueue (s : State) : State := s.stopHeads 9

/-- The head `k` waits for its unit: for a rival, or for a remote command that was accepted before it issued (R238, R254, R266). -/
def State.unitHeld (s : State) (k : Task) : Bool :=
  s.unitWait k ||
    (decide (k.op.unit = some 9) && !k.begun && s.commandAhead s.focus.ctx (s.physCore s.focus.ctx s.focus.lc) k.cycle none)

/-- ACCESS_PERFORM: performs the oldest access of the slot in focus, unless it is to be refused or must wait, for its unit among others
(R167, R238, R266); in a slot that is stopping, an instruction that stops goes no further (R334). -/
def execAccessPerform (s : State) : Result :=
  .next (match s.slot.head? with
    | none => s
    | some k =>
      if s.slot.stopping && s.stands k then s.stopQueue
      else if s.unitHeld k then s
      else s.settle k (s.perform k))

/-- ACCESS_REFUSAL: refuses the oldest access of the slot in focus where a check fails (R168). -/
def execAccessRefusal (s : State) : Result :=
  .next (match s.slot.head? with
    | none => s
    | some k => if (s.slot.stopping && s.stands k) || s.unitHeld k then s else s.settleRefusal k (s.perform k))

/-! ### Groups, windows, traps, restarts -/

/-- GROUP_CLOSE: once the S instruction has issued and every long instruction has returned (R169). -/
def execGroupClose (s : State) : Result :=
  let t := s.slot
  .next (if t.mode = .running ∧ t.parked = true ∧ t.tasks = [] ∧ t.pend = none ∧ t.stopReq = .none then s.closeGroup else s)

/-- A local-store access of the slot itself, at its `call` or `ret` (R101). -/
def State.windowAt (s : State) (need : Need) (u : Use) (top : Nat) : Acc (State × List Seg) :=
  s.enter (s.who s.slot.nanread) need u [(.ls s.focus.lc top, 128)]
def State.windowRefused (s : State) (h : Halt) : State :=
  match h with
  | .refuse k a => s.abort { kind := k, addr := a, pc := s.slot.pc }
  | .full dst ch => s.fullWait s.focus.ctx dst ch
  | .wait => s

/-- WINDOW_SPILL: the oldest resident window goes to the spill top (R101). -/
def execWindowSpill (s : State) : Result :=
  let t := s.slot
  .next (if t.mode ≠ .running ∨ t.wait ≠ .spill then s
    else
      match (do
        let (s1, gs) ← s.windowAt .w .write t.spillTop
        (s1.putPlain s.party gs (wordsBytes (t.older.headD []))).afterStore (s.who t.nanread) gs : Acc State) with
      | .ok s1 => s1.mod (fun t => { t with older := t.older.tail, spillTop := t.spillTop + 128, wait := .none })
      | .error h => s.windowRefused h)

/-- WINDOW_FILL: the caller's window comes back from below the spill top (R101). -/
def execWindowFill (s : State) : Result :=
  let t := s.slot
  .next (if t.mode ≠ .running ∨ t.wait ≠ .fill then s
    else if t.spillTop < 128 then s.abort { kind := .protection, addr := selfAddr t.spillTop - 128, pc := t.pc }
    else
      match s.windowAt .r .read (t.spillTop - 128) with
      | .ok (s1, gs) =>
        let bs := s1.segBytes gs
        let block := (List.range 16).map (fun i => BitVec.ofNat 64 (fieldAt bs (8 * i) 8))
        s1.mod (fun t => { t with older := [block], spillTop := t.spillTop - 128, wait := .none })
      | .error h => s.windowRefused h)

/-- TRAP_DELIVERY: a trap that waited for the long instructions of its group is delivered; those of a trap of class E stop where they can
(R50, R326, R334). -/
def execTrapDelivery (s : State) : Result :=
  .next (match s.slot.pend with
    | none => s
    | some tr =>
      if s.slot.mode ≠ .running then s
      else
        let s1 := if tr.cls = .exec then s.stopQueue else s
        if s1.slot.tasks.isEmpty then s1.closeAndTrap tr else s1)

/-- REGION_RESTART: a slot whose wait list was released is reset to its region start (R23, R102, R171). -/
def execRegionRestart (s : State) : Result :=
  let t := s.slot
  .next (if t.mode = .released then ((s.mod (fun t => { t.restart with mode := .running })).poolOver s.focus.ctx s.focus.lc s.focus.pos false).startRegion
    t.region t.rmask else s)

/-! ### Pre-emption (R114, R334) -/

/-- The slot's time slice has run out (R113, R114). -/
def Slot.expired (t : Slot) : Bool := decide (t.slice ≠ 0) && decide (t.slice ≤ t.sliceCount) && !t.sup

/-- A slot that has stopped: its group closes early and its image is saved (R334 step 6). -/
def State.stopped (s : State) : State := if s.slot.tasks.isEmpty then s.closeGroup.saveImage else s

/-- PREEMPTION: at the expiry of the slice the slot stops, and its image is saved and queued once it has (R112, R114, R334). FORCED rises when
the slot is pre-empted, also where a refusal or a class E trap overtakes the stop (log 71). -/
def execPreemption (s : State) : Result :=
  let t := s.slot
  .next (if t.mode ≠ .running ∨ 8 ≤ s.focus.pos then s
    else if t.stopReq = .slice then s.stopQueue.stopped
    else if t.expired && t.pend.isNone && decide (t.stopReq = .none) then
      ((s.stopSlot .slice).mod (fun t => { t with forced := Nat.min (t.forced + 1) 0xFFFFFFFF })).stopQueue.stopped
    else s)

/-- POOL_HOLD_RELEASE: once the pool has a record, the instruction held for want of one issues again, and a held slot whose region waits on a
page frees its slot for a record (R106, R151). -/
def execPoolHoldRelease (s : State) : Result :=
  let t := s.slot
  .next (if t.wait ≠ .pool ∨ s.here.poolFree = [] then s
    else if t.mode = .held then s.heldRecord
    else if t.mode = .running then s.mod (fun t => { t with wait := .none })
    else s)

/-! ### Slot grants (R96, R97, R107, R110, R112) -/

/-- Acts for the slot `f`, and returns the focus. -/
def State.for (s : State) (f : Focus) (g : State → State) : State := { g { s with focus := f } with focus := s.focus }

/-- The mark in `quiet` of a whole context that is quiesced for a rebase of its clocks (R180). -/
def wholeCtx : Nat := 96

/-- A logical core whose slots are being stopped, or in whose context a clock can rise no more, takes no continuation (R16, R180, R338). -/
def Ctx.stopping (c : Ctx) (lc : Nat) : Bool := c.sealing || c.quiet.contains (lc / 8) || c.quiet.contains wholeCtx || c.clockFull

/-- Slot `p` of a physical core that hosts `ls` is free. -/
def State.freePos (s : State) (ctx : Nat) (ls : List Nat) (p : Nat) : Bool :=
  ls.all (fun l => decide ((s.slotAt { ctx := ctx, lc := l, pos := p }).mode = .free))

/-- The element of a list with the least value of `f`, the first of equals. -/
def leastBy {α : Type} (f : α → Nat) : List α → Option α
  | [] => none
  | a :: r =>
    match leastBy f r with
    | none => some a
    | some b => if f b < f a then some b else some a

/-- The entry that the next grant takes, with the new count of R97: the oldest of the highest priority, or every sixteenth time of
the next lower one (R96, R97). -/
def grantChoice (c : Nat) (es : List (Nat × QEntry)) : Option ((Nat × QEntry) × Nat) :=
  match leastBy (fun e => e.2.prio) es with
  | none => none
  | some top =>
    let lower := es.filter (fun e => decide (top.2.prio < e.2.prio))
    match (if c = 15 then leastBy (fun e => e.2.prio) lower else none) with
    | some low => (leastBy (fun e => e.2.age) (lower.filter (fun e => decide (e.2.prio = low.2.prio)))).map (fun e => (e, 0))
    | none =>
      (leastBy (fun e => e.2.age) (es.filter (fun e => decide (e.2.prio = top.2.prio)))).map (fun e =>
        (e, if lower.isEmpty then 0 else c + 1))

/-- The number by which the grant of a record, or of an image, waits on a page of a graph. -/
def grantTag (q : QEntry) : Nat := if q.image then 2 ^ 50 + q.cid else 2 ^ 49 + q.ref

/-- The ready continuations of any binding of logical cores `ls` (R110). One that awaited a message is not among them while its logical core
is not placed or is being moved: the message is held in the mailbox (R12, R16, R189). -/
def State.anyReady (s : State) (ctx : Nat) (ls : List Nat) : List (Nat × QEntry) :=
  ls.flatMap (fun l => ((s.core ctx l).ready.filter (fun q => !q.image && decide (q.bind = 0x3FF) && !s.engHeld ctx (grantTag q) && q.await.all (fun a =>
    s.placed ctx l && !(s.ctxOf ctx).stopping l && (s.core ctx l).box.any a.matches))).map (fun q => (l, q)))

/-- The oldest continuation of any binding at the highest priority, in the first of the three scopes that has one (R110). -/
def State.stealChoice (s : State) (ctx core : Nat) (mine : List Nat) : Option (Nat × QEntry) :=
  let all := (s.cores.filter (fun e => decide (e.1 / 1024 = ctx))).map (fun e => e.1 % 1024)
  let best (ls : List Nat) : Option (Nat × QEntry) := (grantChoice 0 (s.anyReady ctx ls)).map (·.1)
  match best (all.filter (fun l => mine.any (fun m => decide (m / 8 = l / 8)))) with
  | some e => some e
  | none =>
    match best (all.filter (fun l => decide (s.physCore ctx l / 200 = core / 200))) with
    | some e => some e
    | none => best all

/-- The slot at the start of a granted record (R107, R117). -/
def Slot.start (t : Slot) (r : Record) (q : QEntry) : Slot :=
  let t1 : Slot := { t.freed with
    mode := .running, pc := r.pc, nanread := r.nan, prio := r.prio, bind := r.bind, node := r.node, iter := q.iter, cid := q.cid
    spillTop := t.spillBase }
  ((maskRegs r.mask).zip r.live).foldl (fun t e => t.wx e.1 e.2) (t1.wk 1 r.k1)

/-- A continuation whose record or image cannot be read is lost; what the engines count of it is settled (R106). -/
def State.loseEntry (s : State) (ctx : Nat) (q : QEntry) : Acc State := do
  let s1 ← s.endIter ctx q.iter false
  s1.retireNode ctx q.node (some codeQuit)

/-- Delivers the message that a granted continuation awaited, from the mailbox in which it came (R107, R110, R194). -/
def State.deliverFrom (s : State) (lc : Nat) (a : Await) : State :=
  if lc = s.focus.lc then s.deliverAwait a
  else
    match s.peek s.focus.ctx lc a with
    | none => s.deliverAwait a
    | some m =>
      if m.nan ≠ s.slot.nanread then s.deliverTrap (s.mismatch m)
      else
        ((s.takeMsg s.focus.ctx lc s.party m).mod (fun t => { t.receive a.xd m with await := none })).startRegion s.slot.pc
          (s.slot.rmask ||| recvMask a.xd)

/-- Grants the slot in focus the record of entry `q` from the queue of `lc`; the record returns to the pool (R106, R107, R351). -/
def State.grantRecord (s : State) (lc : Nat) (q : QEntry) : Acc State := do
  let ctx := s.focus.ctx
  let s1 := ((s.modCore ctx lc (fun c => { c with ready := c.ready.erase q })).freeRecord ctx q.ref).foldGlobal ctx (s.here.recordAddr q.ref) 192
  match s1.peekBytes ctx (s.here.recordAddr q.ref) 192 with
  | none => s1.loseEntry ctx q
  | some bs =>
    if (Record.badField bs).isSome then s1.loseEntry ctx q
    else do
      let r := Record.parse bs
      let s2 := (s1.mod (fun t => t.start r q)).startRegion r.pc r.mask
      let s3 ← s2.nodeGranted ctx r.node
      .ok (match (if r.cause = 1 then r.await else none) with
        | none => s3
        | some a => (s3.mod (fun t => { t with await := some a })).deliverFrom lc a)

/-- Grants the slot in focus its image (R111, R112, R329, R353, R366). -/
def State.grantImage (s : State) (q : QEntry) : Acc State :=
  let f := s.focus
  let side := Tab.get {} s.me.sides q.cid
  let s1 := (s.modMe (fun c => { c with ready := c.ready.erase q, sides := Tab.set {} c.sides q.cid {} })).foldGlobal f.ctx
    (s.here.imageFrame f.lc f.pos) 8192
  match side.kept.elim (s1.peekBytes f.ctx (s.here.imageFrame f.lc f.pos) 8192) (fun bs => if bs.isEmpty then none else some bs) with
  | none => s1.loseEntry f.ctx q
  | some bs =>
    let s2 := s1.mod (fun t => { t.freed.restore bs with
      mode := .running, cid := side.cid, node := side.node, iter := side.iter, rseq := side.seq, accAt := side.accAt
      inputs := side.inputs, inK := side.inK, tasks := side.tasks, longs := side.longs, parked := side.parked, pend := side.pend
      stopNew := side.stopNew, undone := side.undone })
    match (if side.pending then s2.slot.await else none) with
    | some a => .ok (s2.deliverAwait a)
    | none => .ok (s2.mod (fun t => { t with await := none }))

/-- A slot of this physical core whose delivery after an `eret` or a resume can now be made (R329). -/
def State.dueDelivery (s : State) (ctx : Nat) (ls : List Nat) : Option Focus :=
  (ls.flatMap (fun l => (List.range 9).map (fun p => ({ ctx := ctx, lc := l, pos := p } : Focus)))).find? (fun f =>
    let t := s.slotAt f
    !(s.ctxOf ctx).stopping f.lc && decide (t.mode = .running) && decide (t.wait = .deliver) && t.await.any (fun a => (s.core ctx f.lc).box.any a.matches))

/-- The ready continuations that a free slot of the physical core may take (R96, R112). -/
def State.takeable (s : State) (ctx : Nat) (ls : List Nat) : List (Nat × QEntry) :=
  let free := (List.range 9).filter (s.freePos ctx ls)
  (ls.filter (fun l => !(s.ctxOf ctx).stopping l)).flatMap (fun l =>
    ((s.core ctx l).ready.filter (fun q => !s.engHeld ctx (grantTag q) && if q.image then free.contains q.ref else free.any (fun p => decide (p < 8)))).map
      (fun q => (l, q)))

/-- The count of R97 of a physical core after a grant that has taken place. -/
def State.counted (s : State) (core c : Nat) : State :=
  if s.slot.mode = .free then s else { s with passCount := Tab.set 0 s.passCount core c }

/-- SLOT_GRANT: a free slot of physical core `core` takes a continuation; the lowest-numbered free slot takes a record (R96, R97, R110,
R112). A continuation of any binding runs under the lowest-numbered logical core that the physical core hosts (R15, R110, log 70). A
delivery that a slot of the core waits for is made first (R194, R329). -/
def execSlotGrant (ctx core : Nat) (s : State) : Result :=
  let ls := s.hosted ctx core
  let p := ((List.range 8).filter (s.freePos ctx ls)).head?
  let grant (l : Nat) (pos lc : Nat) (q : QEntry) (c : Nat) : State :=
    s.for { ctx := ctx, lc := l, pos := pos } (fun s =>
      s.engStep ctx l (grantTag q) ((if q.image then s.grantImage q else s.grantRecord lc q).map (·.counted core c)))
  .next (match s.dueDelivery ctx ls with
    | some f => s.for f (fun s => s.deliverAwait (s.slot.await.getD { kind := .msg, xd := 0 }))
    | none =>
      match grantChoice (Tab.get 0 s.passCount core) (s.takeable ctx ls) with
      | some ((lc, q), c) =>
        grant lc (if q.image then q.ref else p.getD 0) lc q c
      | none =>
        match ls.min?, p, (if (s.ctxOf ctx).cr.det then none else s.stealChoice ctx core ls) with
        | some l, some p, some (lc, q) =>
          if ls.any (fun l => !(s.core ctx l).ready.isEmpty || (s.ctxOf ctx).stopping l) then s
          else grant l p lc q 0
        | _, _, _ => s)

/-- The entry of the handler table for an active message (R98); none where the tag is beyond it or names no instruction address. -/
def State.handler (s : State) (ctx tag : Nat) : Option Word :=
  let c := (s.ctxOf ctx).cr
  let i := tag % 2 ^ 15
  if c.nhandlers ≤ i then none
  else
    match s.peekNat ctx (c.handlers.toNat + 8 * i) 8 with
    | none => none
    | some a => if badTarget (BitVec.ofNat 64 a) then none else some (BitVec.ofNat 64 a)

/-- ACTIVE_MESSAGE: the service slot of the physical core starts the handler of the oldest active message of `lc` (R98). -/
def execActiveMessage (ctx lc : Nat) (s : State) : Result :=
  let ls := s.hosted ctx (s.physCore ctx lc)
  .next (if !s.placed ctx lc || !s.freePos ctx ls 8 || (s.ctxOf ctx).stopping lc ||
      ls.any (fun l => ((s.core ctx l).ready ++ (s.core ctx l).suspended).any (fun q => q.image && decide (q.ref = 8))) then s
    else
      match (s.core ctx lc).box.find? Msg.active with
      | none => s
      | some m => s.for { ctx := ctx, lc := lc, pos := 8 } (fun s =>
          let (cid, s1) := (s.foldGlobal ctx ((s.ctxOf ctx).cr.handlers.toNat + 8 * (m.tag % 2 ^ 15)) 8).newCid ctx
          let s2 := s1.takeMsg ctx lc s.party m
          let t : Slot := { viewAt := s.slot.viewAt, idemAt := s.slot.idemAt, mode := .running, nanread := m.nan, bind := lc, cid := cid }
          let pc := (s.handler ctx m.tag).getD 0
          let s3 := (s2.mod (fun _ => ((t.wxs 8 m.deliver).wk 1 (BitVec.allOnes 48)))).startRegion pc 0xFF00
          let s4 := s3.mod (fun t => { t with pc := pc })
          if (s.handler ctx m.tag).isNone then s4.deliverTrap (s4.fault .protection 0) else s4))

/-! ### The wait-cycle probe (R208) -/

/-- The published waits with a named source of a logical core: continuation name and awaited source (R105, R208). -/
def State.published (s : State) (ctx lc : Nat) : List (Nat × Nat) :=
  let source (cid : Nat) (a : Option Await) : Option (Nat × Nat) := (a.bind (·.src)).map (fun x => (cid, x))
  (s.core ctx lc).suspended.filterMap (fun q => source q.cid q.await) ++
  (List.range 9).filterMap (fun p =>
    let t := s.slotAt { ctx := ctx, lc := lc, pos := p }
    if t.mode = .running then source t.cid t.await else none)

/-- The logical core holds a running or ready continuation. -/
def State.busy (s : State) (ctx lc : Nat) : Bool :=
  !(s.core ctx lc).ready.isEmpty || (List.range 9).any (fun p =>
    let t := s.slotAt { ctx := ctx, lc := lc, pos := p }
    decide (t.mode = .running) && t.await.isNone)

/-- Follows a probe that has reached core `cur`; the cores passed so far, if it comes back to its sender. -/
def State.probe (s : State) (ctx sender : Nat) : Nat → Nat → List Nat → Option (List Nat)
  | 0, _, _ => none
  | n + 1, cur, path =>
    if cur = sender then some path
    else if 0x300 ≤ cur || s.busy ctx cur then none
    else
      match leastBy (fun w => (Tab.get (0, 0) (s.ctxOf ctx).probed w.1).1) (s.published ctx cur) with
      | none => none
      | some w => State.probe s ctx sender n w.2 (path ++ [cur])

/-- The probe interval in cycles (R208, R391). -/
def Ctx.probeCycles (c : Ctx) : Nat := (if c.cr.probe = 0 then 256 else c.cr.probe) * 65536

/-- The payload of a DEADLOCK message over the cores of a cycle (R208). -/
def deadlockWords (path : List Nat) : List Word :=
  BitVec.ofNat 64 path.length ::
  (List.range 4).map (fun w => BitVec.ofNat 64 ((List.range 4).foldl (fun v j => v + at' (16 * j) (path.getD (4 * w + j) 0xFFFF)) 0)) ++ [0, 0]

/-- WAIT_CYCLE_PROBE: a published wait of `lc` that has lasted a probe interval since its start or its last probe sends a probe (R208). -/
def execWaitCycleProbe (ctx lc : Nat) (s : State) : Result :=
  let c := s.ctxOf ctx
  .next (match (s.published ctx lc).find? (fun w => decide ((Tab.get (0, 0) c.probed w.1).2 + c.probeCycles ≤ s.cycle)) with
    | none => s
    | some w =>
      let s1 := s.modCtx ctx (fun c => { c with probed := Tab.set (0, 0) c.probed w.1 ((Tab.get (0, 0) c.probed w.1).1, s.cycle) })
      match (if w.2 < 0x300 then s.probe ctx lc 16 w.2 [lc] else none) with
      | none => s1
      | some path =>
        if path.any (fun l => decide (l < lc)) then s1
        else
          match s1.event ctx c.cr.supcore { src := lc, kind := .deadlock, words := deadlockWords path } with
          | some s2 => s2
          | none => s1.modCtx ctx (fun c => { c with dropped := Nat.min (c.dropped + 1) (2 ^ 64 - 1) }))

/-! ### The answers of `xinv` and `drain` (R151, R160, R161) -/

/-- WAIT_LIST_RELEASE: an `xinv` reaches the translating slice of a page; the tables are walked again (R151, R160). -/
def execWaitListRelease (ctx page : Nat) (s : State) : Result :=
  .next (match (s.ctxOf ctx).xinvs.find? (fun x => x.copies.contains page) with
    | none => s
    | some x => (s.modCtx ctx (fun c => { c with
        xinvs := c.xinvs.map (fun y => if y = x then { y with copies := y.copies.erase page } else y) })).reexamine ctx page)

/-- The first invalidate of logical core `lc` that can be answered: each wait list of its range has been examined again, and no earlier one of
its slot waits, nor in deterministic mode of its logical core (R159, R160, R191). -/
def Ctx.xinvDue (c : Ctx) (lc : Nat) : Option EvReq :=
  let mine := c.xinvs.filter (fun x => decide (x.lc = lc))
  mine.find? (fun x => x.copies.isEmpty && mine.all (fun y => decide (x.ticket ≤ y.ticket) || (!c.cr.det && decide (y.pos ≠ x.pos))))

/-- XINVDONE: an `xinv` of `lc` is answered (R159, R160). -/
def execXinvdone (ctx lc : Nat) (s : State) : Result :=
  .next (match (s.ctxOf ctx).xinvDue lc with
    | none => s
    | some x =>
      let m : Msg := { src := lc, kind := .xinvdone, nan := x.nan, words := [BitVec.ofNat 64 x.a, BitVec.ofNat 64 x.b] }
      match s.event ctx lc m with
      | some s1 => s1.modCtx ctx (fun c => { c with xinvs := c.xinvs.erase x })
      | none =>
        let c := s.ctxOf ctx
        s.waitBox ctx lc m.channel ((c.xinvs.filter (fun y => decide (y = x) || (!c.cr.det && decide (y.lc = lc) && y.copies.isEmpty))).map
          (2 ^ 40 + ·.ticket)))

/-- DRAINDONE: a drain of `lc` is answered when its counted copies have completed; in deterministic mode in the order of the requests
(R161, R191). -/
def execDraindone (ctx lc : Nat) (s : State) : Result :=
  let c := s.ctxOf ctx
  let left := (s.copiesOf ctx lc).map (·.ticket)
  let mine := c.drains.filter (fun d => decide (d.lc = lc))
  let ended (d : EvReq) : Bool := d.copies.all (fun t => !left.contains t)
  .next (match (if c.cr.det then mine.head?.filter ended else mine.find? ended) with
    | none => s
    | some d =>
      let m : Msg := { src := lc, kind := .draindone, nan := d.nan, words := [BitVec.ofNat 64 d.a, BitVec.ofNat 64 d.b] }
      match s.event ctx lc m with
      | some s1 => s1.modCtx ctx (fun c => { c with drains := c.drains.erase d })
      | none => s.waitBox ctx lc m.channel ((mine.filter (fun e => decide (e = d) || (!c.cr.det && ended e))).map (2 ^ 40 + ·.ticket)))

end Sys2Proof.Machine
end

