-- ==== Sys2Proof/Machine/Keccak.lean ====
section
/-! DEFINITION. SHAKE256 with an output of 512 bits, as measurement and digests use it (22 R402, R403, R407). -/

namespace Sys2Proof.Machine

/-- The places that the offsets of the permutation visit: from (1, 0) each time (x, y) goes to (y, 2x + 3y). -/
def keccakWalk : Nat → Nat × Nat → List (Nat × Nat)
  | 0, _ => []
  | n + 1, (x, y) => (x, y) :: keccakWalk n (y, (2 * x + 3 * y) % 5)

/-- The rotation of the lane at column x and row y: the t-th place of the walk turns by (t + 1)(t + 2) / 2, and (0, 0) stays. -/
def turnOf (x y : Nat) : Nat := (((keccakWalk 24 (1, 0)).zipIdx.find? (fun p => decide (p.1 = (x, y)))).map (fun p => (p.2 + 1) * (p.2 + 2) / 2 % 64)).getD 0

/-- One shift of the register of eight bits that gives the bits of the round constants, over x⁸ + x⁶ + x⁵ + x⁴ + 1. -/
def lfsrNext (r : Nat) : Nat := if 2 * r < 256 then 2 * r else (2 * r) ^^^ 0x171
/-- The register after t shifts from 1. -/
def lfsrAt : Nat → Nat
  | 0 => 1
  | t + 1 => lfsrNext (lfsrAt t)

/-- The constant of round i: bit 2^j − 1 is the low bit of the register after j + 7i shifts. -/
def roundConst (i : Nat) : Word := (List.range 7).foldl (fun w j => w ||| BitVec.ofNat 64 (lfsrAt (j + 7 * i) % 2 * 2 ^ (2 ^ j - 1))) 0

def lane (a : List Word) (i : Nat) : Word := a.getD i 0

/-- The lane at column x and row y, both modulo 5. -/
def at25 (a : List Word) (x y : Nat) : Word := lane a (x % 5 + 5 * (y % 5))

/-- The parity of a column. -/
def parity (a : List Word) (x : Nat) : Word := (List.range 5).foldl (fun w y => w ^^^ at25 a x y) 0

/-- A state from its lanes. -/
def lanes25 (f : Nat → Nat → Word) : List Word := (List.range 25).map (fun i => f (i % 5) (i / 5))

/-- Each lane takes in the parities of two columns. -/
def theta (a : List Word) : List Word := lanes25 (fun x y => at25 a x y ^^^ parity a (x + 4) ^^^ (parity a (x + 1)).rotateLeft 1)
/-- The lanes turn, and the one at (x, y) goes to (y, 2x + 3y): so (x, y) takes the one at (x + 3y, x). -/
def rhoPi (a : List Word) : List Word :=
  let turned := lanes25 (fun x y => (at25 a x y).rotateLeft (turnOf x y))
  lanes25 (fun x y => at25 turned (x + 3 * y) x)
/-- Each lane takes in two of its row. -/
def chi (a : List Word) : List Word := lanes25 (fun x y => at25 a x y ^^^ (~~~at25 a (x + 1) y &&& at25 a (x + 2) y))
/-- Round i of the permutation. -/
def keccakRound (a : List Word) (i : Nat) : List Word := (chi (rhoPi (theta a))).modifyHead (· ^^^ roundConst i)

def keccakF (a : List Word) : List Word := (List.range 24).foldl keccakRound a

/-- Absorbs the blocks of a padded message. -/
def keccakAbsorb : Nat → List Word → List Byte → List Word
  | 0, a, _ => a
  | n + 1, a, bs =>
    keccakAbsorb n (keccakF ((List.range 25).map (fun i =>
      lane a i ^^^ (if i < 17 then BitVec.ofNat 64 (leNat ((bs.drop (8 * i)).take 8)) else 0)))) (bs.drop 136)

/-- The padded message. -/
def shakePad (bs : List Byte) : List Byte :=
  let k := 136 - bs.length % 136
  bs ++ (if k = 1 then [0x9F] else 0x1F :: List.replicate (k - 2) 0 ++ [0x80])

/-- SHAKE256, 64 bytes of output. -/
def shake512 (bs : List Byte) : List Byte :=
  let p := shakePad bs
  ((keccakAbsorb (p.length / 136) (List.replicate 25 0) p).take 8).flatMap (fun w => leBytes 8 w.toNat)

/-- The digest as a number, its first byte least significant. -/
def digest (bs : List Byte) : BitVec 512 := BitVec.ofNat 512 (leNat (shake512 bs))

end Sys2Proof.Machine
end

