-- ==== Sys2Proof/Machine/Contexts.lean ====
section
/-! DEFINITION. Stopping a context, placement, timers, control-block requests, sealing and ending (01 R11 to R17; 16 R338 to R340;
22 R390 to R406). -/

namespace Sys2Proof.Machine

/-! ### Stopping slots (R16, R334, R338) -/

/-- The key of a slot taken apart. -/
def focusOf (key : Nat) : Focus := { ctx := key / 16384, lc := key % 16384 / 16, pos := key % 16 }

/-- The next instruction of the slot is a `brk` (R340); an instruction lies in one fetch block (R43). -/
def State.atBrk (s : State) : Bool :=
  match s.peekBytes s.focus.ctx s.slot.pc.toNat (Nat.min 16 (32 - s.slot.pc.toNat % 32)) with
  | none => false
  | some bs =>
    match decode bs with
    | .ok (.brk _ _, _) => true
    | _ => false

/-- The slot in focus is saved with its open group where an access at the head of its queue waits, which nothing will end while the context
or cluster stands; what this stop has taken out of the group goes on in it (log 30). -/
def State.freeze (s : State) : State :=
  match s.slot.tasks.head? with
  | none => s
  | some k => if s.stuck k then (s.mod (fun t => if t.pend.isNone then t.goOnAll else t)).saveImage else s

/-- Stops the slot in focus and saves its image once its group has closed, or with its group open (log 30); `mark` notes a `brk` that a seal
keeps from issuing (R334, R338, R340). A class I trap that waits for its group counts as not raised, any other that is raised is delivered
first. -/
def State.stopOne (s : State) (mark : Bool) : State :=
  let t := s.slot
  let halt (s : State) : State :=
    let s1 := (if s.slot.stopReq = .seal then s else s.stopSlot .seal).stopQueue
    if !s1.slot.tasks.isEmpty then s1.freeze
    else
      let s2 := s1.closeGroup
      (s2.mod (fun t => { t with defbrk := t.defbrk || (mark && s2.atBrk) })).saveImage
  if t.mode ≠ .running then s
  else
    match t.pend with
    | none => halt s
    | some tr =>
      if tr.cls = .exec then (s.mod (fun t => { t with stopReq := .seal })).stopQueue.freeze
      else if t.tasks.isEmpty then s
      else halt (s.mod (fun t => { t with pend := none }))

/-- A held or released slot is saved as an image in its restart state: it waits on its page, or is ready, as that image (R16, R102, R151). -/
def State.parkHeld (s : State) : State :=
  let t := s.slot
  let f := s.focus
  let q : QEntry := { image := true, ref := f.pos, bind := t.bind, prio := t.prio, cid := t.cid, node := t.node, iter := t.iter }
  let s1 := s.keepImage
  match t.mode with
  | .held => s1.freeSlot.modCtx f.ctx (fun c => { c with waitLists := c.waitLists.map (fun (e : Nat × List Waiter) =>
      (e.1, e.2.map (fun w => if w = .slot s.party then .record f.lc q else w))) })
  | .released => s1.freeSlot.enqueue f.ctx f.lc q
  | .free | .running | .halted => s

/-- The slots of logical cores of a context that are in one of `ms`. -/
def State.slotsIn (s : State) (ctx : Nat) (p : Nat → Bool) (ms : List SlotMode) : List Focus :=
  ((s.slots.filter (fun e => decide (e.1 / 16384 = ctx) && p (e.1 % 16384 / 16) && ms.contains e.2.mode)).map (·.1)).map focusOf

/-- One pass over the slots of some logical cores; whether every slot is saved afterwards: free, or halted in its frame (R16, R327). -/
def State.quiesce (s : State) (ctx : Nat) (p : Nat → Bool) (mark : Bool) : State × Bool :=
  let s1 := (s.slotsIn ctx p [.running]).foldl (fun s f => s.for f (fun s => s.stopOne mark)) s
  let s2 := (s1.slotsIn ctx p [.held, .released]).foldl (fun s f => s.for f State.parkHeld) s1
  (s2, (s2.slotsIn ctx p [.running]).isEmpty)

/-! ### The rebase of the clocks (R180) -/

/-- The time at which a rebase begins, well before 2^47 (R180, log 20). -/
def rebaseAt : Nat := 2 ^ 47 - 2 ^ 20

/-- What a rebase takes from each clock: enough that every clock comes below the time at which one begins, and no more than the latest clock
holds; otherwise free (R180, log 20). -/
def rebaseBy (latest free : Nat) : Nat := latest + 1 - rebaseAt + free % rebaseAt

/-- A clock or stamp less a common amount (log 20). -/
def Clock.less (t : Clock) (amount : Nat) : Clock := BitVec.ofNat 48 (t.toNat - amount)

/-- CLOCK_REBASE: before a clock passes 2^47 the context is quiesced, and one common amount leaves every clock of it and every send stamp; a
clock below it goes to zero (R16, R180, log 20). -/
def execClockRebase (ctx : Nat) (s : State) : Result :=
  let latest := (s.now ctx).toNat
  .next (if latest < rebaseAt then s
    else
      let (s1, done) := s.quiesce ctx (fun _ => true) false
      if !done then s1.modCtx ctx (fun c => { c with quiet := if c.quiet.contains wholeCtx then c.quiet else wholeCtx :: c.quiet })
      else
        let amount := rebaseBy latest (Config.rebaseAmount s.draws)
        let s2 := s1.modCtx ctx (fun c => { c with
          quiet := c.quiet.erase wholeCtx, clocks := c.clocks.foldl (fun t e => Tab.set 0 t e.1 (Clock.less e.2 amount)) [] })
        let core (c : LCore) : LCore := { c with box := c.box.map (fun m => { m with stamp := Clock.less m.stamp amount }) }
        { s2 with cores := s2.cores.map (fun (e : Nat × LCore) => if e.1 / 1024 = ctx then (e.1, core e.2) else e) }.draw)

/-! ### Placement (R11 to R14) -/

/-- The physical clusters that a mask of R391 names, ascending. -/
def clustersOf (mask : Nat) : List Nat := (List.range 100).filter (fun i => mask.testBit i)

/-- The logical clusters that the default placement puts on allotted cluster number `k` of `n` (R11). -/
def shareOf (n k : Nat) : Nat := ((List.range 96).filter (fun j => decide (j * n / 96 = k))).length

/-- The default placement of logical core `l` over clusters `cs` (R11, R12). -/
def defaultEntry (cs : List Nat) (l : Nat) : BitVec 32 :=
  let k := l / 8 * cs.length / 96
  let a := cs.getD k 0
  BitVec.ofNat 32 (at' 31 1 + at' 10 (shareOf cs.length k - 1) + at' 8 (a / 25) + at' 3 (a % 25) + l % 8)

/-- A table over the 768 logical cores in canonical form. -/
def coreTable (f : Nat → BitVec 32) : Tab (BitVec 32) := ((List.range 768).map (fun l => (l, f l))).filter (fun e => decide (e.2 ≠ 0))
def defaultPlacement (cs : List Nat) : Tab (BitVec 32) := coreTable (defaultEntry cs)

/-- SLOT_SHARE for `n` other logical cores; what the seven bits hold of a number past 127 is free (R12, log 22). -/
def shareBits (n : Nat) : Nat := if n < 128 then n else (Config.wideShare n).toNat

/-- SLOT_SHARE of every entry as the Nutcracker computes it (R12, R13). -/
def reshare (t : Tab (BitVec 32)) : Tab (BitVec 32) :=
  coreTable (fun l =>
    let e := Tab.get 0 t l
    let n := (t.filter (fun q => q.2.getLsbD 31 && decide (physOf q.2 = physOf e) && decide (q.1 ≠ l))).length
    BitVec.ofNat 32 (at' 17 (field e.toNat 17 15) + at' 10 (shareBits n) + field e.toNat 0 10))

/-- A physical core's owner register holds a context (R390). -/
def State.owns (s : State) (ctx core : Nat) : Bool :=
  let o := (Tab.get 0 s.owners core).toNat
  decide (field o 31 1 = 1) && decide (field o 0 16 = ctx)
/-- No core of a physical cluster is owned. -/
def State.clusterFree (s : State) (a : Nat) : Bool := (List.range 8).all (fun m => decide (Tab.get 0 s.owners (8 * a + m) = 0))
def State.setOwners (s : State) (as : List Nat) (v : BitVec 32) : State :=
  as.foldl (fun s a => (List.range 8).foldl (fun s m => { s with owners := Tab.set 0 s.owners (8 * a + m) v }) s) s
/-- An owner register that holds a context (R390). -/
def ownerOf (ctx : Nat) : BitVec 32 := BitVec.ofNat 32 (at' 31 1 + ctx)

/-! ### Moves of R17 -/

/-- A physical core that still serves: it suffers no lasting fault (R17, R426). -/
def State.alive (s : State) (core : Nat) : Bool := !Tab.get false s.retired (1 * 2 ^ 16 + core)

/-- The placement after the lasting fault of core `p`: its logical cores go to a core of the cluster that hosts none, else their logical
clusters with every placed core of them to a spare cluster of the context, else to the least loaded core of the cluster; a cluster without a
core keeps none (R17). -/
def State.moveOff (s : State) (ctx p : Nat) : State :=
  let c := s.ctxOf ctx
  let on (t : Tab (BitVec 32)) (core : Nat) : List Nat := (t.filter (fun e => e.2.getLsbD 31 && decide (physOf e.2 = core))).map (·.1)
  let entry (a m : Nat) : BitVec 32 := BitVec.ofNat 32 (at' 31 1 + at' 8 (a / 25) + at' 3 (a % 25) + m)
  let a := p / 8
  let mates := ((List.range 8).map (fun m => 8 * a + m)).filter s.alive
  let sendTo (t : Tab (BitVec 32)) (ls : List Nat) (v : BitVec 32) : Tab (BitVec 32) := ls.foldl (fun t l => Tab.set 0 t l v) t
  let spares (t : Tab (BitVec 32)) : List Nat := (clustersOf c.cr.clusters).filter (fun b =>
    (List.range 8).all (fun m => s.alive (8 * b + m) && (on t (8 * b + m)).isEmpty))
  let one (t : Tab (BitVec 32)) (l : Nat) : Tab (BitVec 32) :=
    if !(on t p).contains l then t
    else
      match mates.find? (fun q => (on t q).isEmpty), (spares t).head? with
      | some q, _ => sendTo t (on t p) (entry a (q % 8))
      | none, some b => (List.range 8).foldl (fun t m =>
          if (Tab.get 0 t (l / 8 * 8 + m)).getLsbD 31 then Tab.set 0 t (l / 8 * 8 + m) (entry b m) else t) t
      | none, none => Tab.set 0 t l ((leastBy (fun q => (on t q).length) mates).elim 0 (fun q => entry a (q % 8)))
  s.setCtx ctx { c with placement := reshare ((on c.placement p).foldl one c.placement) }

/-- The placement of a context as R11 gives it, with the moves of R17 for cores that no longer serve (R393). -/
def State.placeDefault (s : State) (ctx : Nat) (cs : List Nat) : State :=
  let s1 := s.modCtx ctx (fun c => { c with placement := defaultPlacement cs })
  (cs.flatMap (fun a => ((List.range 8).map (fun m => 8 * a + m)).filter (fun p => !s.alive p))).foldl (fun s p => s.moveOff ctx p) s1

/-! ### The security core (R412, R414) -/

/-- The code of a unit (R427) and how many there are (R412). -/
def unitCode : UnitKind → Nat
  | .core => 1 | .slice => 2 | .hbmLane => 3 | .hart => 4 | .link => 5 | .port => 6 | .security => 7
def unitCount : UnitKind → Nat
  | .core => 800 | .slice => 200 | .hbmLane => 24672 | .hart => 48 | .link => 12 | .port => 8 | .security => 2
/-- The key of a unit in the counters and in what is retired. -/
def unitKey (u : UnitKind) (number : Nat) : Nat := unitCode u * 2 ^ 16 + number

/-- The security core that is the Nutcracker serves: the one of IO0, or the standby once it is promoted (R414, R426). -/
def State.secured (s : State) : Bool := !Tab.get false s.retired (unitKey .security (if s.standby then 1 else 0))

/-! ### Timers (R397) -/

/-- TIMER_ARM: the effect of a store of `t` to the timer word of a logical core (R397). -/
def execTimerArm (ctx lc : Nat) (t : BitVec 32) (nan : Bool) (s : State) : Result :=
  .next (if (s.ctxOf ctx).status = .live ∧ lc < 768 then s.armTimer ctx lc t.toNat nan else s)

/-- TIMER_EXPIRY: when the armed time has passed, the word is zeroed and a TIMER placed (R397). -/
def execTimerExpiry (ctx lc : Nat) (s : State) : Result :=
  let c := s.ctxOf ctx
  let r := Tab.get {} c.timers lc
  .next (if !r.armed || decide (r.left ≠ 0) || !s.secured then s
    else
      let m : Msg := { src := lc, kind := .timer, nan := r.nan, words := [BitVec.ofNat 64 r.t] }
      match s.event ctx lc m with
      | none => s.fullWait ctx lc m.channel
      | some s1 => (s1.hwWrite ctx (c.cr.ccb.toNat + 192 + 8 * lc) (zeros 8)).modCtx ctx (fun c => { c with timers := Tab.set {} c.timers lc {} }))

/-! ### Control-block requests (R394 to R396) -/

/-- The eight words of REQUEST of a request in progress that has no result yet, as they were first read (R394, R395). -/
def State.request (s : State) (ctx : Nat) : Option (List Nat) :=
  let c := s.ctxOf ctx
  match c.ccbReq with
  | some { result := none, words := w :: ws, .. } => some (w :: ws)
  | some { result := none, .. } => some ((List.range 8).map (fun i => (s.peekNat ctx (c.cr.ccb.toNat + 64 + 8 * i) 8).getD 0))
  | _ => none

def State.finishReq (s : State) (ctx code : Nat) : State :=
  s.modCtx ctx (fun c => { c with ccbReq := c.ccbReq.map (fun r => { r with result := some code }) })

/-- A request that is still in progress keeps the words that were read (R395). -/
def State.keepReq (s : State) (ctx : Nat) (ws : List Nat) : State :=
  s.modCtx ctx (fun c => { c with ccbReq := c.ccbReq.map (fun r => { r with words := ws }) })

/-- The result codes of R396. -/
def resOk : Nat := 0
def resLocked : Nat := 1
def resRefused : Nat := 2
def resBad : Nat := 3
def resKeyAbsent : Nat := 4

/-- Serves the request of operation `op` with `n` arguments; `act` gives no code while the request is still in progress. A security core that
is lost serves none (R414, R426). -/
def State.serve (s : State) (ctx op n : Nat) (act : List Nat → State × Option Nat) : State :=
  match (if s.secured then s.request ctx else none) with
  | none => s
  | some ws =>
    if ws.getD 0 0 ≠ op then s
    else if (ws.drop (n + 1)).any (· != 0) then s.finishReq ctx resBad
    else
      match act ws with
      | (s', some code) => s'.finishReq ctx code
      | (s', none) => s'.keepReq ctx ws

/-- The entry of member `m` in the words of a PLACE (R396). -/
def placeWord (ws : List Nat) (m : Nat) : BitVec 32 := BitVec.ofNat 32 (field (ws.getD (2 + m / 2) 0) (32 * (m % 2)) 32)

/-- The proposal of a PLACE is to be refused (R13). -/
def State.placeBad (s : State) (ctx : Nat) (es : List (BitVec 32)) : Bool :=
  es.any (fun e => decide (field e.toNat 17 14 ≠ 0) || decide (25 ≤ field e.toNat 3 5) || !s.owns ctx (physOf e)) ||
  es.any (fun e => decide (physOf e / 8 ≠ physOf (es.headD 0) / 8))

/-! ### The fault of a core (R17, R341, R342) -/

/-- The WHERE word of R325 for a slot. -/
def whereOf (f : Focus) (sup : Bool) : Word := BitVec.ofNat 64 (whereWord f.lc f.pos sup)

/-- What the engines count of a lost continuation: its node is retired with code 0xFFFE and its iteration counted as failed, in steps of
their own (R342, R374). -/
def State.loseWork (s : State) (ctx : Nat) (node : Word) (it : Option Iter) : State := (s.loseNode ctx node).loseIter ctx it

/-- The continuation in focus is lost: it ends as by `quit`, its node with code 0xFFFE, and a TRAPNOTE of cause 6 follows (R342). -/
def State.loseSlot (s : State) : State :=
  let f := s.focus
  let t := s.slot
  let s1 := (s.mod (fun t => { t with tasks := [], longs := [], parked := false, pend := none, stopped := [] })).modHere (fun c => { c with
    waitLists := (c.waitLists.map (fun (e : Nat × List Waiter) => (e.1, e.2.filter (fun w => decide (w ≠ .slot s.party))))).filter
      (fun e => decide (e.2 ≠ [])) })
  let s2 := (s1.loseWork f.ctx t.node t.iter).releaseUnits
  ((s2.mod (fun t => { t with spillTop := t.top0 })).freeSlot).trapnote f.ctx 6 f.lc (whereOf f t.sup) 0

/-- The registers of a region restart whose inputs come from the copy that the region start wrote (R341). -/
def Slot.replay (t : Slot) : Slot := { t.restart with x := t.inputs, k := Tab.set 0 [] 1 t.inK }

/-- A slot at depth 0 restarts from its region start: as a record where one can hold its inputs, else in its slot (R23, R341). -/
def State.replaySlot (s : State) : State :=
  let f := s.focus
  let s1 := s.mod Slot.replay
  let t := s1.slot
  let stay := s1.startRegion t.region t.rmask
  if popCount 32 t.rmask.toNat ≤ 16 ∧ !t.sup ∧ f.pos < 8 then
    match s1.takeRecord (t.record t.region t.rmask 2 none) with
    | some (i, s2) => s2.freeSlot.enqueue f.ctx f.lc (t.entry i none)
    | none => stay
  else stay

/-- The slot waits under `recv.keep`: its await word is published and that instruction stands at its PC (R195, R341). -/
def State.atRecvKeep (s : State) : Bool :=
  s.slot.await.isSome && match s.peekBytes s.focus.ctx s.slot.pc.toNat (Nat.min 16 (32 - s.slot.pc.toNat % 32)) with
    | none => true
    | some bs =>
      match decode bs with
      | .ok (.recvKeep .., _) => true
      | _ => false

/-- A slot of the failed core is lost, restarts, or stands halted in its frame (R341, R342). -/
def State.failSlot (s : State) : State :=
  let t := s.slot
  match t.mode with
  | .free => s
  | .halted => if s.holdsUnits then s.loseSlot else s
  | .held | .released => s.loseSlot
  | .running => if t.depth ≠ 0 ∨ s.atRecvKeep = true ∨ s.holdsUnits = true then s.loseSlot else s.replaySlot

/-- A queued or waiting continuation that depended on a lost accumulator or descriptor is lost (R342). -/
def State.loseQueued (s : State) (ctx lc : Nat) (q : QEntry) : State :=
  let drop (l : List QEntry) : List QEntry := l.erase q
  let s1 := (s.modCore ctx lc (fun c => { c with
    ready := drop c.ready, suspended := drop c.suspended, sides := if q.image then Tab.set {} c.sides q.cid {} else c.sides })).modCtx ctx (fun c => { c with
      waitLists := (c.waitLists.map (fun (e : Nat × List Waiter) => (e.1, e.2.filter (fun w => decide (w ≠ .record lc q))))).filter (fun e => decide (e.2 ≠ [])) })
  let s2 := if q.image then s1 else s1.freeRecord ctx q.ref
  (s2.loseWork ctx q.node q.iter).trapnote ctx 6 lc (whereOf { ctx := ctx, lc := lc, pos := if q.image then q.ref else 0 } false) 0

/-- The continuations of a logical core on wait lists. -/
def Ctx.waitingOf (c : Ctx) (lc : Nat) : List QEntry :=
  c.waitLists.flatMap (fun e => e.2.filterMap (fun w =>
    match w with
    | .record l q => if l = lc then some q else none
    | .slot _ | .hart .. | .phase | .engine _ => none))

/-- What logical core `lc` loses with its physical core (R342). -/
def State.loseCore (s : State) (ctx lc : Nat) : State :=
  let s1 := (List.range 9).foldl (fun s p => s.for { ctx := ctx, lc := lc, pos := p } State.failSlot) s
  let c := s1.core ctx lc
  let gone (q : QEntry) : Bool := c.holders.any (fun e => decide (e.2 = q.cid)) || c.descs.any (fun e => decide (e.2.holder = q.cid))
  let s2 := ((c.ready ++ c.suspended ++ (s1.ctxOf ctx).waitingOf lc).filter gone).foldl (fun s q => s.loseQueued ctx lc q) s1
  s2.modCore ctx lc (fun c => { c with accs := [], holders := [], accWriter := [], parts := [], descs := [] })

/-- The context that a physical core belongs to, or 0 (R390). -/
def State.ownerCtx (s : State) (core : Nat) : Nat := field (Tab.get 0 s.owners core).toNat 0 16

/-- Quiesces logical clusters for a change of their entries; whether they are saved (R16). -/
def State.quiesceFor (s : State) (ctx : Nat) (js : List Nat) : State × Bool :=
  let (s1, done) := s.quiesce ctx (fun l => js.contains (l / 8)) false
  (if done then s1.modCtx ctx (fun c => { c with quiet := c.quiet.filter (fun j => !js.contains j) })
    else s1.modCtx ctx (fun c => { c with quiet := c.quiet ++ js.filter (fun j => !c.quiet.contains j) }), done)

/-- The logical clusters that a physical core hosts, if only in part. -/
def State.clustersOn (s : State) (ctx p : Nat) : List Nat := ((s.hosted ctx p).map (· / 8)).eraseDups

/-- The move of the logical cores of a physical core that a lasting fault has retired, once their clusters are quiesced (R16, R17). -/
def State.flee (s : State) (ctx p : Nat) : State :=
  match s.quiesceFor ctx (s.clustersOn ctx p) with
  | (s1, true) => (s1.moveOff ctx p).modCtx ctx (fun c => { c with fled := c.fled.erase p })
  | (s1, false) => s1

/-- PLACE: a move that a lasting fault has made necessary (R17); else the eight entries of a logical cluster together, after the cluster has
been quiesced (R13, R16, R396). -/
def execPlace (ctx : Nat) (s : State) : Result :=
  .next (match (s.ctxOf ctx).fled with
    | p :: _ => if s.secured then s.flee ctx p else s
    | [] => s.serve ctx 1 5 (fun ws =>
      let j := ws.getD 1 0
      let es := (List.range 8).map (placeWord ws)
      if 95 < j ∨ s.placeBad ctx es = true then (s, some resRefused)
      else
        match s.quiesceFor ctx [j] with
        | (s1, false) => (s1, none)
        | (s1, true) =>
          (s1.modCtx ctx (fun c => { c with
            placement := reshare (coreTable (fun l => if l / 8 = j then es.getD (l % 8) 0 else Tab.get 0 c.placement l)) }), some resOk)))

/-- The MAC units of a frame (R144). -/
def frameUnits (f : Nat) : Nat := (65536 * f + 65535) / 192 - 65536 * f / 192 + 1
/-- The bytes of an integrity tree over `n` counters, down to one node (R401). -/
def treeBytes : Nat → Nat → Nat
  | 0, _ => 0
  | k + 1, n => if n = 0 then 0 else if n ≤ 16 then 192 else 192 * ((n + 15) / 16) + treeBytes k ((n + 15) / 16)

/-- The integrity tree of a context has room for one more GUARDED frame (R401). -/
def State.treeRoom (s : State) (ctx f : Nat) : Bool :=
  let mine := s.frames.filter (fun e => decide (frameOwner e.2.toNat = ctx) && decide (frameMode e.2.toNat = 2) && decide (e.1 ≠ f))
  decide (treeBytes 8 (mine.foldl (fun n e => n + frameUnits e.1) (frameUnits f)) ≤ (s.ctxOf ctx).cr.itreelen)

/-- A frame is written to zero in a new mode; its poison, its version counters and the reductions that wait for its lines go (R145, R146,
R399). -/
def State.rewriteFrame (s : State) (f owner mode : Nat) : State :=
  let lo := 65536 * f
  { s with
    mem := Tab.clear s.mem lo (lo + 65536), poison := Tab.clear s.poison lo (lo + 65536), versions := Tab.clear s.versions lo (lo + 65536)
    frames := Tab.set 0 s.frames f (BitVec.ofNat 32 (at' 16 mode + owner))
    ctxs := s.ctxs.map (fun (e : Nat × Ctx) => (e.1, { e.2 with partials := e.2.partials.filter (fun p => decide (p.key / 65536 ≠ f)) })) }

/-- FRAMEMODE (R399). -/
def execFramemode (ctx : Nat) (s : State) : Result :=
  .next (s.serve ctx 2 3 (fun ws =>
    let base := ws.getD 1 0
    let mode := ws.getD 2 0
    let key := ws.getD 3 0
    let f := base / 65536
    let o := frameOwner (s.frame base)
    if base % 65536 ≠ 0 ∨ inHbm base = false ∨ (mode = 0 ∧ key ≠ 0) then (s, some resBad)
    else if 2 < mode ∨ (o ≠ 0 ∧ o ≠ ctx) ∨ (mode ≠ 0 ∧ s.keyOk ctx key mode = false) ∨ (mode = 2 ∧ s.treeRoom ctx f = false) then (s, some resRefused)
    else (s.rewriteFrame f ctx mode, some resOk)))

/-- The halted slot that a request names. -/
def State.haltedSlot (s : State) (ctx : Nat) (ws : List Nat) : Option Focus :=
  let f : Focus := { ctx := ctx, lc := ws.getD 1 0, pos := ws.getD 2 0 }
  if f.lc < 768 ∧ f.pos ≤ 8 ∧ (s.slotAt f).mode = .halted then some f else none

/-- SLOTRESUME: a halted slot is restored from its frame, once no other logical core of its physical core uses the slot (R112, R327, R396). -/
def execSlotresume (ctx : Nat) (s : State) : Result :=
  .next (s.serve ctx 3 2 (fun ws =>
    match s.haltedSlot ctx ws with
    | none => (s, some resRefused)
    | some f =>
      match s.peekBytes ctx ((s.ctxOf ctx).imageFrame f.lc f.pos) 8192 with
      | none => (s, some resBad)
      | some bs =>
        let others := (s.hosted ctx (s.physCore ctx f.lc)).filter (fun l => decide (l ≠ f.lc))
        if (Slot.imageBad bs).isSome then (s, some resRefused)
        else if !s.freePos ctx others f.pos then (s, none)
        else
          (s.for f (fun s =>
            let s1 := (s.foldGlobal ctx ((s.ctxOf ctx).imageFrame f.lc f.pos) 8192).mod (fun t => { t.restore bs with mode := .running })
            match s1.slot.await with
            | none => s1
            | some a => s1.deliverAwait a), some resOk)))

/-- SLOTEND: a halted continuation is ended as by `quit` (R328, R396). -/
def execSlotend (ctx : Nat) (s : State) : Result :=
  .next (s.serve ctx 4 2 (fun ws =>
    match s.haltedSlot ctx ws with
    | none => (s, some resRefused)
    | some f =>
      let s1 := s.for f (fun s => s.finish false)
      (s1, if (s1.slotAt f).mode = .free then some resOk else none)))

/-- KEYGEN: an EMPTY key slot is filled with fresh keys (R396, R398). -/
def execKeygen (ctx : Nat) (s : State) : Result :=
  .next (s.serve ctx 5 2 (fun ws =>
    let k := ws.getD 1 0
    let kind := ws.getD 2 0
    if k = 0 ∨ 127 < k ∨ (kind ≠ 1 ∧ kind ≠ 2) ∨ (Tab.get {} s.keys k).full = true then (s, some resRefused)
    else
      ({ s with keys := Tab.set {} s.keys k { full := true, guarded := decide (kind = 2), owner := ctx, keyName := s.draws } }.draw, some resOk)))

/-- KEYFREE: a key slot of the context is erased (R396). -/
def execKeyfree (ctx : Nat) (s : State) : Result :=
  .next (s.serve ctx 6 1 (fun ws =>
    let k := ws.getD 1 0
    let e := Tab.get {} s.keys k
    if k = 0 ∨ 127 < k ∨ e.full = false ∨ e.owner ≠ ctx then (s, some resRefused)
    else ({ s with keys := Tab.set {} s.keys k {} }, some resOk)))

/-- The FLAGS word of a creation record (R391). -/
def CreateRec.flags (r : CreateRec) : Nat := r.det.toNat + at' 2 r.pmode

/-- An attestation report over a nonce (R403); the report counter has risen. -/
def State.report (s : State) (ctx : Nat) (nonce : List Byte) : List Byte × State :=
  let c := s.ctxOf ctx
  let n := s.reportCtr + 1
  let body := leBytes 4 0x5A4E4154 ++ leBytes 2 1 ++ leBytes 2 ctx ++ leBytes 64 c.measurement.toNat ++ leBytes 64 s.fwDigest.toNat ++
    nonce.take 64 ++ leBytes 8 c.cr.flags ++ leBytes 16 c.cr.clusters ++ leBytes 8 n
  (body ++ ((Config.reportSignature body ++ zeros 49856).take 49856), { s with reportCtr := n })

/-- The Nutcracker's accesses for a request of the control block, under the party number of slot 0 of the supervisor core (DESIGN CHOICE, log
84). -/
def nutWho (c : Ctx) (ctx : Nat) : Who :=
  { ctx := ctx, lc := c.cr.supcore, party := 16 * c.cr.supcore, sup := true, csets := false, shadows := false, engine := true }

/-- ATTEST (R403). -/
def execAttest (ctx : Nat) (s : State) : Result :=
  .next (s.serve ctx 7 2 (fun ws =>
    let w := nutWho (s.ctxOf ctx) ctx
    let a := ws.getD 1 0
    let b := ws.getD 2 0
    if 2 ^ 56 < a + 64 ∨ 2 ^ 56 < b + 50088 then (s, some resBad)
    else
      match (do
        let (s1, nonce) ← s.readAt w (pagePieces a 64)
        let (rep, s2) := s1.report ctx nonce
        s2.writeAt w (pagePieces b 50088) rep : Acc State) with
      | .ok s' => (s', some resOk)
      | .error (.refuse _ _) => (s, some resBad)
      | .error _ => (s, none)))

/-! ### Sealing and ending (R338, R339, R406) -/

/-- A hart has a copy in progress, or a tile being pushed, for a context (R339). -/
def State.hartsBusy (s : State) (ctx : Nat) : Bool :=
  s.harts.any (fun e =>
    e.2.queue.any (fun q =>
      match q with
      | .copy r => decide (r.ctx = ctx) && r.started && !r.waiting && !r.left.isEmpty
      | .sub _ => false) ||
    e.2.subs.any (fun p => p.2.live && decide (p.2.ctx = ctx) && p.2.push.isSome && !p.2.waiting && p.2.refused.isNone))

/-- The memory keys of a context's local stores. -/
def lsFrom (ctx : Nat) : Nat := lsKey ctx 0 0

/-- The part of a table of slots or cores that belongs to a context, and the rest. -/
def ofCtx {α : Type} (unit ctx : Nat) (t : Tab α) : Tab α := t.filter (fun e => decide (e.1 / unit = ctx))
def notCtx {α : Type} (unit ctx : Nat) (t : Tab α) : Tab α := t.filter (fun e => decide (e.1 / unit ≠ ctx))

/-- What a context holds of the cores is zeroed and the cores are released (R339, R406). -/
def State.dropCtx (s : State) (ctx : Nat) : State :=
  { s with
    slots := notCtx 16384 ctx s.slots, cores := notCtx 1024 ctx s.cores, ctxs := Tab.set {} s.ctxs ctx {}
    mem := Tab.clear s.mem (lsFrom ctx) (lsFrom (ctx + 1))
    owners := s.owners.filter (fun e => decide (field e.2.toNat 0 16 ≠ ctx)), resident := s.resident.filter (fun e => decide ((e.2 - 1) / 1024 ≠ ctx))
    residentAu := s.residentAu.filter (fun e => decide ((e.2 - 1) / 1024 ≠ ctx)) }

/-- Writes bytes that may reach over several pages, page by page: a section of the resident image (R393), or what a seal writes (R339). -/
def State.writeSection (s : State) (ctx : Nat) : Nat → Nat → List Byte → State
  | 0, _, _ => s
  | n + 1, va, bs =>
    if bs.isEmpty then s
    else
      let k := 65536 - va % 65536
      State.writeSection (s.hwWrite ctx va (bs.take k)) ctx n (va + k) (bs.drop k)

/-- Every slot stopped and the harts' work in progress finished: the state of the context is saved, and what the Nutcracker writes to the
seal area, encrypted under a key of its own, is free (R339, R398, log 31). -/
def State.sealNow (s : State) (ctx : Nat) : State :=
  let c := s.ctxOf ctx
  let sealed : SealedCtx := {
    slots := ofCtx 16384 ctx s.slots, cores := ofCtx 1024 ctx s.cores, ctx := { c with status := .sealed, sealing := false, quiet := [], fled := [] }
    ls := Tab.below (lsFrom (ctx + 1)) (Tab.from (lsFrom ctx) s.mem), nclusters := (clustersOf c.cr.clusters).length, lost := s.keyless }
  let bs := Config.sealImage s.draws
  let s1 := (s.writeSection ctx (bs.length / 65536 + 2) c.cr.sealarea.toNat bs).draw
  { s1.dropCtx ctx with sealedCtxs := Tab.set {} s1.sealedCtxs ctx sealed }

/-- One pass of a seal; whether the context is ready to be saved (R338, R339). -/
def State.sealPass (s : State) (ctx : Nat) : State × Bool :=
  let (s1, done) := (s.modCtx ctx (fun c => { c with sealing := true })).quiesce ctx (fun _ => true) true
  (s1, done && !s1.hartsBusy ctx)

/-- STATUS after a request of sequence number `q` (R394, R395). -/
def State.writeStatus (s : State) (ctx q code : Nat) : State :=
  s.hwWrite ctx ((s.ctxOf ctx).cr.ccb.toNat + 8) (leBytes 8 (q % 2 ^ 32 + at' 32 code))

/-- CONTROL_SEAL: no TRAPNOTE follows (R339, R396). -/
def execControlSeal (ctx : Nat) (s : State) : Result :=
  .next (match (if s.secured then s.request ctx else none) with
    | none => s
    | some ws =>
      if ws.getD 0 0 ≠ 8 then s
      else if (ws.drop 1).any (· != 0) then s.finishReq ctx resBad
      else
        match s.sealPass ctx with
        | (s1, false) => s1.keepReq ctx ws
        | (s1, true) =>
          let q := ((s1.ctxOf ctx).ccbReq.map (·.q)).getD 0
          ((s1.writeStatus ctx q resOk).modCtx ctx (fun c => { c with ccbReq := none })).sealNow ctx)

/-- The frames of a context are written to zero and freed; so are its integrity tree frames (R406). -/
def State.freeFrames (s : State) (ctx : Nat) (r : CreateRec) : State :=
  let mine := (s.frames.filter (fun e => decide (frameOwner e.2.toNat = ctx))).map (·.1)
  let tree := (s.frames.filter (fun e => decide (frameOwner e.2.toNat = 0xFFFF) && decide (r.itree / 65536 ≤ e.1) &&
    decide (e.1 < (r.itree + r.itreelen) / 65536))).map (·.1)
  (mine ++ tree).foldl (fun s f => s.rewriteFrame f 0 0) s

/-- UNBOUND, its traffic, keys and windows gone (R404). -/
def State.unbindEp (s : State) (e : Nat) : State :=
  let p := Tab.get {} s.endpoints e
  let q := Tab.get {} s.sessions p.session
  { s with
    endpoints := Tab.set {} s.endpoints e {}
    sessions := if p.session = 0 then s.sessions
      else Tab.set {} s.sessions p.session { q with eps := q.eps.erase e, keys := if q.eps.erase e = [] then 0 else q.keys } }

/-- END of a context whose slots have stopped (R406). -/
def State.endNow (s : State) (ctx : Nat) (r : CreateRec) : State :=
  let s1 : State := { s with keys := s.keys.filter (fun e => !(e.2.full && decide (e.2.owner = ctx))) }
  let s2 := ((s1.endpoints.filter (fun e => decide (e.2.state ≠ .unbound) && decide (e.2.ctx = ctx))).map (·.1)).foldl (fun s e => s.unbindEp e) s1
  let s3 := (s2.freeFrames ctx r).dropCtx ctx
  let queueOf (x : Hart) : List HCmd := x.queue.filter (fun q => decide ((x.issuer q).1 ≠ ctx))
  let subsOf (x : Hart) : Tab Sub :=
    (x.subs.map (fun (p : Nat × Sub) => if p.2.ctx = ctx then (p.1, ({ gen := p.2.gen } : Sub)) else p)).filter (fun p => decide (p.2 ≠ {}))
  { s3 with
    harts := (s3.harts.map (fun (e : Nat × Hart) => (e.1, { e.2 with queue := queueOf e.2, subs := subsOf e.2 }))).filter (fun e => decide (e.2 ≠ {}))
    sealedCtxs := Tab.set {} s3.sealedCtxs ctx {} }

/-- One pass of END: every slot stops as for a seal (R406); whether the context has ended. -/
def State.endPass (s : State) (ctx : Nat) : State × Bool :=
  let (s1, done) := (s.modCtx ctx (fun c => { c with sealing := true })).quiesce ctx (fun _ => true) false
  if done then (s1.endNow ctx (s1.ctxOf ctx).cr, true) else (s1, false)

/-- CONTROL_END (R396, R406). -/
def execControlEnd (ctx : Nat) (s : State) : Result :=
  .next (s.serve ctx 9 0 (fun _ => ((s.endPass ctx).1, none)))

/-- REQUEST_COMPLETE: STATUS with BUSY clear and a TRAPNOTE with cause 7; an unknown operation is a BAD_REQUEST (R395, R396). -/
def execRequestComplete (ctx : Nat) (s : State) : Result :=
  let bad := (s.request ctx).any (fun ws => decide (ws.getD 0 0 = 0) || decide (9 < ws.getD 0 0))
  .next (match (if s.secured then (s.ctxOf ctx).ccbReq else none) with
    | none => s
    | some r =>
      match (if bad then some resBad else r.result) with
      | none => s
      | some code =>
        ((s.writeStatus ctx r.q code).modCtx ctx (fun c => { c with ccbReq := none })).sendNote ctx
          { src := 0x3FF, kind := .trapnote, words := [7, BitVec.ofNat 64 r.q, BitVec.ofNat 64 code] })

end Sys2Proof.Machine
end

