-- ==== Sys2Proof/Machine/Fetch.lean ====
section
/-! DEFINITION. Which slots may issue, and the fetch and decode of their next instruction (03 R43 to R46, 05 R94, R95, 07 R166). -/

namespace Sys2Proof.Machine

/-- The physical core that hosts the slot serves it: placed, owned by the context, without a lasting fault (R12, R390, R426). -/
def State.served (s : State) (f : Focus) : Bool :=
  let p := s.physCore f.ctx f.lc
  s.placed f.ctx f.lc && s.owns f.ctx p && s.alive p && decide ((s.ctxOf f.ctx).status = .live)

/-- The slot holds a continuation and waits for nothing that keeps it from issuing (R47, R94, R101, R114, R334). -/
def Slot.open? (t : Slot) : Bool :=
  decide (t.mode = .running) && !t.parked && t.pend.isNone && decide (t.stopReq = .none) && decide (t.wait = .none) && !t.blocked && !t.expired

/-- A slot that waits for a message with its await word published issues again once one has come (R94, R194). -/
def State.awaited (s : State) (f : Focus) : Bool := (s.slotAt f).await.all (fun a => (s.core f.ctx f.lc).box.any a.matches)

/-- The instruction at the PC waits for the slot's outstanding requests (R94, R170). -/
def Slot.draining (t : Slot) : Bool := decide (t.drainAt = some t.pc) && !t.tasks.isEmpty

/-- The slot may issue its next instruction (R94, R166); none does whose clock stands at the limit of R180. -/
def State.canIssue (s : State) (f : Focus) : Bool :=
  s.served f && !(s.ctxOf f.ctx).stopping f.lc && (s.slotAt f).open? && !(s.slotAt f).draining && s.awaited f &&
    !s.clockHeld { ctx := f.ctx, lc := f.lc, party := 16 * f.lc + f.pos }

/-- The positions of a physical core from the one after the last that issued (R95). -/
def State.barrel (s : State) (core : Nat) : List Nat := (List.range 9).map (fun i => (Tab.get 0 s.lastPos core + 1 + i) % 9)

/-- The slot from which a physical core issues next: the first ready position (R95). -/
def State.nextIssue (s : State) (ctx core : Nat) : Option Focus :=
  ((s.barrel core).flatMap (fun p => (s.hosted ctx core).map (fun l => ({ ctx := ctx, lc := l, pos := p } : Focus)))).find? (s.canIssue ·)

/-- It is the turn of slot `f` on its physical core (R95, R166). -/
def State.turn (s : State) (f : Focus) : Bool := decide (s.nextIssue f.ctx (s.physCore f.ctx f.lc) = some f)

/-- Whether the slot's fetches may still miss a store: its own until its next `idem`, another's until its next region (R45). -/
def Slot.unseen (t : Slot) (party idx : Nat) (e : CodeStore) : Bool :=
  if e.party = party then decide (t.idemAt ≤ idx) else decide (t.viewAt ≤ idx)

/-- The byte at memory key `a` as a fetch of slot `t` sees it when the newest `j` of the stores that it may miss are missed; `cur` is what
stands there after the stores of the list (R45). -/
def codeByte (t : Slot) (party a : Nat) : List CodeStore → Nat → Byte → Byte
  | [], _, cur => cur
  | e :: r, j, cur =>
    let hit := decide (e.key ≤ a) && decide (a < e.key + e.old.length)
    if t.unseen party r.length e && decide (j ≠ 0) then
      codeByte t party a r (j - 1) (if hit then e.old.getD (a - e.key) 0 else cur)
    else if hit then cur
    else codeByte t party a r j cur

/-- How many of the noted stores the slot's fetches may miss. -/
def unseenCount (t : Slot) (party : Nat) : List CodeStore → Nat
  | [] => 0
  | e :: r => (if t.unseen party r.length e then 1 else 0) + unseenCount t party r

/-- The bytes from the PC of the slot in focus to the end of its fetch block, read with X permission: the reductions of the line are folded
first, a host window is asked, the line may be filled, and the slot's clock goes on (R43, R45, R46 step 2, R153, R174, R179, R420). -/
def State.fetchBytes (s : State) : Acc (State × List Byte) := do
  let t := s.slot
  let a := t.pc.toNat
  let w := s.who t.nanread
  if 2 ^ 56 ≤ a then .error (.refuse .protection t.pc)
  else do
    let g ← s.checkGlobal w .x a (32 - a % 32)
    let s1 ← s.settleLines w.ctx [g]
    let j := Config.pick s.draws % (unseenCount t s.party s1.codeLog + 1)
    .ok ((((s1.readSegs [g]).1.mayFill w [g]).tick w.ctx w.party 0).draw,
      (List.range g.len).map (fun i => codeByte t s.party (g.key + i) s1.codeLog j (s1.physByte (g.key + i))))

/-- What the fetch and decode of the slot in focus give (R46 steps 1 to 6): an instruction, a trap at its issue, a fault of the read. -/
inductive Fetched where
  | instr (i : Instr)
  | trap (kind : TrapKind) (addr : Word)
  | refused (kind : TrapKind) (addr : Word)
  | none

/-- The trap of a word that does not decode (R46). -/
def decodeTrap : DecodeError → TrapKind
  | .illegalFormat => .illegalFormat
  | .illegalOpcode => .illegalOpcode
  | .illegalField => .illegalField

/-- Decodes fetched bytes (R46). -/
def fetchedOf (bs : List Byte) : Fetched :=
  match decode bs with
  | .ok (i, _) => .instr i
  | .error e => .trap (decodeTrap e) 0

/-- The next instruction of the slot in focus: a stopped instruction first, which rejoins (R334), else the one at its PC (R46). -/
def State.fetch (s : State) : State × Fetched :=
  let t := s.slot
  match t.stopped with
  | e :: _ => (s, fetchedOf (leBytes 16 e.word))
  | [] =>
    if badPc t.pc then (s, .trap .illegalFormat t.pc)
    else
      match s.fetchBytes with
      | .ok (s1, bs) => (s1, fetchedOf bs)
      | .error (.refuse k a) => (s, .refused k a)
      | .error _ => (s, .none)

/-- A fault of the fetch aborts the region once every earlier access is performed or refused (R45, R149, R168). -/
def State.fetchFault (s : State) (k : TrapKind) (a : Word) : State :=
  if s.slot.tasks.isEmpty then s.abort { kind := k, addr := a, pc := s.slot.pc } else s.drainWait

/-- The position that issued last on the physical core (R95); a wait at this instruction is over. -/
def State.issued (s : State) (f : Focus) : State :=
  { s with lastPos := Tab.set 0 s.lastPos (s.physCore f.ctx f.lc) f.pos }.mod (fun t => { t with drainAt := none })

end Sys2Proof.Machine
end

