-- ==== Sys2Proof/Machine/Boot.lean ====
section
/-! DEFINITION. The smallest context in which slot 0 of logical core 0 is about to issue, and instruction bytes put where a slot
fetches: what `withFetchWord` needs (22 R422, log 21). -/

namespace Sys2Proof.Machine

/-- Where the code of the small context lies: the default origin of `.text` (R60). -/
def bootPc : Word := 0x1000000

/-- The creation record of the small context: its tables at 0x10000, its cluster-set table in the page after its code, and every other
area where nothing is mapped. -/
def bootRec : CreateRec :=
  { clusters := 1, root := 0x10000, csets := 0x1010000, ncsets := 1, pool := 3 * 2 ^ 40, images := 4 * 2 ^ 40, counters := 5 * 2 ^ 40
    notifyq := 6 * 2 ^ 40, ovfrings := 7 * 2 ^ 40, ccb := 8 * 2 ^ 40, sealarea := 9 * 2 ^ 40 }

/-- A leaf entry with R, W and X of the CLEAR frame `f` (R139). -/
def bootLeaf (f : Nat) : List Byte := leBytes 8 (f * 65536 + 0x73) ++ zeros 8
/-- A pointer entry (R139). -/
def bootPtr (table : Nat) : List Byte := leBytes 8 (table + 1) ++ zeros 8

/-- The tables of levels 4 to 0 for addresses 0x100_0000 to 0x101_FFFF, in frames 4 and 5, and the cluster-set mask (R132, R138, R142). -/
def bootMem : Tab Byte :=
  Mem.write (Mem.write (Mem.write (Mem.write (Mem.write (Mem.write [] 0x10000 (bootPtr 0x12000)) 0x12000 (bootPtr 0x14000))
    0x14000 (bootPtr 0x16000)) 0x16080 (bootPtr 0x18000)) 0x18000 (bootLeaf 4 ++ bootLeaf 5)) 0x50000 (List.replicate 12 0xFF)

/-- The small context: number 1 on physical cluster 0, one logical core placed, its entry continuation in slot 0. -/
def State.boot (s : State) : State :=
  let own : BitVec 32 := 1
  { s with
    mem := bootMem, poison := [], retired := []
    frames := [(1, own), (4, own), (5, own)]
    owners := (List.range 8).map (fun m => (m, ownerOf 1))
    ctxs := [(1, { status := .live, cr := bootRec, placement := [(0, 0x80000000)], poolFree := [0], nextCid := 2 })]
    slots := [({ ctx := 1, lc := 0, pos := 0 : Focus }.key,
      { mode := .running, pc := bootPc, region := bootPc, k := [(1, BitVec.allOnes 48)], cid := 1 })] }

/-- Puts bytes at the physical place of an instruction address. -/
def State.putCode (s : State) (ctx : Nat) (pc : Word) (bs : List Byte) : State :=
  match s.leaf ctx pc.toNat with
  | .ok l => { s with mem := Mem.write s.mem l.pa bs }
  | .error _ => s

/-- The slot for which the next step issues an instruction that it fetches, if any. -/
def State.fetching (s : State) : Option Focus :=
  match s.agenda with
  | .issue f :: _ =>
    if s.turn f && (s.slotAt f).stopped.isEmpty && !badPc (s.slotAt f).pc && (s.leaf f.ctx (s.slotAt f).pc.toNat).isOk then some f else none
  | _ => none

/-- The state in which the next step fetches the instruction bytes `bs`: in place where a slot is about to fetch, else in the small
context (log 21). -/
def State.placeCode (s : State) (bs : List Byte) : State :=
  match s.fetching with
  | some f => s.putCode f.ctx (s.slotAt f).pc bs
  | none =>
    let f : Focus := { ctx := 1, lc := 0, pos := 0 }
    { s.boot.putCode 1 bootPc bs with agenda := [.issue f], codeLog := [] }

end Sys2Proof.Machine
end

