-- ==== Sys2Proof/Machine/Sessions.lean ====
section
/-! DEFINITION. Creation of contexts, Sikinak sessions and the requests of a management session (22 R390 to R393, R402 to R412). -/

namespace Sys2Proof.Machine

/-! ### Sessions (R407 to R410) -/

def State.session (s : State) (n : Nat) : Session := Tab.get {} s.sessions n
def State.setSession (s : State) (n : Nat) (q : Session) : State := { s with sessions := Tab.set {} s.sessions n q }
def State.endpoint (s : State) (e : Nat) : Endpoint := Tab.get {} s.endpoints e
def State.setEndpoint (s : State) (e : Nat) (p : Endpoint) : State := { s with endpoints := Tab.set {} s.endpoints e p }
def State.say (s : State) (m : OutMsg) : State := { s with outbox := s.outbox ++ [m] }

/-- The TRAPNOTE of a failed endpoint, for a context that is live, is placed in the step in which it fails (R408). -/
def State.epNote (s : State) (ctx e : Nat) : State :=
  if (s.ctxOf ctx).status = .live then s.sendNote ctx { src := 0x3FF, kind := .trapnote, words := [9, BitVec.ofNat 64 e, 0] } else s

/-- An endpoint in RUN enters ERROR, with its TRAPNOTE (R404, R408). -/
def State.errorEp (s : State) (e : Nat) : State :=
  let p := s.endpoint e
  if p.state ≠ .run then s else (s.setEndpoint e { p with state := .error }).epNote p.ctx e

/-- The failure of a session (R408). -/
def State.failSession (s : State) (n : Nat) : State :=
  let q := s.session n
  (q.eps.foldl (fun s e => s.errorEp e) s).setSession n { q with stage := .failed }

/-- What the device sends travels under the keys of session `n` with endpoints `eps`: its READY and answers, and all that leaves by its
endpoints (R407, R409). -/
def OutMsg.under (m : OutMsg) (n : Nat) (eps : List Nat) : Bool :=
  match m with
  | .ready k | .answer k .. => decide (k = n)
  | .placed e _ | .writeDone e .. | .readDone e .. | .message e _ | .window e .. | .windowRead e .. => eps.contains e
  | .accept .. => false
/-- One such packet answers one that the session has accepted, or a read of a window that the far party answers (R411, R418, R420). -/
def OutMsg.echo (m : OutMsg) : Bool :=
  match m with
  | .answer .. | .placed .. | .writeDone .. | .readDone .. | .windowRead .. => true
  | .accept .. | .ready _ | .message .. | .window .. => false

/-- The packets that a session has sent since it became ready, and those that it has accepted; every message is one packet (R408, log 35). -/
def State.sent (s : State) (n : Nat) : List OutMsg := (s.outbox.drop (s.session n).outAt).filter (fun m => m.under n (s.session n).eps)
def State.accepted (s : State) (n : Nat) : Nat := ((s.sent n).filter OutMsg.echo).length

/-- The limit of packets in one direction (R408). -/
def packetLimit : Nat := 2 ^ 48

/-- The header of a Sikinak message (R409). -/
def sikinak (type : Nat) (body : List Byte) : List Byte := leBytes 2 0x5A4B ++ leBytes 1 type ++ leBytes 1 1 ++ leBytes 4 body.length ++ body

/-- The body of a HELLO (R410). -/
def helloBody (b : HelloBody) : List Byte :=
  leBytes 1 (if b.kind = .manage then 1 else 2) ++ zeros 3 ++ leBytes 4 b.ctx ++ leBytes 4 b.life ++ leBytes 2 b.eps.length ++ zeros 2 ++
  leBytes 32 b.nonce.toNat ++ leBytes 64 b.hkey.toNat ++ b.ek ++ b.eps.flatMap (leBytes 2)

/-- The fields of a HELLO are in their ranges (R410). -/
def helloOk (b : HelloBody) : Bool :=
  decide (1 ≤ b.life) && decide (b.life ≤ 86400) && decide (b.ek.length = 1568) && decide (b.eps.Nodup) && b.eps.all (fun e => decide (e < 192)) &&
  (match b.kind with
   | .manage => b.eps.isEmpty && decide (b.ctx = 0)
   | .data => !b.eps.isEmpty && decide (b.ctx < 2 ^ 32))

/-- The endpoints are LOCKED for a context by one management session (R407). -/
def State.lockedBy (s : State) (ctx : Nat) (eps : List Nat) : Bool :=
  let k := (s.endpoint (eps.headD 0)).locker
  eps.all (fun e => decide ((s.endpoint e).state = .locked) && decide ((s.endpoint e).ctx = ctx) && decide ((s.endpoint e).locker = k))

/-- A session of this kind is admitted: the operator key for MANAGE; for DATA its endpoints and HOSTID (R407). -/
def State.admits (s : State) (b : HelloBody) : Bool :=
  match b.kind with
  | .manage => decide (b.hkey = Config.operatorKey)
  | .data =>
    let h := (s.ctxOf b.ctx).cr.hostid
    decide ((s.ctxOf b.ctx).status = .live) && s.lockedBy b.ctx b.eps && (decide (h = 0) || decide (h = (digest (leBytes 64 b.hkey.toNat)).toNat))

/-- HELLO, answered by ACCEPT; the key material is formed from the shared secret and the transcript hash (R403, R407, R410). -/
def execHello (b : HelloBody) (s : State) : Result :=
  .next (if !s.secured || !helloOk b || !s.admits b then s
    else
      let n := s.nextSess
      let hello := sikinak 1 (helloBody b)
      let ct := ((Config.encapsulate s.draws b.ek).1 ++ zeros 1568).take 1568
      let hash := digest (hello ++ sikinak 2 (ct ++ (s.report b.ctx (shake512 hello)).1) ++ ct)
      let (rep, s1) := s.report b.ctx (shake512 hello)
      let accept := ct ++ rep
      let q : Session := {
        stage := .accepted, kind := b.kind, ctx := b.ctx, eps := b.eps, life := b.life, hkey := b.hkey, left := b.life
        transcript := hash, keys := digest ((Config.encapsulate s.draws b.ek).2 ++ leBytes 64 hash.toNat) }
      (({ s1 with nextSess := n + 1 }.setSession n q).say (.accept n accept)).draw)

/-- FINISH, answered by READY; the endpoints of a DATA session enter RUN (R404, R407). -/
def execFinish (n : Nat) (signature : List Byte) (s : State) : Result :=
  let q := s.session n
  .next (if q.stage ≠ .accepted ∨ s.secured = false then s
    else if signature.length ≠ 49856 ∨ Config.verifies q.hkey (leBytes 64 q.transcript.toNat) signature = false ∨
        (q.kind = .data ∧ s.lockedBy q.ctx q.eps = false) then s.setSession n {}
    else
      let s1 := (s.setSession n { q with stage := .ready, outAt := s.outbox.length }).say (.ready n)
      q.eps.foldl (fun s e => s.setEndpoint e { s.endpoint e with state := .run, session := n }) s1)

/-! ### Requests of a management session (R405, R411) -/

/-- Serves the management request `i`: `act` answers, or gives nothing while the request is in progress, which then stays the first of those
not yet answered (R405, R411). A request in progress completes also when its session has failed (R413). -/
def State.serveRequest (s : State) (i : Instr) (n seq : Nat) (act : State → State × Option (Nat × List Byte)) : State :=
  match act s with
  | (s1, none) => if s1.requests.contains i then s1 else { s1 with requests := s1.requests ++ [i] }
  | (s1, some (code, body)) =>
    let s2 : State := { s1 with requests := s1.requests.erase i }
    if (s2.session n).stage = .ready then s2.say (.answer n seq code body) else s2

/-- The request `i` on session `n`, served in arrival order with those of every session; on a DATA session it fails the session (R405, R411).
A security core that is lost serves none (R414, R426). -/
def State.manage (s : State) (i : Instr) (n seq : Nat) (act : State → State × Option (Nat × List Byte)) : State :=
  let q := s.session n
  if !s.secured then s
  else if s.requests.head? = some i then s.serveRequest i n seq act
  else if q.stage ≠ .ready then s
  else
    match q.kind with
    | .data => s.failSession n
    | .manage => if s.requests.isEmpty then s.serveRequest i n seq act else { s with requests := s.requests ++ [i] }

/-- SESSION_FAIL (R408, R409, R411): a tag that fails; a packet accepted already; the lifetime; 2^48 packets; a message with a wrong header,
which also ends a handshake; and a REQUEST of another OP, length or with a nonzero field marked zero, which a MANAGE session answers
BAD_REQUEST. -/
def execSessionFail (n : Nat) (cause : FailCause) (s : State) : Result :=
  let q := s.session n
  let ready := decide (q.stage = .ready)
  let failIf (b : Bool) : State := if ready && b then s.failSession n else s
  .next (match cause with
    | .tag => failIf true
    | .replay psn => failIf (decide (psn < s.accepted n))
    | .lifetime => failIf (decide (q.left = 0))
    | .packets => failIf (decide (packetLimit ≤ (s.sent n).length) || decide (packetLimit ≤ s.accepted n))
    | .header => if q.stage = .accepted then s.setSession n {} else failIf true
    | .request seq => s.manage (.sessionFail n cause) n seq (fun s => (s, some (resBad, []))))

/-- A context that exists: live or sealed. -/
def State.exists? (s : State) (ctx : Nat) : Bool := decide ((s.ctxOf ctx).status = .live) || decide (Tab.get {} s.sealedCtxs ctx ≠ {})

/-- LOCK (R405). -/
def execLock (n seq ep ctx : Nat) (rbase rlen : Word) (defcore : Nat) (s : State) : Result :=
  .next (s.manage (.lock n seq ep ctx rbase rlen defcore) n seq (fun s =>
    if 191 < ep then (s, some (resRefused, []))
    else if (s.endpoint ep).state ≠ .unbound then (s, some (resLocked, []))
    else if s.exists? ctx = false ∨ 2 ^ 30 < rlen.toNat ∨ 767 < defcore then (s, some (resRefused, []))
    else
      (s.setEndpoint ep { state := .locked, ctx := ctx, locker := n, rbase := rbase, rlen := rlen.toNat, defcore := defcore }, some (resOk, []))))

/-- UNBIND (R404, R405). -/
def execUnbind (n seq ep : Nat) (s : State) : Result :=
  .next (s.manage (.unbind n seq ep) n seq (fun s =>
    let p := s.endpoint ep
    if p.state = .unbound ∨ p.locker ≠ n then (s, some (resRefused, [])) else (s.unbindEp ep, some (resOk, []))))

/-- MANAGE_END (R406, R411). -/
def execManageEnd (n seq ctx : Nat) (s : State) : Result :=
  .next (s.manage (.manageEnd n seq ctx) n seq (fun s =>
    if (s.ctxOf ctx).status = .live then
      match s.endPass ctx with
      | (s1, true) => (s1, some (resOk, []))
      | (s1, false) => (s1, none)
    else if s.exists? ctx then (s.endNow ctx (Tab.get {} s.sealedCtxs ctx).ctx.cr, some (resOk, []))
    else (s, some (resRefused, []))))

/-- MANAGE_SEAL (R338, R339, R411). -/
def execManageSeal (n seq ctx : Nat) (s : State) : Result :=
  .next (s.manage (.manageSeal n seq ctx) n seq (fun s =>
    if (s.ctxOf ctx).status ≠ .live then (s, some (resRefused, []))
    else
      match s.sealPass ctx with
      | (s1, true) => (s1.sealNow ctx, some (resOk, []))
      | (s1, false) => (s1, none)))

/-- Bit 25d + c of a creation record's CLUSTERS for each cluster of a list. -/
def clusterMask (cs : List Nat) : Nat := cs.foldl (fun m a => m + 2 ^ a) 0

/-- A slot of a context after a resume: its spill area has the base of R117, its code fetches see every store (R117, R340). -/
def Slot.rebase (t : Slot) (r : CreateRec) (pos : Nat) : Slot :=
  if 8 ≤ pos then t else { t with spillBase := r.spillbase + pos * r.spillbytes }

/-- RESUME: a sealed context is restored onto the free clusters of lowest number (R340, R411). -/
def execResume (n seq ctx : Nat) (s : State) : Result :=
  .next (s.manage (.resume n seq ctx) n seq (fun s =>
    let z := Tab.get {} s.sealedCtxs ctx
    let free := ((List.range 100).filter s.clusterFree).take z.nclusters
    if z = {} then (s, some (resRefused, []))
    else if z.lost then (s, some (resKeyAbsent, []))
    else if free.length < z.nclusters then (s, some (resRefused, []))
    else
      let cr : CreateRec := { z.ctx.cr with clusters := clusterMask free }
      let s1 : State := { s with
        slots := Tab.below (ctx * 16384) s.slots ++ (z.slots.map (fun (e : Nat × Slot) => (e.1, e.2.rebase cr (e.1 % 16)))).filter
          (fun e => decide (e.2 ≠ {})) ++ Tab.from ((ctx + 1) * 16384) s.slots
        cores := Tab.below (ctx * 1024) s.cores ++ z.cores ++ Tab.from ((ctx + 1) * 1024) s.cores
        mem := Tab.below (lsFrom ctx) s.mem ++ z.ls ++ Tab.from (lsFrom (ctx + 1)) s.mem
        ctxs := Tab.set {} s.ctxs ctx { z.ctx with status := .live, cr := cr }
        sealedCtxs := Tab.set {} s.sealedCtxs ctx {} }
      ((s1.setOwners free (ownerOf ctx)).placeDefault ctx free, some (resOk, []))))

/-! ### HEALTH and CERT (R411, R412) -/

def units : List UnitKind := [.core, .slice, .hbmLane, .hart, .link, .port, .security]

/-- The 32 bytes of a log entry (R427). -/
def LogEntry.bytes (e : LogEntry) : List Byte :=
  leBytes 8 e.time ++ leBytes 1 e.unit ++ leBytes 1 e.cls ++ leBytes 2 e.event ++ leBytes 4 e.number ++ leBytes 8 e.addr.toNat ++
  leBytes 2 e.ctx ++ zeros 6

/-- The counter block of one kind of unit (R412). -/
def State.counterBlock (s : State) (u : UnitKind) : List Byte :=
  leBytes 4 (unitCount u) ++ zeros 4 ++ (List.range (unitCount u)).flatMap (fun i =>
    let k := Tab.get {} s.counters (unitKey u i)
    leBytes 4 k.transient ++ leBytes 4 k.lasting)

/-- HEALTH (R412). -/
def execHealth (n seq : Nat) (s : State) : Result :=
  .next (s.manage (.health n seq) n seq (fun s =>
    (s, some (resOk, leBytes 4 s.log.length ++ zeros 4 ++ units.flatMap s.counterBlock ++ s.log.flatMap LogEntry.bytes))))

/-- CERT (R411). -/
def execCert (n seq : Nat) (s : State) : Result :=
  .next (s.manage (.cert n seq) n seq (fun s => (s, some (resOk, leBytes 4 Config.certificate.length ++ zeros 4 ++ Config.certificate))))

/-! ### CREATE (R391 to R393) -/

/-- The fields of a creation record (R391). -/
def CreateRec.parse (bs : List Byte) : CreateRec :=
  let f (o n : Nat) : Nat := fieldAt bs o n
  let w (o : Nat) : Word := BitVec.ofNat 64 (f o 8)
  { det := decide (f 0 4 % 2 = 1), pmode := field (f 0 4) 2 2, supcore := f 4 4, clusters := f 8 16, root := f 24 8, tkey := f 32 2
    ovflog := if f 34 2 = 0 then 12 else f 34 2, thresh := if f 36 4 = 0 then 256 else f 36 4, handlers := w 40, nhandlers := f 48 4
    pooln := f 52 4, pool := w 56, images := w 64, csets := w 72, ncsets := f 80 4, probe := if f 84 4 = 0 then 256 else f 84 4
    counters := w 88, notifyq := w 96, ovfrings := w 104, ccb := w 112, sealarea := w 120, itree := f 128 8, itreelen := f 136 8
    trapvec := f 144 8, slice := f 152 4, spillbase := f 156 4, spillbytes := f 160 4, hostid := f 192 64 }

/-- A record meets R391. -/
def recordOk (bs : List Byte) : Bool :=
  let f (o n : Nat) : Nat := fieldAt bs o n
  let addr (o m : Nat) : Bool := decide (f o 8 < 2 ^ 56) && decide (f o 8 % m = 0)
  decide (bs.length = 256) && decide (f 0 4 &&& 0xFFFFFFF2 = 0) && decide (field (f 0 4) 2 2 ≠ 3) && decide (f 4 4 ≤ 767) &&
  decide (f 8 16 ≠ 0) && decide (f 8 16 < 2 ^ 100) && decide (f 24 8 % 4096 = 0) && inHbm (f 24 8) &&
  (decide (f 32 2 = 0xFFFF) || (decide (1 ≤ f 32 2) && decide (f 32 2 ≤ 127))) &&
  (decide (f 34 2 = 0) || (decide (9 ≤ f 34 2) && decide (f 34 2 ≤ 16))) && decide (f 36 4 ≤ 65535) && addr 40 8 && decide (f 48 4 ≤ 32768) &&
  decide (1 ≤ f 52 4) && addr 56 192 && addr 64 65536 && addr 72 16 && decide (1 ≤ f 80 4) && decide (f 80 4 ≤ 4096) && addr 88 4 &&
  addr 96 16 && addr 104 1 && addr 112 65536 && addr 120 65536 && decide (f 128 8 % 65536 = 0) && decide (f 136 8 % 65536 = 0) &&
  decide (f 128 8 + f 136 8 ≤ hbmTop) && addr 144 32 && decide (f 156 4 % 128 = 0) && decide (f 160 4 % 128 = 0) &&
  decide (f 156 4 + 8 * f 160 4 ≤ 0x80000) && decide (f 164 28 = 0)

/-- The frames that the tables below a table of level `n` at `table`, for addresses from `va`, occupy, and those that their leaves name,
whether V is 1 or 0 (R393). -/
def State.framesOf (s : State) (ctx : Nat) (c : Ctx) : Nat → Nat → Nat → List Nat
  | n, table, va =>
    (table / 65536) :: (List.range (2 ^ levelBits n)).flatMap (fun i =>
      let ea := table + 16 * i
      let a := va + i * 2 ^ levelShift n
      let w0 := s.physNat ea 8
      let w1 := s.physNat (ea + 8) 8
      if (s.tableFault ctx c ea).isSome then []
      else if field w0 1 1 = 1 then
        if leafOk c a n w0 w1 && inHbm (field w0 16 32 * 65536) then
          (List.range (2 ^ levelShift n / 65536)).map (fun j => field w0 16 32 + j)
        else []
      else
        match n with
        | 0 => []
        | m + 1 =>
          let next := field w0 9 39 * 512
          if w0 = next + 1 ∧ w1 = 0 ∧ next % (16 * 2 ^ levelBits m) = 0 ∧ inHbm next = true then State.framesOf s ctx c m next a else [])

/-- An area of `n` pages is mapped, readable, writable and of the context's mode (R393). -/
def State.areaOk (s : State) (ctx : Nat) (va n mode : Nat) : Bool :=
  (List.range n).all (fun i =>
    match s.leaf ctx (va + 65536 * i) with
    | .ok l => l.r && l.w && decide (l.mode = mode)
    | .error _ => false)

/-- The frames of the integrity tree (R391). -/
def treeFrames (r : CreateRec) : List Nat := (List.range (r.itreelen / 65536)).map (fun i => r.itree / 65536 + i)

/-- A section as the measurement takes it (R402). -/
def sectionBytes (x : Section) : List Byte := leBytes 8 x.base.toNat ++ leBytes 8 x.bytes.length ++ x.bytes

/-- The lowest context number that no live or sealed context holds (R390). -/
def State.freeNumber (s : State) : Option Nat :=
  let used := s.ctxs.map (·.1) ++ s.sealedCtxs.map (·.1)
  ((List.range (used.length + 1)).map (· + 1)).find? (fun n => decide (n ≤ 65535) && !used.contains n)

/-- A slot of a new context (R117). -/
def newSlot (r : CreateRec) (pos : Nat) : Slot :=
  let base := r.spillbase + pos * r.spillbytes
  { trapvec := r.trapvec, slice := clampSlice r.slice, clamped := decide (clampSlice r.slice ≠ r.slice)
    spillTop := base, spillLimit := base + r.spillbytes, spillBase := base }

/-- The slots of a new context (R117). -/
def newSlots (ctx : Nat) (r : CreateRec) : Tab Slot :=
  ((List.range 768).flatMap (fun l => (List.range 8).map (fun p => (ctx * 16384 + 16 * l + p, newSlot r p)))).filter (fun e => decide (e.2 ≠ {}))

/-- The checks of R393 on a record `r` for context number `ctx`, whose tables are those that `s` would walk. -/
def State.createOk (s : State) (ctx : Nat) (r : CreateRec) (ls : Section) : Bool :=
  s.fwVerified && (clustersOf r.clusters).all s.clusterFree && decide (ls.base.toNat + ls.bytes.length ≤ lsSize) &&
  s.areaOk ctx r.images.toNat 3072 r.pmode && s.areaOk ctx r.ccb.toNat 1 r.pmode && s.areaOk ctx r.sealarea.toNat 1 r.pmode &&
  (s.framesOf ctx (s.ctxOf ctx) 4 r.root 0 ++ treeFrames r).all (fun f => decide (frameOwner (s.frame (65536 * f)) = 0))

/-- The owner of frame `f` (R399). -/
def State.ownFrame (s : State) (f owner : Nat) : State :=
  { s with frames := Tab.upd 0 s.frames f (fun e => BitVec.ofNat 32 (e.toNat / 65536 * 65536 + owner)) }

/-- Steps 3 to 6 of R393 for a context number and a record that pass the checks; the number stands in `s` already. -/
def State.createNow (s : State) (ctx : Nat) (r : CreateRec) (bs : List Byte) (text data ls : Section) : State :=
  let cs := clustersOf r.clusters
  let s1 := (s.setOwners cs (ownerOf ctx)).placeDefault ctx cs
  let s2 := (s.framesOf ctx (s.ctxOf ctx) 4 r.root 0).foldl (fun s f => s.ownFrame f ctx) s1
  let s3 := (treeFrames r).foldl (fun s f => s.ownFrame f 0xFFFF) s2
  let s4 := (s3.writeSection ctx (text.bytes.length / 65536 + 2) text.base.toNat text.bytes).writeSection ctx (data.bytes.length / 65536 + 2)
    data.base.toNat data.bytes
  let s5 : State := (List.range 768).foldl (fun s l => { s with mem := Mem.write s.mem (lsKey ctx l ls.base.toNat) ls.bytes }) s4
  let s6 : State := { s5 with slots := Tab.below (ctx * 16384) s5.slots ++ newSlots ctx r ++ Tab.from ((ctx + 1) * 16384) s5.slots }
  let s7 := s6.modCtx ctx (fun c => { c with
    measurement := digest (bs ++ [text, data, ls].flatMap sectionBytes), poolFree := (List.range r.pooln).drop 1, nextCid := 2, status := .live })
  let entry : Record := { pc := Config.entryOf text.base text.bytes, mask := 0, bind := 0, link := Config.queueLink s.draws }
  ((s7.hwWrite ctx r.pool.toNat entry.bytes).draw).enqueue ctx 0 { ref := 0, bind := 0, prio := 0, cid := 1 }

/-- CREATE (R393). -/
def execCreate (n seq : Nat) (record : List Byte) (text data ls : Section) (s : State) : Result :=
  .next (s.manage (.create n seq record text data ls) n seq (fun s =>
    let r := CreateRec.parse record
    if record.length ≠ 256 then (s, some (resBad, []))
    else match s.freeNumber with
    | none => (s, some (resRefused, []))
    | some ctx =>
      let s1 := s.setCtx ctx { cr := r }
      if recordOk record && s1.createOk ctx r ls then
        let s2 := s1.createNow ctx r record text data ls
        (s2, some (resOk, leBytes 4 ctx ++ zeros 4 ++ leBytes 64 (s2.ctxOf ctx).measurement.toNat))
      else (s, some (resRefused, []))))

end Sys2Proof.Machine
end

