-- ==== Sys2Proof/Machine/HostReq.lean ====
section
/-! DEFINITION. The requests of a party in RUN on an endpoint (23 R418 to R421). -/

namespace Sys2Proof.Machine

/-- The answer codes of a MSG (R418). -/
def msgPlaced : Nat := 0
def msgFull : Nat := 1
def msgBadDest : Nat := 2

/-- An endpoint that passes traffic (R404). -/
def State.epRuns (s : State) (e : Nat) : Bool :=
  decide ((s.endpoint e).state = .run) && decide ((s.ctxOf (s.endpoint e).ctx).status = .live)

/-- The party number of an endpoint's clock (R163). -/
def epParty (e : Nat) : Nat := 12352 + e

/-- MSG (R172, R189, R418), after the request in hand (R177). The MSG of a `send` of another N9 names no destination: it goes to the DEFCORE
of the endpoint (R421). -/
def execMsg (ep : Nat) (core : Option Nat) (tag : BitVec 16) (nan : Bool) (words : List Word) (s : State) : Result :=
  let ctx := (s.endpoint ep).ctx
  let dst := core.getD (s.endpoint ep).defcore
  let m : Msg := { src := 0x300 + ep, kind := .msg, nan := nan, tag := tag.toNat, words := (List.range 7).map (fun i => words.getD i 0) }
  .next (if !s.epRuns ep || (s.endpoint ep).run.isSome then s
    else if 767 < dst then s.say (.placed ep msgBadDest)
    else if s.msgRoom ctx dst then ((s.append ctx dst m (s.clock ctx (epParty ep))).tick ctx (epParty ep) 0).say (.placed ep msgPlaced)
    else s.say (.placed ep msgFull))

/-- A request in hand goes on: also at an endpoint that has left RUN since, as it is performed whole (R408). -/
def State.epGoes (s : State) (e : Nat) : Bool :=
  decide ((s.endpoint e).state = .run ∨ (s.endpoint e).state = .error) && decide ((s.ctxOf (s.endpoint e).ctx).status = .live)

/-- An answer leaves by an endpoint in RUN; of any other the packets are dropped (R404, R408). -/
def State.reply (s : State) (e : Nat) (m : OutMsg) : State := if s.epRuns e then s.say m else s

/-- The accesses of an endpoint (R184, R418). -/
def epWho (ctx ep : Nat) : Who :=
  { ctx := ctx, lc := 0, party := epParty ep, ep := some ep, csets := false, shadows := false }

/-- The pieces of a range, at most one line each: offset in the range, address, length (R418). -/
def linesOf (va n : Nat) : List (Nat × Nat × Nat) :=
  let first := va / 192
  let count := if n = 0 then 0 else (va + n - 1) / 192 + 1 - first
  (List.range count).map (fun i =>
    let lo := Nat.max va ((first + i) * 192)
    (lo - va, lo, Nat.min (va + n) ((first + i + 1) * 192) - lo))

/-- The lines of a request, the last of them at 2^56 where the range runs past it (R418). -/
def HostRun.pieces (r : HostRun) : List (Nat × Nat × Nat) :=
  let k := Nat.min r.len (2 ^ 56 - r.va.toNat)
  linesOf r.va.toNat k ++ (if k < r.len then [(k, 2 ^ 56, r.len - k)] else [])

/-- What a request answers (R418). -/
def HostRun.answer (r : HostRun) (ep code off : Nat) (bs : List Byte) : OutMsg :=
  if r.write then .writeDone ep code off else .readDone ep code bs

/-- One line of a request (R418). -/
def State.hostAccess (s : State) (w : Who) (r : HostRun) (off a n : Nat) : Acc (State × List Byte) :=
  if 2 ^ 56 ≤ a then .error (.refuse .protection (BitVec.ofNat 64 a))
  else if r.write then (s.writeAt w [(.glob a, n)] ((r.bytes.drop off).take n)).map (fun s => (s, []))
  else s.readAt w [(.glob a, n)]

def State.setRun (s : State) (ep : Nat) (r : Option HostRun) : State := s.setEndpoint ep { s.endpoint ep with run := r }

/-- The next line of the request in hand: after the last the answer, after a refusal no later line, and a wait leaves the request as it
is (R177, R418). -/
def State.hostLine (s : State) (ep : Nat) (r : HostRun) : State :=
  match r.pieces.drop r.lines with
  | [] => s
  | p :: rest =>
    match s.hostAccess (epWho (s.endpoint ep).ctx ep) r p.1 p.2.1 p.2.2 with
    | .ok (s', bs) =>
      if rest.isEmpty then (s'.setRun ep none).reply ep (r.answer ep 0 0 (r.got ++ bs))
      else s'.setRun ep (some { r with lines := r.lines + 1, got := r.got ++ bs })
    | .error (.refuse k a) => ((s.poisonFull (s.endpoint ep).ctx k a).setRun ep none).reply ep (r.answer ep k.code p.1 [])
    | .error (.full dst ch) => s.fullWait (s.endpoint ep).ctx dst ch
    | .error .wait => s

/-- A step of a request: an endpoint with none in hand accepts it and performs its first line; named again it goes on with the next line;
another request waits until it is answered (R177, R418). -/
def State.hostRequest (s : State) (ep : Nat) (r : HostRun) : State :=
  if decide (r.len = 0) || decide (4096 < r.len) then s
  else
    match (s.endpoint ep).run with
    | none => if !s.epRuns ep then s else if 2 ^ 56 ≤ r.va.toNat then s.say (r.answer ep TrapKind.protection.code 0 []) else s.hostLine ep r
    | some q => if !s.epGoes ep then s else if q.write = r.write ∧ q.va = r.va ∧ q.len = r.len ∧ q.bytes = r.bytes then s.hostLine ep q else s

/-- WRITE (R418). -/
def execWrite (ep : Nat) (va : Word) (bytes : List Byte) (s : State) : Result :=
  .next (s.hostRequest ep { write := true, va := va, len := bytes.length, bytes := bytes })

/-- READ (R418). -/
def execRead (ep : Nat) (va : Word) (len : Nat) (s : State) : Result :=
  .next (s.hostRequest ep { write := false, va := va, len := len })

/-- The step with which the request in hand goes on. -/
def HostRun.instr (r : HostRun) (ep : Nat) : Instr := if r.write then .write ep r.va r.bytes else .read ep r.va r.len

end Sys2Proof.Machine
end

