-- ==== Sys2Proof/Machine/Power.lean ====
section
/-! DEFINITION. The power arbiter, alarms, repair, the event log, and reset of the part (16 R341, R342; 22 R402, R413, R414;
24 R423 to R429). -/

namespace Sys2Proof.Machine

/-! ### Grants (R423 to R425, R429) -/

/-- The budget of the core rails in thousandths of an ampere (R423). -/
def fullBudget : Nat := 6000000
/-- What a physical core draws over an interval, in thousandths of an ampere: the base, of the vector pipes up to 3.0 A, and what the matrix
unit wants, up to 5.5 A (R424). A core that hosts no logical core draws nothing (log 39). -/
structure Draw where
  base   : Nat := 0
  vector : Nat := 0
  matrix : Nat := 0
  deriving DecidableEq, Repr
def Draw.other (d : Draw) : Nat := d.base + d.vector
/-- What the core asks of the arbiter. -/
def Draw.asked (d : Draw) : Nat := d.other + d.matrix
/-- Sixteen times what it draws while its matrix unit runs at `duty` sixteenths. -/
def Draw.at (d : Draw) (duty : Nat) : Nat := 16 * d.other + Nat.min (16 * d.matrix) (5500 * duty)

/-- A physical core serves and hosts a logical core. -/
def State.works (s : State) (core : Nat) : Bool :=
  !Tab.get false s.retired (unitKey .core core) && !(s.hosted (s.ownerCtx core) core).isEmpty
def State.drawOf (s : State) (core : Nat) : Draw :=
  if s.works core then { base := 1000, vector := Config.vectorDraw s.draws core % 3001, matrix := Config.matrixDraw s.draws core % 5501 } else {}

def sumOf {α : Type} (f : α → Nat) (l : List α) : Nat := l.foldl (fun n a => n + f a) 0

/-- The matrix duty, in sixteenths, of a cluster whose cores draw `ds`: the largest with which its draw keeps within the grant, at least one
(R424). -/
def dutyOf (grant : Nat) (ds : List Draw) : Nat :=
  ((List.range 16).map (fun i => 16 - i)).find? (fun d => decide (sumOf (·.at d) ds ≤ 16 * grant)) |>.getD 1

/-- A part of a whole in proportion to what was asked. -/
def shareOfGrant (whole part all : Nat) : Nat := if all = 0 then 0 else whole * part / all

/-- The draws of the eight cores of a physical cluster. -/
def State.clusterDraw (s : State) (a : Nat) : List Draw := (List.range 8).map (fun m => s.drawOf (8 * a + m))

/-- What all physical clusters draw, sixteen times, under duties `f`. -/
def State.railDraw (s : State) (f : Nat → Nat) : Nat := sumOf (fun a => sumOf (·.at (f a)) (s.clusterDraw a)) (List.range 100)

/-- The duties as R424 gives them for a budget. -/
def State.dutyBy (s : State) (budget a : Nat) : Nat :=
  let asked (as : List Nat) : Nat := sumOf (fun a => sumOf Draw.asked (s.clusterDraw a)) as
  let mates := (List.range 25).map (· + a / 25 * 25)
  dutyOf (shareOfGrant (shareOfGrant budget (asked mates) (asked (List.range 100))) (asked [a]) (asked mates)) (s.clusterDraw a)

/-- How many sixteenths every duty is lowered beyond R424, down to one, so that the rails keep within the budget: vector work alone is not
throttled and may draw more than its grant (R423, log 39). -/
def State.lowered (s : State) (budget : Nat) : Nat :=
  ((List.range 16).find? (fun k => decide (s.railDraw (fun a => Nat.max 1 (s.dutyBy budget a - k)) ≤ 16 * budget))).getD 15

/-- ARBITER_GRANT: the budget goes to the dies, and of each to its clusters, in proportion to what they asked (R423, R424); a retired core asks
nothing (R429), and an alarm lowers the budget (R425). -/
def execArbiterGrant (s : State) : Result :=
  let budget := if s.alarm1 then Config.loweredBudget s.draws % fullBudget else fullBudget
  let k := s.lowered budget
  .next ({ s with
    duty := (List.range 100).foldl (fun t a => Tab.set 16 t a (Nat.max 1 (s.dutyBy budget a - k))) s.duty
    requested := (List.range 800).foldl (fun t c => Tab.set 0 t c (s.drawOf c).asked) s.requested }.draw)

/-! ### The log (R427) -/

/-- A new event overwrites the oldest of 4096 (R427). -/
def State.logEvent (s : State) (unit cls event number : Nat) (addr : Word) (ctx : Nat) : State :=
  let e : LogEntry := { time := s.timeUs, unit := unit, cls := cls, event := event, number := number, addr := addr, ctx := ctx }
  { s with log := (if s.log.length < 4096 then s.log else s.log.drop 1) ++ [e] }

def sat32 (n : Nat) : Nat := Nat.min (n + 1) 0xFFFFFFFF
/-- One more transient or lasting event of a unit (R427). -/
def State.countEvent (s : State) (key : Nat) (lasting : Bool) : State :=
  { s with counters := Tab.upd {} s.counters key (fun k =>
      if lasting then { k with lasting := sat32 k.lasting } else { k with transient := sat32 k.transient }) }

/-- DROPPED_PACKET: a packet for an unimplemented service (R417, R427). -/
def execDroppedPacket (port : Nat) (s : State) : Result :=
  .next (if port < 8 then (s.countEvent (unitKey .port port) false).logEvent 6 1 6 port 0 0 else s)

/-! ### Alarms and the standby core (R413, R414) -/

def State.liveCtxs (s : State) : List Nat := (s.ctxs.filter (fun e => decide (e.2.status = .live))).map (·.1)

/-- An alarm's log entry; which unit it names, by a number within its kind, is free (R412, R427). -/
def State.logAlarm (s : State) : State :=
  let u := units.getD (Config.alarmUnit s.draws % 7) .core
  (s.logEvent (unitCode u) 3 7 (Config.alarmUnit (s.draws + 1) % unitCount u) 0 0).draw.draw

/-- CLASS1_ALARM with cause code 1 to 3 (R413, R425). -/
def execClass1Alarm (cause : Fin 3) (coissue : Bool) (s : State) : Result :=
  let s1 : State := { s with alarm1 := true, coissueOff := s.coissueOff || coissue }
  .next (s1.liveCtxs.foldl (fun s c => s.trapnote c 8 0x3FF (BitVec.ofNat 64 (cause.val + 1)) 0) s1.logAlarm)

/-- CLASS1_ALARM_CLEAR (R425). -/
def execClass1AlarmClear (s : State) : Result := .next { s with alarm1 := false, coissueOff := false }

/-- Every key slot, slot 0 included, and every session key is erased; RUN endpoints enter ERROR; sealed contexts are lost (R413). -/
def State.eraseKeys (s : State) : State :=
  let s1 : State := { s with
    keyless := true, keys := [], sessions := s.sessions.map (fun (e : Nat × Session) => (e.1, { e.2 with stage := .failed, keys := 0 }))
    sealedCtxs := s.sealedCtxs.map (fun (e : Nat × SealedCtx) => (e.1, { e.2 with lost := true })) }
  (List.range 192).foldl (fun s e => s.errorEp e) s1

/-- CLASS2_ALARM (R413). -/
def execClass2Alarm (s : State) : Result := .next s.eraseKeys.logAlarm

/-- Verification of firmware images, and their digest (R402). -/
def State.verifyFirmware (s : State) (images : List (List Byte)) : State :=
  { s with
    firmware := images, fwDigest := digest images.flatten
    fwVerified := Config.firmwareVerifies (images.getD 0 []) (images.getD 1 []) (images.getD 2 []) }

/-- STANDBY_PROMOTION: after a lasting fault of the Nutcracker; the standby verifies the firmware first (R402, R414). -/
def execStandbyPromotion (s : State) : Result :=
  .next (if Tab.get false s.retired (unitKey .security 0) && !Tab.get false s.retired (unitKey .security 1) && !s.standby then
      { (s.verifyFirmware s.firmware).eraseKeys with standby := true }
    else s)

/-! ### Spares (R9, R426) -/

/-- The physical slice of hash number `h` of a die; the first 48 are active at first (R9). -/
def State.sliceOf (s : State) (die h : Nat) : Nat :=
  match Tab.get 0 s.sliceMap (64 * die + h) with
  | 0 => h
  | n + 1 => n

/-- An inactive slice takes the hash number of a retired one (R9). -/
def State.repairSlice (s : State) (number : Nat) : State :=
  let die := number / 50
  match (List.range 48).find? (fun h => decide (s.sliceOf die h = number % 50)) with
  | none => s
  | some h =>
    match (List.range 50).find? (fun p => !(List.range 48).any (fun h => decide (s.sliceOf die h = p)) &&
        !Tab.get false s.retired (unitKey .slice (50 * die + p))) with
    | none => s
    | some p => { s with sliceMap := Tab.set 0 s.sliceMap (64 * die + h) (p + 1) }

/-- A lane serves: a data lane, or a spare that stands for another (R426). -/
def State.laneServes (s : State) (number : Nat) : Bool :=
  decide (number % 2056 < 2048) || s.lanesUsed.any (fun e => decide (e.1 / 2056 = number / 2056) && decide (e.2 = number % 2056))
/-- A spare lane of a stack that has no fault and stands for no other (R426). -/
def State.spareLane (s : State) (stack : Nat) : Option Nat :=
  ((List.range 8).map (· + 2048)).find? (fun l => !Tab.get false s.retired (unitKey .hbmLane (2056 * stack + l)) && !s.laneServes (2056 * stack + l))

/-- The remap of a lane begins; it completes at the next boundary (R426). -/
def State.repairLane (s : State) (number : Nat) : State :=
  if !s.laneServes number then s
  else
    match s.spareLane (number / 2056) with
    | none => s
    | some l => { s with lanesUsed := Tab.set 0 s.lanesUsed number l, lanePend := Tab.set 0 s.lanePend number l }

/-- LANE_REMAP: the pending remaps of a stack complete (R426). -/
def execLaneRemap (stack : Nat) (s : State) : Result :=
  .next { s with lanePend := s.lanePend.filter (fun e => decide (e.1 / 2056 ≠ stack)) }

/-- The harts that may stand in for hart `h`, in order: its stack, then the next stacks of its die (R426). -/
def substitutes (h : Nat) : List Nat :=
  let st := h / 4
  ((List.range 3).map (fun i => st / 3 * 3 + (st % 3 + i) % 3)).flatMap (fun t => (List.range 4).map (fun n => 4 * t + n))

/-- Copies in progress and tiles in hand begin again, but those that a refusal has ended (R309, R426). -/
def Hart.again (x : Hart) : Hart :=
  { x with
    queue := x.queue.map (fun q =>
      match q with
      | .copy r => .copy (if r.started && r.refused.isNone then { r with started := false, left := [(0, r.c.len)], bytes := 0, waiting := r.waiting } else r)
      | .sub _ => q)
    subs := x.subs.map (fun (e : Nat × Sub) => (e.1, { e.2 with
      push := if e.2.refused.isSome then e.2.push else e.2.push.map (fun p => (p.1, e.2.r.chunks e.2.r.base e.2.pushed true))
      ret := if e.2.refused.isSome then e.2.ret else e.2.ret.map (fun p => (p.1, e.2.r.chunks e.2.r.rbase e.2.returned false)) })) }

/-- The numbers that hart `h` served get another hart, if one is left on the die (R426). -/
def State.repairHart (s : State) (h : Nat) : State :=
  (List.range 48).foldl (fun s k =>
    let x := s.hart k
    if k = h ∨ x.served = some h then
      s.setHart k { x.again with stopped := true, served := (substitutes k).find? (fun q => !Tab.get false s.retired (unitKey .hart q)) }
    else s) s

/-! ### Lasting faults (R341, R426 to R429) -/

/-- The MAC units of the line of a physical address, each in its own frame (R144, R341). -/
def unitsOfLine (pa : Nat) : List Nat := [macUnit (pa - pa % 192), macUnit (pa - pa % 192 + 191)]

/-- Poisons the line of an address and marks its frames (R146, R341). -/
def State.poisonLine (s : State) (pa : Nat) : State :=
  (unitsOfLine pa).foldl (fun s u => { s with
    poison := Tab.set false s.poison u true
    frames := Tab.upd 0 s.frames (u / 65536) (fun e => e ||| 0x40000) }) s

/-- The line of the address is lost: always where it names HBM, but for a lane that a spare replaces (R341, R426). -/
def State.lineLost (s : State) (kind : UnitKind) (number pa : Nat) : Bool :=
  decide (pa ≠ 0) && inHbm pa && !(decide (kind = .hbmLane) && (!s.laneServes number || (s.spareLane (number / 2056)).isSome))

/-- Poisons the MAC unit of an address alone and marks its frame: a GUARDED fill whose MAC or version check has failed twice (R146). -/
def State.poisonUnit (s : State) (pa : Nat) : State :=
  { s with
    poison := Tab.set false s.poison (macUnit pa) true
    frames := Tab.upd 0 s.frames (macUnit pa / 65536) (fun e => e ||| 0x40000) }

/-- A live context owns a physical core of a die, or a frame whose home die it is (R135). -/
def State.onDie (s : State) (die ctx : Nat) : Bool :=
  (List.range 200).any (fun i => s.owns ctx (200 * die + i)) ||
  s.frames.any (fun e => decide (e.1 * 65536 / 0xC00000000 / 3 = die) && decide (frameOwner e.2.toNat = ctx))

/-- The unit serves a context: a core its owner, an active slice and a link those of its dies and those whose frames have one as home die, a
lane in use those with frames in its stack, a hart and the security core in charge every one (R135, R303, R414, R428). -/
def State.serves (s : State) (kind : UnitKind) (n ctx : Nat) : Bool :=
  match kind with
  | .core => s.owns ctx n
  | .slice => ((List.range 48).any (fun h => decide (s.sliceOf (n / 50) h = n % 50))) && s.onDie (n / 50) ctx
  | .hbmLane => s.laneServes n && s.frames.any (fun e => decide (e.1 * 65536 / 0xC00000000 = n / 2056) && decide (frameOwner e.2.toNat = ctx))
  | .hart => !Tab.get false s.retired (unitKey .hart n)
  | .link => s.onDie (n % 4) ctx || (decide (n < 4) && s.onDie ((n + 1) % 4) ctx)
  | .port => s.endpoints.any (fun e => decide (e.1 / 96 = n / 4) && decide (e.2.state = .run) && decide (e.2.ctx = ctx))
  | .security => decide (n = if s.standby then 1 else 0)

/-- The repair of R426; the logical cores of a core move once their clusters are quiesced (R16, R17). -/
def State.repair (s : State) (kind : UnitKind) (n : Nat) : State :=
  match kind with
  | .core => if s.ownerCtx n = 0 then s else s.modCtx (s.ownerCtx n) (fun c => { c with fled := c.fled ++ [n] })
  | .slice => s.repairSlice n
  | .hbmLane => s.repairLane n
  | .hart => s.repairHart n
  | .link | .port | .security => s

/-- LASTING_FAULT of a unit by event code 1 to 5 at an address or 0; `retried` says that the retry succeeded, a transient event
(R341, R342, R427, R428). Event 0, which the log has not, is the check of one unit of a GUARDED frame (R146). -/
def execLastingFault (kind : UnitKind) (n event : Nat) (addr : Word) (retried : Bool) (s : State) : Result :=
  let key := unitKey kind n
  let pa := addr.toNat
  let frameCtx := if addr ≠ 0 ∧ inHbm pa ∧ frameOwner (s.frame pa) ≠ 0xFFFF then frameOwner (s.frame pa) else 0
  let owner := if kind = .core then s.ownerCtx n else frameCtx
  let log (s : State) (cls : Nat) : State := s.logEvent (unitCode kind) cls event n addr owner
  .next (if event = 0 then (if !retried && inHbm pa && decide (frameMode (s.frame pa) = 2) then s.poisonUnit pa else s)
    else if unitCount kind ≤ n ∨ 5 < event then s
    else if retried then log (s.countEvent key false) 1
    else
      let served := s.liveCtxs.filter (s.serves kind n)
      let hostedBy := s.hosted (s.ownerCtx n) n
      let s1 := if s.lineLost kind n pa then s.poisonLine pa else s
      let s2 := ({ log (s1.countEvent key true) 2 with retired := Tab.set false s.retired key true }).repair kind n
      let w2 := BitVec.ofNat 64 (unitCode kind + at' 8 2 + at' 16 event + at' 32 n)
      let s3 := served.foldl (fun s c => s.trapnote c 10 0x3FF w2 addr) s2
      if kind = .core then hostedBy.foldl (fun s l => s.loseCore (s.ownerCtx n) l) s3 else s3)

/-! ### Reset (R402, R422) -/

/-- POWER_RESET: the part starts anew; its firmware is verified and digested (R402). What a unit's wear and the part's fuses hold stays, and
with it each repair: the numbers that a lost hart, slice or lane served (R426). -/
def execPowerReset (nutcracker harts arbiter : List Byte) (s : State) : Result :=
  let worn (x : Hart) : Hart := { stopped := x.stopped, served := x.served }
  .next (({ ({} : State) with
    reportCtr := s.reportCtr, retired := s.retired, sliceMap := s.sliceMap, lanesUsed := s.lanesUsed, outbox := s.outbox, agenda := s.agenda
    draws := s.draws, standby := s.standby
    harts := (s.harts.map (fun (e : Nat × Hart) => (e.1, worn e.2))).filter (fun e => decide (e.2 ≠ {})) } : State).verifyFirmware
      [nutcracker, harts, arbiter])

end Sys2Proof.Machine
end

