-- ==== Sys2Proof/Machine/SysReg.lean ====
section
/-! DEFINITION. The system-register instructions (05 R116, R118). -/

namespace Sys2Proof.Machine

/-- `sysr`: short (R118). -/
def execSysr (h : Hd) (rd : Reg) (reg : SysReg) (s : State) : Result :=
  .next (match s.slot.gate h false false (sysPriv reg) with
    | some k => s.takeTrap (s.fault k 0)
    | none => s.mod (fun t => (t.wx rd.val (s.sysRead reg)).retire h))

/-- `sysw`: short; later instructions see the new value (R118). -/
def execSysw (h : Hd) (reg : SysReg) (ra : Reg) (s : State) : Result :=
  let v := s.slot.rx ra.val
  .next (match s.slot.gate h false false (sysPriv reg) with
    | some k => s.takeTrap (s.fault k 0)
    | none => if sysBad reg v then s.takeTrap (s.fault .illegalField 0) else (s.sysWrite reg v).mod (fun t => t.retire h))

/-- `sysx`: long; the exchange takes place at the group close (R118). -/
def execSysx (h : Hd) (rd ra : Reg) (reg : SysReg) (s : State) : Result :=
  let v := s.slot.rx ra.val
  .next (s.issueLong h false (sysPriv reg) (if sysBad reg v then some (s.fault .illegalField 0) else none) 0 0 0
    { outs := [.sysx rd.val reg v] })

end Sys2Proof.Machine
end

