-- ==== Sys2Proof/Machine/Vector.lean ====
section
/-! DEFINITION. The predicate instructions and the register-to-register vector instructions (09 R211 to R231, R236). -/

namespace Sys2Proof.Machine

/-! ### Predicates (R236) -/

def execKand (h : Hd) (kd ka kb : Reg8) (s : State) : Result :=
  .next (s.issueShort h false none (fun t => t.wk kd.val (t.rk ka.val &&& t.rk kb.val)))
def execKor (h : Hd) (kd ka kb : Reg8) (s : State) : Result :=
  .next (s.issueShort h false none (fun t => t.wk kd.val (t.rk ka.val ||| t.rk kb.val)))
def execKxor (h : Hd) (kd ka kb : Reg8) (s : State) : Result :=
  .next (s.issueShort h false none (fun t => t.wk kd.val (t.rk ka.val ^^^ t.rk kb.val)))
def execKnot (h : Hd) (kd ka : Reg8) (s : State) : Result :=
  .next (s.issueShort h false none (fun t => t.wk kd.val (~~~(t.rk ka.val))))
def execKmov (h : Hd) (kd ka : Reg8) (s : State) : Result :=
  .next (s.issueShort h false none (fun t => t.wk kd.val (t.rk ka.val)))
def execKpop (h : Hd) (rd : Reg) (ka : Reg8) (s : State) : Result :=
  .next (s.issueShort h false none (fun t => t.wx rd.val (BitVec.ofNat 64 (popCount 48 (t.rk ka.val).toNat))))

/-! ### The shape of a lane-wise instruction (R40, R213) -/

/-- One result for each active element of width w, from a function of the slot and the element's number. -/
def State.lanewise (s : State) (h : Hd) (p : Pred) (w : Nat) (vd : Reg) (rsr : Bool) (f : Slot → Nat → Nat × FFlags) : State :=
  let t := s.slot
  let act := t.act p
  let rs := (List.range (elems w)).map (fun j => if active act w j then f t j else (0, 0))
  s.issueLong h false false none 0 0 0
    { outs := [.v vd.val (actMask act w) (vecOf w (rs.map (·.1)))], flags := orFlags (rs.map (·.2)), rsr := rsr }

/-- A whole register written, whatever the predicate. -/
def State.wholeV (s : State) (h : Hd) (vd : Reg) (v : VReg) (flags : FFlags) (rsr : Bool) : State :=
  s.issueLong h false false none 0 0 0 { outs := [.v vd.val (BitVec.allOnes 1536) v], flags := flags, rsr := rsr }

def isRsr (c : Ctl) : Bool := decide (c.rm = .rsr)

/-- The rounding of element e of the instruction in issue (R38, R80). -/
def Slot.rnd (t : Slot) (c : Ctl) (e : Nat) : Rnd := ⟨c.rm, c.ftz, if isRsr c then stochWord t.key t.rsrN e else 0⟩

/-- A floating operation on codes of a type: operands read under D and the slot's reading, the result rounded once (R75, R78, R82). -/
def Slot.flt (t : Slot) (c : Ctl) (ty : ETy) (e : Nat) (op : List FVal → Res) (args : List Nat) : Nat × FFlags :=
  match fmtOf t.nanread ty with
  | some f => f.encode (t.rnd c e) (op (args.map (f.decode c.daz)))
  | none => (0, 0)

/-- Operations of two and three values. -/
def op2 (f : FVal → FVal → Res) : List FVal → Res
  | [a, b] => f a b
  | _ => .invalid
def op3 (f : FVal → FVal → FVal → Res) : List FVal → Res
  | [a, b, c] => f a b c
  | _ => .invalid
def op1 (f : FVal → Res) : List FVal → Res
  | [a] => f a
  | _ => .invalid

/-- An operation on each residue channel, reduced to 0 to m − 1 (R72, R216). -/
def rnOp (t : Fin 4) (f : Int → Int → Int) (a b : Nat) : Nat :=
  let (m0, m1, m2) := moduli t
  let (a0, a1, a2) := residues a
  let (b0, b1, b2) := residues b
  ofResidues (f a0 b0 % m0).toNat (f a1 b1 % m1).toNat (f a2 b2 % m2).toNat

/-- The arithmetic of `vadd`, `vsub` and `vmul` by type (R216). -/
def Slot.arith (t : Slot) (c : Ctl) (ty : ETy) (e : Nat) (fi : Int → Int → Int) (ff : FVal → FVal → Res) (a b : Nat) : Nat × FFlags :=
  match ty with
  | .rn3 tr => (rnOp tr fi a b, 0)
  | _ =>
    if isInt ty then (ofSigned (widthOf ty) (fi (toSigned (widthOf ty) a) (toSigned (widthOf ty) b)), 0)
    else t.flt c ty e (op2 ff) [a, b]

/-- Element j of a register at the width of a type. -/
def Slot.el (t : Slot) (ty : ETy) (r : Reg) (j : Nat) : Nat := elem (widthOf ty) (t.rv r.val) j

def State.arithV (s : State) (h : Hd) (p : Pred) (c : Ctl) (ty : ETy) (vd va vb : Reg) (fi : Int → Int → Int)
    (ff : FVal → FVal → Res) : State :=
  s.lanewise h p (widthOf ty) vd (isRsr c) (fun t j => t.arith c ty j fi ff (t.el ty va j) (t.el ty vb j))

/-- x − y in exact arithmetic. -/
def FVal.sub (rm : RM) (a b : FVal) : Res := FVal.add rm a b.negate

def execVadd (h : Hd) (p : Pred) (c : Ctl) (ty : ETy) (vd va vb : Reg) (s : State) : Result :=
  .next (s.arithV h p c ty vd va vb (· + ·) (FVal.add c.rm))
def execVsub (h : Hd) (p : Pred) (c : Ctl) (ty : ETy) (vd va vb : Reg) (s : State) : Result :=
  .next (s.arithV h p c ty vd va vb (· - ·) (FVal.sub c.rm))
def execVmul (h : Hd) (p : Pred) (c : Ctl) (ty : ETy) (vd va vb : Reg) (s : State) : Result :=
  .next (s.arithV h p c ty vd va vb (· * ·) FVal.mul)

/-- A fused multiply-add (R216). -/
def State.fmaV (s : State) (h : Hd) (p : Pred) (c : Ctl) (ty : ETy) (vd va vb vc : Reg) (negP negC : Bool) : State :=
  s.lanewise h p (widthOf ty) vd (isRsr c) (fun t j => t.flt c ty j (op3 (FVal.fma c.rm negP negC)) [t.el ty va j, t.el ty vb j, t.el ty vc j])

def execVfma (h : Hd) (p : Pred) (c : Ctl) (ty : ETy) (vd va vb vc : Reg) (s : State) : Result :=
  .next (s.fmaV h p c ty vd va vb vc false false)
def execVfms (h : Hd) (p : Pred) (c : Ctl) (ty : ETy) (vd va vb vc : Reg) (s : State) : Result :=
  .next (s.fmaV h p c ty vd va vb vc false true)
def execVfnma (h : Hd) (p : Pred) (c : Ctl) (ty : ETy) (vd va vb vc : Reg) (s : State) : Result :=
  .next (s.fmaV h p c ty vd va vb vc true false)
def execVdiv (h : Hd) (p : Pred) (c : Ctl) (ty : ETy) (vd va vb : Reg) (s : State) : Result :=
  .next (s.lanewise h p (widthOf ty) vd (isRsr c) (fun t j => t.flt c ty j (op2 FVal.div) [t.el ty va j, t.el ty vb j]))

/-- A function of one floating value (R217). -/
def State.unaryV (s : State) (h : Hd) (p : Pred) (c : Ctl) (ty : ETy) (vd va : Reg) (f : FVal → Res) : State :=
  s.lanewise h p (widthOf ty) vd (isRsr c) (fun t j => t.flt c ty j (op1 f) [t.el ty va j])

def execVsqrt (h : Hd) (p : Pred) (c : Ctl) (ty : ETy) (vd va : Reg) (s : State) : Result := .next (s.unaryV h p c ty vd va FVal.sqrt)
def execVrcp (h : Hd) (p : Pred) (c : Ctl) (ty : ETy) (vd va : Reg) (s : State) : Result :=
  .next (s.unaryV h p c ty vd va (FVal.div (.fin false 1 0)))
def execVrsqrt (h : Hd) (p : Pred) (c : Ctl) (ty : ETy) (vd va : Reg) (s : State) : Result := .next (s.unaryV h p c ty vd va FVal.rsqrt)
def execVexp2 (h : Hd) (p : Pred) (c : Ctl) (ty : ETy) (vd va : Reg) (s : State) : Result := .next (s.unaryV h p c ty vd va FVal.exp2)
def execVlog2 (h : Hd) (p : Pred) (c : Ctl) (ty : ETy) (vd va : Reg) (s : State) : Result := .next (s.unaryV h p c ty vd va FVal.log2)

/-- Minimum and maximum (R216). -/
def State.minmaxV (s : State) (h : Hd) (p : Pred) (c : Ctl) (ty : ETy) (vd va vb : Reg) (isMax : Bool) : State :=
  s.arithV h p c ty vd va vb (fun a b => if isMax then max a b else min a b) (FVal.minmax isMax)

def execVmin (h : Hd) (p : Pred) (c : Ctl) (ty : ETy) (vd va vb : Reg) (s : State) : Result := .next (s.minmaxV h p c ty vd va vb false)
def execVmax (h : Hd) (p : Pred) (c : Ctl) (ty : ETy) (vd va vb : Reg) (s : State) : Result := .next (s.minmaxV h p c ty vd va vb true)

/-- `vabs`: the sign bit alone on floats (R218). -/
def execVabs (h : Hd) (p : Pred) (ty : ETy) (vd va : Reg) (s : State) : Result :=
  .next (s.lanewise h p (widthOf ty) vd false (fun t j =>
    let a := t.el ty va j
    let w := widthOf ty
    (if isInt ty then ofSigned w (toSigned w a).natAbs else a % 2 ^ (w - 1), 0)))
def execVneg (h : Hd) (p : Pred) (ty : ETy) (vd va : Reg) (s : State) : Result :=
  .next (s.lanewise h p (widthOf ty) vd false (fun t j =>
    let a := t.el ty va j
    let w := widthOf ty
    (if isInt ty then ofSigned w (-(toSigned w a)) else (a + 2 ^ (w - 1)) % 2 ^ w, 0)))

/-! ### Comparison and selection (R219, R220) -/

/-- A condition on two exact values; a NaN makes only `.ne` true (R219). -/
def fltCond (c : Cond) (a b : FVal) : Bool :=
  if a.isNan || b.isNan then decide (c = .ne)
  else
    match c with
    | .eq => FVal.eq a b
    | .ne => !FVal.eq a b
    | .lt | .ltu => FVal.lt a b
    | .ge | .geu => !FVal.lt a b
    | .le | .leu => !FVal.lt b a
    | .gt | .gtu => FVal.lt b a

/-- A condition on two codes of width w. -/
def intCond (c : Cond) (w a b : Nat) : Bool :=
  let x := toSigned w a
  let y := toSigned w b
  match c with
  | .eq => decide (a = b)
  | .ne => decide (a ≠ b)
  | .lt => decide (x < y)
  | .ge => decide (y ≤ x)
  | .le => decide (x ≤ y)
  | .gt => decide (y < x)
  | .ltu => decide (a < b)
  | .geu => decide (b ≤ a)
  | .leu => decide (a ≤ b)
  | .gtu => decide (b < a)

/-- The condition on one element pair, with its flags (R219). -/
def Slot.cmpEl (t : Slot) (c : Ctl) (cond : Cond) (ty : ETy) (a b : Nat) : Bool × FFlags :=
  match fmtOf t.nanread ty with
  | some f =>
    let x := f.decode c.daz a
    let y := f.decode c.daz b
    (fltCond cond x y, if x.isSig || y.isSig then FFlags.invalid else 0)
  | none => (intCond cond (widthOf ty) a b, 0)

/-- `vcmp` (R212, R219). -/
def execVcmp (h : Hd) (p : Pred) (c : Ctl) (cond : Cond) (ty : ETy) (kd : Reg8) (va vb : Reg) (s : State) : Result :=
  let t := s.slot
  let w := widthOf ty
  let act := t.act p
  let r := (List.range (elems w)).map (fun j => t.cmpEl c cond ty (t.el ty va j) (t.el ty vb j))
  let holds (j : Nat) : Bool := (r.getD j (false, 0)).1
  let per := 32 / w
  let bit (i : Nat) : Bool := if w = 64 then holds (i / 2) else (List.range per).all (fun e => holds (i * per + e))
  let mask := predOf (fun i => act.getLsbD i && (decide (w ≠ 64) || act.getLsbD (i / 2 * 2)))
  let flags := orFlags ((List.range (elems w)).map (fun j => if active act w j then (r.getD j (false, 0)).2 else 0))
  .next (s.issueLong h false false none 0 0 0 { outs := [.k kd.val mask (predOf bit)], flags := flags })

/-- `vsel`: K and KN are the selector (R220). -/
def execVsel (h : Hd) (p : Pred) (ty : ETy) (vd va vb : Reg) (s : State) : Result :=
  let t := s.slot
  let m := actMask (t.act p) (widthOf ty)
  .next (s.wholeV h vd ((t.rv va.val &&& m) ||| (t.rv vb.val &&& ~~~m)) 0 false)

/-! ### Bitwise logic and shifts (R221 to R223) -/

/-- A function of whole lanes (R221, R224). -/
def State.lanesV (s : State) (h : Hd) (p : Pred) (vd : Reg) (f : Slot → Nat → Nat) : State :=
  s.lanewise h p 32 vd false (fun t i => (f t i, 0))
def Slot.ln (t : Slot) (r : Reg) (i : Nat) : Nat := elem 32 (t.rv r.val) i

def execVand (h : Hd) (p : Pred) (vd va vb : Reg) (s : State) : Result := .next (s.lanesV h p vd (fun t i => t.ln va i &&& t.ln vb i))
def execVor (h : Hd) (p : Pred) (vd va vb : Reg) (s : State) : Result := .next (s.lanesV h p vd (fun t i => t.ln va i ||| t.ln vb i))
def execVxor (h : Hd) (p : Pred) (vd va vb : Reg) (s : State) : Result := .next (s.lanesV h p vd (fun t i => t.ln va i ^^^ t.ln vb i))

/-- The table of `vlop3` applied bit by bit (R221). -/
def lop3 (table : BitVec 8) (a b c : Nat) : Nat :=
  ofElems 1 ((List.range 32).map (fun q => (table.getLsbD (4 * field a q 1 + 2 * field b q 1 + field c q 1)).toNat))
def execVlop3 (h : Hd) (p : Pred) (vd va vb vc : Reg) (table : BitVec 8) (s : State) : Result :=
  .next (s.lanesV h p vd (fun t i => lop3 table (t.ln va i) (t.ln vb i) (t.ln vc i)))

/-- The shift count of element j: the element of vb, or I (R222). -/
def Slot.shiftCount (t : Slot) (ty : ETy) (b : Src) (j : Nat) : Nat :=
  match b with
  | .reg r => t.el ty r j
  | .imm i => i.toNat

def State.shiftV (s : State) (h : Hd) (p : Pred) (ty : ETy) (vd va : Reg) (b : Src) (f : Nat → Nat → Nat → Nat) : State :=
  s.lanewise h p (widthOf ty) vd false (fun t j => (f (widthOf ty) (t.el ty va j) (t.shiftCount ty b j), 0))

/-- Shifts of a w-bit code by any count (R222). -/
def shlN (w a n : Nat) : Nat := if n < w then a * 2 ^ n % 2 ^ w else 0
def shrN (w a n : Nat) : Nat := if n < w then a / 2 ^ n else 0
def sraN (w a n : Nat) : Nat := ofSigned w (toSigned w a / (2 ^ (Nat.min n (w - 1)) : Nat))

def execVshl (h : Hd) (p : Pred) (ty : ETy) (vd va : Reg) (b : Src) (s : State) : Result := .next (s.shiftV h p ty vd va b shlN)
def execVshr (h : Hd) (p : Pred) (ty : ETy) (vd va : Reg) (b : Src) (s : State) : Result := .next (s.shiftV h p ty vd va b shrN)
def execVsra (h : Hd) (p : Pred) (ty : ETy) (vd va : Reg) (b : Src) (s : State) : Result := .next (s.shiftV h p ty vd va b sraN)

/-- The funnel shift of R223. -/
def funnel (w a b n : Nat) : Nat := let q := n % w; if q = 0 then a else (a * 2 ^ q + b / 2 ^ (w - q)) % 2 ^ w
def execVfsh (h : Hd) (p : Pred) (ty : ETy) (vd va vb vc : Reg) (s : State) : Result :=
  .next (s.lanewise h p (widthOf ty) vd false (fun t j => (funnel (widthOf ty) (t.el ty va j) (t.el ty vb j) (t.el ty vc j), 0)))

/-! ### Rearrangement (R224, R225) -/

def execVrot (h : Hd) (p : Pred) (vd va : Reg) (b : Src) (s : State) : Result :=
  .next (s.lanesV h p vd (fun t i => t.ln va ((i + 48 - (t.src b).toNat % 48) % 48)))
def execVperm (h : Hd) (p : Pred) (vd va vb : Reg) (s : State) : Result :=
  .next (s.lanesV h p vd (fun t i => let q := t.ln vb i % 64; if q < 48 then t.ln va q else 0))
def execVbcast (h : Hd) (p : Pred) (ty : ETy) (vd ra : Reg) (s : State) : Result :=
  .next (s.lanewise h p (widthOf ty) vd false (fun t _ => ((t.rx ra.val).toNat % 2 ^ widthOf ty, 0)))
/-- `vext`: INT elements sign-extend, all others zero-extend (R225). -/
def execVext (h : Hd) (ty : ETy) (rd va : Reg) (e : Nat) (s : State) : Result :=
  let a := s.slot.el ty va e
  let v : Word := if isInt ty then BitVec.ofInt 64 (toSigned (widthOf ty) a) else BitVec.ofNat 64 a
  .next (s.issueLong h false false none 0 0 0 { outs := [.x rd.val v] })
/-- `vins` (R225). -/
def execVins (h : Hd) (ty : ETy) (vd ra : Reg) (e : Nat) (s : State) : Result :=
  let w := widthOf ty
  let place (n : Nat) : VReg := BitVec.ofNat 1536 (n * 2 ^ (w * e))
  .next (s.issueLong h false false none 0 0 0 { outs := [.v vd.val (place (ones w)) (place ((s.slot.rx ra.val).toNat % 2 ^ w))] })

/-! ### Conversion (R226, R227) -/

/-- One element converted (R85 to R88, R226, R227). -/
def Slot.convert (t : Slot) (c : Ctl) (dst src : ETy) (e a : Nat) : Nat × FFlags :=
  match fmtOf t.nanread src, fmtOf t.nanread dst with
  | some f, some g => g.encode (t.rnd c e) (.exact (f.decode c.daz a))
  | some f, none => FVal.toInt (t.rnd c e) (widthOf dst) (f.decode c.daz a)
  | none, some g => g.encode (t.rnd c e) (.exact (FVal.ofInt false (toSigned (widthOf src) a) 0))
  | none, none =>
    match dst, src with
    | .rn3 tr, _ => toRn tr (toSigned (widthOf src) a)
    | _, .rn3 tr => (ofSigned (widthOf dst) (ofRn tr a), 0)
    | _, _ => (ofSigned (widthOf dst) (saturate (widthOf dst) (toSigned (widthOf src) a)), 0)

/-- `vcvt`: n elements, each active at width 32, or at width 64 when n = 24 (R226). -/
def execVcvt (h : Hd) (p : Pred) (c : Ctl) (dst src : ETy) (vd va : Reg) (s : State) : Result :=
  let t := s.slot
  let wd := widthOf dst
  let aw := Nat.max (Nat.max wd (widthOf src)) 32
  let n := 1536 / aw
  let act := t.act p
  let rs := (List.range n).map (fun j => if active act aw j then t.convert c dst src j (t.el src va j) else (0, 0))
  let mask := vecOf wd ((List.range n).map (fun j => if active act aw j then ones wd else 0))
  .next (s.issueLong h false false none 0 0 0
    { outs := [.v vd.val mask (vecOf wd (rs.map (·.1)))], flags := orFlags (rs.map (·.2)), rsr := (isRsr c) })

/-! ### Reductions, scans and selection (R92, R93, R228 to R231) -/

/-- One combination of `vred` and `vscan`, numbered e (R228). -/
def Slot.combine (t : Slot) (c : Ctl) (op : ROp) (ty : ETy) (e a b : Nat) : Nat × FFlags :=
  if isFlt ty then
    match op with
    | .add => t.flt c ty e (op2 (FVal.add c.rm)) [a, b]
    | .min => t.flt c ty e (op2 (FVal.minmax false)) [a, b]
    | .max => t.flt c ty e (op2 (FVal.minmax true)) [a, b]
    | .and | .or | .xor | .minu | .maxu => (a, 0)
  else redFn op ty a b

/-- The identity of an operation (R93). -/
def identity (op : ROp) (ty : ETy) : Nat :=
  let w := widthOf ty
  match fmtOf false ty with
  | some f =>
    match op with
    | .min => f.emax * 2 ^ f.p
    | .max => f.signBit + f.emax * 2 ^ f.p
    | .add | .and | .or | .xor | .minu | .maxu => 0
  | none =>
    match op with
    | .min => 2 ^ (w - 1) - 1
    | .max => 2 ^ (w - 1)
    | .minu | .and => ones w
    | .add | .maxu | .or | .xor => 0

/-- A combination with an absent operand passes the present one unchanged (R93). -/
def joinOpt (comb : Nat → Nat → Nat → Nat × FFlags) (e : Nat) : Option Nat → Option Nat → Option Nat × FFlags
  | some a, some b => let r := comb e a b; (some r.1, r.2)
  | some a, none => (some a, 0)
  | none, b => (b, 0)

/-- One level of the tree: neighbours combined, numbered from e (R92, R228). -/
def treeLevel (comb : Nat → Nat → Nat → Nat × FFlags) : Nat → List (Option Nat) → List (Option Nat) × FFlags
  | e, a :: b :: r =>
    let x := joinOpt comb e a b
    let rest := treeLevel comb (e + 1) r
    (x.1 :: rest.1, x.2 ||| rest.2)
  | _, l => (l, 0)

/-- The reduction tree of R92, with fuel for its levels. -/
def tree (comb : Nat → Nat → Nat → Nat × FFlags) : Nat → Nat → List (Option Nat) → Option Nat × FFlags
  | _, _, [] => (none, 0)
  | _, _, [a] => (a, 0)
  | 0, _, a :: _ => (a, 0)
  | k + 1, e, [a, b, c] =>
    let x := joinOpt comb e a b
    let r := tree comb k (e + 1) [x.1, c]
    (r.1, x.2 ||| r.2)
  | k + 1, e, l =>
    let x := treeLevel comb e l
    let r := tree comb k (e + l.length / 2) x.1
    (r.1, x.2 ||| r.2)

/-- The active elements of a register, none where inactive. -/
def Slot.present (t : Slot) (act : PReg) (ty : ETy) (va : Reg) : List (Option Nat) :=
  (List.range (elems (widthOf ty))).map (fun j => if active act (widthOf ty) j then some (t.el ty va j) else none)

def execVred (h : Hd) (p : Pred) (c : Ctl) (op : ROp) (ty : ETy) (vd va : Reg) (s : State) : Result :=
  let t := s.slot
  let w := widthOf ty
  let r := tree (t.combine c op ty) 10 0 (t.present (t.act p) ty va)
  .next (s.wholeV h vd (vecOf w (List.replicate (elems w) (r.1.getD (identity op ty)))) r.2 (isRsr c))

/-- The inclusive prefixes of a list, element j's combination numbered j (R229). -/
def scan (comb : Nat → Nat → Nat → Nat × FFlags) (ident : Nat) : Nat → Option Nat → List (Option Nat) → List Nat × FFlags
  | _, _, [] => ([], 0)
  | j, acc, x :: r =>
    let a := joinOpt comb j acc x
    let rest := scan comb ident (j + 1) a.1 r
    (a.1.getD ident :: rest.1, a.2 ||| rest.2)

def execVscan (h : Hd) (p : Pred) (c : Ctl) (op : ROp) (ty : ETy) (vd va : Reg) (s : State) : Result :=
  let t := s.slot
  let r := scan (t.combine c op ty) (identity op ty) 0 none (t.present (t.act p) ty va)
  .next (s.wholeV h vd (vecOf (widthOf ty) r.1) r.2 (isRsr c))

/-- Inserts an index before the first that ranks strictly below it, so that equals keep ascending order (R230). -/
def insertRank (below : Nat → Nat → Bool) (x : Nat) : List Nat → List Nat
  | [] => [x]
  | y :: r => if below y x then x :: y :: r else y :: insertRank below x r
def rankDesc (below : Nat → Nat → Bool) (js : List Nat) : List Nat := js.foldl (fun l j => insertRank below j l) []

/-- The ranking order of `vtopk`: signed integers; floats with −0 below +0 and every NaN above +∞ (R230). -/
def Slot.ranksBelow (t : Slot) (c : Ctl) (ty : ETy) (a b : Nat) : Bool :=
  match fmtOf t.nanread ty with
  | some f =>
    let x := f.decode c.daz a
    let y := f.decode c.daz b
    if x.isNan then false else y.isNan || FVal.below x y
  | none => decide (toSigned (widthOf ty) a < toSigned (widthOf ty) b)

/-- `vtopk` (R230). -/
def execVtopk (h : Hd) (p : Pred) (c : Ctl) (ty : ETy) (vd va : Reg) (count : Nat) (s : State) : Result :=
  let t := s.slot
  let js := (List.range (elems (widthOf ty))).filter (fun j => active (t.act p) (widthOf ty) j)
  let order := (rankDesc (fun a b => t.ranksBelow c ty (t.el ty va a) (t.el ty va b)) js).take count
  .next (s.wholeV h vd (vecOf 32 ((List.range 48).map (fun i => order.getD i 0xFFFFFFFF))) 0 false)

/-- The magnitude key of `vsparse`: every NaN largest; −128 counts as 128 (R231). -/
def Slot.magnitude (t : Slot) (ty : ETy) (a : Nat) : Nat :=
  match fmtOf t.nanread ty with
  | some f => if (f.decode false a).isNan then 2 ^ 20 else a % f.signBit
  | none => (toSigned (widthOf ty) a).natAbs

/-- The two kept indices of a group, ascending (R231). -/
def keepTwo (m : Nat → Nat) : Nat × Nat :=
  match (rankDesc (fun a b => decide (m a < m b)) [0, 1, 2, 3]).take 2 with
  | [a, b] => if a < b then (a, b) else (b, a)
  | _ => (0, 1)

/-- `vsparse`: values to vd, metadata to vc (R231). Where both name one register it holds the metadata; the rule does not say (DESIGN CHOICE,
log 83). -/
def execVsparse (h : Hd) (p : Pred) (ty : ETy) (vd vc va : Reg) (s : State) : Result :=
  let t := s.slot
  let w := widthOf ty
  let act := t.act p
  let a (j : Nat) : Nat := if active act w j then t.el ty va j else 0
  let gs := List.range (elems w / 4)
  let kept := gs.map (fun g => keepTwo (fun i => t.magnitude ty (a (4 * g + i))))
  let vals := gs.flatMap (fun g => let k := kept.getD g (0, 1); [a (4 * g + k.1), a (4 * g + k.2)])
  let meta' := kept.map (fun k => k.1 + 4 * k.2)
  .next (s.issueLong h false false none 0 0 0
    { outs := [.v vd.val (BitVec.allOnes 1536) (vecOf w vals), .v vc.val (BitVec.allOnes 1536) (vecOf 4 meta')] })

end Sys2Proof.Machine
end

