-- ==== Sys2Proof/Machine/Dispatch.lean ====
section
/-! DEFINITION. The dispatch: one arm for each constructor of `Instr`, each a call of its meaning. -/

namespace Sys2Proof.Machine

def exec (i : Instr) (s : State) : Host.Outcome State Fault Refusal :=
  match i with
  | .add h rd ra b => Sys2Proof.Machine.execAdd h rd ra b s
  | .sub h rd ra b => Sys2Proof.Machine.execSub h rd ra b s
  | .mul h rd ra b => Sys2Proof.Machine.execMul h rd ra b s
  | .mulh h rd ra b => Sys2Proof.Machine.execMulh h rd ra b s
  | .mulhu h rd ra b => Sys2Proof.Machine.execMulhu h rd ra b s
  | .div h rd ra b => Sys2Proof.Machine.execDiv h rd ra b s
  | .divu h rd ra b => Sys2Proof.Machine.execDivu h rd ra b s
  | .rem h rd ra b => Sys2Proof.Machine.execRem h rd ra b s
  | .remu h rd ra b => Sys2Proof.Machine.execRemu h rd ra b s
  | .and h rd ra b => Sys2Proof.Machine.execAnd h rd ra b s
  | .or h rd ra b => Sys2Proof.Machine.execOr h rd ra b s
  | .xor h rd ra b => Sys2Proof.Machine.execXor h rd ra b s
  | .andn h rd ra b => Sys2Proof.Machine.execAndn h rd ra b s
  | .orn h rd ra b => Sys2Proof.Machine.execOrn h rd ra b s
  | .shl h rd ra b => Sys2Proof.Machine.execShl h rd ra b s
  | .shr h rd ra b => Sys2Proof.Machine.execShr h rd ra b s
  | .sra h rd ra b => Sys2Proof.Machine.execSra h rd ra b s
  | .rol h rd ra b => Sys2Proof.Machine.execRol h rd ra b s
  | .ror h rd ra b => Sys2Proof.Machine.execRor h rd ra b s
  | .clz h rd ra => Sys2Proof.Machine.execClz h rd ra s
  | .ctz h rd ra => Sys2Proof.Machine.execCtz h rd ra s
  | .popc h rd ra => Sys2Proof.Machine.execPopc h rd ra s
  | .min h rd ra b => Sys2Proof.Machine.execMin h rd ra b s
  | .max h rd ra b => Sys2Proof.Machine.execMax h rd ra b s
  | .minu h rd ra b => Sys2Proof.Machine.execMinu h rd ra b s
  | .maxu h rd ra b => Sys2Proof.Machine.execMaxu h rd ra b s
  | .cmp h cond rd ra b => Sys2Proof.Machine.execCmp h cond rd ra b s
  | .sel h rd rc ra rb => Sys2Proof.Machine.execSel h rd rc ra rb s
  | .li h rd imm => Sys2Proof.Machine.execLi h rd imm s
  | .bfx h signed rd ra pos lenm1 => Sys2Proof.Machine.execBfx h signed rd ra pos lenm1 s
  | .bfi h rd ra pos lenm1 => Sys2Proof.Machine.execBfi h rd ra pos lenm1 s
  | .br h cond ra rb off => Sys2Proof.Machine.execBr h cond ra rb off s
  | .jmp h off => Sys2Proof.Machine.execJmp h off s
  | .jmpr h ra => Sys2Proof.Machine.execJmpr h ra s
  | .call h off => Sys2Proof.Machine.execCall h off s
  | .callr h ra => Sys2Proof.Machine.execCallr h ra s
  | .ret h => Sys2Proof.Machine.execRet h s
  | .idem h mask => Sys2Proof.Machine.execIdem h mask s
  | .trapf h => Sys2Proof.Machine.execTrapf h s
  | .trap h code => Sys2Proof.Machine.execTrap h code s
  | .eret h => Sys2Proof.Machine.execEret h s
  | .nop h => Sys2Proof.Machine.execNop h s
  | .quit h => Sys2Proof.Machine.execQuit h s
  | .yield h => Sys2Proof.Machine.execYield h s
  | .brk h code => Sys2Proof.Machine.execBrk h code s
  | .sysr h rd reg => Sys2Proof.Machine.execSysr h rd reg s
  | .sysw h reg ra => Sys2Proof.Machine.execSysw h reg ra s
  | .sysx h rd ra reg => Sys2Proof.Machine.execSysx h rd ra reg s
  | .ld h size zext rd ra imm => Sys2Proof.Machine.execLd h size zext rd ra imm s
  | .st h size rb ra imm => Sys2Proof.Machine.execSt h size rb ra imm s
  | .pref h ra imm => Sys2Proof.Machine.execPref h ra imm s
  | .disc h ra imm => Sys2Proof.Machine.execDisc h ra imm s
  | .flushl h ra imm => Sys2Proof.Machine.execFlushl h ra imm s
  | .xinv h ra rb => Sys2Proof.Machine.execXinv h ra rb s
  | .drain h path => Sys2Proof.Machine.execDrain h path s
  | .send h rd ra rb => Sys2Proof.Machine.execSend h rd ra rb s
  | .recv h kind src rd mask => Sys2Proof.Machine.execRecv h kind src rd mask s
  | .recvKeep h kind src rd => Sys2Proof.Machine.execRecvKeep h kind src rd s
  | .poll h kind src rd => Sys2Proof.Machine.execPoll h kind src rd s
  | .watch h ra => Sys2Proof.Machine.execWatch h ra s
  | .unwatch h ra => Sys2Proof.Machine.execUnwatch h ra s
  | .bar h => Sys2Proof.Machine.execBar h s
  | .carrive h ra => Sys2Proof.Machine.execCarrive h ra s
  | .cwatch h ra => Sys2Proof.Machine.execCwatch h ra s
  | .guard h ra rb rc target => Sys2Proof.Machine.execGuard h ra rb rc target s
  | .amo h op size rd ra rb => Sys2Proof.Machine.execAmo h op size rd ra rb s
  | .cas h size rd ra rb rc => Sys2Proof.Machine.execCas h size rd ra rb rc s
  | .red h op ty ra rb => Sys2Proof.Machine.execRed h op ty ra rb s
  | .pfxadd h ra => Sys2Proof.Machine.execPfxadd h ra s
  | .spawn h prio ra rb mask => Sys2Proof.Machine.execSpawn h prio ra rb mask s
  | .migrate h ra mask => Sys2Proof.Machine.execMigrate h ra mask s
  | .kand h kd ka kb => Sys2Proof.Machine.execKand h kd ka kb s
  | .kor h kd ka kb => Sys2Proof.Machine.execKor h kd ka kb s
  | .kxor h kd ka kb => Sys2Proof.Machine.execKxor h kd ka kb s
  | .knot h kd ka => Sys2Proof.Machine.execKnot h kd ka s
  | .kmov h kd ka => Sys2Proof.Machine.execKmov h kd ka s
  | .kpop h rd ka => Sys2Proof.Machine.execKpop h rd ka s
  | .vadd h p c ty vd va vb => Sys2Proof.Machine.execVadd h p c ty vd va vb s
  | .vsub h p c ty vd va vb => Sys2Proof.Machine.execVsub h p c ty vd va vb s
  | .vmul h p c ty vd va vb => Sys2Proof.Machine.execVmul h p c ty vd va vb s
  | .vfma h p c ty vd va vb vc => Sys2Proof.Machine.execVfma h p c ty vd va vb vc s
  | .vfms h p c ty vd va vb vc => Sys2Proof.Machine.execVfms h p c ty vd va vb vc s
  | .vfnma h p c ty vd va vb vc => Sys2Proof.Machine.execVfnma h p c ty vd va vb vc s
  | .vdiv h p c ty vd va vb => Sys2Proof.Machine.execVdiv h p c ty vd va vb s
  | .vsqrt h p c ty vd va => Sys2Proof.Machine.execVsqrt h p c ty vd va s
  | .vrcp h p c ty vd va => Sys2Proof.Machine.execVrcp h p c ty vd va s
  | .vrsqrt h p c ty vd va => Sys2Proof.Machine.execVrsqrt h p c ty vd va s
  | .vexp2 h p c ty vd va => Sys2Proof.Machine.execVexp2 h p c ty vd va s
  | .vlog2 h p c ty vd va => Sys2Proof.Machine.execVlog2 h p c ty vd va s
  | .vmin h p c ty vd va vb => Sys2Proof.Machine.execVmin h p c ty vd va vb s
  | .vmax h p c ty vd va vb => Sys2Proof.Machine.execVmax h p c ty vd va vb s
  | .vabs h p ty vd va => Sys2Proof.Machine.execVabs h p ty vd va s
  | .vneg h p ty vd va => Sys2Proof.Machine.execVneg h p ty vd va s
  | .vcmp h p c cond ty kd va vb => Sys2Proof.Machine.execVcmp h p c cond ty kd va vb s
  | .vsel h p ty vd va vb => Sys2Proof.Machine.execVsel h p ty vd va vb s
  | .vand h p vd va vb => Sys2Proof.Machine.execVand h p vd va vb s
  | .vor h p vd va vb => Sys2Proof.Machine.execVor h p vd va vb s
  | .vxor h p vd va vb => Sys2Proof.Machine.execVxor h p vd va vb s
  | .vlop3 h p vd va vb vc table => Sys2Proof.Machine.execVlop3 h p vd va vb vc table s
  | .vshl h p ty vd va b => Sys2Proof.Machine.execVshl h p ty vd va b s
  | .vshr h p ty vd va b => Sys2Proof.Machine.execVshr h p ty vd va b s
  | .vsra h p ty vd va b => Sys2Proof.Machine.execVsra h p ty vd va b s
  | .vfsh h p ty vd va vb vc => Sys2Proof.Machine.execVfsh h p ty vd va vb vc s
  | .vrot h p vd va b => Sys2Proof.Machine.execVrot h p vd va b s
  | .vperm h p vd va vb => Sys2Proof.Machine.execVperm h p vd va vb s
  | .vbcast h p ty vd ra => Sys2Proof.Machine.execVbcast h p ty vd ra s
  | .vext h ty rd va e => Sys2Proof.Machine.execVext h ty rd va e s
  | .vins h ty vd ra e => Sys2Proof.Machine.execVins h ty vd ra e s
  | .vcvt h p c dst src vd va => Sys2Proof.Machine.execVcvt h p c dst src vd va s
  | .vred h p c op ty vd va => Sys2Proof.Machine.execVred h p c op ty vd va s
  | .vscan h p c op ty vd va => Sys2Proof.Machine.execVscan h p c op ty vd va s
  | .vtopk h p c ty vd va count => Sys2Proof.Machine.execVtopk h p c ty vd va count s
  | .vsparse h p ty vd vc va => Sys2Proof.Machine.execVsparse h p ty vd vc va s
  | .vld h p vd ra imm => Sys2Proof.Machine.execVld h p vd ra imm s
  | .vst h p vb ra imm => Sys2Proof.Machine.execVst h p vb ra imm s
  | .vldg h p ty vd ra vb => Sys2Proof.Machine.execVldg h p ty vd ra vb s
  | .vsts h p ty vc ra vb => Sys2Proof.Machine.execVsts h p ty vc ra vb s
  | .vldc h p ty vd ra rb => Sys2Proof.Machine.execVldc h p ty vd ra rb s
  | .vstc h p ty vc ra rb => Sys2Proof.Machine.execVstc h p ty vc ra rb s
  | .aalloc h rd an => Sys2Proof.Machine.execAalloc h rd an s
  | .afree h an => Sys2Proof.Machine.execAfree h an s
  | .azero h an => Sys2Proof.Machine.execAzero h an s
  | .mma h ty an ra rb imm => Sys2Proof.Machine.execMma h ty an ra rb imm s
  | .mmas h ty an ra rb rc imm => Sys2Proof.Machine.execMmas h ty an ra rb rc imm s
  | .mmr h t an ra rb imm => Sys2Proof.Machine.execMmr h t an ra rb imm s
  | .ard h t vd an rb => Sys2Proof.Machine.execArd h t vd an rb s
  | .awr h t an va rb => Sys2Proof.Machine.execAwr h t an va rb s
  | .ald h an ra => Sys2Proof.Machine.execAld h an ra s
  | .ast h an ra => Sys2Proof.Machine.execAst h an ra s
  | .rnsred h t an => Sys2Proof.Machine.execRnsred h t an s
  | .mreq h rd ra rb => Sys2Proof.Machine.execMreq h rd ra rb s
  | .mcap h rd ra => Sys2Proof.Machine.execMcap h rd ra s
  | .route h rd ra rb => Sys2Proof.Machine.execRoute h rd ra rb s
  | .autbind h dn ra => Sys2Proof.Machine.execAutbind h dn ra s
  | .autunbind h dn => Sys2Proof.Machine.execAutunbind h dn s
  | .autpin h dn ra rb => Sys2Proof.Machine.execAutpin h dn ra rb s
  | .autstk h dn ra rb => Sys2Proof.Machine.execAutstk h dn ra rb s
  | .autstep h p dn vd va vb => Sys2Proof.Machine.execAutstep h p dn vd va vb s
  | .autrun h p dn vd va rb => Sys2Proof.Machine.execAutrun h p dn vd va rb s
  | .maprun h p dn vd va rb rc => Sys2Proof.Machine.execMaprun h p dn vd va rb rc s
  | .mapinit h p dn vd ra => Sys2Proof.Machine.execMapinit h p dn vd ra s
  | .compose h p vd va vb vs => Sys2Proof.Machine.execCompose h p vd va vb vs s
  | .autq h q kd va => Sys2Proof.Machine.execAutq h q kd va s
  | .allowStore h dn ra vb lane => Sys2Proof.Machine.execAllowStore h dn ra vb lane s
  | .allowApply h dn ra vb lane => Sys2Proof.Machine.execAllowApply h dn ra vb lane s
  | .triewalk h p dn vd va rb => Sys2Proof.Machine.execTriewalk h p dn vd va rb s
  | .detok h dn rd ra rb rc => Sys2Proof.Machine.execDetok h dn rd ra rb rc s
  | .copy h rd ra rb => Sys2Proof.Machine.execCopy h rd ra rb s
  | .subTile h rd ra rb => Sys2Proof.Machine.execSubTile h rd ra rb s
  | .unsub h ra => Sys2Proof.Machine.execUnsub h ra s
  | .ringinit h ra rb rc => Sys2Proof.Machine.execRinginit h ra rb rc s
  | .slrsv h rd ra => Sys2Proof.Machine.execSlrsv h rd ra s
  | .slpost h ra rb => Sys2Proof.Machine.execSlpost h ra rb s
  | .sltake h rd ra => Sys2Proof.Machine.execSltake h rd ra s
  | .slfree h ra rb => Sys2Proof.Machine.execSlfree h ra rb s
  | .glaunch h ra => Sys2Proof.Machine.execGlaunch h ra s
  | .nodeadd h rd ra rb => Sys2Proof.Machine.execNodeadd h rd ra rb s
  | .edgeadd h rd ra rb => Sys2Proof.Machine.execEdgeadd h rd ra rb s
  | .nodedone h => Sys2Proof.Machine.execNodedone h s
  | .nodefail h code => Sys2Proof.Machine.execNodefail h code s
  | .gstat h rd ra => Sys2Proof.Machine.execGstat h rd ra s
  | .rloop h ra => Sys2Proof.Machine.execRloop h ra s
  | .rsv h ra => Sys2Proof.Machine.execRsv h ra s
  | .rchk h rd ra => Sys2Proof.Machine.execRchk h rd ra s
  | .rdoneOk h => Sys2Proof.Machine.execRdoneOk h s
  | .rdoneFail h => Sys2Proof.Machine.execRdoneFail h s
  | .slotGrant ctx core => Sys2Proof.Machine.execSlotGrant ctx core s
  | .activeMessage ctx lc => Sys2Proof.Machine.execActiveMessage ctx lc s
  | .windowSpill => Sys2Proof.Machine.execWindowSpill s
  | .windowFill => Sys2Proof.Machine.execWindowFill s
  | .groupClose => Sys2Proof.Machine.execGroupClose s
  | .accessPerform => Sys2Proof.Machine.execAccessPerform s
  | .accessRefusal => Sys2Proof.Machine.execAccessRefusal s
  | .regionRestart => Sys2Proof.Machine.execRegionRestart s
  | .trapDelivery => Sys2Proof.Machine.execTrapDelivery s
  | .preemption => Sys2Proof.Machine.execPreemption s
  | .lineFold ctx line => Sys2Proof.Machine.execLineFold ctx line s
  | .eventDeferredPlace ctx lc => Sys2Proof.Machine.execEventDeferredPlace ctx lc s
  | .phaseStep ctx => Sys2Proof.Machine.execPhaseStep ctx s
  | .clockRebase ctx => Sys2Proof.Machine.execClockRebase ctx s
  | .waitCycleProbe ctx lc => Sys2Proof.Machine.execWaitCycleProbe ctx lc s
  | .poolHoldRelease => Sys2Proof.Machine.execPoolHoldRelease s
  | .waitListRelease ctx page => Sys2Proof.Machine.execWaitListRelease ctx page s
  | .xinvdone ctx lc => Sys2Proof.Machine.execXinvdone ctx lc s
  | .draindone ctx lc => Sys2Proof.Machine.execDraindone ctx lc s
  | .copyChunk hart pick => Sys2Proof.Machine.execCopyChunk hart pick s
  | .copyComplete hart => Sys2Proof.Machine.execCopyComplete hart s
  | .tilePush hart entry pick => Sys2Proof.Machine.execTilePush hart entry pick s
  | .tileReturn hart entry pick => Sys2Proof.Machine.execTileReturn hart entry pick s
  | .subscriptionEnd hart entry => Sys2Proof.Machine.execSubscriptionEnd hart entry s
  | .remoteCommandApply ctx lc => Sys2Proof.Machine.execRemoteCommandApply ctx lc s
  | .graphScan ctx g => Sys2Proof.Machine.execGraphScan ctx g s
  | .nodeReady ctx g node => Sys2Proof.Machine.execNodeReady ctx g node s
  | .nodeDispatch ctx g node => Sys2Proof.Machine.execNodeDispatch ctx g node s
  | .nodeToken ctx g => Sys2Proof.Machine.execNodeToken ctx g s
  | .dominoSweep ctx g => Sys2Proof.Machine.execDominoSweep ctx g s
  | .treeReport ctx g lc => Sys2Proof.Machine.execTreeReport ctx g lc s
  | .graphDone ctx g => Sys2Proof.Machine.execGraphDone ctx g s
  | .windowStart ctx => Sys2Proof.Machine.execWindowStart ctx s
  | .roundEnd ctx => Sys2Proof.Machine.execRoundEnd ctx s
  | .loopComplete ctx => Sys2Proof.Machine.execLoopComplete ctx s
  | .timerArm ctx lc t nan => Sys2Proof.Machine.execTimerArm ctx lc t nan s
  | .timerExpiry ctx lc => Sys2Proof.Machine.execTimerExpiry ctx lc s
  | .place ctx => Sys2Proof.Machine.execPlace ctx s
  | .framemode ctx => Sys2Proof.Machine.execFramemode ctx s
  | .slotresume ctx => Sys2Proof.Machine.execSlotresume ctx s
  | .slotend ctx => Sys2Proof.Machine.execSlotend ctx s
  | .keygen ctx => Sys2Proof.Machine.execKeygen ctx s
  | .keyfree ctx => Sys2Proof.Machine.execKeyfree ctx s
  | .attest ctx => Sys2Proof.Machine.execAttest ctx s
  | .controlSeal ctx => Sys2Proof.Machine.execControlSeal ctx s
  | .controlEnd ctx => Sys2Proof.Machine.execControlEnd ctx s
  | .requestComplete ctx => Sys2Proof.Machine.execRequestComplete ctx s
  | .hello b => Sys2Proof.Machine.execHello b s
  | .finish session signature => Sys2Proof.Machine.execFinish session signature s
  | .create session seq rec0 text data ls => Sys2Proof.Machine.execCreate session seq rec0 text data ls s
  | .lock session seq ep ctx rbase rlen defcore => Sys2Proof.Machine.execLock session seq ep ctx rbase rlen defcore s
  | .unbind session seq ep => Sys2Proof.Machine.execUnbind session seq ep s
  | .manageEnd session seq ctx => Sys2Proof.Machine.execManageEnd session seq ctx s
  | .manageSeal session seq ctx => Sys2Proof.Machine.execManageSeal session seq ctx s
  | .resume session seq ctx => Sys2Proof.Machine.execResume session seq ctx s
  | .health session seq => Sys2Proof.Machine.execHealth session seq s
  | .cert session seq => Sys2Proof.Machine.execCert session seq s
  | .sessionFail session cause => Sys2Proof.Machine.execSessionFail session cause s
  | .msg ep dst tag nan words => Sys2Proof.Machine.execMsg ep dst tag nan words s
  | .write ep va bytes => Sys2Proof.Machine.execWrite ep va bytes s
  | .read ep va len => Sys2Proof.Machine.execRead ep va len s
  | .arbiterGrant => Sys2Proof.Machine.execArbiterGrant s
  | .class1Alarm cause coissueOff => Sys2Proof.Machine.execClass1Alarm cause coissueOff s
  | .class2Alarm => Sys2Proof.Machine.execClass2Alarm s
  | .standbyPromotion => Sys2Proof.Machine.execStandbyPromotion s
  | .lastingFault kind number event addr retried => Sys2Proof.Machine.execLastingFault kind number event addr retried s
  | .laneRemap stack => Sys2Proof.Machine.execLaneRemap stack s
  | .powerReset nutcracker harts arbiter => Sys2Proof.Machine.execPowerReset nutcracker harts arbiter s
  | .class1AlarmClear => Sys2Proof.Machine.execClass1AlarmClear s
  | .droppedPacket port => Sys2Proof.Machine.execDroppedPacket port s

end Sys2Proof.Machine
end

