-- ==== Sys2Proof/Machine/Schedule.lean ====
section
/-! DEFINITION. Which step comes next, and the passing of time (05 R95, R113; 07 R165, R179; 22 R397, R408; log 1, log 8). -/

namespace Sys2Proof.Machine

/-- A row of the table that is a step of its own: it has no encoding, and it is not the effect of a store (R397). -/
def isStep (i : Instr) : Bool :=
  match i with
  | .timerArm _ _ _ _ => false
  | _ => i.raw.isNone

/-- A matrix, row or whole-accumulator instruction (R239), and an instruction of the automaton unit (R261). -/
def usesAcc (i : Instr) : Bool := i.raw.any (fun r => decide (0x0C0 ≤ r.op) && decide (r.op ≤ 0x0CA))
def usesAu (i : Instr) : Bool := i.raw.any (fun r => decide (0x0E0 ≤ r.op) && decide (r.op ≤ 0x0F2))

/-- The unit of the physical core takes an instruction that has joined its group, of which `n` long instructions had issued before (R239,
R261). -/
def State.took (s : State) (i : Instr) (n : Nat) : State :=
  if n < s.slot.longs.length then
    if usesAcc i then s.unitTake s.focus.ctx s.focus.lc else if usesAu i then s.unitTakeAu s.focus.ctx s.focus.lc else s
  else s

/-- Executes an instruction for the slot in focus (R166, R239). -/
def runInstr (i : Instr) (s : State) : Host.Outcome State Fault Refusal :=
  match exec i s with
  | .next t => .next (t.took i s.slot.longs.length)
  | .fault r => .fault r
  | .refused r => .refused r

/-- Issues the next instruction of slot `f`, when its turn has come (R46, R95, R166). -/
def issue (s : State) (f : Focus) : Host.Outcome State Fault Refusal :=
  let s0 : State := { s with focus := f }
  if !s0.turn f then .next s0
  else
    match s0.fetch with
    | (s1, .instr i) => runInstr i (s1.issued f)
    | (s1, .trap k a) => .next (s1.takeTrap (s1.fault k a))
    | (s1, .refused k a) => .next (s1.fetchFault k a)
    | (s1, .none) => .next s1

/-- Takes a step of the table for slot `f`. -/
def act (s : State) (f : Focus) (i : Instr) : Host.Outcome State Fault Refusal :=
  let s0 : State := { s with focus := f }
  if isStep i then exec i s0 else .next s0

/-- The outcome of a step from `s` with the accumulator frames kept (R239). -/
def synced (s : State) (o : Host.Outcome State Fault Refusal) : Host.Outcome State Fault Refusal :=
  match o with
  | .next t => .next (s.syncFrames t)
  | .fault r => .fault r
  | .refused r => .refused r

/-- The step that a choice names. -/
def take (s : State) : Choice → Host.Outcome State Fault Refusal
  | .issue f => synced s (issue s f)
  | .act f i => synced s (act s f i)

/-! ### Time (log 8) -/

/-- Cycles in a microsecond (01, 24 R424). -/
def cyclesPerUs : Nat := 3300

/-- A microsecond passes for the timers and, each second, for the sessions (R397, R408). -/
def State.microsecond (s : State) : State :=
  let second := decide ((s.timeUs + 1) % 1000000 = 0)
  { s with
    timeUs := s.timeUs + 1
    ctxs := s.ctxs.map (fun (e : Nat × Ctx) => (e.1, { e.2 with
      timers := e.2.timers.map (fun (t : Nat × TimerSt) => (t.1, { t.2 with left := t.2.left - 1 })) }))
    sessions := if second then s.sessions.map (fun (e : Nat × Session) => (e.1, { e.2 with left := e.2.left - 1 })) else s.sessions }

/-- A slot counts each cycle in which it holds a continuation and runs no supervisor code (R113). -/
def Slot.count (t : Slot) : Slot := if t.mode ≠ .free ∧ t.sup = false then { t with sliceCount := t.sliceCount + 1 } else t

/-- One cycle passes (log 8). -/
def State.elapse (s : State) : State :=
  let s1 : State := { s with
    cycle := s.cycle + 1, draws := s.draws + 1, slots := s.slots.map (fun (e : Nat × Slot) => (e.1, e.2.count)) }
  if s1.cycle % cyclesPerUs = 0 then s1.microsecond else s1

/-! ### The machine's own choice (log 1) -/

/-- The issue that a physical core makes in a cycle (R95). -/
def State.barrelIssue (s : State) (ctx core : Nat) : List Choice := (s.nextIssue ctx core).toList.map .issue

/-- The steps of slot `f`. -/
def slotSteps (f : Focus) : List Choice :=
  [Instr.groupClose, .accessPerform, .accessRefusal, .windowSpill, .windowFill, .trapDelivery, .regionRestart, .preemption,
   .poolHoldRelease].map (.act f)

/-- The steps of a graph. -/
def graphSteps (ctx gi : Nat) (g : Graph) : List Instr :=
  List.flatten [[.graphScan ctx gi, .nodeToken ctx gi, .dominoSweep ctx gi, .graphDone ctx gi], (g.due ++ g.moves.map (·.node)).map (.nodeReady ctx gi ·),
    g.dispatch.map (.nodeDispatch ctx gi ·), (List.range 768).map (.treeReport ctx gi ·)]

/-- The logical cores for which an event may be due, placed or not: their mailboxes hold what comes (R12, R189). -/
def Ctx.awaiting (c : Ctx) : List Nat :=
  c.cr.supcore :: c.deferred.map (·.dst) ++ c.cwatches.map (·.lc) ++ c.drains.map (·.lc) ++ c.xinvs.map (·.lc)

/-- The steps of a context's hardware. -/
def State.ctxSteps (s : State) (ctx : Nat) (c : Ctx) : List Instr :=
  let mine := s.members ctx
  let hosts := (mine.map (s.physCore ctx)).eraseDups
  let boxes := (mine ++ c.awaiting).eraseDups
  List.flatten [hosts.map (.slotGrant ctx ·), mine.map (.activeMessage ctx ·), boxes.map (.eventDeferredPlace ctx ·),
    mine.map (.waitCycleProbe ctx ·), boxes.map (.xinvdone ctx ·), boxes.map (.draindone ctx ·),
    mine.map (.remoteCommandApply ctx ·), c.timers.map (fun t => .timerExpiry ctx t.1),
    ((c.partials.map (·.line)).eraseDups).map (.lineFold ctx ·), (c.xinvs.flatMap (·.copies)).map (.waitListRelease ctx ·),
    [.phaseStep ctx, .clockRebase ctx, .windowStart ctx, .roundEnd ctx, .loopComplete ctx, .place ctx, .framemode ctx, .slotresume ctx,
      .slotend ctx, .keygen ctx, .keyfree ctx, .attest ctx, .controlSeal ctx, .controlEnd ctx, .requestComplete ctx],
    c.graphs.flatMap (fun g => graphSteps ctx g.1 g.2)]

/-- The steps of a stream hart. -/
def hartSteps (h : Nat) (x : Hart) : List Instr :=
  [.copyChunk h 0, .copyComplete h] ++
  x.subs.flatMap (fun e => [.tilePush h e.1 0, .tileReturn h e.1 0, .subscriptionEnd h e.1])

/-- The sessions whose lifetime has passed, or that have come to the limit of packets (R408). -/
def State.expiredSessions (s : State) : List Instr :=
  (s.sessions.filter (fun e => decide (e.2.stage = .ready))).flatMap (fun e => [.sessionFail e.1 .lifetime, .sessionFail e.1 .packets])

/-- The steps of everything but the slots, in no order that matters. -/
def State.hardwareSteps (s : State) : List Instr :=
  (s.ctxs.flatMap (fun (e : Nat × Ctx) => if e.2.status = .live then s.ctxSteps e.1 e.2 else [])) ++
  s.harts.flatMap (fun (e : Nat × Hart) => hartSteps e.1 e.2) ++ s.expiredSessions ++ s.requests.take 1 ++ [.standbyPromotion] ++
  ((s.lanePend.map (fun (e : Nat × Nat) => e.1 / 2056)).eraseDups).map .laneRemap ++
  s.endpoints.flatMap (fun (e : Nat × Endpoint) => (e.2.run.map (HostRun.instr · e.1)).toList)

/-- Every step that the machine might take of itself. -/
def State.candidates (s : State) : List Choice :=
  s.ctxs.flatMap (fun (e : Nat × Ctx) =>
    if e.2.status = .live then ((s.members e.1).map (s.physCore e.1)).eraseDups.flatMap (s.barrelIssue e.1) else []) ++
  s.slots.flatMap (fun (e : Nat × Slot) => if e.2.mode ≠ .free then slotSteps (focusOf e.1) else []) ++
  s.hardwareSteps.map (Choice.act {})

/-- `l` from position `k` on, then from its start. -/
def rotated {α : Type} (k : Nat) (l : List α) : List α := l.drop (k % l.length) ++ l.take (k % l.length)

/-- A choice changes the state beyond the focus. -/
def State.moves (s : State) (c : Choice) : Bool :=
  match take s c with
  | .next s' => decide ({ s' with focus := s.focus } ≠ s)
  | _ => false

/-- The machine's own choice: the first of its steps that changes the state, beginning at a place that goes round with the cycles, so
that no step waits for ever (R179). -/
def State.auto (s : State) : Option Choice := (rotated s.cycle s.candidates).find? s.moves

end Sys2Proof.Machine
end

