-- ==== Sys2Proof/Machine/Step.lean ====
section
/-! DEFINITION. One step of the machine (07 R165): the head of the agenda, or the machine's own choice; then a cycle passes. -/

namespace Sys2Proof.Machine

/-- The outcome of a step after a cycle has passed. -/
def after (o : Host.Outcome State Fault Refusal) : Host.Outcome State Fault Refusal :=
  match o with
  | .next s => .next s.elapse
  | .fault r => .fault r
  | .refused r => .refused r

/-- One step (R165). -/
def step (s : State) : Host.Outcome State Fault Refusal :=
  match s.agenda with
  | c :: r => after (take { s with agenda := r } c)
  | [] =>
    match s.auto with
    | some c => after (take s c)
    | none => .next s.elapse

/-- `s` with the instruction whose bits are `w` where the next step fetches. -/
def State.withFetchWord (s : State) (_nbits w : Nat) : State := s.placeCode (leBytes 16 w)

end Sys2Proof.Machine
end

