-- ==== Sys2Proof/Safety.lean ====
section
/-! DEFINITION. What counts as a safe run, in the terms that claims use: no step stops, every table of the state keeps its canonical
form, and what every step keeps. -/

namespace Sys2Proof.Machine

/-- The machine goes from `s` to `s'` in one step. -/
def Steps (s s' : State) : Prop := step s = .next s'

/-- `s'` is reached from `s` by steps. -/
inductive Reaches : State → State → Prop where
  | refl (s : State) : Reaches s s
  | tail (s t u : State) : Reaches s t → Steps t u → Reaches s u

/-- A step from `s` stops the machine. -/
def Stops (s : State) : Prop := (∃ r, step s = .fault r) ∨ ∃ r, step s = .refused r

/-- A run from `s` is safe: it never stops. -/
def SafeFrom (s : State) : Prop := ∀ t, Reaches s t → ¬ Stops t

/-- `P` holds of every state that a step reaches from a state of which it holds. -/
def Kept (P : State → Prop) : Prop := ∀ s s', P s → Steps s s' → P s'

/-- Memory has its canonical form: addresses strictly rising, and no byte listed that an unlisted address reads as. -/
def State.MemCanonical (s : State) : Prop := Mem.wf s.mem = true

/-- Nothing differs between `s` and `t` but the slot in focus of `s`. -/
def OnlySlot (s t : State) : Prop :=
  ({ t with slots := [] } : State) = { s with slots := [] } ∧ ∀ f : Focus, f.key ≠ s.focus.key → t.slotAt f = s.slotAt f

/-- Every byte of memory reads the same. -/
def SameMemory (s t : State) : Prop := ∀ a, Mem.read t.mem a = Mem.read s.mem a

/-- Every byte of memory reads the same but the `n` bytes from key `a`. -/
def SameMemoryBut (a n : Nat) (s t : State) : Prop := ∀ x, x < a ∨ a + n ≤ x → Mem.read t.mem x = Mem.read s.mem x

/-- The slot in focus has moved past an instruction that ends its group if `h` says so (R43, R47). -/
def Past (s t : State) (h : Hd) : Prop :=
  t.slot.pc = nextPc s.slot.pc h.len ∧ t.slot.parked = (h.s && !t.slot.longs.isEmpty)

/-- A short instruction wrote scalar register `rd` and nothing else (R21, R99). -/
def WroteX (s t : State) (h : Hd) (rd : Nat) (v : Word) : Prop :=
  OnlySlot s t ∧ SameMemory s t ∧ Past s t h ∧ (∀ q, t.slot.rx q = if q = rd ∧ rd ≠ 0 then v else s.slot.rx q) ∧
  ({ t.slot with x := [], pc := 0, parked := false } : Slot) = { s.slot with x := [], pc := 0, parked := false }

/-- A short instruction wrote predicate register `kd` and nothing else. -/
def WroteK (s t : State) (h : Hd) (kd : Nat) (v : PReg) : Prop :=
  OnlySlot s t ∧ SameMemory s t ∧ Past s t h ∧ (∀ q, t.slot.rk q = if q = kd ∧ kd ≠ 0 then v else s.slot.rk q) ∧
  ({ t.slot with k := [], pc := 0, parked := false } : Slot) = { s.slot with k := [], pc := 0, parked := false }

/-- The slot in focus can issue a long instruction of header `h` (R46 steps 7 and 8): no stopped instruction waits to rejoin, the group
has room, it carries S where the instruction needs it, and the slot runs supervisor code where the instruction is privileged. -/
def CanIssueLong (s : State) (h : Hd) (needS priv : Bool) : Prop :=
  s.slot.stopped = [] ∧ s.slot.longs.length < 8 ∧ (needS = true → h.s = true) ∧ (priv = true → s.slot.sup = true)

/-- A long instruction was added to the open group of the slot in focus with what `j` says, and nothing else changed (R49, R164). -/
def Added (s t : State) (h : Hd) (j : Job) : Prop :=
  OnlySlot s t ∧ SameMemory s t ∧ Past s t h ∧
  (∃ id word ra rb, (∀ l ∈ s.slot.longs, l.id < id) ∧
    t.slot.longs = s.slot.longs ++ [{ id := id, pc := s.slot.pc, word := word, ra := ra, rb := rb, done := j.task.isNone, outs := j.outs, flags := j.flags }] ∧
    t.slot.tasks = s.slot.tasks ++ j.task.toList.map (fun op =>
      { id := id, pc := s.slot.pc, ea := j.ea, remote := j.remote, nan := s.slot.nanread, cycle := s.cycle, op := op })) ∧
  ({ t.slot with longs := [], tasks := [], rsrN := 0, pc := 0, parked := false } : Slot) =
    { s.slot with longs := [], tasks := [], rsrN := 0, pc := 0, parked := false }

/-- The slot in focus holds an open group that the instruction about to issue begins and ends: no long instruction, no access, no trap
waiting, nothing stopped. -/
def Fresh (s : State) : Prop :=
  s.slot.mode = .running ∧ s.slot.stopped = [] ∧ s.slot.longs = [] ∧ s.slot.tasks = [] ∧ s.slot.pend = none ∧ s.slot.stopReq = .none ∧
  s.slot.wait = .none

/-- The slot in focus after a group of one instruction with header `h` has issued and closed: its registers read as `v`, `x` and `k` give,
the flags `fl` stand beside the old ones, its PC is past the instruction, and the rest of it is as before but for the group's own
bookkeeping (R21, R43, R169). -/
def ClosedSlot (s t : State) (h : Hd) (v : Nat → VReg) (x : Nat → Word) (k : Nat → PReg) (fl : FFlags) : Prop :=
  (∀ q, t.slot.rv q = v q) ∧ (∀ q, t.slot.rx q = x q) ∧ (∀ q, t.slot.rk q = k q) ∧
  t.slot.fflags = s.slot.fflags ||| fl ∧ t.slot.pc = nextPc s.slot.pc h.len ∧ t.slot.longs = [] ∧ t.slot.tasks = [] ∧ t.slot.parked = false ∧
  ({ t.slot with v := [], x := [], k := [], fflags := 0, pc := 0, longs := [], tasks := [], rseq := 0, rsrN := 0, progress := 0, parked := false } : Slot) =
    { s.slot with v := [], x := [], k := [], fflags := 0, pc := 0, longs := [], tasks := [], rseq := 0, rsrN := 0, progress := 0, parked := false }

/-- A group of one long instruction with header `h` issued and closed, and nothing but the slot in focus changed (R21, R169). -/
def Closed (s t : State) (h : Hd) (v : Nat → VReg) (x : Nat → Word) (k : Nat → PReg) (fl : FFlags) : Prop :=
  OnlySlot s t ∧ SameMemory s t ∧ ClosedSlot s t h v x k fl

/-- Register `r` set to `a`, the others as `f` gives them; x0 and k0 are never written. -/
def setTo {α : Type} (r : Nat) (a : α) (f : Nat → α) : Nat → α := fun q => if q = r then a else f q
def setX (r : Nat) (a : Word) (f : Nat → Word) : Nat → Word := fun q => if q = r ∧ r ≠ 0 then a else f q
def setK (r : Nat) (a : PReg) (f : Nat → PReg) : Nat → PReg := fun q => if q = r ∧ r ≠ 0 then a else f q

/-- The slot in focus issues `i` and its group closes. -/
def Issues (i : Instr) (s t : State) : Prop := ∃ a, exec i s = .next a ∧ exec .groupClose a = .next t

/-- Any number of steps on the oldest access of the slot in focus (R167). -/
inductive Works : State → State → Prop where
  | none (s : State) : Works s s
  | more (s t u : State) : exec .accessPerform s = .next t → Works t u → Works s u

/-- The slot in focus issues `i`, what `i` asks of memory and of the units is performed, and the group closes. -/
def Runs (i : Instr) (s t : State) : Prop := ∃ a b, exec i s = .next a ∧ Works a b ∧ exec .groupClose b = .next t

/-- The slot in focus, at a position of R94, is not paused: its logical core has arrived at no barrier, and every clock of its context stands
well before a rebase (R180, R181). -/
def Unpaused (s : State) : Prop :=
  s.focus.pos < 9 ∧ s.me.arrivals = [] ∧ ∀ p, (s.clock s.focus.ctx p).toNat + 2 ^ 40 < 2 ^ 47

/-- A context in which an access meets nothing but the checks of memory: the slot is not paused, and there is free mode, no partial
slot, no pending `cwatch`, no overflow of the notification queue. -/
def Calm (s : State) : Prop :=
  Unpaused s ∧ s.here.cr.det = false ∧ s.here.partials = [] ∧ s.here.cwatches = [] ∧ s.here.ovfPending = false

/-- Every byte of memory reads the same where no suspended continuation waits at logical core `lc`: one that a message queues has its queue
link written (R103). -/
def SameMemoryAt (ctx lc : Nat) (s t : State) : Prop := (∀ q ∈ (s.core ctx lc).suspended, q.image = true) → SameMemory s t

/-- No slot entry of a registered ring lies in `n` bytes from offset `o` of the store of logical core `c` (R311). -/
def State.clearOfRings (s : State) (c o n : Nat) : Bool :=
  (s.core s.focus.ctx c).rings.all (fun base => decide (o + n ≤ base + 64) || decide (base + 192 ≤ o))

/-- The `n` bytes from address `a` pass every check of an access of `need` by the slot in focus, whatever free values are drawn, and stand
in memory from key `base` up: no host window, no watched word of another store, no slot entry of a ring, no page with an access count, not the
control block for supervisor code. -/
def Mapped (s : State) (need : Need) (a : Word) (n base : Nat) : Prop :=
  ∃ (p : Place) (l : Option Nat) (o : Nat),
    (match p with
     | .glob va => l = none ∧ o = va
     | .ls c off => l = some c ∧ o = off) ∧
    (∀ k, k < n → placeOf s.focus.lc (a + BitVec.ofNat 64 k) = some (p.plus k)) ∧
    (∀ d k m, 0 < m → k + m ≤ n →
      ({ s with draws := d } : State).checkPiece (s.who s.slot.nanread) need (p.plus k) m = .ok [{ key := base + k, len := m, off := o + k, ls := l }]) ∧
    (base + n ≤ winBase ∨ winTop ≤ base) ∧
    (l = none → (s.slot.sup = true → overlap o n s.here.cr.ccb.toNat 8192 = false) ∧
      ∀ k m, k < n → s.leaf s.focus.ctx (o + k) = .ok m → m.acnt = 0) ∧
    (∀ c, l = some c → s.clearOfRings c o n = true ∧ (c ≠ s.focus.lc → (s.core s.focus.ctx c).watch = []))

/-- Nothing differs between `s` and `t` but the slot in focus, memory, and what every access leaves: the clocks of the context, the
record of stores into code, the versions of GUARDED lines, the free values drawn. -/
def OnlyAccess (s t : State) : Prop :=
  ({ t with slots := [], ctxs := [], mem := [], codeLog := [], versions := [], draws := 0 } : State) =
    { s with slots := [], ctxs := [], mem := [], codeLog := [], versions := [], draws := 0 } ∧
  (∀ f : Focus, f.key ≠ s.focus.key → t.slotAt f = s.slotAt f) ∧ (∀ c, c ≠ s.focus.ctx → t.ctxOf c = s.ctxOf c) ∧
  ({ t.here with clocks := [] } : Ctx) = { s.here with clocks := [] }

end Sys2Proof.Machine
end

