-- ==== Sys2Proof/Certificates/Slice0/Obligations.lean ====
section
/-! DEFINITION. The statements for the provers, with the tables of results that they speak of, written from the rules cited at each. -/

namespace Sys2Proof.Machine

/-! ### Tables of results -/

/-- The value that an instruction of R119 and R120 gives for operands `a` and `b`. -/
def arithResult : Instr → Option (Hd × Reg × Reg × Src × (Word → Word → Word))
  | .add h rd ra b => some (h, rd, ra, b, fun a b => a + b)
  | .sub h rd ra b => some (h, rd, ra, b, fun a b => a - b)
  | .mul h rd ra b => some (h, rd, ra, b, fun a b => BitVec.ofNat 64 (a.toNat * b.toNat))
  | .mulh h rd ra b => some (h, rd, ra, b, fun a b => BitVec.ofInt 64 (a.toInt * b.toInt / 2 ^ 64))
  | .mulhu h rd ra b => some (h, rd, ra, b, fun a b => BitVec.ofNat 64 (a.toNat * b.toNat / 2 ^ 64))
  | .div h rd ra b => some (h, rd, ra, b, fun a b => if b = 0 then BitVec.allOnes 64 else BitVec.ofInt 64 (a.toInt.tdiv b.toInt))
  | .divu h rd ra b => some (h, rd, ra, b, fun a b => if b = 0 then BitVec.allOnes 64 else BitVec.ofNat 64 (a.toNat / b.toNat))
  | .rem h rd ra b => some (h, rd, ra, b, fun a b => if b = 0 then a else BitVec.ofInt 64 (a.toInt.tmod b.toInt))
  | .remu h rd ra b => some (h, rd, ra, b, fun a b => if b = 0 then a else BitVec.ofNat 64 (a.toNat % b.toNat))
  | .and h rd ra b => some (h, rd, ra, b, fun a b => a &&& b)
  | .or h rd ra b => some (h, rd, ra, b, fun a b => a ||| b)
  | .xor h rd ra b => some (h, rd, ra, b, fun a b => a ^^^ b)
  | .andn h rd ra b => some (h, rd, ra, b, fun a b => a &&& ~~~b)
  | .orn h rd ra b => some (h, rd, ra, b, fun a b => a ||| ~~~b)
  | .shl h rd ra b => some (h, rd, ra, b, fun a b => BitVec.ofNat 64 (a.toNat * 2 ^ (b.toNat % 64)))
  | .shr h rd ra b => some (h, rd, ra, b, fun a b => BitVec.ofNat 64 (a.toNat / 2 ^ (b.toNat % 64)))
  | .sra h rd ra b => some (h, rd, ra, b, fun a b => BitVec.ofInt 64 (a.toInt / 2 ^ (b.toNat % 64)))
  | .rol h rd ra b => some (h, rd, ra, b, fun a b => BitVec.ofNat 64 (a.toNat * 2 ^ (b.toNat % 64) + a.toNat * 2 ^ (b.toNat % 64) / 2 ^ 64))
  | .ror h rd ra b => some (h, rd, ra, b, fun a b => BitVec.ofNat 64 ((a.toNat + 2 ^ 64 * a.toNat) / 2 ^ (b.toNat % 64)))
  | .min h rd ra b => some (h, rd, ra, b, fun a b => if a.toInt ≤ b.toInt then a else b)
  | .max h rd ra b => some (h, rd, ra, b, fun a b => if a.toInt ≤ b.toInt then b else a)
  | .minu h rd ra b => some (h, rd, ra, b, fun a b => if a.toNat ≤ b.toNat then a else b)
  | .maxu h rd ra b => some (h, rd, ra, b, fun a b => if a.toNat ≤ b.toNat then b else a)
  | .cmp h .eq rd ra b => some (h, rd, ra, b, fun a b => if a = b then 1 else 0)
  | .cmp h .ne rd ra b => some (h, rd, ra, b, fun a b => if a = b then 0 else 1)
  | .cmp h .lt rd ra b => some (h, rd, ra, b, fun a b => if a.toInt < b.toInt then 1 else 0)
  | .cmp h .ge rd ra b => some (h, rd, ra, b, fun a b => if b.toInt ≤ a.toInt then 1 else 0)
  | .cmp h .le rd ra b => some (h, rd, ra, b, fun a b => if a.toInt ≤ b.toInt then 1 else 0)
  | .cmp h .gt rd ra b => some (h, rd, ra, b, fun a b => if b.toInt < a.toInt then 1 else 0)
  | .cmp h .ltu rd ra b => some (h, rd, ra, b, fun a b => if a.toNat < b.toNat then 1 else 0)
  | .cmp h .geu rd ra b => some (h, rd, ra, b, fun a b => if b.toNat ≤ a.toNat then 1 else 0)
  | .cmp h .leu rd ra b => some (h, rd, ra, b, fun a b => if a.toNat ≤ b.toNat then 1 else 0)
  | .cmp h .gtu rd ra b => some (h, rd, ra, b, fun a b => if b.toNat < a.toNat then 1 else 0)
  | _ => none

/-- The value of `src`: a register, with x0 reading zero, or the immediate (R119). -/
def operand (t : Slot) : Src → Word
  | .reg r => t.rx r.val
  | .imm i => i

/-! ### Vocabulary of the statements -/

/-- Lane predicate of element `j` of width `w`: the bit of the lane that holds it, complemented where KN is set (R40, R212). -/
def onLane (t : Slot) (p : Pred) (w j : Nat) : Bool := (t.rk p.k.val).getLsbD (w * j / 32) != p.kn

/-- The number that a cell of memory of `n` bytes holds, widened to a register: zero-extended, or from its sign bit (R157). -/
def widened (n : Nat) (zext : Bool) (v : Nat) : Word := if zext then BitVec.ofNat 64 v else (BitVec.ofNat (8 * n) v).signExtend 64

/-- The value that an atomic or integer reduction of `n` bytes leaves where `old` stood (R202, R204). -/
def atomicResult (op : AmoOp) (n old b : Nat) : Nat :=
  let x := BitVec.ofNat (8 * n) old
  let y := BitVec.ofNat (8 * n) b
  (match op with
    | .swap => y
    | .rop .add => x + y
    | .rop .and => x &&& y
    | .rop .or => x ||| y
    | .rop .xor => x ^^^ y
    | .rop .min => if x.toInt ≤ y.toInt then x else y
    | .rop .max => if x.toInt ≤ y.toInt then y else x
    | .rop .minu => if x.toNat ≤ y.toNat then x else y
    | .rop .maxu => if x.toNat ≤ y.toNat then y else x).toNat

/-- The value that a `red` of type `ty` leaves where `old` stood (R204). -/
def reduced (op : ROp) (ty : ETy) (old b : Nat) : Nat :=
  match ty with
  | .i32 => atomicResult (.rop op) 4 old b
  | .i64 => atomicResult (.rop op) 8 old b
  | _ => (redFn op ty old b).1

/-- The number by which the line rule of R127 counts an address: its offset in a local store, else itself. -/
def lineOffset (lc : Nat) (ea : Word) : Nat :=
  match placeOf lc ea with
  | some (.ls _ o) => o
  | _ => ea.toNat

/-- The address of the first byte of the line of 192 bytes that holds `ea`. -/
def lineStart (lc : Nat) (ea : Word) : Word := ea - BitVec.ofNat 64 (lineOffset lc ea % 192)

/-- The slot in focus has moved to `a`, and nothing else of it or of the machine has changed. -/
def MovedTo (s t : State) (h : Hd) (a : Word) : Prop :=
  OnlySlot s t ∧ SameMemory s t ∧ t.slot.pc = a ∧ t.slot.parked = (h.s && !s.slot.longs.isEmpty) ∧
  ({ t.slot with pc := 0, parked := false } : Slot) = { s.slot with pc := 0, parked := false }

/-- A region of the slot in focus has begun at `pc` with inputs `mask`: bit 0 of the mask is dropped, request numbers restart, and the
stores of others into code so far are seen (R23, R45, R80, R149). -/
def Began (s t : State) (pc : Word) (mask : BitVec 32) : Prop :=
  t.slot.pc = pc ∧ t.slot.region = pc ∧ t.slot.rmask = mask &&& 0xFFFFFFFE ∧ t.slot.rseq = 0 ∧ t.slot.rsrN = 0 ∧
  t.slot.viewAt = s.codeLog.length

/-- A transfer may go to `a` (R43, R123). -/
def goodTarget (a : Word) : Prop := a.toNat % 4 = 0 ∧ a.toNat % 32 ≠ 28 ∧ a.toNat < 2 ^ 56

/-- The truth of a condition (R54, R121). -/
def condTrue (c : Cond) (a b : Word) : Prop :=
  match c with
  | .eq => a = b
  | .ne => a ≠ b
  | .lt => a.toInt < b.toInt
  | .ge => b.toInt ≤ a.toInt
  | .le => a.toInt ≤ b.toInt
  | .gt => b.toInt < a.toInt
  | .ltu => a.toNat < b.toNat
  | .geu => b.toNat ≤ a.toNat
  | .leu => a.toNat ≤ b.toNat
  | .gtu => b.toNat < a.toNat

/-- The slot waits for nothing: it may issue an instruction that ends its region at once. -/
def Idle (s : State) : Prop := s.slot.stopped = [] ∧ s.slot.longs = [] ∧ s.slot.tasks = []

end Sys2Proof.Machine

open Sys2Proof Sys2Proof.Machine

/-- R123, R48, R51, R34: `br`, `jmp` and `jmpr` go to their target when the condition holds, else past themselves; `nop` and, with no enabled
flag raised, `trapf` go past themselves. None changes anything else. R43: the next instruction follows at once, also where one ends at byte 31
of its fetch block, but an end at byte 27 skips the block's tail word. -/
def Obligations.ControlFlow : Prop :=
  (∀ (h : Hd) (c : Cond) (ra rb : Reg) (off : Word) (s : State), s.slot.stopped = [] →
       let past := nextPc s.slot.pc h.len
       (∃ t, exec (.nop h) s = .next t ∧ MovedTo s t h past) ∧
       (s.slot.fflags &&& s.me.fenable = 0 → ∃ t, exec (.trapf h) s = .next t ∧ MovedTo s t h past) ∧
       (h.s = true →
         (condTrue c (s.slot.rx ra.val) (s.slot.rx rb.val) → goodTarget (s.slot.pc + off) →
           ∃ t, exec (.br h c ra rb off) s = .next t ∧ MovedTo s t h (s.slot.pc + off)) ∧
         (¬ condTrue c (s.slot.rx ra.val) (s.slot.rx rb.val) → ∃ t, exec (.br h c ra rb off) s = .next t ∧ MovedTo s t h past) ∧
         (goodTarget (s.slot.pc + off) → ∃ t, exec (.jmp h off) s = .next t ∧ MovedTo s t h (s.slot.pc + off)) ∧
         (goodTarget (s.slot.rx ra.val) → ∃ t, exec (.jmpr h ra) s = .next t ∧ MovedTo s t h (s.slot.rx ra.val)))) ∧
  (∀ (pc : Word) (l : Len), pc.toNat % 4 = 0 → pc.toNat % 32 + l.bytes ≤ 32 → pc.toNat < 2 ^ 56 →
       (nextPc pc l).toNat = pc.toNat + l.bytes + (if pc.toNat % 32 + l.bytes = 28 then 4 else 0) ∧ (nextPc pc l).toNat % 32 ≠ 28)

/-- R46 steps 7 and 8, R48, R116, R331, R43, R253, R374: an instruction that its slot may not issue takes its trap, and does nothing else: a
privileged one (`eret`, `mcap`, an access of a privileged register) in user code PROTECTION, one that must end its group without S
ILLEGAL_GROUP, a transfer to a refused target ILLEGAL_FORMAT with the target as address, `rdone` outside an iteration PROTECTION, `trapf`
with an enabled flag raised ARITH with the flags as reason. That a call to a refused target reports the target also where it could go no deeper
or has no spill place is the model's choice (log 62). -/
def Obligations.IssueTraps : Prop :=
  ∀ (h : Hd) (c : Cond) (ra rb rd : Reg) (off : Word) (r : SysReg) (mask : BitVec 32) (s : State), s.slot.stopped = [] →
    (s.slot.sup = false →
      exec (.eret h) s = .next (s.takeTrap (s.fault .protection 0)) ∧ exec (.mcap h rd ra) s = .next (s.takeTrap (s.fault .protection 0)) ∧
      ((r = .slice ∨ r = .slicestat ∨ r = .trapvec ∨ r = .spill) →
        exec (.sysr h rd r) s = .next (s.takeTrap (s.fault .protection 0)) ∧
        exec (.sysw h r ra) s = .next (s.takeTrap (s.fault .protection 0)) ∧
        exec (.sysx h rd ra r) s = .next (s.takeTrap (s.fault .protection 0)))) ∧
    (h.s = false → ∀ i ∈ ([.br h c ra rb off, .jmp h off, .jmpr h ra, .call h off, .callr h ra, .ret h, .idem h mask, .trap h 0, .brk h 0,
        .yield h, .quit h, .recv h .msg none rd mask, .recvKeep h .msg none rd, .migrate h ra mask, .rdoneOk h, .rdoneFail h] : List Instr),
      exec i s = .next (s.takeTrap (s.fault .illegalGroup 0))) ∧
    (h.s = true → s.slot.longs.length < 8 → (s.slot.iter = none ∨ s.here.liveLoop = none ∨ s.focus.pos = 8) →
      exec (.rdoneOk h) s = .next (s.takeTrap (s.fault .protection 0)) ∧ exec (.rdoneFail h) s = .next (s.takeTrap (s.fault .protection 0))) ∧
    (h.s = true → ¬ goodTarget (s.slot.pc + off) →
      exec (.jmp h off) s = .next (s.takeTrap (s.fault .illegalFormat (s.slot.pc + off))) ∧
      exec (.call h off) s = .next (s.takeTrap (s.fault .illegalFormat (s.slot.pc + off)))) ∧
    (h.s = true → ¬ goodTarget (s.slot.rx ra.val) →
      exec (.jmpr h ra) s = .next (s.takeTrap (s.fault .illegalFormat (s.slot.rx ra.val))) ∧
      exec (.callr h ra) s = .next (s.takeTrap (s.fault .illegalFormat (s.slot.rx ra.val)))) ∧
    (h.s = true → ¬ goodTarget (s.slot.pc + off) → condTrue c (s.slot.rx ra.val) (s.slot.rx rb.val) →
      exec (.br h c ra rb off) s = .next (s.takeTrap (s.fault .illegalFormat (s.slot.pc + off)))) ∧
    (h.s = true → s.slot.depth ≠ 0 → ¬ goodTarget (s.slot.rx 15) →
      exec (.ret h) s = .next (s.takeTrap (s.fault .illegalFormat (s.slot.rx 15)))) ∧
    (h.s = true → s.slot.depth = 0 → exec (.ret h) s = .next (s.takeTrap (s.fault .protection 0))) ∧
    (s.slot.fflags &&& s.me.fenable ≠ 0 →
      exec (.trapf h) s = .next (s.takeTrap { s.fault .arith 0 with reason := (s.slot.fflags &&& s.me.fenable).toNat })) ∧
    (s.slot.longs.length = 8 → exec (.ard h none rd 0 rb) s = .next (s.takeTrap (s.fault .illegalGroup 0)))

/-- R100, R101, R124: `call` and `callr` with a resident place left: the out registers become the new window's in registers, x15 the return
address, the locals and outs zero, the caller's in and local registers wait, and a region begins at the target with inputs x1 to x15.
R100, R102, R124: `ret` to a resident window: the in registers become the caller's out registers, its in and local registers come back,
and a region begins at x15 with inputs x1 to x7 and x16 to x24. -/
def Obligations.CallAndReturn : Prop :=
  (∀ (h : Hd) (ra : Reg) (off : Word) (s : State), Idle s → h.s = true → s.slot.older.length < 3 → s.slot.depth < 65535 →
       ∀ p ∈ ([(.call h off, s.slot.pc + off), (.callr h ra, s.slot.rx ra.val)] : List (Instr × Word)), goodTarget p.2 →
         ∃ t, exec p.1 s = .next t ∧ OnlySlot s t ∧ SameMemory s t ∧ Began s t p.2 0xFFFE ∧
           (∀ q, q < 8 → t.slot.rx q = s.slot.rx q) ∧ (∀ q, q < 7 → t.slot.rx (8 + q) = s.slot.rx (24 + q)) ∧
           t.slot.rx 15 = s.slot.pc + BitVec.ofNat 64 h.len.bytes ∧ (∀ q, 16 ≤ q → q < 32 → t.slot.rx q = 0) ∧
           t.slot.older = s.slot.older ++ [(List.range 16).map (fun q => s.slot.rx (8 + q))] ∧ t.slot.depth = s.slot.depth + 1 ∧
           (∀ q, t.slot.rv q = s.slot.rv q) ∧ (∀ q, t.slot.rk q = s.slot.rk q)) ∧
  (∀ (h : Hd) (w : List Word) (ws : List (List Word)) (s : State), Idle s → h.s = true → s.slot.older = ws ++ [w] → w.length = 16 →
       s.slot.depth ≠ 0 → goodTarget (s.slot.rx 15) →
       ∃ t, exec (.ret h) s = .next t ∧ OnlySlot s t ∧ SameMemory s t ∧ Began s t (s.slot.rx 15) 0x1FF00FE ∧
         (∀ q, q < 8 → t.slot.rx q = s.slot.rx q) ∧ (∀ q, q < 16 → t.slot.rx (8 + q) = w.getD q 0) ∧
         (∀ q, q < 8 → t.slot.rx (24 + q) = s.slot.rx (8 + q)) ∧ t.slot.older = ws ∧ t.slot.depth = s.slot.depth - 1 ∧
         (∀ q, t.slot.rv q = s.slot.rv q) ∧ (∀ q, t.slot.rk q = s.slot.rk q))

/-- R101: a call at four resident windows waits for WINDOW_SPILL, which writes the oldest window at the spill top and raises the top by 128; a
`ret` with one resident window waits for WINDOW_FILL, which reads the caller's window from below the top and lowers it. -/
def Obligations.WindowMemory : Prop :=
  ∀ (h : Hd) (off : Word) (w : List Word) (s : State), Fresh s → h.s = true → Calm s →
    (s.slot.older.length = 3 → s.slot.older.head? = some w → w.length = 16 → s.slot.depth < 65535 → goodTarget (s.slot.pc + off) →
      s.slot.spillTop + 128 ≤ s.slot.spillLimit → s.slot.spillTop + 128 ≤ lsSize → s.clearOfRings s.focus.lc s.slot.spillTop 128 = true →
      ∃ a t : State, exec (.call h off) s = .next a ∧ exec .windowSpill a = .next t ∧ OnlyAccess s t ∧
        (let key := lsKey s.focus.ctx s.focus.lc s.slot.spillTop
         Mem.bytes t.mem key 128 = w.flatMap (fun x => leBytes 8 x.toNat) ∧ SameMemoryBut key 128 s t) ∧
        t.slot.older = s.slot.older.tail ∧ t.slot.spillTop = s.slot.spillTop + 128 ∧ t.slot.wait = .none ∧ t.slot.pc = s.slot.pc ∧
        t.slot.x = s.slot.x ∧ t.slot.depth = s.slot.depth) ∧
    (s.slot.older = [] → s.slot.depth ≠ 0 → goodTarget (s.slot.rx 15) → 128 ≤ s.slot.spillTop → s.slot.spillTop ≤ lsSize →
      ∃ a t : State, exec (.ret h) s = .next a ∧ exec .windowFill a = .next t ∧ OnlyAccess s t ∧ SameMemory s t ∧
        t.slot.older = [(List.range 16).map (fun i =>
          BitVec.ofNat 64 (leNat (Mem.bytes s.mem (lsKey s.focus.ctx s.focus.lc (s.slot.spillTop - 128) + 8 * i) 8)))] ∧
        t.slot.spillTop = s.slot.spillTop - 128 ∧ t.slot.wait = .none ∧ t.slot.pc = s.slot.pc ∧ t.slot.x = s.slot.x ∧
        t.slot.depth = s.slot.depth)

/-- R23, R45: `idem` begins a region at the next instruction with the inputs of its mask and makes every earlier store into code seen;
REGION_RESTART of a released slot begins its region again: inputs, k1 and the window stack stay, all else reads zero, the flags too. -/
def Obligations.RegionStart : Prop :=
  ∀ (h : Hd) (mask : BitVec 32) (s : State), s.slot.stopped = [] →
    (h.s = true → Idle s →
      ∃ t, exec (.idem h mask) s = .next t ∧ OnlySlot s t ∧ SameMemory s t ∧ Began s t (nextPc s.slot.pc h.len) mask ∧
        t.slot.idemAt = s.codeLog.length ∧ t.slot.x = s.slot.x ∧ t.slot.v = s.slot.v ∧ t.slot.k = s.slot.k ∧
        t.slot.older = s.slot.older ∧ t.slot.depth = s.slot.depth ∧ t.slot.fflags = s.slot.fflags) ∧
    (s.slot.mode = .released →
      ∃ t, exec .regionRestart s = .next t ∧ (s.focus.pos ∉ s.me.poolHolds → OnlySlot s t) ∧ SameMemory s t ∧
        Began s t s.slot.region s.slot.rmask ∧ t.slot.mode = .running ∧ t.slot.fflags = 0 ∧ (∀ q, t.slot.rx q = if s.slot.rmask.getLsbD q then s.slot.rx q else 0) ∧ (∀ q, t.slot.rv q = 0) ∧
        (∀ q, t.slot.rk q = if q = 0 then BitVec.allOnes 48 else if q = 1 then s.slot.rk 1 else 0) ∧
        t.slot.older = s.slot.older ∧ t.slot.depth = s.slot.depth ∧ t.slot.longs = [] ∧ t.slot.tasks = [])

/-- No version counter stands near its end, so that no write by hardware is refused (R401). -/
def Young (s : State) : Prop := ∀ u, Tab.get 0 s.versions u + 2 ^ 32 < 2 ^ 64

/-- R326: supervisor code runs in `t` for the trap `tr` that the slot in focus of `s` took: it begins at `sys.trapvec` with the trap frame in x8,
the fault-record place in x9, the kind in x10 and k1 all ones, every other register zero, at depth 0 with the spill top as it stood there.
The slot image with the PC of `s` stands in the frame, the record in its place, and no other byte of memory has changed. -/
def TrapRuns (s t : State) (tr : Trap) : Prop :=
  let f := s.focus
  let frame := s.here.trapFrame f.lc f.pos
  let place := s.here.faultPlace f.lc f.pos
  let image := s.slot.image s.slot.pc
  let record := tr.record f.lc f.pos false
  t.slot.mode = s.slot.mode ∧ t.slot.pc = BitVec.ofNat 64 s.slot.trapvec ∧ t.slot.sup = true ∧ t.slot.region = t.slot.pc ∧
  t.slot.rmask = 0x700 ∧ t.slot.rx 8 = BitVec.ofNat 64 frame ∧ t.slot.rx 9 = BitVec.ofNat 64 place ∧
  t.slot.rx 10 = BitVec.ofNat 64 tr.kind.code ∧ (∀ q, q < 8 ∨ 10 < q → t.slot.rx q = 0) ∧ (∀ q, t.slot.rv q = 0) ∧
  (∀ q, t.slot.rk q = if q = 0 ∨ q = 1 then BitVec.allOnes 48 else 0) ∧ t.slot.depth = 0 ∧ t.slot.older = [] ∧ t.slot.fflags = 0 ∧
  t.slot.nanread = s.slot.nanread ∧ t.slot.trapvec = s.slot.trapvec ∧ t.slot.longs = [] ∧ t.slot.tasks = [] ∧ t.slot.stopped = [] ∧
  t.slot.spillTop = s.slot.spillTop - 128 * (s.slot.depth + 1 - s.slot.w) ∧ t.slot.spillLimit = s.slot.spillLimit ∧
  (∀ g : Focus, g.key ≠ f.key → t.slotAt g = s.slotAt g) ∧
  (s.here.partials = [] → Young s → ∀ l m, s.leaf f.ctx frame = .ok l → frame % 65536 + 8192 ≤ 65536 → inHbm l.pa = true →
    (s.hwWrite f.ctx frame image).leaf f.ctx place = .ok m → place % 65536 + 64 ≤ 65536 → inHbm m.pa = true →
    (l.pa + 8192 ≤ m.pa ∨ m.pa + 64 ≤ l.pa) →
    Mem.bytes t.mem l.pa 8192 = image ∧ Mem.bytes t.mem m.pa 64 = record ∧
    ∀ x, (x < l.pa ∨ l.pa + 8192 ≤ x) → (x < m.pa ∨ m.pa + 64 ≤ x) → Mem.read t.mem x = Mem.read s.mem x)

/-- The group of the slot in focus is over, in user code that has a handler: a trap is delivered at once. -/
def TrapReady (s : State) : Prop :=
  s.slot.longs = [] ∧ s.slot.tasks = [] ∧ s.slot.sup = false ∧ s.slot.trapvec ≠ 0 ∧ (s.slot.stopped = [] → s.slot.progress = 0) ∧ s.focus.pos < 8

/-- R326: a trap taken in user code that has a handler, its group over: the slot image goes to its trap frame and the fault record to its
place, and supervisor code begins. R330, R332: `trap` and `brk` take theirs at once, with their code, `trap` with the next instruction as image
PC, `brk` with its own and with reason 1, or 2 where DEFBRK is set, which it clears; TRAP_DELIVERY takes one that has waited, `trap` with the next instruction as PC. R327: a trap in supervisor code,
or without a handler, halts the slot: its image goes to its image frame, the record to its place, and a TRAPNOTE of cause 5 with that place
is to be sent to the supervisor. -/
def Obligations.TrapEntry : Prop :=
  (∀ (h : Hd) (code : BitVec 16) (tr : Trap) (s : State), TrapReady s →
       let s' := s.mod (fun u => { u with pc := tr.next.getD u.pc })
       TrapRuns s' (s.takeTrap tr) tr ∧
       (s.slot.mode = .running → s.slot.pend = some tr → ∃ t, exec .trapDelivery s = .next t ∧ TrapRuns s' t tr) ∧
       (h.s = true → s.slot.stopped = [] →
         (∃ t, exec (.trap h code) s = .next t ∧ TrapRuns (s.mod (fun u => { u with pc := nextPc u.pc h.len })) t
           { kind := .trap, code := code.toNat, pc := s.slot.pc, region := s.slot.region, mask := s.slot.rmask }) ∧
         (∃ t, exec (.brk h code) s = .next t ∧ TrapRuns (s.mod (fun u => { u with defbrk := false })) t
           { kind := .break, reason := if s.slot.defbrk then 2 else 1, code := code.toNat, pc := s.slot.pc, region := s.slot.region
             mask := s.slot.rmask }))) ∧
  (∀ (tr : Trap) (s : State), Idle s → s.slot.progress = 0 → s.focus.pos < 8 → (s.slot.sup = true ∨ s.slot.trapvec = 0) →
       let t := s.takeTrap tr
       let f := s.focus
       let frame := s.here.imageFrame f.lc f.pos
       let place := s.here.faultPlace f.lc f.pos
       let image := s.slot.image (tr.next.getD s.slot.pc)
       let record := tr.record f.lc f.pos s.slot.sup
       t.slot.mode = .halted ∧ t.slot.pc = tr.next.getD s.slot.pc ∧ t.slot.x = s.slot.x ∧ (∀ g : Focus, g.key ≠ f.key → t.slotAt g = s.slotAt g) ∧
       (s.here.partials = [] → t.here.notes = s.here.notes ++ [{ src := f.lc, kind := .trapnote, words := [5, BitVec.ofNat 64 place, 0] }]) ∧
       (s.here.partials = [] → Young s → ∀ l m, s.leaf f.ctx frame = .ok l → frame % 65536 + 8192 ≤ 65536 → inHbm l.pa = true →
         (s.hwWrite f.ctx frame image).leaf f.ctx place = .ok m → place % 65536 + 64 ≤ 65536 → inHbm m.pa = true →
         (l.pa + 8192 ≤ m.pa ∨ m.pa + 64 ≤ l.pa) →
         Mem.bytes t.mem l.pa 8192 = image ∧ Mem.bytes t.mem m.pa 64 = record ∧
         ∀ x, (x < l.pa ∨ l.pa + 8192 ≤ x) → (x < m.pa ∨ m.pa + 64 ≤ x) → Mem.read t.mem x = Mem.read s.mem x))

/-- R119, R120, R121 (`cmp`, minimum, maximum): every two-operand scalar instruction writes the result of its table to xd, with x0 left zero,
moves past itself, and changes nothing else. R121, R122: `clz`, `ctz`, `popc`, `sel`, `li`, `bfx` and `bfi`. The counts are told by the
bits of the operand, the field instructions by the bits of the result. -/
def Obligations.ScalarInstructions : Prop :=
  (∀ (i : Instr) (h : Hd) (rd ra : Reg) (b : Src) (f : Word → Word → Word) (s : State), s.slot.stopped = [] →
       arithResult i = some (h, rd, ra, b, f) →
       ∃ t, exec i s = .next t ∧ WroteX s t h rd.val (f (s.slot.rx ra.val) (operand s.slot b))) ∧
  (∀ (h : Hd) (rd ra rb rc : Reg) (i : Word) (signed : Bool) (pos lenm1 : Fin 64) (s : State), s.slot.stopped = [] →
       let a := s.slot.rx ra.val
       (∃ (t : State) (n : Nat), exec (.clz h rd ra) s = .next t ∧ WroteX s t h rd.val (BitVec.ofNat 64 n) ∧ n ≤ 64 ∧
         (∀ j, j < n → a.getLsbD (63 - j) = false) ∧ (n < 64 → a.getLsbD (63 - n) = true)) ∧
       (∃ (t : State) (n : Nat), exec (.ctz h rd ra) s = .next t ∧ WroteX s t h rd.val (BitVec.ofNat 64 n) ∧ n ≤ 64 ∧
         (∀ j, j < n → a.getLsbD j = false) ∧ (n < 64 → a.getLsbD n = true)) ∧
       (∃ t, exec (.popc h rd ra) s = .next t ∧
         WroteX s t h rd.val (BitVec.ofNat 64 ((List.range 64).filter (fun j => a.getLsbD j)).length)) ∧
       (∃ t, exec (.sel h rd rc ra rb) s = .next t ∧ WroteX s t h rd.val (if s.slot.rx rc.val ≠ 0 then a else s.slot.rx rb.val)) ∧
       (∃ t, exec (.li h rd i) s = .next t ∧ WroteX s t h rd.val i) ∧
       (pos.val + lenm1.val + 1 ≤ 64 →
         (∃ (t : State) (v : Word), exec (.bfx h signed rd ra pos lenm1) s = .next t ∧ WroteX s t h rd.val v ∧ ∀ j, j < 64 →
           v.getLsbD j = if j ≤ lenm1.val then a.getLsbD (pos.val + j) else (signed && a.getLsbD (pos.val + lenm1.val))) ∧
         (∃ (t : State) (v : Word), exec (.bfi h rd ra pos lenm1) s = .next t ∧ WroteX s t h rd.val v ∧ ∀ j, j < 64 →
           v.getLsbD j = if pos.val ≤ j ∧ j ≤ pos.val + lenm1.val then a.getLsbD (j - pos.val) else (s.slot.rx rd.val).getLsbD j)))

/-- R236: the predicate instructions, bit by bit; `kpop` counts the set bits. -/
def Obligations.Predicates : Prop :=
  ∀ (h : Hd) (kd ka kb : Reg8) (rd : Reg) (s : State), s.slot.stopped = [] →
    let a := s.slot.rk ka.val
    let b := s.slot.rk kb.val
    (∃ (t : State) (v : PReg), exec (.kand h kd ka kb) s = .next t ∧ WroteK s t h kd.val v ∧ ∀ i, i < 48 → v.getLsbD i = (a.getLsbD i && b.getLsbD i)) ∧
    (∃ (t : State) (v : PReg), exec (.kor h kd ka kb) s = .next t ∧ WroteK s t h kd.val v ∧ ∀ i, i < 48 → v.getLsbD i = (a.getLsbD i || b.getLsbD i)) ∧
    (∃ (t : State) (v : PReg), exec (.kxor h kd ka kb) s = .next t ∧ WroteK s t h kd.val v ∧ ∀ i, i < 48 → v.getLsbD i = (a.getLsbD i ^^ b.getLsbD i)) ∧
    (∃ (t : State) (v : PReg), exec (.knot h kd ka) s = .next t ∧ WroteK s t h kd.val v ∧ ∀ i, i < 48 → v.getLsbD i = !a.getLsbD i) ∧
    (∃ t, exec (.kmov h kd ka) s = .next t ∧ WroteK s t h kd.val a) ∧
    (∃ t, exec (.kpop h rd ka) s = .next t ∧
      WroteX s t h rd.val (BitVec.ofNat 64 ((List.range 48).filter (fun j => a.getLsbD j)).length))

/-- R329: `eret` resumes user code from the slot's trap frame: registers, the current and the older windows, PC and status as the frame's bytes say, in a region that
begins at the restored PC with the restored inputs. -/
def Obligations.ReturnFromTrap : Prop :=
  ∀ (h : Hd) (bs : List Byte) (s : State), Idle s → h.s = true → s.slot.sup = true →
    s.peekBytes s.focus.ctx (s.here.trapFrame s.focus.lc s.focus.pos) 8192 = some bs → Slot.imageBad bs = none →
    goodTarget (BitVec.ofNat 64 (fieldAt bs 6832 8)) → fieldAt bs 6904 8 = 0 → fieldAt bs 6912 8 % 4 = 0 →
    let w := field (fieldAt bs 6896 8) 16 3
    let word (o : Nat) : Word := BitVec.ofNat 64 (fieldAt bs o 8)
    ∃ t, exec (.eret h) s = .next t ∧ OnlySlot s t ∧ SameMemory s t ∧
      Began s t (word 6832) (BitVec.ofNat 32 (fieldAt bs 6848 4)) ∧ t.slot.sup = false ∧ t.slot.mode = s.slot.mode ∧
      (∀ q, q < 7 → t.slot.rx (1 + q) = word (6144 + 8 * q)) ∧ (∀ q, q < 16 → t.slot.rx (8 + q) = word (6200 + 128 * (w - 1) + 8 * q)) ∧
      (∀ q, q < 8 → t.slot.rx (24 + q) = word (6712 + 8 * q)) ∧ (∀ q, q < 32 → t.slot.rv q = BitVec.ofNat 1536 (fieldAt bs (192 * q) 192)) ∧
      (∀ q, q < 7 → t.slot.rk (1 + q) = BitVec.ofNat 48 (fieldAt bs (6776 + 8 * q) 8)) ∧ t.slot.w = w ∧
      t.slot.older = (List.range (w - 1)).map (fun j => (List.range 16).map (fun q => word (6200 + 128 * j + 8 * q))) ∧
      t.slot.depth = fieldAt bs 6896 8 % 2 ^ 16 ∧ t.slot.nanread = decide (field (fieldAt bs 6852 4) 2 1 = 1) ∧
      t.slot.fflags = BitVec.ofNat 5 (fieldAt bs 6880 8)

/-- R111: what a slot image holds comes back from it: scalar, vector and predicate registers, windows, PC, region, inputs, status, flags, key,
progress and the spill window. -/
def Obligations.ImageRoundTrip : Prop :=
  ∀ (u t : Slot) (pc : Word), u.stopped = [] → u.older.length ≤ 3 → (∀ w ∈ u.older, w.length = 16) → u.depth < 2 ^ 16 →
    u.rmask.getLsbD 0 = false → u.bind < 1024 → u.prio < 4 → u.progress < 2 ^ 32 → u.rsrN < 2 ^ 64 → u.spillTop < 2 ^ 19 →
    u.spillLimit < 2 ^ 20 → u.older.length ≤ u.depth →
    let r := t.restore (u.image pc)
    (∀ q, q < 32 → r.rx q = u.rx q) ∧ (∀ q, q < 32 → r.rv q = u.rv q) ∧ (∀ q, q < 8 → r.rk q = u.rk q) ∧ r.older = u.older ∧
    r.depth = u.depth ∧ r.pc = pc ∧ r.region = u.region ∧ r.rmask = u.rmask ∧ r.bind = u.bind ∧ r.nanread = u.nanread ∧
    r.prio = u.prio ∧ r.key = u.key ∧ r.rsrN = u.rsrN ∧ r.progress = u.progress ∧ r.fflags = u.fflags ∧ r.spillTop = u.spillTop ∧
    r.spillLimit = u.spillLimit ∧ r.sup = u.sup ∧ r.defbrk = u.defbrk ∧ r.stopped = [] ∧ (u.image pc).length = 8192

/-- R103 to R105: the 192 bytes of a continuation record give its fields back, and break none of the rules on its fields. R325: the place of
each field in the 64 bytes of a fault record. -/
def Obligations.RecordLayouts : Prop :=
  (∀ (r : Record), r.mask.getLsbD 0 = false → popCount 32 r.mask.toNat ≤ 16 → r.live.length = popCount 32 r.mask.toNat →
       (r.bind < 768 ∨ r.bind = 1023) → r.cause < 16 → r.prio < 4 → r.pc.toNat < 2 ^ 56 →
       (∀ a, r.await = some a → 1 ≤ a.xd ∧ a.xd < 32 ∧ ∀ x, a.src = some x → x < 1024) →
       r.bytes.length = 192 ∧ Record.badField r.bytes = none ∧ Record.parse r.bytes = r) ∧
  (∀ (tr : Trap) (lc pos : Nat) (sup : Bool), lc < 2 ^ 16 → pos < 16 → tr.reason < 2 ^ 8 → tr.lane < 2 ^ 16 → tr.code < 2 ^ 16 →
       tr.seq < 2 ^ 32 → tr.progress < 2 ^ 32 →
       let bs := tr.record lc pos sup
       bs.length = 64 ∧ fieldAt bs 0 2 = tr.kind.code ∧ fieldAt bs 2 1 = tr.cls.code ∧ fieldAt bs 3 1 = tr.reason ∧
       fieldAt bs 4 2 = tr.lane ∧ fieldAt bs 6 2 = tr.code ∧ fieldAt bs 8 8 = tr.pc.toNat ∧ fieldAt bs 16 8 = tr.region.toNat ∧
       fieldAt bs 24 8 = tr.addr.toNat ∧ fieldAt bs 32 4 = tr.seq ∧ fieldAt bs 36 4 = tr.progress ∧ fieldAt bs 40 4 = tr.mask.toNat ∧
       fieldAt bs 44 4 = lc + pos * 2 ^ 16 + sup.toNat * 2 ^ 31 ∧ fieldAt bs 48 16 = 0)

/-- R116, R118: `sysr` reads the value of the register's row; `sysw` changes the bits that software may write, at once; `sysx` reads and
writes at the close of its group. Registers that are read only keep their value; CLAMPED tells a raised slice, and the slots of a logical
core share `sys.fenable` and `sys.rngseed`. R116, R118: the values of the registers that programs may
read. -/
def Obligations.SystemRegisters : Prop :=
  (∀ (h : Hd) (rd ra : Reg) (r : SysReg) (s : State), s.slot.stopped = [] →
       (s.slot.sup = true ∨ (r ≠ .slice ∧ r ≠ .slicestat ∧ r ≠ .trapvec ∧ r ≠ .spill)) →
       let v := s.slot.rx ra.val
       let written (old : Word) : Word :=
         match r with
         | .nanread => v &&& 1
         | .fflags | .fenable => v &&& 0x1F
         | .rngseed | .slicestat => v
         | .slice => if v.toNat % 2 ^ 32 ≠ 0 ∧ v.toNat % 2 ^ 32 < 8192 then 8192 else v &&& 0xFFFFFFFF
         | .trapvec => v &&& 0xFFFFFFFFFFFFFF
         | .spill => v &&& 0x000FFFFF0007FFFF
         | .lcid | .ctx | .mode | .phase | .progress | .lsbase => old
       let good : Prop := (r = .trapvec → v.toNat % 32 = 0) ∧ (r = .spill → v.toNat % 128 = 0 ∧ v.toNat / 2 ^ 32 % 2 ^ 20 ≤ 0x80000)
       (∃ t, exec (.sysr h rd r) s = .next t ∧ WroteX s t h rd.val (s.sysRead r)) ∧
       (good → ∃ t, exec (.sysw h r ra) s = .next t ∧ SameMemory s t ∧ Past s t h ∧
         t.sysRead r = written (s.sysRead r) ∧
         (∀ q, q ≠ r → (q = .slicestat → r ≠ .slice) → t.sysRead q = s.sysRead q) ∧
         (r = .slice → (t.sysRead .slicestat).getLsbD 0 = decide (v.toNat % 2 ^ 32 ≠ 0 ∧ v.toNat % 2 ^ 32 < 8192) ∧
           ∀ b, 0 < b → (t.sysRead .slicestat).getLsbD b = (s.sysRead .slicestat).getLsbD b) ∧
         ((r = .fenable ∨ r = .rngseed) → ∀ p, ({ t with focus := { t.focus with pos := p } } : State).sysRead r = written (s.sysRead r)) ∧
         (∀ q, t.slot.rx q = s.slot.rx q) ∧ (∀ q, t.slot.rv q = s.slot.rv q) ∧ (∀ q, t.slot.rk q = s.slot.rk q) ∧
         (∀ f : Focus, f.key ≠ s.focus.key → t.slotAt f = s.slotAt f)) ∧
       (good → Fresh s → h.s = true → ∃ t, Issues (.sysx h rd ra r) s t ∧ SameMemory s t ∧
         (∀ q, t.slot.rx q = setX rd.val (s.sysRead r) s.slot.rx q) ∧ t.slot.pc = nextPc s.slot.pc h.len ∧
         (r ≠ .progress → t.sysRead r = written (s.sysRead r))) ∧
       (¬ good → exec (.sysw h r ra) s = .next (s.takeTrap (s.fault .illegalField 0)))) ∧
  (∀ (s : State), s.focus.lc < 768 → s.here.phase < 2 ^ 16 →
       s.sysRead .lcid = BitVec.ofNat 64 s.focus.lc ∧ s.sysRead .ctx = BitVec.ofNat 64 s.focus.ctx ∧
       (s.sysRead .mode).getLsbD 0 = s.here.cr.det ∧ (s.sysRead .mode).getLsbD 1 = s.slot.sup ∧
       (s.sysRead .phase).toNat = s.here.phase ∧ (s.sysRead .nanread).getLsbD 0 = s.slot.nanread ∧
       (∀ b, b < 5 → (s.sysRead .fflags).getLsbD b = s.slot.fflags.getLsbD b) ∧ s.sysRead .rngseed = s.me.rngseed ∧
       placeOf s.focus.lc (s.sysRead .lsbase) = some (.ls s.focus.lc 0))

/-- The bytes of the pool record with index `i` of the context in focus are those of `r`, its LINK word being the hardware's own. -/
def RecordIn (s t : State) (ctx i : Nat) (r : Record) : Prop :=
  let a := (s.ctxOf ctx).recordAddr i
  ∀ l, (s.ctxOf ctx).partials = [] → Young s → a % 65536 + 192 ≤ 65536 → inHbm l.pa = true →
    (∀ m, (∀ x, x < l.pa ∨ l.pa + 192 ≤ x → Mem.read m x = Mem.read s.mem x) → ({ s with mem := m } : State).leaf ctx a = .ok l) →
    (∃ k : Word, Mem.bytes t.mem l.pa 192 = { r with link := k }.bytes) ∧ SameMemoryBut l.pa 192 s t

/-- The same for the context of the slot in focus. -/
def RecordAt (s t : State) (i : Nat) (r : Record) : Prop := RecordIn s t s.focus.ctx i r

/-- Everything of a slot that belongs to its continuation is gone. -/
def Emptied (u : Slot) : Prop :=
  u.mode = .free ∧ u.x = [] ∧ u.v = [] ∧ u.k = [] ∧ u.older = [] ∧ u.depth = 0 ∧ u.tasks = [] ∧ u.longs = [] ∧ u.sup = false

/-- R125, R243: `quit` of a continuation that is neither a node nor an iteration frees its slot and releases the accumulators and descriptors
it holds, and nothing else of memory or of another slot changes. R112, R115: `yield` saves the slot's image with the next instruction as
PC, queues it behind its priority, counts itself, and frees the slot. -/
def Obligations.QuitAndYield : Prop :=
  (∀ (h : Hd) (s : State), Idle s → h.s = true → s.slot.iter = none → s.slot.node = 0 →
       (∀ e ∈ s.here.waitLists, ∀ w ∈ e.2, ∀ n, w ≠ .engine n) →
       ∃ t, exec (.quit h) s = .next t ∧ SameMemory s t ∧ Emptied t.slot ∧
         t.slot.trapvec = s.slot.trapvec ∧ t.slot.slice = s.slot.slice ∧ t.slot.spillTop = s.slot.spillTop - 128 * (s.slot.depth + 1 - s.slot.w) ∧
         (∀ e ∈ t.me.holders, e.2 ≠ s.slot.cid) ∧ (∀ e ∈ t.me.descs, e.2.holder ≠ s.slot.cid) ∧ t.me.box = s.me.box ∧
         (∀ f : Focus, f.key ≠ s.focus.key → t.slotAt f = s.slotAt f)) ∧
  (∀ (h : Hd) (s : State), Idle s → h.s = true → s.slot.sup = false → s.focus.pos < 8 → s.slot.await = none → s.slot.progress = 0 →
       ∃ (t : State) (q : QEntry), exec (.yield h) s = .next t ∧ Emptied t.slot ∧ t.slot.yields = Nat.min (s.slot.yields + 1) (2 ^ 31 - 1) ∧
         t.me.ready = s.me.ready ++ [q] ∧ q.image = true ∧ q.ref = s.focus.pos ∧ q.prio = s.slot.prio ∧ q.cid = s.slot.cid ∧
         (∀ l, let frame := s.here.imageFrame s.focus.lc s.focus.pos
           s.here.partials = [] → Young s → s.leaf s.focus.ctx frame = .ok l → frame % 65536 + 8192 ≤ 65536 → inHbm l.pa = true →
           Mem.bytes t.mem l.pa 8192 = s.slot.image (nextPc s.slot.pc h.len) ∧ SameMemoryBut l.pa 8192 s t) ∧
         (∀ f : Focus, f.key ≠ s.focus.key → t.slotAt f = s.slotAt f))

/-- R24, R27, R103, R105, R193, R207: `recv` at depth 0 leaves a pool record of cause 1 with the next instruction, its inputs and the await
word, and `migrate` one of cause 3 queued at the home core of its address, of a store or global; both free the slot. R26, R106, R206:
`spawn` fills a pool record with the child's start and queues it at the core that RA names, the spawner's own for any binding. -/
def Obligations.SuspendAndSpawn : Prop :=
  (∀ (h : Hd) (kind : Kind) (src : Option Reg) (rd ra : Reg) (mask : BitVec 32) (i : Nat) (is : List Nat) (s : State),
       Idle s → h.s = true → s.slot.depth = 0 → s.slot.sup = false → s.focus.pos < 8 → s.here.cr.det = false →
       s.here.poolFree = i :: is → s.holdsUnits = false → s.slot.iter = none → s.focus.lc < 768 →
       let pc := nextPc s.slot.pc h.len
       let live := ((List.range 32).filter (fun q => decide (0 < q) && mask.getLsbD q)).map s.slot.rx
       let a : Await := { kind := kind, src := src.map (fun q => (s.slot.rx q.val).toNat % 1024), xd := rd.val }
       let rec' : Record := { pc := pc, mask := mask &&& 0xFFFFFFFE, bind := s.slot.bind, nan := s.slot.nanread, prio := s.slot.prio,
                              node := s.slot.node, k1 := s.slot.rk 1, live := live }
       ((∀ q ∈ s.me.suspended, q.image = true) → ∃ (t : State) (q : QEntry), exec (.recv h kind src rd mask) s = .next t ∧ Emptied t.slot ∧
         t.here.poolFree = is ∧ RecordAt s t i { rec' with cause := 1, await := some a } ∧ (q ∈ t.me.suspended ∨ q ∈ t.me.ready) ∧ q.image = false ∧ q.ref = i ∧ q.await = some a ∧ q.cid = s.slot.cid) ∧
       (∀ c o, placeOf s.focus.lc (s.slot.rx ra.val) = some (.ls c o) → c < 768 →
         ∃ (t : State) (q : QEntry), exec (.migrate h ra mask) s = .next t ∧ Emptied t.slot ∧ t.here.poolFree = is ∧
           RecordAt s t i { rec' with cause := 3, bind := c } ∧
           q ∈ (t.core s.focus.ctx c).ready ∧ q.image = false ∧ q.ref = i ∧ q.bind = c ∧ q.cid = s.slot.cid) ∧
       (∀ va l, placeOf s.focus.lc (s.slot.rx ra.val) = some (.glob va) → s.leaf s.focus.ctx va = .ok l → l.home < 4 →
         let c := 192 * l.home + va / 192 % 192
         ∃ (t : State) (q : QEntry), exec (.migrate h ra mask) s = .next t ∧ Emptied t.slot ∧ t.here.poolFree = is ∧
           RecordAt s t i { rec' with cause := 3, bind := c } ∧
           q ∈ (t.core s.focus.ctx c).ready ∧ q.image = false ∧ q.ref = i ∧ q.bind = c ∧ q.cid = s.slot.cid)) ∧
  (∀ (h : Hd) (prio : Fin 4) (ra rb : Reg) (mask : BitVec 32) (i : Nat) (is : List Nat) (s : State), Fresh s → h.s = true →
       Unpaused s → s.here.cr.det = false → s.here.poolFree = i :: is → ((s.slot.rx ra.val).toNat < 768 ∨ s.slot.rx ra.val = 0x3FF) →
       goodTarget (s.slot.rx rb.val) →
       let b := (s.slot.rx ra.val).toNat
       let c := if b = 0x3FF then s.focus.lc else b
       let live := ((List.range 32).filter (fun q => decide (0 < q) && mask.getLsbD q)).map s.slot.rx
       ∃ (t : State) (q : QEntry), Runs (.spawn h prio ra rb mask) s t ∧ ClosedSlot s t h s.slot.rv s.slot.rx s.slot.rk 0 ∧ t.here.poolFree = is ∧
         RecordAt s t i { pc := s.slot.rx rb.val, mask := mask &&& 0xFFFFFFFE, bind := b, nan := s.slot.nanread, prio := prio.val,
                          k1 := s.slot.rk 1, live := live } ∧
         (t.core s.focus.ctx c).ready = (s.core s.focus.ctx c).ready ++ [q] ∧ q.image = false ∧ q.ref = i ∧ q.bind = b ∧ q.prio = prio.val)

/-- R157: `ld` brings the cell at xa + I, widened from its sign bit or with zeros, to xd at the close of its group; memory keeps its bytes.
R157: `st` stores the low bytes of xb at xa + I, and no other byte of memory changes. R167: ACCESS_PERFORM performs the access at the head of
its slot's queue, whose result waits for the group's close. -/
def Obligations.LoadsAndStores : Prop :=
  (∀ (h : Hd) (size : Size) (zext : Bool) (rd ra : Reg) (i : Word) (base : Nat) (s : State), Fresh s → h.s = true → Calm s →
       let n := sizeBytes size
       let ea := s.slot.rx ra.val + i
       ea.toNat % n = 0 → Mapped s .r ea n base →
       ∃ t, Runs (.ld h size zext rd ra i) s t ∧ OnlyAccess s t ∧ SameMemory s t ∧
         ClosedSlot s t h s.slot.rv (setX rd.val (widened n zext (leNat (Mem.bytes s.mem base n))) s.slot.rx) s.slot.rk 0) ∧
  (∀ (h : Hd) (size : Size) (ra rb : Reg) (i : Word) (base : Nat) (s : State), Fresh s → h.s = true → Calm s →
       let n := sizeBytes size
       let ea := s.slot.rx ra.val + i
       ea.toNat % n = 0 → Mapped s .w ea n base →
       ∃ t, Runs (.st h size rb ra i) s t ∧ OnlyAccess s t ∧ SameMemoryBut base n s t ∧
         Mem.bytes t.mem base n = leBytes n (s.slot.rx rb.val).toNat ∧ ClosedSlot s t h s.slot.rv s.slot.rx s.slot.rk 0) ∧
  (∀ (k : Task) (ks : List Task) (base : Nat) (s : State), s.slot.head? = some k → s.slot.tasks = k :: ks → s.slot.stopping = false →
       k.nan = s.slot.nanread → Calm s →
       let performed (t : State) (outs : List Out) : Prop := exec .accessPerform s = .next t ∧ OnlyAccess s t ∧ t.slot.tasks = ks ∧
         t.slot.longs = s.slot.longs.map (fun l => if l.id = k.id then { l with done := true, outs := l.outs ++ outs } else l) ∧
         t.slot.x = s.slot.x ∧ t.slot.v = s.slot.v ∧ t.slot.k = s.slot.k ∧ t.slot.pc = s.slot.pc
       (∀ size zext rd, k.op = .load size zext rd → Mapped s .r k.ea (sizeBytes size) base →
         ∃ t, performed t [.x rd (widened (sizeBytes size) zext (leNat (Mem.bytes s.mem base (sizeBytes size))))] ∧ SameMemory s t) ∧
       (∀ bs, k.op = .store bs → bs ≠ [] → Mapped s .w k.ea bs.length base →
         ∃ t, performed t [] ∧ Mem.bytes t.mem base bs.length = bs ∧ SameMemoryBut base bs.length s t))

/-- R158: `disc` leaves its line zero and no other byte changed; `flushl` and `pref` change no byte. -/
def Obligations.LineInstructions : Prop :=
  ∀ (h : Hd) (ra : Reg) (i : Word) (base : Nat) (s : State), Fresh s → h.s = true → Calm s →
    let ea := s.slot.rx ra.val + i
    let start := lineStart s.focus.lc ea
    let local' := ∃ l o : Nat, placeOf s.focus.lc ea = some (.ls l o)
    (Mapped s .w start 192 base →
      ∃ t, Runs (.disc h ra i) s t ∧ OnlyAccess s t ∧ SameMemoryBut base 192 s t ∧ Mem.bytes t.mem base 192 = List.replicate 192 0 ∧
        ClosedSlot s t h s.slot.rv s.slot.rx s.slot.rk 0) ∧
    (local' ∨ Mapped s .any start 192 base →
      ∃ t, Runs (.flushl h ra i) s t ∧ OnlyAccess s t ∧ SameMemory s t ∧ ClosedSlot s t h s.slot.rv s.slot.rx s.slot.rk 0) ∧
    (local' ∨ placeOf s.focus.lc ea = none ∨ Mapped s .r start 192 base →
      ∃ t, Runs (.pref h ra i) s t ∧ OnlyAccess s t ∧ SameMemory s t ∧ ClosedSlot s t h s.slot.rv s.slot.rx s.slot.rk 0)

/-- R23, R150: the region of the slot in focus of `s` stands in `r` as at its start: what its group had delivered is gone, its inputs and
k1 are as they were, every other register reads zero, and no access, result or trap of it waits. -/
def Restarted (s r : State) : Prop :=
  SameMemory s r ∧ (∀ g : Focus, g.key ≠ s.focus.key → r.slotAt g = s.slotAt g) ∧ r.slot.pc = s.slot.region ∧ r.slot.region = s.slot.region ∧
  r.slot.rmask = s.slot.rmask ∧ (∀ q, r.slot.rx q = if s.slot.rmask.getLsbD q then s.slot.rx q else 0) ∧ (∀ q, r.slot.rv q = 0) ∧
  (∀ q, r.slot.rk q = if q = 0 then BitVec.allOnes 48 else if q = 1 then s.slot.rk 1 else 0) ∧ r.slot.fflags = 0 ∧
  r.slot.older = s.slot.older ∧ r.slot.depth = s.slot.depth ∧ r.slot.spillTop = s.slot.spillTop ∧ r.slot.longs = [] ∧ r.slot.tasks = [] ∧
  r.slot.stopped = [] ∧ r.slot.pend = none ∧ r.slot.progress = 0 ∧ r.slot.rseq = 0 ∧ r.slot.rsrN = 0

/-- Why a check of memory refuses an aligned access of at most 8 bytes at `ea` by the slot in focus (R141 to R148, R394, R348): the tables, the
permissions, a held record, the cluster set, an endpoint not in RUN or past its length, the memory controller, a poisoned unit, or the store
of a logical core that is not placed. -/
def Refuses (s : State) (need : Need) (ea : Word) (n : Nat) (kind : TrapKind) : Prop :=
  let f := s.focus
  (∃ c o, placeOf f.lc ea = some (.ls c o) ∧ c ≠ f.lc ∧ s.placed f.ctx c = false ∧ kind = .lateRefusal) ∨
  ∃ va, placeOf f.lc ea = some (.glob va) ∧
    (s.leaf f.ctx va = .error kind ∨ ∃ l, s.leaf f.ctx va = .ok l ∧
      let open' := l.allows need = true ∧ s.here.reserved s.slot.sup va n = false ∧ (need = .w → s.held f.ctx va n = false)
      let reached := open' ∧ s.csetOk f.ctx f.lc l.cset = true
      let ep := Tab.get {} s.endpoints (winEp l.pa)
      let down := inWindow l.pa = true ∧ (ep.state ≠ .run ∨ ep.rlen < l.pa % 2 ^ 30 + n)
      (¬ open' ∧ kind = .protection) ∨ (open' ∧ s.csetOk f.ctx f.lc l.cset = false ∧ kind = .clusterMask) ∨
      (reached ∧ down ∧ kind = .lateRefusal) ∨ (reached ∧ ¬ down ∧ s.controller f.ctx l l.pa = some kind) ∨
      (reached ∧ inWindow l.pa = false ∧ s.controller f.ctx l l.pa = none ∧ s.poisoned l.pa = true ∧ kind = .integrity))

/-- Why the conflict check of deterministic mode refuses such an access, which every check of memory lets pass (R183, R184, R314, R315,
R368): made outside the live loop; to the header of a registered ring by a store; to a slot of one that is not the issuer's; to a guarded
sector that is not taken; or, elsewhere, to a sector that another logical core has written in this phase, or read before a store. -/
def Conflicts (s : State) (need : Need) (ea : Word) (n : Nat) : Prop :=
  let f := s.focus
  s.here.cr.det = true ∧ s.here.partials = [] ∧ (∃ gs, s.check (s.who s.slot.nanread) need (spot f.lc ea n) = .ok gs) ∧
  ((s.slot.iter = none ∧ s.here.liveLoop.isSome = true) ∨
   ((s.slot.iter.isSome = true ∨ s.here.liveLoop = none) ∧
    ∃ key, (let h := Tab.get {} s.here.shadows key
            let seen := h.phase = s.here.phase ∧ ((h.writer ≠ 0x3FF ∧ h.writer ≠ f.lc) ∨ (need = .w ∧ h.reader ≠ 0x3FF ∧ h.reader ≠ f.lc))
            ((∃ va, placeOf f.lc ea = some (.glob va) ∧ key = va - va % 48 ∧
               ((∃ g, s.here.guardOf key = some g ∧ need = .r ∧ g.taken.contains f.lc = false) ∨
                (s.here.guardOf key = none ∧ s.here.nodeOf s.slot.node = none ∧ seen))) ∨
             (∃ c o, placeOf f.lc ea = some (.ls c o) ∧ key = 2 ^ 56 + lsKey f.ctx c (o - o % 48) ∧
               ((∃ base, s.ringAt f.ctx c (o - o % 48) = some (base, none) ∧ need = .w) ∨
                (∃ base i, s.ringAt f.ctx c (o - o % 48) = some (base, some i) ∧
                  let e := s.slotEntry f.ctx c base i
                  ((e / 2 ^ 14 ≠ 1 ∧ e / 2 ^ 14 ≠ 3) ∨ e % 1024 ≠ f.lc)) ∨
                (s.ringAt f.ctx c (o - o % 48) = none ∧ seen)))))))

/-- The task at the head of the queue is a scalar load or store of `n` bytes. -/
def ScalarTask (k : Task) (need : Need) (n : Nat) : Prop :=
  (∃ size zext rd, k.op = .load size zext rd ∧ need = .r ∧ n = sizeBytes size) ∨
  ∃ bs, k.op = .store bs ∧ need = .w ∧ n = bs.length ∧ (n = 1 ∨ n = 2 ∨ n = 4 ∨ n = 8)

/-- R126, R128: an access at an address that is no address, or not a multiple of its size, traps PROTECTION at issue. R148, R150, R152, R168: a
load or store that a check of memory refuses, or in deterministic mode the conflict check, is not performed: ACCESS_REFUSAL aborts its region,
and supervisor code begins on the region's restart state, its record naming the kind, the address (for a conflict the start of its sector),
the instruction, and the number of the remote request, zero for the own store. R151: on an absent page the region waits instead, as a record of
cause 2 at depth 0 with at most 16 inputs, else as a held slot. The order in which the checks are named follows R431. -/
def Obligations.AccessTraps : Prop :=
  (∀ (h : Hd) (size : Size) (zext : Bool) (rd ra rb : Reg) (i : Word) (s : State), Fresh s →
    let n := sizeBytes size
    let ea := s.slot.rx ra.val + i
    ((placeOf s.focus.lc ea = none ∨ ea.toNat % n ≠ 0) →
      exec (.ld h size zext rd ra i) s = .next (s.takeTrap (s.fault .protection ea)) ∧
      exec (.st h size rb ra i) s = .next (s.takeTrap (s.fault .protection ea))) ∧
    (∀ kind, ea.toNat % n = 0 → Unpaused s → kind ≠ .pageAbsent → s.slot.sup = false → s.slot.trapvec ≠ 0 → s.focus.pos < 8 →
      ∀ p ∈ ([(.ld h size zext rd ra i, .r), (.st h size rb ra i, .w)] : List (Instr × Need)), Refuses s p.2 ea n kind →
      ∃ a r t : State, exec p.1 s = .next a ∧ exec .accessPerform a = .next a ∧ exec .accessRefusal a = .next t ∧
        Restarted s r ∧ TrapRuns r t { kind := kind, cls := .refusal, pc := s.slot.pc, region := s.slot.region, mask := s.slot.rmask, addr := ea
                                       seq := s.slot.rseq + 1 })) ∧
  (∀ (k : Task) (need : Need) (n : Nat) (s : State), s.slot.head? = some k → s.slot.stopping = false → ScalarTask k need n →
    k.ea.toNat % n = 0 → k.nan = s.slot.nanread → Unpaused s →
    (∀ kind at', (Refuses s need k.ea n kind ∧ at' = k.ea ∨
        Conflicts s need k.ea n ∧ kind = .conflict ∧ at' = k.ea - BitVec.ofNat 64 (lineOffset s.focus.lc k.ea % 48)) →
      exec .accessPerform s = .next s ∧
      (kind ≠ .pageAbsent → s.slot.sup = false → s.slot.trapvec ≠ 0 → s.focus.pos < 8 →
        ∃ r t : State, exec .accessRefusal s = .next t ∧ Restarted s r ∧
          TrapRuns r t { kind := kind, cls := .refusal, pc := k.pc, region := s.slot.region, mask := s.slot.rmask, addr := at'
                         seq := if k.remote = 0 then 0 else s.slot.rseq + 1 })) ∧
    (∀ va, placeOf s.focus.lc k.ea = some (.glob va) → s.leaf s.focus.ctx va = .error .pageAbsent →
      (s.slot.depth = 0 → popCount 32 s.slot.rmask.toNat ≤ 16 → s.focus.pos < 8 → ∀ i is, s.here.poolFree = i :: is →
        ∃ (t : State) (q : QEntry), exec .accessRefusal s = .next t ∧ Emptied t.slot ∧ t.here.poolFree = is ∧ q.image = false ∧ q.ref = i ∧
          q.cid = s.slot.cid ∧ Tab.get [] t.here.waitLists (va / 65536) = Tab.get [] s.here.waitLists (va / 65536) ++ [.record s.focus.lc q] ∧
          RecordAt s t i { pc := s.slot.region, mask := s.slot.rmask &&& 0xFFFFFFFE, bind := s.slot.bind, cause := 2, nan := s.slot.nanread
                           prio := s.slot.prio, node := s.slot.node, k1 := s.slot.rk 1
                           live := ((List.range 32).filter (fun q => decide (0 < q) && s.slot.rmask.getLsbD q)).map s.slot.rx }) ∧
      ((s.slot.depth ≠ 0 ∨ 16 < popCount 32 s.slot.rmask.toNat) →
        ∃ (r t : State), exec .accessRefusal s = .next t ∧ Restarted s r ∧ t.slot = { r.slot with mode := .held } ∧
          Tab.get [] t.here.waitLists (va / 65536) = Tab.get [] s.here.waitLists (va / 65536) ++ [.slot s.party])))

/-- R202, R203: `amo` and `cas` bring the old cell, sign-extended, to xd, and leave the operation's result, or the new value where the cell
held the expected one, in one step; no other byte changes. R173, R174, R199, R204: a `red` or `carrive` is gathered without a change of
memory, and LINE_FOLD of its line then leaves the combined value in the cell and empties the line's partial slots. -/
def Obligations.AtomicMemory : Prop :=
  (∀ (h : Hd) (op : AmoOp) (size : Size) (rd ra rb rc : Reg) (base : Nat) (s : State), Fresh s → h.s = true → Calm s →
       (size = .w ∨ size = .d) →
       let n := sizeBytes size
       let ea := s.slot.rx ra.val
       let old := leNat (Mem.bytes s.mem base n)
       ea.toNat % n = 0 → Mapped s .rw ea n base →
       (∃ t, Runs (.amo h op size rd ra rb) s t ∧ OnlyAccess s t ∧ SameMemoryBut base n s t ∧
         Mem.bytes t.mem base n = leBytes n (atomicResult op n old (s.slot.rx rb.val).toNat) ∧
         ClosedSlot s t h s.slot.rv (setX rd.val (widened n false old) s.slot.rx) s.slot.rk 0) ∧
       (∃ t, Runs (.cas h size rd ra rb rc) s t ∧ OnlyAccess s t ∧ SameMemoryBut base n s t ∧
         Mem.bytes t.mem base n =
           (if old = (s.slot.rx rb.val).toNat % 2 ^ (8 * n) then leBytes n (s.slot.rx rc.val).toNat else Mem.bytes s.mem base n) ∧
         ClosedSlot s t h s.slot.rv (setX rd.val (widened n false old) s.slot.rx) s.slot.rk 0)) ∧
  (∀ (h : Hd) (op : ROp) (ty : ETy) (ra rb : Reg) (base : Nat) (s : State), Fresh s → h.s = true → Calm s → s.focus.lc < 768 →
       let ea := s.slot.rx ra.val
       let line := base - lineOffset s.focus.lc ea % 192
       (∀ n, (n = 4 ∧ (ty = .i32 ∨ ty = .f32)) ∨ (n = 8 ∧ (ty = .i64 ∨ ty = .f64)) → (Instr.red h op ty ra rb).wf = true →
         ea.toNat % n = 0 → Mapped s .rw ea n base →
         ∃ t u : State, Runs (.red h op ty ra rb) s t ∧ SameMemory s t ∧ ClosedSlot s t h s.slot.rv s.slot.rx s.slot.rk 0 ∧
           exec (.lineFold s.focus.ctx line) t = .next u ∧ SameMemoryBut base n t u ∧ u.here.partials = [] ∧
           Mem.bytes u.mem base n = leBytes n (reduced op ty (leNat (Mem.bytes s.mem base n)) ((s.slot.rx rb.val).toNat % 2 ^ (8 * n)))) ∧
       (ea.toNat % 8 = 0 → ea.toNat < 2 ^ 56 → Mapped s .rw ea 4 base →
         ∃ t u : State, Runs (.carrive h ra) s t ∧ SameMemory s t ∧ ClosedSlot s t h s.slot.rv s.slot.rx s.slot.rk 0 ∧
           exec (.lineFold s.focus.ctx line) t = .next u ∧ SameMemoryBut base 4 t u ∧ u.here.partials = [] ∧
           Mem.bytes u.mem base 4 = leBytes 4 (leNat (Mem.bytes s.mem base 4) + 1)))

/-- The address of element `j` of a gather, scatter or strided access (R233, R234). -/
def elementAt (b : Word) (w : Nat) (offs : VReg) (stride : Option Word) (j : Nat) : Word :=
  match stride with
  | some st => b + BitVec.ofNat 64 j * st
  | none => b + (BitVec.ofNat w (elem w offs j)).signExtend 64

/-- R232 to R235: `vld` brings the active lanes of 192 bytes, `vldg` and `vldc` the active elements at their own addresses; inactive lanes and
elements keep their value, and memory keeps its bytes. R232 to R235: `vst` stores the active lanes, and `vsts` and `vstc` the active
elements in ascending order; no other byte changes. -/
def Obligations.VectorMemory : Prop :=
  (∀ (h : Hd) (p : Pred) (ty : ETy) (vd ra rb vb : Reg) (i : Word) (base : Nat) (at' : Nat → Nat) (s : State),
       Fresh s → h.s = true → Calm s → gatherTyOk ty = true →
       let w := ty.width
       let t0 := s.slot
       let ea := t0.rx ra.val + i
       (ea.toNat % 4 = 0 → Mapped s .r ea 192 base →
         ∃ (t : State) (v : VReg), Runs (.vld h p vd ra i) s t ∧ OnlyAccess s t ∧ SameMemory s t ∧ ClosedSlot s t h (setTo vd.val v t0.rv) t0.rx t0.rk 0 ∧
           ∀ j, j < 48 → elem 32 v j = if onLane t0 p 32 j then leNat (Mem.bytes s.mem (base + 4 * j) 4) else elem 32 (t0.rv vd.val) j) ∧
       (∀ q ∈ ([(.vldg h p ty vd ra vb, none), (.vldc h p ty vd ra rb, some (t0.rx rb.val))] : List (Instr × Option Word)),
         (∀ j, j < 1536 / w → onLane t0 p w j = true →
           let a := elementAt (t0.rx ra.val) w (t0.rv vb.val) q.2 j
           a.toNat % (w / 8) = 0 ∧ Mapped s .r a (w / 8) (at' j)) →
         ∃ (t : State) (v : VReg), Runs q.1 s t ∧ OnlyAccess s t ∧ SameMemory s t ∧ ClosedSlot s t h (setTo vd.val v t0.rv) t0.rx t0.rk 0 ∧
           ∀ j, j < 1536 / w → elem w v j =
             if onLane t0 p w j then leNat (Mem.bytes s.mem (at' j) (w / 8)) else elem w (t0.rv vd.val) j)) ∧
  (∀ (h : Hd) (p : Pred) (ty : ETy) (vc ra rb vb : Reg) (i : Word) (base : Nat) (at' : Nat → Nat) (s : State),
       Fresh s → h.s = true → Calm s → gatherTyOk ty = true →
       let w := ty.width
       let t0 := s.slot
       let ea := t0.rx ra.val + i
       let data := t0.rv vc.val
       let lanes := (List.range 48).filter (fun j => onLane t0 p 32 j)
       let els := (List.range (1536 / w)).filter (fun j => onLane t0 p w j)
       (ea.toNat % 4 = 0 → (∀ m v, (∀ x, x < base ∨ base + 192 ≤ x → Mem.read m x = Mem.read s.mem x) →
           Mapped { s with mem := m, versions := v } .w ea 192 base) →
         ∃ t, Runs (.vst h p vc ra i) s t ∧ OnlyAccess s t ∧ ClosedSlot s t h t0.rv t0.rx t0.rk 0 ∧
           ∀ x, Mem.read t.mem x = Mem.read (lanes.foldl (fun m j => Mem.write m (base + 4 * j) (leBytes 4 (elem 32 data j))) s.mem) x) ∧
       (∀ q ∈ ([(.vsts h p ty vc ra vb, none), (.vstc h p ty vc ra rb, some (t0.rx rb.val))] : List (Instr × Option Word)),
         (∀ m v, (∀ x, (∀ j ∈ els, x < at' j ∨ at' j + w / 8 ≤ x) → Mem.read m x = Mem.read s.mem x) → ∀ j ∈ els,
           let a := elementAt (t0.rx ra.val) w (t0.rv vb.val) q.2 j
           a.toNat % (w / 8) = 0 ∧ Mapped { s with mem := m, versions := v } .w a (w / 8) (at' j)) →
         ∃ t, Runs q.1 s t ∧ OnlyAccess s t ∧ ClosedSlot s t h t0.rv t0.rx t0.rk 0 ∧
           ∀ x, Mem.read t.mem x = Mem.read (els.foldl (fun m j => Mem.write m (at' j) (leBytes (w / 8) (elem w data j))) s.mem) x))

/-- R192, R189, R421: `send` appends one message to the mailbox that RA names and answers 0; it answers 1 where that mailbox has no place, 2
for no destination, and 0 or 3 for a host endpoint that takes it or does not. -/
def Obligations.SendStatus : Prop :=
  ∀ (h : Hd) (rd ra rb : Reg) (s : State), Fresh s → h.s = true → s.here.cr.det = false → Unpaused s → s.focus.lc < 768 →
    (Instr.send h rd ra rb).wf = true →
    let t0 := s.slot
    let dst := (t0.rx ra.val).toNat % 1024
    let words := (List.range 7).map (fun q => t0.rx (rb.val + 1 + q))
    let tag := (t0.rx rb.val).toNat / 2 ^ 32 % 2 ^ 16
    let c := s.core s.focus.ctx dst
    let m : Msg := { src := s.focus.lc, kind := .msg, nan := t0.nanread, tag := tag, words := words,
                     seq := Tab.get 0 c.seqs (s.focus.lc * 16 + Kind.msg.code) % 2 ^ 15, stamp := s.clock s.focus.ctx s.party }
    let answers (t : State) (st : Word) : Prop := Runs (.send h rd ra rb) s t ∧ SameMemoryAt s.focus.ctx dst s t ∧
      ClosedSlot s t h t0.rv (setX rd.val st t0.rx) t0.rk 0 ∧ (∀ f : Focus, f.key ≠ s.focus.key → t.slotAt f = s.slotAt f)
    (dst < 768 → s.msgRoom s.focus.ctx dst = true →
      ∃ t, answers t 0 ∧ (t.core s.focus.ctx dst).box = c.box ++ [m] ∧
        ∀ l, l < 768 → l ≠ dst → (t.core s.focus.ctx l).box = (s.core s.focus.ctx l).box) ∧
    (dst < 768 → s.msgRoom s.focus.ctx dst = false → ∃ t, answers t 1 ∧ ∀ l, l < 768 → (t.core s.focus.ctx l).box = (s.core s.focus.ctx l).box) ∧
    (0x3C0 ≤ dst → ∃ t, answers t 2 ∧ t.outbox = s.outbox) ∧
    (768 ≤ dst → dst < 0x3C0 →
      let e := Tab.get {} s.endpoints (dst - 768)
      if e.state = .run then
        ∃ t, answers t 0 ∧ t.outbox = s.outbox ++
          [.message (dst - 768) (({ m with seq := Tab.get 0 e.seqs (coreKey s.focus.ctx s.focus.lc) % 2 ^ 15 } : Msg).header :: words)]
      else ∃ t, answers t 3 ∧ t.outbox = s.outbox)

/-- R24, R25, R194, R195: `recv.keep` and `poll` take the message that the channel rule gives: its header and seven words go to xd to xd + 7
and it leaves the mailbox; `recv.keep` begins a region with every register as input, `poll` delivers at its group's close, and without a
message delivers all ones and seven zeros. R172, R188, R98: the message that a take finds is the oldest of its channel, answers the await
word, and is no active message. -/
def Obligations.Takes : Prop :=
  (∀ (h : Hd) (kind : Kind) (src : Option Reg) (rd : Reg) (m : Msg) (s : State), Fresh s → h.s = true → s.here.cr.det = false →
       s.focus.pos < 8 → s.slot.sup = false → octetOk rd = true → s.here.clockFull = false →
       let t0 := s.slot
       let a : Await := { kind := kind, src := src.map (fun q => (t0.rx q.val).toNat % 1024), xd := rd.val }
       let regs (ws : List Word) (q : Nat) : Word := if rd.val ≤ q ∧ q < rd.val + 8 then ws.getD (q - rd.val) 0 else t0.rx q
       let ws := m.header :: (List.range 7).map (fun q => m.words.getD q 0)
       (s.peek s.focus.ctx s.focus.lc a = some m → m.nan = t0.nanread →
         (∃ t, exec (.recvKeep h kind src rd) s = .next t ∧ SameMemory s t ∧ Began s t (nextPc t0.pc h.len) 0xFFFFFFFF ∧
           (∀ q, t.slot.rx q = regs ws q) ∧ (∀ q, t.slot.rv q = t0.rv q) ∧ (∀ q, t.slot.rk q = t0.rk q) ∧ t.slot.await = none ∧
           t.me.box = s.me.box.erase m) ∧
         (∃ t, Runs (.poll h kind src rd) s t ∧ SameMemory s t ∧ ClosedSlot s t h t0.rv (regs ws) t0.rk 0 ∧
           t.me.box = s.me.box.erase m)) ∧
       (s.peek s.focus.ctx s.focus.lc a = none →
         (∃ t, Runs (.poll h kind src rd) s t ∧ SameMemory s t ∧
           ClosedSlot s t h t0.rv (regs (BitVec.allOnes 64 :: List.replicate 7 0)) t0.rk 0 ∧ t.me.box = s.me.box) ∧
         (∃ t, exec (.recvKeep h kind src rd) s = .next t ∧ t.slot.await = some a ∧ t.slot.pc = t0.pc ∧ t.slot.x = t0.x ∧ t.me.box = s.me.box))) ∧
  (∀ (ctx lc : Nat) (a : Await) (m : Msg) (s : State), s.peek ctx lc a = some m →
       a.matches m = true ∧ ∃ before after : List Msg, (s.core ctx lc).box = before ++ m :: after ∧
         ∀ e ∈ before, ¬ (e.kind = m.kind ∧ e.src = m.src ∧ e.active = false))

/-- R28, R29, R196: `watch` and `unwatch` set and clear the bit of one word of the own store; a doubleword stored by another core of the
cluster into a watched word leaves its bytes and places one WATCH message that names the word. -/
def Obligations.Watches : Prop :=
  ∀ (h : Hd) (ra rb : Reg) (s : State), Fresh s → h.s = true →
    let ctx := s.focus.ctx
    let ea := s.slot.rx ra.val
    (∀ off, ownPlace s.focus.lc ea = some off → off % 8 = 0 → ∀ p ∈ ([(.watch h ra, true), (.unwatch h ra, false)] : List (Instr × Bool)),
      ∃ t, Runs p.1 s t ∧ SameMemory s t ∧ ClosedSlot s t h s.slot.rv s.slot.rx s.slot.rk 0 ∧
        (∀ w, Tab.get false t.me.watch w = if w = off / 8 then p.2 else Tab.get false s.me.watch w) ∧ t.me.box = s.me.box) ∧
    (∀ c off, placeOf s.focus.lc ea = some (.ls c off) → c ≠ s.focus.lc → c < 768 → s.focus.lc < 768 → s.placed ctx c = true → Calm s → s.clearOfRings c off 8 = true →
      off % 8 = 0 → Tab.get false (s.core ctx c).watch (off / 8) = true → s.eventRoom ctx c = true →
      (∀ m ∈ (s.core ctx c).box, m.kind ≠ .watch) →
      ((s.core ctx c).suspended = []) →
      ∃ (t : State) (m : Msg), Runs (.st h .d rb ra 0) s t ∧ SameMemoryBut (lsKey ctx c off) 8 s t ∧
        Mem.bytes t.mem (lsKey ctx c off) 8 = leBytes 8 (s.slot.rx rb.val).toNat ∧
        (t.core ctx c).box = (s.core ctx c).box ++ [m] ∧ m.kind = .watch ∧ m.src = s.focus.lc ∧ m.nan = s.slot.nanread ∧
        m.words = [BitVec.ofNat 64 (0xFE00000000F00000 + off)])

namespace Sys2Proof.Machine

/-- No slot entry of a registered ring lies in `n` bytes from offset `o` of the store of logical core `c` (R311). -/
def clearAt (s : State) (ctx c o n : Nat) : Bool :=
  (s.core ctx c).rings.all (fun base => decide (o + n ≤ base + 64) || decide (base + 192 ≤ o))

/-- The `n` bytes from place `p` pass every check of an access of `need` made as `w`, whatever free values are drawn, and stand in memory
from key `base` up: no host window, no watched word, no page with an access count, for a write no slot entry of a ring. -/
def Open (s : State) (w : Who) (need : Need) (p : Place) (n base : Nat) : Prop :=
  ∃ (l : Option Nat) (o : Nat),
    (match p with
     | .glob va => l = none ∧ o = va
     | .ls c off => l = some c ∧ o = off) ∧
    (∀ d k m, 0 < m → k + m ≤ n →
      ({ s with draws := d } : State).checkPiece w need (p.plus k) m = .ok [{ key := base + k, len := m, off := o + k, ls := l }]) ∧
    (base + n ≤ winBase ∨ winTop ≤ base) ∧
    (l = none → ∀ k m, k < n → s.leaf w.ctx (o + k) = .ok m → m.acnt = 0) ∧
    ∀ c, l = some c → (s.core w.ctx c).watch = [] ∧ (need.writes = true → clearAt s w.ctx c o n = true)

/-- The number that `n` bytes of memory from a key hold. -/
def memNat (s : State) (key n : Nat) : Nat := leNat (Mem.bytes s.mem key n)

/-- Ranges of global memory that stand apart in memory and stay readable and writable as `w` whatever is written into them: each by its
first address, its length and its key. -/
def Arena (s : State) (w : Who) (rs : List (Nat × Nat × Nat)) : Prop :=
  rs.Pairwise (fun a b => a.2.2 + a.2.1 ≤ b.2.2 ∨ b.2.2 + b.2.1 ≤ a.2.2) ∧
  (∀ r ∈ rs, r.1 + r.2.1 ≤ 2 ^ 56) ∧
  ∀ m v, (∀ x, (∀ r ∈ rs, x < r.2.2 ∨ r.2.2 + r.2.1 ≤ x) → Mem.read m x = Mem.read s.mem x) → ∀ r ∈ rs, ∀ need, need = .r ∨ need = .w ∨ need = .rw →
    Open { s with mem := m, versions := v } w need (.glob r.1) r.2.1 r.2.2

/-- No byte of memory changed outside the ranges. -/
def SameMemoryOut (rs : List (Nat × Nat × Nat)) (s t : State) : Prop :=
  ∀ x, (∀ r ∈ rs, x < r.2.2 ∨ r.2.2 + r.2.1 ≤ x) → Mem.read t.mem x = Mem.read s.mem x

/-- The value of a cell after a phase step: the target that the last declaration on it brings over a count of zero, else what stood there,
before the contributions are added (R198, R201). -/
def phaseCell (s : State) (ctx a key : Nat) : Word :=
  let c := s.ctxOf ctx
  let gs := c.guardsNext.filter (fun g => decide (g.cell.toNat = a))
  ((gs.getLast?).map (fun g => BitVec.ofNat 64 (g.target * 2 ^ 32))).getD (BitVec.ofNat 64 (memNat s key 8))

/-- What a message says, beside its number and stamp in its channel. -/
def Msg.says (m : Msg) : Kind × Nat × Bool × List Word := (m.kind, m.src, m.nan, m.words)

end Sys2Proof.Machine

/-- R181, R187, R197, R201, R205: `bar` notes the arrival of its logical core; when every member has arrived, PHASE_STEP brings the target
of every declaration of the phase into its cell, completes every cell of a `pfxadd`, raises the phase by one modulo 2^16 and places the
COUNT messages of the contributions, in the order of their requests, and then one BARRIER message with the new phase for each member. -/
def Obligations.Barrier : Prop :=
  (∀ (h : Hd) (s : State), Fresh s → h.s = true → s.here.cr.det = false → s.here.loop = none →
    ∃ t, Runs (.bar h) s t ∧ SameMemory s t ∧ ClosedSlot s t h s.slot.rv s.slot.rx s.slot.rk 0 ∧
      t.me.arrivals = s.me.arrivals ++ [s.slot.nanread] ∧ t.me.box = s.me.box) ∧
  (∀ (ctx : Nat) (cells : List (Nat × Nat)) (s : State),
    let c := s.ctxOf ctx
    let rs := cells.map (fun e => (e.1, 8, e.2))
    let mine (l : Nat) : List Contrib := c.prefixes.filter (fun p => decide (p.lc = l))
    s.members ctx ≠ [] → (s.members ctx).Nodup → (∀ l ∈ s.members ctx, l < 768) → (∀ l ∈ s.members ctx, (s.core ctx l).arrivals ≠ []) →
    c.waitLists = [] → c.cwatches = [] → c.deferred = [] → c.partials = [] → c.ovfPending = false →
    (∀ p, (s.clock ctx p).toNat + 2 ^ 40 < 2 ^ 47) → c.guardsNext.length ≤ 256 → (c.prefixes.map (·.cell)).eraseDups.length ≤ 256 →
    (∀ g ∈ c.guardsNext, g.target < 2 ^ 32 ∧ g.lc < 768) →
    (cells.map (·.1)).Nodup → (∀ l, l < 768 → Arena s (phaseWho ctx l) rs) → (∀ e ∈ cells, e.1 % 8 = 0) →
    (∀ a : Word, ((∃ g ∈ c.guardsNext, g.cell = a) ∨ ∃ p ∈ c.prefixes, p.cell = a) → ∃ e ∈ cells, e.1 = a.toNat) →
    (∀ p ∈ c.prefixes, p.lc < 768) →
    (∀ l, l < 768 → (s.core ctx l).suspended = [] ∧ (s.core ctx l).box.length + (mine l).length + 1 ≤ 32 + c.ringN) →
    ∃ (t : State) (es : List Deferred), exec (.phaseStep ctx) s = .next t ∧ SameMemoryOut rs s t ∧
      (∀ e ∈ cells, memNat t e.2 8 =
        (phaseCell s ctx e.1 e.2 + ((c.prefixes.filter (fun p => decide (p.cell.toNat = e.1))).map (·.val)).foldl (· + ·) 0).toNat) ∧
      t.slots = s.slots ∧ (t.ctxOf ctx).phase = (c.phase + 1) % 2 ^ 16 ∧ (t.ctxOf ctx).guards = c.guardsNext ∧
      (t.ctxOf ctx).guardsNext = [] ∧ (t.ctxOf ctx).prefixes = [] ∧
      es.Perm (cells.flatMap (fun e =>
        let ps := contribOrder (c.prefixes.filter (fun p => decide (p.cell.toNat = e.1)))
        prefixMsgs (BitVec.ofNat 64 e.1) (phaseCell s ctx e.1 e.2) ((ps.map (·.val)).foldl (· + ·) 0) 0 ps)) ∧
      es.Pairwise (fun a b => a.ticket ≤ b.ticket) ∧
      ∀ l, l < 768 → (t.core ctx l).box.take (s.core ctx l).box.length = (s.core ctx l).box ∧
        ((t.core ctx l).box.drop (s.core ctx l).box.length).map Msg.says =
          ((es.filter (fun d => decide (d.dst = l))).map (fun d => d.msg.says)) ++
            (if l ∈ s.members ctx then [(Kind.bar, l, (s.core ctx l).arrivals.headD false, [BitVec.ofNat 64 ((c.phase + 1) % 2 ^ 16)])] else []) ∧
        (t.core ctx l).arrivals = if l ∈ s.members ctx then (s.core ctx l).arrivals.tail else (s.core ctx l).arrivals)

/-- R198, R200, R201, R205: `cwatch` of a cell that stands reached answers at once with a COUNT message, and else leaves a request; `guard`
and `pfxadd` leave a declaration and a contribution for the next phase step. None changes memory. R205: contributions are taken in
ascending logical core, equals in the order given, and each is answered with the cell's old value plus those before it, their total, and
the new value of the cell. -/
def Obligations.CountCells : Prop :=
  (∀ (h : Hd) (ra rb rc : Reg) (target : BitVec 32) (base : Nat) (s : State), Fresh s → h.s = true → Calm s →
       let c := s.here
       let cell := s.slot.rx ra.val
       let v := leNat (Mem.bytes s.mem base 8)
       cell.toNat % 8 = 0 → cell.toNat < 2 ^ 56 →
       (Mapped s .r cell 8 base → s.eventRoom s.focus.ctx s.focus.lc = true →
         ∃ t, Runs (.cwatch h ra) s t ∧ SameMemoryAt s.focus.ctx s.focus.lc s t ∧ ClosedSlot s t h s.slot.rv s.slot.rx s.slot.rk 0 ∧
           if v / 2 ^ 32 ≠ 0 ∧ v / 2 ^ 32 ≤ v % 2 ^ 32 then
             t.here.cwatches = [] ∧ ∃ m : Msg, t.me.box = s.me.box ++ [m] ∧ m.kind = .count ∧ m.src = s.focus.lc ∧ m.nan = s.slot.nanread ∧
               m.words = [cell, BitVec.ofNat 64 (v / 2 ^ 32)]
           else t.me.box = s.me.box ∧ ∃ q : CWatch, t.here.cwatches = [q] ∧ q.cell = cell ∧ q.lc = s.focus.lc ∧ q.hit = false) ∧
       (let b := (s.slot.rx rb.val).toNat
        let n := (s.slot.rx rc.val).toNat
        b % 48 = 0 → n % 48 = 0 → 0 < n → b + n ≤ 2 ^ 56 → c.guardsNext.length < 256 →
         (∀ g ∈ c.guardsNext, g.base.toNat + g.len.toNat ≤ b ∨ b + n ≤ g.base.toNat) →
         ∃ t, Runs (.guard h ra rb rc target) s t ∧ SameMemory s t ∧ ClosedSlot s t h s.slot.rv s.slot.rx s.slot.rk 0 ∧
           t.here.guardsNext = c.guardsNext ++
             [{ cell := cell, base := s.slot.rx rb.val, len := s.slot.rx rc.val, target := target.toNat, lc := s.focus.lc }] ∧
           t.here.guards = c.guards) ∧
       ((Instr.pfxadd h ra).wf = true → Mapped s .rw cell 8 base → (c.prefixes.map (·.cell)).length < 256 →
         ∃ (t : State) (p : Contrib), Runs (.pfxadd h ra) s t ∧ SameMemory s t ∧ ClosedSlot s t h s.slot.rv s.slot.rx s.slot.rk 0 ∧
           t.here.prefixes = c.prefixes ++ [p] ∧ p.cell = cell ∧ p.lc = s.focus.lc ∧ p.val = s.slot.rx (ra.val + 1) ∧ p.nan = s.slot.nanread)) ∧
  ((∀ (ps : List Contrib), (contribOrder ps).Perm ps ∧ (contribOrder ps).Pairwise (fun a b => a.lc ≤ b.lc) ∧
       ∀ l, (contribOrder ps).filter (fun p => decide (p.lc = l)) = ps.filter (fun p => decide (p.lc = l))) ∧
     (∀ (cell b total : Word) (ps : List Contrib) (i : Nat) (p : Contrib), ps[i]? = some p →
       ∃ d : Deferred, (prefixMsgs cell b total 0 ps)[i]? = some d ∧ d.dst = p.lc ∧ d.msg.src = p.lc ∧ d.msg.kind = .count ∧ d.msg.nan = p.nan ∧
         d.msg.words = [cell, b + ((ps.take i).map (·.val)).foldl (· + ·) 0, total, b + total]))

/-- R151, R159, R160, R161: `xinv` and `drain` change no byte; with nothing on a wait list XINVDONE answers the first with its range, and with
no copy of the core outstanding DRAINDONE answers the second with its path and 0. A release of a page that is mapped queues the records
that waited on it. -/
def Obligations.Invalidates : Prop :=
  (∀ (h : Hd) (ra rb : Reg) (path : Path) (s : State), Fresh s → h.s = true → s.here.cr.det = false → Unpaused s →
    s.eventRoom s.focus.ctx s.focus.lc = true →
    let ctx := s.focus.ctx
    let lc := s.focus.lc
    let base := s.slot.rx ra.val
    let len := s.slot.rx rb.val
    (base.toNat % 65536 = 0 → len ≠ 0 → len.toNat % 65536 = 0 → base.toNat + len.toNat ≤ 2 ^ 56 → s.here.waitLists = [] →
      s.here.xinvs = [] →
      ∃ (t u : State) (m : Msg), Runs (.xinv h ra rb) s t ∧ SameMemory s t ∧ ClosedSlot s t h s.slot.rv s.slot.rx s.slot.rk 0 ∧ t.me.box = s.me.box ∧
        exec (.xinvdone ctx lc) t = .next u ∧ u.here.xinvs = [] ∧ u.me.box = s.me.box ++ [m] ∧ m.kind = .xinvdone ∧ m.src = lc ∧
        m.nan = s.slot.nanread ∧ m.words = [base, len]) ∧
    (s.copiesOf ctx lc = [] → s.here.drains = [] →
      ∃ (t u : State) (m : Msg), Runs (.drain h path) s t ∧ SameMemory s t ∧ ClosedSlot s t h s.slot.rv s.slot.rx s.slot.rk 0 ∧ t.me.box = s.me.box ∧
        exec (.draindone ctx lc) t = .next u ∧ u.here.drains = [] ∧ u.me.box = s.me.box ++ [m] ∧ m.kind = .draindone ∧ m.src = lc ∧
        m.words = [BitVec.ofNat 64 path.code, 0])) ∧
  (∀ (ctx page l : Nat) (q : QEntry) (x : EvReq) (m : Leaf) (s : State), (s.ctxOf ctx).xinvs = [x] → page ∈ x.copies →
    s.leaf ctx (page * 65536) = .ok m → Tab.get [] (s.ctxOf ctx).waitLists page = [.record l q] →
    ∃ (t : State) (r : QEntry), exec (.waitListRelease ctx page) s = .next t ∧ SameMemory s t ∧ t.slots = s.slots ∧
      Tab.get [] (t.ctxOf ctx).waitLists page = [] ∧ (t.core ctx l).ready = (s.core ctx l).ready ++ [r] ∧ r.ref = q.ref ∧ r.cid = q.cid ∧
      (t.ctxOf ctx).xinvs = [{ x with copies := x.copies.erase page }])

/-- R50, R106, R113, R114, R168, R189, R329: what the hardware does for a slot beside its instructions. A slot whose slice has run out saves
its image, counts the pre-emption and is queued; a slot that waits for a pool record goes on when the pool has one; an event that has
waited is placed when its mailbox has a place; R172, R187, R190: a TRAPNOTE of the machine is placed with the number of those dropped, or is
dropped where the supervisor's mailbox is full. -/
def Obligations.SlotSteps : Prop :=
  (∀ (s : State), Idle s → s.slot.mode = .running → s.focus.pos < 8 → s.slot.slice ≠ 0 → s.slot.slice ≤ s.slot.sliceCount →
    s.slot.sup = false → s.slot.pend = none → s.slot.stopReq = .none → s.slot.wait = .none → s.slot.await = none → s.slot.progress = 0 →
    ∃ (t : State) (q : QEntry), exec .preemption s = .next t ∧ Emptied t.slot ∧ t.slot.forced = Nat.min (s.slot.forced + 1) 0xFFFFFFFF ∧
      t.me.ready = s.me.ready ++ [q] ∧ q.image = true ∧ q.ref = s.focus.pos ∧ q.cid = s.slot.cid ∧
      ∀ l, let frame := s.here.imageFrame s.focus.lc s.focus.pos
        s.here.partials = [] → Young s → s.leaf s.focus.ctx frame = .ok l → frame % 65536 + 8192 ≤ 65536 → inHbm l.pa = true →
        Mem.bytes t.mem l.pa 8192 = s.slot.image s.slot.pc ∧ SameMemoryBut l.pa 8192 s t) ∧
  (∀ (s : State), s.slot.mode = .running → s.slot.wait = .pool → s.here.poolFree ≠ [] →
    ∃ t, exec .poolHoldRelease s = .next t ∧ OnlySlot s t ∧ SameMemory s t ∧ t.slot = { s.slot with wait := .none }) ∧
  (∀ (ctx lc : Nat) (d : Deferred) (s : State), (s.ctxOf ctx).deferred = [d] → d.dst = lc → d.msg.kind ≠ .count →
    (s.ctxOf ctx).cwatches = [] → s.eventRoom ctx lc = true → (lc = (s.ctxOf ctx).cr.supcore → (s.ctxOf ctx).notes = []) →
    ∃ (t : State) (m : Msg), exec (.eventDeferredPlace ctx lc) s = .next t ∧ SameMemoryAt ctx lc s t ∧ t.slots = s.slots ∧ (t.ctxOf ctx).deferred = [] ∧
      (t.core ctx lc).box = (s.core ctx lc).box ++ [m] ∧ m.kind = d.msg.kind ∧ m.src = d.msg.src ∧ m.words = d.msg.words ∧ m.nan = d.msg.nan) ∧
  (∀ (ctx : Nat) (n : Msg) (ns : List Msg) (s : State), (s.ctxOf ctx).notes = n :: ns → s.noteHeld ctx n = false →
    let u := (s.ctxOf ctx).cr.supcore
    ∃ t, exec (.eventDeferredPlace ctx u) s = .next t ∧ SameMemoryAt ctx u s t ∧ t.slots = s.slots ∧ (t.ctxOf ctx).notes = ns ∧
      (if s.eventRoom ctx u = true then (t.ctxOf ctx).dropped = 0 ∧
          ∃ m : Msg, (t.core ctx u).box = (s.core ctx u).box ++ [m] ∧ m.kind = n.kind ∧ m.src = n.src ∧
            m.words = n.words ++ [0, 0, 0, BitVec.ofNat 64 (s.ctxOf ctx).dropped]
        else (t.core ctx u).box = (s.core ctx u).box ∧ (t.ctxOf ctx).dropped = Nat.min ((s.ctxOf ctx).dropped + 1) (2 ^ 64 - 1))) ∧
  (∀ (s : State), s.slot.mode = .running → s.slot.parked = true → s.slot.tasks = [] → s.slot.longs = [] → s.slot.stopped = [] →
    s.slot.pend = none → s.slot.stopReq = .none →
    ∃ t, exec .groupClose s = .next t ∧ OnlySlot s t ∧ SameMemory s t ∧ t.slot = { s.slot with parked := false, progress := 0 })

/-- R96, R106, R107: SLOT_GRANT gives slot 0 of an empty core its only ready record: PC, inputs, k1 and status as the record's bytes say,
every other register and the flags zero, in a region that begins there; the record returns to the pool. R98: ACTIVE_MESSAGE starts the handler of the
oldest active message of a core in the service slot: its header and words in x8 to x15, k1 all ones, every other register and the flags
zero; the message leaves the mailbox. That x8 to x15 are the inputs of the handler's region is the model's reading (log 42). -/
def Obligations.SlotGrants : Prop :=
  (∀ (ctx core l : Nat) (q : QEntry) (bs : List Byte) (s : State), l < 768 → s.hosted ctx core = [l] → (s.core ctx l).ready = [q] →
       q.image = false → (∀ p, p < 9 → (s.slotAt { ctx := ctx, lc := l, pos := p }).mode = .free) → (s.ctxOf ctx).stopping l = false →
       Tab.get 0 s.passCount core < 15 → s.engHeld ctx (grantTag q) = false → (s.ctxOf ctx).partials = [] →
       s.peekBytes ctx ((s.ctxOf ctx).recordAddr q.ref) 192 = some bs → Record.badField bs = none →
       (Record.parse bs).cause ≠ 1 → (Record.parse bs).node = 0 →
       let f : Focus := { ctx := ctx, lc := l, pos := 0 }
       let r := Record.parse bs
       ∃ t, exec (.slotGrant ctx core) s = .next t ∧ SameMemory s t ∧ t.focus = s.focus ∧ (t.slotAt f).mode = .running ∧
         (t.slotAt f).pc = r.pc ∧ (t.slotAt f).region = r.pc ∧ (t.slotAt f).rmask = r.mask ∧ (t.slotAt f).cid = q.cid ∧
         (t.slotAt f).nanread = r.nan ∧ (t.slotAt f).prio = r.prio ∧ (t.slotAt f).bind = r.bind ∧ (t.slotAt f).depth = 0 ∧
         (t.slotAt f).older = [] ∧ (t.slotAt f).sup = false ∧ (t.slotAt f).fflags = 0 ∧ (∀ x, (t.slotAt f).rv x = 0) ∧
         (∀ x, (t.slotAt f).rk x = if x = 0 then BitVec.allOnes 48 else if x = 1 then r.k1 else 0) ∧
         (∀ x, r.mask.getLsbD x = false → (t.slotAt f).rx x = 0) ∧
         ((List.range 32).filter (fun x => r.mask.getLsbD x)).map (t.slotAt f).rx = r.live ∧
         (t.core ctx l).ready = [] ∧ (t.ctxOf ctx).poolFree = (s.ctxOf ctx).poolFree ++ [q.ref] ∧
         (∀ g : Focus, g.key ≠ f.key → t.slotAt g = s.slotAt g)) ∧
  (∀ (ctx lc : Nat) (m : Msg) (pc : Word) (s : State), lc < 768 → s.hosted ctx (s.physCore ctx lc) = [lc] → s.placed ctx lc = true →
       (s.slotAt { ctx := ctx, lc := lc, pos := 8 }).mode = .free → (s.ctxOf ctx).stopping lc = false →
       (∀ q ∈ (s.core ctx lc).ready ++ (s.core ctx lc).suspended, q.image = false) →
       (s.ctxOf ctx).partials = [] → (s.core ctx lc).box.find? Msg.active = some m → s.handler ctx m.tag = some pc →
       let f : Focus := { ctx := ctx, lc := lc, pos := 8 }
       ∃ t, exec (.activeMessage ctx lc) s = .next t ∧ SameMemory s t ∧ t.focus = s.focus ∧ (t.slotAt f).mode = .running ∧
         (t.slotAt f).pc = pc ∧ (t.slotAt f).region = pc ∧ (t.slotAt f).sup = false ∧ (t.slotAt f).nanread = m.nan ∧ (t.slotAt f).depth = 0 ∧
         (t.slotAt f).rx 8 = m.header ∧ (∀ q, q < 7 → (t.slotAt f).rx (9 + q) = m.words.getD q 0) ∧
         (∀ q, q < 8 ∨ 15 < q → (t.slotAt f).rx q = 0) ∧ (∀ q, (t.slotAt f).rv q = 0) ∧ (t.slotAt f).fflags = 0 ∧ (t.slotAt f).older = [] ∧
         (∀ q, (t.slotAt f).rk q = if q = 0 ∨ q = 1 then BitVec.allOnes 48 else 0) ∧ (t.slotAt f).rmask = 0xFF00 ∧
         (t.core ctx lc).box = (s.core ctx lc).box.erase m ∧ (∀ g : Focus, g.key ≠ f.key → t.slotAt g = s.slotAt g))

/-- R208: two logical cores whose only continuations wait for messages of each other, for the probe interval, are told to the supervisor by
one DEADLOCK message of the lower: the length of the cycle and its cores. R180: a rebase of the clocks of a context takes one amount,
which the spec leaves open, from every clock and every send stamp of a context at rest, once a clock nears 2^47 (the model's choice, log 20),
and changes nothing before. While a slot of it runs the rebase stops that slot first: after each try every slot of the context that still
runs is being stopped or has a trap raised; as long as one runs, no clock of the context moves and none of its slots takes a continuation, and
with the last one stopped the clocks fall by one amount (how the slots are stopped is the model's choice, log 30). -/
def Obligations.WaitsAndClocks : Prop :=
  (∀ (ctx l m : Nat) (c d : Nat) (s : State), l < m → m < 768 → s.published ctx l = [(c, m)] → s.published ctx m = [(d, l)] →
       s.busy ctx m = false → (Tab.get (0, 0) (s.ctxOf ctx).probed c).2 + (s.ctxOf ctx).probeCycles ≤ s.cycle →
       s.eventRoom ctx (s.ctxOf ctx).cr.supcore = true →
       let u := (s.ctxOf ctx).cr.supcore
       ∃ (t : State) (e : Msg), exec (.waitCycleProbe ctx l) s = .next t ∧ SameMemoryAt ctx u s t ∧ t.slots = s.slots ∧
         (t.core ctx u).box = (s.core ctx u).box ++ [e] ∧ e.kind = .deadlock ∧ e.src = l ∧
         e.words = [2, BitVec.ofNat 64 (l + m * 2 ^ 16 + 0xFFFF00000000 + 0xFFFF000000000000), BitVec.allOnes 64, BitVec.allOnes 64, BitVec.allOnes 64, 0, 0]) ∧
  (∀ (ctx : Nat) (s : State), Tab.wf 0 (s.ctxOf ctx).clocks = true → (s.members ctx).Nodup → (∀ l ∈ s.members ctx, l < 768) →
       ((∀ p, (s.clock ctx p).toNat + 2 ^ 20 < 2 ^ 47) → exec (.clockRebase ctx) s = .next s) ∧
       ((∃ p, 2 ^ 47 ≤ (s.clock ctx p).toNat + 2 ^ 20) →
         ((∀ e ∈ s.slots, e.1 / 16384 = ctx → e.2.mode = .free ∨ e.2.mode = .halted) →
           ∃ (t : State) (n : Nat), exec (.clockRebase ctx) s = .next t ∧ SameMemory s t ∧ t.slots = s.slots ∧ 0 < n ∧
             (∀ p, (t.clock ctx p).toNat = (s.clock ctx p).toNat - n ∧ (t.clock ctx p).toNat + 2 ^ 20 < 2 ^ 47) ∧
             ∀ l ∈ s.members ctx, (t.core ctx l).box = (s.core ctx l).box.map (fun m => { m with stamp := BitVec.ofNat 48 (m.stamp.toNat - n) })) ∧
         (∃ t, exec (.clockRebase ctx) s = .next t ∧
           (∀ f : Focus, f.ctx = ctx → f.lc < 768 → f.pos < 9 → (t.slotAt f).mode = .running → (t.slotAt f).stopReq = .seal ∨ (t.slotAt f).pend ≠ none) ∧
           ((∃ e ∈ t.slots, e.1 / 16384 = ctx ∧ e.2.mode = .running) →
             (∀ p, t.clock ctx p = s.clock ctx p) ∧ ∀ l, (t.ctxOf ctx).stopping l = true) ∧
           ((∀ e ∈ t.slots, e.1 / 16384 = ctx → e.2.mode ≠ .running) →
             ∃ n : Nat, 0 < n ∧ ∀ p, (t.clock ctx p).toNat = (s.clock ctx p).toNat - n ∧ (t.clock ctx p).toNat + 2 ^ 20 < 2 ^ 47))))

namespace Sys2Proof.Machine

/-- Element `j` of width `w` of a vector register as a word of that width. -/
def el (t : Slot) (w : Nat) (r : Reg) (j : Nat) : BitVec w := BitVec.ofNat w (elem w (t.rv r.val) j)

/-- A shift count: the element of the register, or the immediate (R222). -/
def shiftBy (t : Slot) (w : Nat) (b : Src) (j : Nat) : Nat :=
  match b with
  | .reg r => (el t w r j).toNat
  | .imm i => i.toNat

/-- Only integer types. -/
def ifInt {α : Type} (ty : ETy) (x : α) : Option α := if ty.int = true then some x else none

/-- The moduli of a triple (R71). -/
def triple (tr : Fin 4) : List Nat := ([[256, 255, 253], [251, 247, 241], [239, 233, 229], [227, 223, 211]] : List (List Nat)).getD tr.val []

/-- A lane of residues of triple `tr`, each operation modulo its own modulus, bits 31:24 zero (R71, R72, R216). -/
def channels (tr : Fin 4) (g : Int → Int → Int) (a b : Nat) : Nat :=
  let m := triple tr
  (List.range 3).foldl (fun v i => v + 2 ^ (8 * i) * ((g (a / 2 ^ (8 * i) % 256 : Nat) (b / 2 ^ (8 * i) % 256 : Nat)) % (m.getD i 1 : Nat)).toNat) 0

/-- The element-wise arithmetic on integers modulo 2^w or on residues (R216). -/
def arithLanes (h : Hd) (p : Pred) (ty : ETy) (vd va vb : Reg) (f : (w : Nat) → BitVec w → BitVec w → BitVec w) (g : Int → Int → Int) :
    Option (Hd × Pred × Nat × Reg × (Slot → Nat → Nat)) :=
  match ty with
  | .rn3 tr => some (h, p, 32, vd, fun t j => channels tr g (elem 32 (t.rv va.val) j) (elem 32 (t.rv vb.val) j))
  | _ => ifInt ty (h, p, ty.width, vd, fun t j => (f ty.width (el t ty.width va j) (el t ty.width vb j)).toNat)

/-- The lane-wise instructions whose result is a function of bits, with their header, predicate, element width, destination and the value
of element `j` (R216 to R218, R221 to R225). -/
def laneResult : Instr → Option (Hd × Pred × Nat × Reg × (Slot → Nat → Nat))
  | .vadd h p _ ty vd va vb => arithLanes h p ty vd va vb (fun _ a b => a + b) (· + ·)
  | .vsub h p _ ty vd va vb => arithLanes h p ty vd va vb (fun _ a b => a - b) (· - ·)
  | .vmul h p _ ty vd va vb => arithLanes h p ty vd va vb (fun _ a b => a * b) (· * ·)
  | .vmin h p _ ty vd va vb => ifInt ty (h, p, ty.width, vd, fun t j =>
      (if (el t ty.width va j).toInt ≤ (el t ty.width vb j).toInt then el t ty.width va j else el t ty.width vb j).toNat)
  | .vmax h p _ ty vd va vb => ifInt ty (h, p, ty.width, vd, fun t j =>
      (if (el t ty.width va j).toInt ≤ (el t ty.width vb j).toInt then el t ty.width vb j else el t ty.width va j).toNat)
  | .vabs h p ty vd va => some (h, p, ty.width, vd, fun t j =>
      let x := el t ty.width va j
      if ty.int = true then (if x.toInt < 0 then -x else x).toNat else x.toNat % 2 ^ (ty.width - 1))
  | .vneg h p ty vd va => some (h, p, ty.width, vd, fun t j =>
      let x := el t ty.width va j
      (if ty.int = true then -x else x ^^^ BitVec.ofNat ty.width (2 ^ (ty.width - 1))).toNat)
  | .vand h p vd va vb => some (h, p, 32, vd, fun t j => (el t 32 va j &&& el t 32 vb j).toNat)
  | .vor h p vd va vb => some (h, p, 32, vd, fun t j => (el t 32 va j ||| el t 32 vb j).toNat)
  | .vxor h p vd va vb => some (h, p, 32, vd, fun t j => (el t 32 va j ^^^ el t 32 vb j).toNat)
  | .vshl h p ty vd va b => some (h, p, ty.width, vd, fun t j => (el t ty.width va j <<< shiftBy t ty.width b j).toNat)
  | .vshr h p ty vd va b => some (h, p, ty.width, vd, fun t j => (el t ty.width va j >>> shiftBy t ty.width b j).toNat)
  | .vsra h p ty vd va b => some (h, p, ty.width, vd, fun t j => ((el t ty.width va j).sshiftRight (shiftBy t ty.width b j)).toNat)
  | .vfsh h p ty vd va vb vc => some (h, p, ty.width, vd, fun t j =>
      let q := (el t ty.width vc j).toNat % ty.width
      (el t ty.width va j <<< q ||| el t ty.width vb j >>> (ty.width - q)).toNat)
  | .vrot h p vd va b => some (h, p, 32, vd, fun t j => (el t 32 va ((j + 48 - (operand t b).toNat % 48) % 48)).toNat)
  | .vperm h p vd va vb => some (h, p, 32, vd, fun t j =>
      let q := (el t 32 vb j).toNat % 64
      if q < 48 then (el t 32 va q).toNat else 0)
  | .vbcast h p ty vd ra => some (h, p, ty.width, vd, fun t _ => (t.rx ra.val).toNat % 2 ^ ty.width)
  | _ => none

/-- The lane-wise instructions whose result is an exact value rounded once, with their control field, type, destination, exact operation
and operands (R78, R216, R217). -/
def floatResult : Instr → Option (Hd × Pred × Ctl × ETy × Reg × (List FVal → Res) × List Reg)
  | .vadd h p c ty vd va vb => some (h, p, c, ty, vd, op2 (FVal.add c.rm), [va, vb])
  | .vsub h p c ty vd va vb => some (h, p, c, ty, vd, op2 (fun a b => FVal.add c.rm a b.negate), [va, vb])
  | .vmul h p c ty vd va vb => some (h, p, c, ty, vd, op2 FVal.mul, [va, vb])
  | .vfma h p c ty vd va vb vc => some (h, p, c, ty, vd, op3 (FVal.fma c.rm false false), [va, vb, vc])
  | .vfms h p c ty vd va vb vc => some (h, p, c, ty, vd, op3 (FVal.fma c.rm false true), [va, vb, vc])
  | .vfnma h p c ty vd va vb vc => some (h, p, c, ty, vd, op3 (FVal.fma c.rm true false), [va, vb, vc])
  | .vdiv h p c ty vd va vb => some (h, p, c, ty, vd, op2 FVal.div, [va, vb])
  | .vsqrt h p c ty vd va => some (h, p, c, ty, vd, op1 FVal.sqrt, [va])
  | .vrcp h p c ty vd va => some (h, p, c, ty, vd, op1 (FVal.div (.fin false 1 0)), [va])
  | .vrsqrt h p c ty vd va => some (h, p, c, ty, vd, op1 FVal.rsqrt, [va])
  | .vexp2 h p c ty vd va => some (h, p, c, ty, vd, op1 FVal.exp2, [va])
  | .vlog2 h p c ty vd va => some (h, p, c, ty, vd, op1 FVal.log2, [va])
  | .vmin h p c ty vd va vb => some (h, p, c, ty, vd, op2 (FVal.minmax false), [va, vb])
  | .vmax h p c ty vd va vb => some (h, p, c, ty, vd, op2 (FVal.minmax true), [va, vb])
  | _ => none

/-! Numbers as rationals (R67, R74, R78). -/

/-- 2 to an integer power. -/
def pow2 (e : Int) : Rat := if 0 ≤ e then ((2 ^ e.toNat : Nat) : Rat) else 1 / ((2 ^ (-e).toNat : Nat) : Rat)

/-- The number that a finite value stands for. -/
def FVal.rat : FVal → Rat
  | .fin neg m e => (if neg then -1 else 1) * (m : Rat) * pow2 e
  | _ => 0

def ratAbs (v : Rat) : Rat := if v < 0 then -v else v

/-- A result before rounding stands for the exact number `v`: it is `v`, or `v` lies strictly within its last unit, beyond 128 bits. -/
def Res.stands (x : Res) (v : Rat) : Prop :=
  ∃ neg m e, x.val = .fin neg m e ∧ x.flags = 0 ∧ (v < 0 → neg = true) ∧ (0 < v → neg = false) ∧
    (x.sticky = false → (m : Rat) * pow2 e = ratAbs v) ∧
    (x.sticky = true → 2 ^ 128 ≤ m ∧ (m : Rat) * pow2 e < ratAbs v ∧ ratAbs v < ((m + 1 : Nat) : Rat) * pow2 e)

/-- The magnitudes of a format, its exponents taken as unbounded above (R78). -/
def Fmt.grid (f : Fmt) (x : Rat) : Prop :=
  ∃ (k : Nat) (q : Int), k < 2 ^ (f.p + 1) ∧ 1 - (f.bias : Int) - f.p ≤ q ∧ x = (k : Rat) * pow2 q

/-- Adjacent magnitudes of a format. -/
def Fmt.adjacent (f : Fmt) (lo hi : Rat) : Prop := f.grid lo ∧ f.grid hi ∧ lo < hi ∧ ∀ x, f.grid x → x ≤ lo ∨ hi ≤ x

/-- The magnitude that a mode chooses for `v` of magnitude at least `lo` and below `hi`: the table of R78. -/
def chosen (rm : RM) (u : Nat) (v lo hi : Rat) : Rat :=
  let a := ratAbs v
  match rm with
  | .rne => if a - lo < hi - a ∨ a - lo = hi - a ∧ (lo / (hi - lo)).num % 2 = 0 then lo else hi
  | .rtz => lo
  | .rup => if 0 < v ∧ a ≠ lo then hi else lo
  | .rdn => if v < 0 ∧ a ≠ lo then hi else lo
  | .rna => if a - lo < hi - a then lo else hi
  | .rsr => if (u : Int) < ((a - lo) / (hi - lo) * ((2 ^ 32 : Nat) : Rat)).floor then hi else lo

/-- The exact nonzero number `v`, rounded once into a format, gives the code and the flags `out` (R78, R79, R82, R83, R86). An inexact
result that rounds to zero sets underflow (the model's choice, log 73). -/
def RoundsTo (f : Fmt) (r : Rnd) (v : Rat) (out : Nat × FFlags) : Prop :=
  ∀ lo hi, f.adjacent lo hi → lo ≤ ratAbs v → ratAbs v < hi →
    let s := if v < 0 then f.signBit else 0
    let y := chosen r.rm r.u v lo hi
    let least := pow2 (1 - f.bias)
    let top := (f.decode false f.maxCode).rat
    let toInf := f.sat = false ∧ (r.rm = .rne ∨ r.rm = .rna ∨ r.rm = .rsr ∨ (r.rm = .rup ∧ 0 < v) ∨ (r.rm = .rdn ∧ v < 0))
    (y ≤ top → r.ftz = true → 0 < y → y < least → out = (s, FFlags.underflow ||| FFlags.inexact)) ∧
    (y ≤ top → (r.ftz = false ∨ y = 0 ∨ least ≤ y) → ∃ c, out =
        (s + c, if y = ratAbs v then 0 else if y < least then FFlags.underflow ||| FFlags.inexact else FFlags.inexact) ∧
      c ≤ f.maxCode ∧ (f.decode false c).isNan = false ∧ (f.decode false c).rat = y) ∧
    (top < y → toInf → out = (s + f.emax * 2 ^ f.p, FFlags.overflow ||| FFlags.inexact)) ∧
    (top < y → ¬ toInf → out = (s + f.maxCode, FFlags.overflow ||| FFlags.inexact))

/-- What `vcvt` makes of element `j`, code `a`: a code and flags. Floating results are the exact value rounded once; integers from floating
values are rounded to an integer and saturate; residues are those of the integer (R71 to R73, R77, R80, R85 to R88, R227). -/
def Converted (t : Slot) (c : Ctl) (dst src : ETy) (j a : Nat) (out : Nat × FFlags) : Prop :=
  let r : Rnd := ⟨c.rm, c.ftz, if c.rm = .rsr then stochWord t.key t.rsrN j else 0⟩
  let n := dst.width
  let least : Int := -(2 ^ (n - 1) : Nat)
  let most : Int := (2 ^ (n - 1) - 1 : Nat)
  let code (z : Int) : Nat := (BitVec.ofInt n z).toNat
  let z := (BitVec.ofNat src.width a).toInt
  (∀ f g, fmtOf t.nanread src = some f → fmtOf t.nanread dst = some g →
    let v := f.decode c.daz a
    (v.isNan = true → out =
      if g.top = .none then (0, FFlags.invalid ||| FFlags.inexact) else (g.canon, if v.isSig = true then FFlags.invalid else 0)) ∧
    (∀ neg, v = .inf neg → out = ((if neg then g.signBit else 0) + (if g.top = .ieee then g.emax * 2 ^ g.p else g.maxCode),
      if g.top = .ieee then 0 else FFlags.overflow ||| FFlags.inexact)) ∧
    (∀ neg m e, v = .fin neg m e → if v.rat = 0 then out = (if neg then g.signBit else 0, 0) else RoundsTo g r v.rat out)) ∧
  (∀ f, fmtOf t.nanread src = some f → dst.int = true →
    let v := f.decode c.daz a
    (v.isNan = true → out = (0, FFlags.invalid)) ∧
    (∀ neg, v = .inf neg → out = (code (if neg then least else most), FFlags.invalid)) ∧
    (∀ neg m e, v = .fin neg m e →
      let lo : Int := (ratAbs v.rat).floor
      let y := chosen c.rm r.u v.rat (lo : Rat) ((lo + 1 : Int) : Rat)
      ∃ k : Int, (k : Rat) = (if v.rat < 0 then -y else y) ∧
        out = if k < least then (code least, FFlags.invalid) else if most < k then (code most, FFlags.invalid)
          else (code k, if (k : Rat) = v.rat then 0 else FFlags.inexact))) ∧
  (∀ g, src.int = true → fmtOf t.nanread dst = some g → if z = 0 then out = (0, 0) else RoundsTo g r (z : Rat) out) ∧
  (src.int = true → dst.int = true → out = (code (max least (min most z)), 0)) ∧
  (∀ tr, dst = .rn3 tr → src.int = true →
    let big := (triple tr).foldl (· * ·) 1
    out.1 < 2 ^ 24 ∧ (∀ i, i < 3 → ((out.1 / 2 ^ (8 * i) % 256 : Nat) : Int) = z % ((triple tr).getD i 1 : Nat)) ∧
    out.2 = if -((big / 2 : Nat) : Int) ≤ z ∧ z < (((big + 1) / 2 : Nat) : Int) then 0 else FFlags.overflow) ∧
  (∀ tr, src = .rn3 tr → dst.int = true →
    let big := (triple tr).foldl (· * ·) 1
    ∃ k : Int, out = (code k, 0) ∧ -((big / 2 : Nat) : Int) ≤ k ∧ k < (((big + 1) / 2 : Nat) : Int) ∧
      ∀ i, i < 3 → k % ((triple tr).getD i 1 : Nat) = ((a / 2 ^ (8 * i) % 256 : Nat) : Int) % ((triple tr).getD i 1 : Nat))

/-- The order of two values that are not NaN; both zeros are equal (R219). -/
def FVal.less : FVal → FVal → Prop
  | .nan _, _ | _, .nan _ => False
  | .inf a, .inf b => a = true ∧ b = false
  | .inf a, .fin _ _ _ => a = true
  | .fin _ _ _, .inf b => b = false
  | .fin a m e, .fin b n q => (FVal.fin a m e).rat < (FVal.fin b n q).rat

/-- The order of `min`, `max` and `vtopk`: −0 stands below +0 (R83, R230). -/
def FVal.under (x y : FVal) : Prop :=
  x.less y ∨ (∃ m n e q, x = .fin true m e ∧ y = .fin false n q ∧ x.rat = 0 ∧ y.rat = 0)

/-- The value of a code without its sign. -/
def FVal.size : FVal → FVal
  | .nan g => .nan g
  | .inf _ => .inf false
  | .fin _ m e => .fin false m e

/-- A condition between two floating values: a NaN makes `.ne` true and every other false (R219). -/
def fltTrue (c : Cond) (x y : FVal) : Prop :=
  if x.isNan = true ∨ y.isNan = true then c = .ne
  else
    match c with
    | .eq => ¬ x.less y ∧ ¬ y.less x
    | .ne => x.less y ∨ y.less x
    | .lt | .ltu => x.less y
    | .ge | .geu => ¬ x.less y
    | .le | .leu => ¬ y.less x
    | .gt | .gtu => y.less x

/-- One operation of a floating instruction on two codes, with element number `e` for RSR (R78, R80, R82). -/
def rounded (t : Slot) (fm : Fmt) (c : Ctl) (op : FVal → FVal → Res) (e a b : Nat) : Nat × FFlags :=
  fm.encode ⟨c.rm, c.ftz, if c.rm = .rsr then stochWord t.key t.rsrN e else 0⟩ (op (fm.decode c.daz a) (fm.decode c.daz b))

/-- A combination of a reduction: an absent operand passes the other (R93). -/
def joined (f : Nat → Nat → Nat → Nat × FFlags) (e : Nat) : Option Nat → Option Nat → Option Nat × FFlags
  | some a, some b => (some (f e a b).1, (f e a b).2)
  | some a, none => (some a, 0)
  | none, b => (b, 0)

/-- The levels of the reduction tree of R92 over 3·2^k values, the combinations numbered from `e` (R228). -/
def levels (f : Nat → Nat → Nat → Nat × FFlags) : Nat → Nat → List (Option Nat) → Option Nat × FFlags
  | 0, e, l =>
    let x := joined f e (l.getD 0 none) (l.getD 1 none)
    let y := joined f (e + 1) x.1 (l.getD 2 none)
    (y.1, x.2 ||| y.2)
  | k + 1, e, l =>
    let next := (List.range (3 * 2 ^ k)).map (fun j => joined f (e + j) (l.getD (2 * j) none) (l.getD (2 * j + 1) none))
    let r := levels f k (e + 3 * 2 ^ k) (next.map (·.1))
    (r.1, (next.map (·.2)).foldl (· ||| ·) 0 ||| r.2)

/-- The inclusive prefix of a scan at element `j`: the elements up to it from the first on, element i's combination numbered i (R229). -/
def prefixAt (f : Nat → Nat → Nat → Nat × FFlags) (es : List (Option Nat)) (j : Nat) : Option Nat × FFlags :=
  (List.range (j + 1)).foldl (fun acc i => let r := joined f i acc.1 (es.getD i none); (r.1, acc.2 ||| r.2)) (none, 0)

/-- The operation of a floating reduction, and what it gives where no element is active (R93). -/
def foldOp (rm : RM) : ROp → Option (FVal → FVal → Res)
  | .add => some (FVal.add rm)
  | .min => some (FVal.minmax false)
  | .max => some (FVal.minmax true)
  | _ => none
def emptyFloat (fm : Fmt) : ROp → Nat
  | .min => fm.emax * 2 ^ fm.p
  | .max => fm.signBit + fm.emax * 2 ^ fm.p
  | _ => 0

/-- The value that a reduction with no active element gives (R93), for the integer types. -/
def emptyFold (op : ROp) (w : Nat) : Nat :=
  match op with
  | .add | .or | .xor | .maxu => 0
  | .and | .minu => 2 ^ w - 1
  | .min => 2 ^ (w - 1) - 1
  | .max => 2 ^ (w - 1)

/-- A list of elements combined from its first on. -/
def folded (op : ROp) (w : Nat) (es : List Nat) : Nat :=
  match es with
  | [] => emptyFold op w
  | a :: r => r.foldl (fun x y => atomicResult (.rop op) (w / 8) x y) a

end Sys2Proof.Machine

/-- R212, R216 to R218, R221 to R225: each active element of vd takes the value of the table, of integers, bits or residues, each other keeps
its own; no flag is set and nothing else changes. -/
def Obligations.LaneIntegers : Prop :=
  ∀ (i : Instr) (h : Hd) (p : Pred) (w : Nat) (vd : Reg) (f : Slot → Nat → Nat) (s : State), i.wf = true →
    laneResult i = some (h, p, w, vd, f) → Fresh s → h.s = true →
    ∃ (t : State) (v : VReg), Issues i s t ∧ Closed s t h (setTo vd.val v s.slot.rv) s.slot.rx s.slot.rk 0 ∧
      ∀ j, j < 1536 / w → elem w v j = if onLane s.slot p w j then f s.slot j else elem w (s.slot.rv vd.val) j

/-- R75, R78, R80, R83, R216, R217: each active element of a floating type is the exact result of its operation on the operands as read under
D and the slot's reading, rounded once under RM, and the flags of the active elements are ORed into `sys.fflags`. R67, R78, R79, R82, R83, R86: what a code stands
for; sums, products, fused and divided results, roots and extremes stand for the exact result; and the code and flags that a result rounds to. An
inexact result that rounds to zero sets underflow (the model's choice, log 73). `vexp2` of an integer and `vlog2` of a power of two stand for the
exact result; for every other operand the bits that they are rounded from, `FVal.exp2` and `FVal.log2`, are the model's choice (log 57), and the
first part says only that these are rounded once. -/
def Obligations.LaneFloats : Prop :=
  (∀ (i : Instr) (h : Hd) (p : Pred) (c : Ctl) (ty : ETy) (vd : Reg) (op : List FVal → Res) (args : List Reg) (fm : Fmt) (s : State),
    i.wf = true → floatResult i = some (h, p, c, ty, vd, op, args) → ty.flt = true → fmtOf s.slot.nanread ty = some fm → Fresh s → h.s = true →
    let w := ty.width
    let r (j : Nat) : Nat × FFlags :=
      fm.encode ⟨c.rm, c.ftz, if c.rm = .rsr then stochWord s.slot.key s.slot.rsrN j else 0⟩
        (op (args.map (fun q => fm.decode c.daz (elem w (s.slot.rv q.val) j))))
    ∃ (t : State) (v : VReg), Issues i s t ∧
      Closed s t h (setTo vd.val v s.slot.rv) s.slot.rx s.slot.rk
        (((List.range (1536 / w)).filter (fun j => onLane s.slot p w j)).foldl (fun f j => f ||| (r j).2) 0) ∧
      ∀ j, j < 1536 / w → elem w v j = if onLane s.slot p w j then (r j).1 % 2 ^ w else elem w (s.slot.rv vd.val) j) ∧
  (∀ (f : Fmt) (nan : Bool) (ty : ETy), fmtOf nan ty = some f →
    (∀ c, c < 2 * f.signBit → ∀ daz,
       let e := c / 2 ^ f.p % 2 ^ f.eb
       let m := c % 2 ^ f.p
       let sign : Rat := if f.signBit ≤ c then -1 else 1
       (e = 0 → (f.decode daz c).isNan = false ∧ (f.decode daz c).rat = sign * ((if daz then 0 else m : Nat) : Rat) * pow2 (1 - f.bias - f.p)) ∧
       (0 < e → e < f.emax → (f.decode daz c).isNan = false ∧ (f.decode daz c).rat = sign * ((2 ^ f.p + m : Nat) : Rat) * pow2 (e - f.bias - f.p))) ∧
    (∀ (r : Rnd) (x : Res) (v : Rat), r.u < 2 ^ 32 → x.stands v → v ≠ 0 → RoundsTo f r v (f.encode r x))) ∧
  (∀ (rm : RM) (a b d : FVal) (np nd : Bool), (∃ n m e, a = .fin n m e) → (∃ n m e, b = .fin n m e) → (∃ n m e, d = .fin n m e) →
    (FVal.add rm a b).stands (a.rat + b.rat) ∧
    (a.rat + b.rat = 0 → (FVal.add rm a b).val.neg? = if a.neg? = b.neg? then a.neg? else decide (rm = .rdn)) ∧
    (FVal.mul a b).stands (a.rat * b.rat) ∧ (FVal.mul a b).val.neg? = (a.neg? != b.neg?) ∧
    (FVal.fma rm np nd a b d).stands ((if np then -(a.rat * b.rat) else a.rat * b.rat) + (if nd then -d.rat else d.rat)) ∧
    (b.rat ≠ 0 → (FVal.div a b).stands (a.rat / b.rat)) ∧
    (b.rat = 0 → a.rat ≠ 0 → FVal.div a b = ⟨.inf (a.neg? != b.neg?), false, FFlags.divzero⟩) ∧
    (b.rat = 0 → a.rat = 0 → FVal.div a b = .invalid) ∧
    (∀ big, ∃ y, FVal.minmax big a b = .exact y ∧ (y = a ∨ y = b) ∧
      (if big then ¬ y.under a ∧ ¬ y.under b else ¬ a.under y ∧ ¬ b.under y))) ∧
  (∀ (m : Nat) (e : Int), 0 < m → ∀ p ∈ ([(FVal.sqrt (.fin false m e), (FVal.fin false m e).rat), (FVal.rsqrt (.fin false m e), 1 / (FVal.fin false m e).rat)] :
      List (Res × Rat)), ∃ (n : Nat) (q : Int) (k : Bool), p.1 = ⟨.fin false n q, k, 0⟩ ∧ (k = true → 2 ^ 128 ≤ n) ∧
        (k = false → (n : Rat) * pow2 q * ((n : Rat) * pow2 q) = p.2) ∧
        (k = true → (n : Rat) * pow2 q * ((n : Rat) * pow2 q) < p.2 ∧ p.2 < ((n + 1 : Nat) : Rat) * pow2 q * (((n + 1 : Nat) : Rat) * pow2 q))) ∧
  (∀ (neg : Bool) (m : Nat) (e n : Int), n.natAbs ≤ 2000 →
    ((FVal.fin neg m e).rat = (n : Rat) → (FVal.exp2 (.fin neg m e)).stands (pow2 n)) ∧
    ((FVal.fin neg m e).rat = pow2 n → (FVal.log2 (.fin neg m e)).stands (n : Rat)))

/-- R212, R219 to R221, R225: `vlop3` by its table bit by bit; `vsel` by its selector; `vext` and `vins` of one element; `vcmp` of integers
and of floats, whose lane bit holds when all the lane's elements meet the condition, written where the predicate is on. -/
def Obligations.LaneMoves : Prop :=
  ∀ (h : Hd) (p : Pred) (c : Ctl) (cond : Cond) (ty : ETy) (kd : Reg8) (vd va vb vc ra rd : Reg) (table : BitVec 8) (e : Nat) (s : State),
    Fresh s → h.s = true →
    let t0 := s.slot
    let w := ty.width
    (∃ (t : State) (v : VReg), Issues (.vlop3 h p vd va vb vc table) s t ∧ Closed s t h (setTo vd.val v t0.rv) t0.rx t0.rk 0 ∧
      ∀ j q, j < 48 → q < 32 → v.getLsbD (32 * j + q) =
        if onLane t0 p 32 j then
          table.getLsbD (4 * ((el t0 32 va j).getLsbD q).toNat + 2 * ((el t0 32 vb j).getLsbD q).toNat + ((el t0 32 vc j).getLsbD q).toNat)
        else (t0.rv vd.val).getLsbD (32 * j + q)) ∧
    (∃ (t : State) (v : VReg), Issues (.vsel h p ty vd va vb) s t ∧ Closed s t h (setTo vd.val v t0.rv) t0.rx t0.rk 0 ∧
      ∀ j, j < 1536 / w → elem w v j = if onLane t0 p w j then elem w (t0.rv va.val) j else elem w (t0.rv vb.val) j) ∧
    ((Instr.vext h ty rd va e).wf = true → ∃ t, Issues (.vext h ty rd va e) s t ∧
      Closed s t h t0.rv (setX rd.val (if ty.int = true then (el t0 w va e).signExtend 64 else BitVec.ofNat 64 (elem w (t0.rv va.val) e)) t0.rx) t0.rk 0) ∧
    ((Instr.vins h ty vd ra e).wf = true → ∃ (t : State) (v : VReg), Issues (.vins h ty vd ra e) s t ∧ Closed s t h (setTo vd.val v t0.rv) t0.rx t0.rk 0 ∧
      ∀ j, j < 1536 / w → elem w v j = if j = e then (t0.rx ra.val).toNat % 2 ^ w else elem w (t0.rv vd.val) j) ∧
    (ty.int = true → ∃ (t : State) (k : PReg), Issues (.vcmp h p c cond ty kd va vb) s t ∧ Closed s t h t0.rv t0.rx (setK kd.val k t0.rk) 0 ∧
      ∀ i, i < 48 →
        let on := onLane t0 p 32 i = true ∧ (w = 64 → onLane t0 p 64 (i / 2) = true)
        (on → (k.getLsbD i = true ↔ ∀ j, j < 1536 / w → w * j / 32 = (if w = 64 then i / 2 * 2 else i) →
          condTrue cond ((el t0 w va j).signExtend 64) ((el t0 w vb j).signExtend 64))) ∧
        (¬ on → k.getLsbD i = (t0.rk kd.val).getLsbD i)) ∧
    (∀ fm, ty.flt = true → fmtOf t0.nanread ty = some fm →
      let x (r : Reg) (j : Nat) : FVal := fm.decode c.daz (elem w (t0.rv r.val) j)
      ∃ (t : State) (k : PReg), Issues (.vcmp h p c cond ty kd va vb) s t ∧
        Closed s t h t0.rv t0.rx (setK kd.val k t0.rk) (if ∃ j, j < 1536 / w ∧ onLane t0 p w j = true ∧ ((x va j).isSig = true ∨ (x vb j).isSig = true)
          then FFlags.invalid else 0) ∧
        ∀ i, i < 48 →
          let on := onLane t0 p 32 i = true ∧ (w = 64 → onLane t0 p 64 (i / 2) = true)
          (on → (k.getLsbD i = true ↔ ∀ j, j < 1536 / w → w * j / 32 = (if w = 64 then i / 2 * 2 else i) → fltTrue cond (x va j) (x vb j))) ∧
          (¬ on → k.getLsbD i = (t0.rk kd.val).getLsbD i))

/-- R85 to R88, R226, R227: `vcvt` converts n elements, n being 1536 over the larger of the widths and 32, and leaves the other bits of vd; the
flags of the active conversions are ORed into `sys.fflags`. Each result is told from the exact value: a floating one is that value rounded once,
an integer one the value rounded to an integer and saturated, a residue one its residues, one from residues the integer they stand for. An inexact
result that rounds to zero sets underflow (the model's choice, log 73). -/
def Obligations.Conversions : Prop :=
  ∀ (h : Hd) (p : Pred) (c : Ctl) (dst src : ETy) (vd va : Reg) (s : State), (Instr.vcvt h p c dst src vd va).wf = true → Fresh s → h.s = true →
    let t0 := s.slot
    let aw := Nat.max (Nat.max dst.width src.width) 32
    ∃ (t : State) (v : VReg) (r : Nat → Nat × FFlags), Issues (.vcvt h p c dst src vd va) s t ∧
      Closed s t h (setTo vd.val v t0.rv) t0.rx t0.rk
        (((List.range (1536 / aw)).filter (fun j => onLane t0 p aw j)).foldl (fun f j => f ||| (r j).2) 0) ∧
      (∀ j, j < 1536 / dst.width → elem dst.width v j =
        if j < 1536 / aw ∧ onLane t0 p aw j = true then (r j).1 % 2 ^ dst.width else elem dst.width (t0.rv vd.val) j) ∧
      ∀ j, j < 1536 / aw → Converted t0 c dst src j (elem src.width (t0.rv va.val) j) (r j)

/-- R92, R93, R228, R229: `vred` on integers gives every element the combination of the active elements, and `vscan` element j that of the
active elements up to j; none active gives the identity. On floats `vred` follows the tree of R92 and `vscan` ascending order, each
combination rounded and flagged. -/
def Obligations.IntegerFolds : Prop :=
  (∀ (h : Hd) (p : Pred) (c : Ctl) (op : ROp) (ty : ETy) (vd va : Reg) (s : State), ty.int = true → Fresh s → h.s = true →
    let t0 := s.slot
    let w := ty.width
    let upTo (n : Nat) : List Nat := ((List.range n).filter (fun j => onLane t0 p w j)).map (fun j => elem w (t0.rv va.val) j)
    (∃ (t : State) (v : VReg), Issues (.vred h p c op ty vd va) s t ∧ Closed s t h (setTo vd.val v t0.rv) t0.rx t0.rk 0 ∧
      ∀ j, j < 1536 / w → elem w v j = folded op w (upTo (1536 / w))) ∧
    (∃ (t : State) (v : VReg), Issues (.vscan h p c op ty vd va) s t ∧ Closed s t h (setTo vd.val v t0.rv) t0.rx t0.rk 0 ∧
      ∀ j, j < 1536 / w → elem w v j = folded op w (upTo (j + 1)))) ∧
  (∀ (h : Hd) (p : Pred) (c : Ctl) (op : ROp) (ty : ETy) (vd va : Reg) (fm : Fmt) (g : FVal → FVal → Res) (s : State), ty.flt = true →
    foldOp c.rm op = some g → fmtOf s.slot.nanread ty = some fm → Fresh s → h.s = true →
    let t0 := s.slot
    let w := ty.width
    let es : List (Option Nat) := (List.range (1536 / w)).map (fun j => if onLane t0 p w j then some (elem w (t0.rv va.val) j) else none)
    let f (e a b : Nat) : Nat × FFlags := rounded t0 fm c g e a b
    let whole := levels f (Nat.log2 (1536 / w / 3)) 0 es
    let last := prefixAt f es (1536 / w - 1)
    (∃ (t : State) (v : VReg), Issues (.vred h p c op ty vd va) s t ∧ Closed s t h (setTo vd.val v t0.rv) t0.rx t0.rk whole.2 ∧
      ∀ j, j < 1536 / w → elem w v j = whole.1.getD (emptyFloat fm op)) ∧
    (∃ (t : State) (v : VReg), Issues (.vscan h p c op ty vd va) s t ∧ Closed s t h (setTo vd.val v t0.rv) t0.rx t0.rk last.2 ∧
      ∀ j, j < 1536 / w → elem w v j = (prefixAt f es j).1.getD (emptyFloat fm op)))

/-- R230, R231: `vtopk` lists the active elements of greatest value, equals by index, and all ones beyond them: integers are signed, of
floats every NaN stands above +∞ and −0 below +0. `vsparse` keeps of each four elements the two of greatest magnitude, of equals the lower
index, their values to vd and their indices, the lower first, to vc; the rest of both registers is zero. -/
def Obligations.Selections : Prop :=
  ∀ (h : Hd) (p : Pred) (c : Ctl) (ty : ETy) (vd va vc : Reg) (n : Nat) (s : State), Fresh s → h.s = true →
    let t0 := s.slot
    let w := ty.width
    let on (j : Nat) : Bool := onLane t0 p w j
    let value (daz : Bool) (a : Nat) : FVal := ((fmtOf t0.nanread ty).map (fun fm => fm.decode daz a)).getD (.nan false)
    ((Instr.vtopk h p c ty vd va n).wf = true →
      let above (a b : Nat) : Prop :=
        if ty.int = true then (el t0 w va b).toInt < (el t0 w va a).toInt
        else
          let x := value c.daz (elem w (t0.rv va.val) a)
          let y := value c.daz (elem w (t0.rv va.val) b)
          y.isNan = false ∧ (x.isNan = true ∨ y.under x)
      let ahead (a b : Nat) : Prop := above a b ∨ (¬ above b a ∧ a < b)
      ∃ (t : State) (v : VReg) (ks : List Nat), Issues (.vtopk h p c ty vd va n) s t ∧ Closed s t h (setTo vd.val v t0.rv) t0.rx t0.rk 0 ∧
        ks.length = Nat.min n ((List.range (1536 / w)).filter on).length ∧ ks.Nodup ∧ (∀ k ∈ ks, k < 1536 / w ∧ on k = true) ∧
        ks.Pairwise ahead ∧ (∀ j, j < 1536 / w → on j = true → j ∉ ks → ∀ k ∈ ks, ahead k j) ∧
        ∀ i, i < 48 → elem 32 v i = ks.getD i 0xFFFFFFFF) ∧
    ((Instr.vsparse h p ty vd vc va).wf = true →
      let a (j : Nat) : Nat := if on j then elem w (t0.rv va.val) j else 0
      let above (x y : Nat) : Prop :=
        if ty.int = true then (BitVec.ofNat w y).toInt.natAbs < (BitVec.ofNat w x).toInt.natAbs
        else (value false y).isNan = false ∧ ((value false x).isNan = true ∨ (value false y).size.less (value false x).size)
      let g := 1536 / w / 4
      ∃ (t : State) (v m : VReg), Issues (.vsparse h p ty vd vc va) s t ∧ Closed s t h (setTo vc.val m (setTo vd.val v t0.rv)) t0.rx t0.rk 0 ∧
        (∀ i, i < g → ∃ x y : Nat, x < y ∧ y < 4 ∧ elem 4 m i = x + 4 * y ∧ elem w v (2 * i) = a (4 * i + x) ∧ elem w v (2 * i + 1) = a (4 * i + y) ∧
          ∀ z, z < 4 → z ≠ x → z ≠ y → ∀ k, k = x ∨ k = y →
            above (a (4 * i + k)) (a (4 * i + z)) ∨ (¬ above (a (4 * i + z)) (a (4 * i + k)) ∧ k < z)) ∧
        (∀ j, 2 * g ≤ j → j < 1536 / w → elem w v j = 0) ∧ ∀ q, 4 * g ≤ q → m.getLsbD q = false)

namespace Sys2Proof.Machine

/-- Row `r` of accumulator `an` of a logical core (R239). -/
def accRow (c : LCore) (an r : Nat) : VReg := Tab.get 0 c.accs (48 * an + r)

/-- The byte at offset `o` of the own store of the slot in focus. -/
def own (s : State) (o : Nat) : Byte := Mem.read s.mem (lsKey s.focus.ctx s.focus.lc o)

/-- The number that `n` bytes at offset `o` of the own store hold. -/
def ownNat (s : State) (o n : Nat) : Nat := leNat (Mem.bytes s.mem (lsKey s.focus.ctx s.focus.lc o) n)

/-- An address of the own store at which a panel of `n` bytes fits (R245). -/
def PanelAt (s : State) (a : Word) (o n : Nat) : Prop := ownPlace s.focus.lc a = some o ∧ o % 16 = 0 ∧ o + n ≤ lsSize

/-- A sum over the numbers below `n`. -/
def sumTo (n : Nat) (f : Nat → Int) : Int := (List.range n).foldl (fun z k => z + f k) 0

/-- The code of element `j` of width `w` from offset `o` of the own store (R244; two of width 4 to a byte, R69). -/
def storeCode (s : State) (o w j : Nat) : Nat := ownNat s (o + w * j / 8) ((w + 7) / 8) / 2 ^ (w * j % 8) % 2 ^ w

/-- A value under an E8M0 scale (R68, R69). -/
def underScale (sc : Nat) (v : FVal) : FVal :=
  match v with
  | .fin n m e => if sc = 255 then .nan false else .fin n m (e + sc - 127)
  | x => x

/-- The value of element `j` of row `r` of a floating panel at offset `o` whose rows have `n` elements; for MXFP4 the scale array follows,
`k / 32` scales to a row, each for `per` elements (R69, R244, R247). -/
def matVal (s : State) (fm : Fmt) (ty : ETy) (o n k per r j : Nat) : FVal :=
  let w := ty.width
  let v := fm.decode false (storeCode s (o + r * (w * n / 8)) w j)
  if ty = .mx4 then underScale (ownNat s (o + 48 * (w * n / 8) + r * (k / 32) + j / per) 1) v else v

/-- The products of one k-block of `mma`, dense positions `k0` to `k1 - 1` of row `r` of A and column `c` (R90, R246). -/
def denseTerms (s : State) (fm : Fmt) (ty : ETy) (oa ob k r c k0 k1 : Nat) : List Res :=
  (List.range (k1 - k0)).map (fun q => FVal.mul (matVal s fm ty oa k k 32 r (k0 + q)) (matVal s fm ty ob k k 32 c (k0 + q)))

/-- The products of one k-block of `mmas`, with the metadata at offset `om` (R90, R247). -/
def keptTerms (s : State) (fm : Fmt) (ty : ETy) (oa ob om k r c k0 k1 : Nat) : List Res :=
  (List.range ((k1 - k0) / 4)).flatMap (fun q =>
    let g := k0 / 4 + q
    let nib := ownNat s (om + r * (k / 8) + g / 2) 1 / 16 ^ (g % 2) % 16
    [FVal.mul (matVal s fm ty oa (k / 2) k 16 r (2 * g)) (matVal s fm ty ob k k 32 c (4 * g + nib % 4)),
     FVal.mul (matVal s fm ty oa (k / 2) k 16 r (2 * g + 1)) (matVal s fm ty ob k k 32 c (4 * g + nib / 4))])

/-- The dense positions of a k-block (R90). -/
def blockOf (ty : ETy) : Nat := if ty = .mx4 then 64 else if ty.width = 8 then 32 else 16

/-- An FP32 element after its k-blocks, each one exact sum rounded once, with the flags of the roundings (R90, R246). -/
def blocked (ty : ETy) (k e : Nat) (terms : Nat → Nat → List Res) : Nat × FFlags :=
  let l := blockOf ty
  (List.range ((k + l - 1) / l)).foldl (fun a b =>
    let x := f32Fmt.encode ⟨.rne, false, 0⟩ (sumExact (.exact (f32Fmt.decode false a.1) :: terms (b * l) (Nat.min k ((b + 1) * l))))
    (x.1 % 2 ^ 32, a.2 ||| x.2)) (e, 0)

/-- Unit `u` of the physical core of the slot in focus takes no instruction of another slot, and the matrix unit (9) no remote command that was
accepted earlier, before its own (R238, R254, R266). -/
def UnitFree (s : State) (u : Nat) : Prop :=
  let core := s.physCore s.focus.ctx s.focus.lc
  s.rivals s.focus.ctx core u s.focus = [] ∧ (u = 9 → s.commandAhead s.focus.ctx core s.cycle none = false)

end Sys2Proof.Machine

/-- R239 to R243, R249, R250: a free accumulator is granted with zero rows, a held one answers 0 to its holder and 1 to another, `afree` gives
up only what is held; `azero`, `awr` and `rnsred` rewrite the rows they name and `ard` reads one, for the holder; on an RN3 type `awr` splits
each lane into the three channels and `ard` composes it of them, each reduced by its modulus. R251: `ald` fills an
accumulator from 9216 bytes of local store, row by row, and `ast` stores it there. -/
def Obligations.Accumulators : Prop :=
  (∀ (h : Hd) (rd vd va rb : Reg) (an : Reg8) (tr : Fin 4) (s : State), Fresh s → h.s = true → s.here.cr.det = false → s.slot.cid ≠ 0 →
       let t0 := s.slot
       let a := an.val
       let holder (c : LCore) (b : Nat) : Nat := Tab.get 0 c.holders b
       let closed (t : State) (v : Nat → VReg) (x : Nat → Word) : Prop := SameMemory s t ∧ ClosedSlot s t h v x t0.rk 0 ∧
         (∀ f : Focus, f.key ≠ s.focus.key → t.slotAt f = s.slotAt f)
       let rowsBut (t : State) (as : List Nat) : Prop := ∀ b r, b ∉ as → r < 48 → accRow t.me b r = accRow s.me b r
       (holder s.me a = 0 → s.granted a = false →
         ∃ t, Issues (.aalloc h rd an) s t ∧ closed t t0.rv (setX rd.val 0 t0.rx) ∧ holder t.me a = t0.cid ∧ rowsBut t [a] ∧
           ∀ r, r < 48 → accRow t.me a r = 0) ∧
       (holder s.me a = t0.cid → ∃ t, Issues (.aalloc h rd an) s t ∧ closed t t0.rv (setX rd.val 0 t0.rx) ∧ t.me = s.me) ∧
       (holder s.me a ≠ 0 → holder s.me a ≠ t0.cid → ∃ t, Issues (.aalloc h rd an) s t ∧ closed t t0.rv (setX rd.val 1 t0.rx) ∧ t.me = s.me) ∧
       (∃ t, Issues (.afree h an) s t ∧ closed t t0.rv t0.rx ∧ rowsBut t [] ∧
         ∀ b, holder t.me b = if b = a ∧ holder s.me a = t0.cid then 0 else holder s.me b) ∧
       (holder s.me a = t0.cid →
         (∃ t, Issues (.azero h an) s t ∧ closed t t0.rv t0.rx ∧ rowsBut t [a] ∧ ∀ r, r < 48 → accRow t.me a r = 0) ∧
         ((t0.rx rb.val).toNat < 48 →
           (∃ t, Issues (.ard h none vd an rb) s t ∧ closed t (setTo vd.val (accRow s.me a (t0.rx rb.val).toNat) t0.rv) t0.rx ∧ t.me = s.me) ∧
           (∃ t, Issues (.awr h none an va rb) s t ∧ closed t t0.rv t0.rx ∧ rowsBut t [a] ∧
             ∀ r, r < 48 → accRow t.me a r = if r = (t0.rx rb.val).toNat then t0.rv va.val else accRow s.me a r)) ∧
         (47 < (t0.rx rb.val).toNat → exec (.ard h none vd an rb) s = .next (s.takeTrap (s.fault .illegalField 0)) ∧
           exec (.awr h none an va rb) s = .next (s.takeTrap (s.fault .illegalField 0)))) ∧
       ((∀ i, i < 3 → holder s.me (a + i) = t0.cid) → (t0.rx rb.val).toNat < 48 →
         let row := (t0.rx rb.val).toNat
         (∃ (t : State) (v : VReg), Issues (.ard h (some tr) vd an rb) s t ∧ closed t (setTo vd.val v t0.rv) t0.rx ∧ t.me = s.me ∧
           ∀ n, n < 48 → elem 32 v n = elem 32 (accRow s.me (a + 2) row) n % (moduli tr).2.2 * 2 ^ 16 +
             elem 32 (accRow s.me (a + 1) row) n % (moduli tr).2.1 * 2 ^ 8 + elem 32 (accRow s.me a row) n % (moduli tr).1) ∧
         (∃ t, Issues (.awr h (some tr) an va rb) s t ∧ closed t t0.rv t0.rx ∧ rowsBut t [a, a + 1, a + 2] ∧
           ∀ r n i, r < 48 → n < 48 → i < 3 → elem 32 (accRow t.me (a + i) r) n =
             if r = row then elem 32 (t0.rv va.val) n / 2 ^ (8 * i) % 2 ^ 8 else elem 32 (accRow s.me (a + i) r) n)) ∧
       (holder s.me a ≠ t0.cid → exec (.azero h an) s = .next (s.takeTrap (s.fault .protection 0))) ∧
       ((∀ i, i < 3 → holder s.me (a + i) = t0.cid) →
         ∃ t, Issues (.rnsred h tr an) s t ∧ closed t t0.rv t0.rx ∧ rowsBut t [a, a + 1, a + 2] ∧
           ∀ r n, r < 48 → n < 48 → elem 32 (accRow t.me a r) n = elem 32 (accRow s.me a r) n % (moduli tr).1 ∧
             elem 32 (accRow t.me (a + 1) r) n = elem 32 (accRow s.me (a + 1) r) n % (moduli tr).2.1 ∧
             elem 32 (accRow t.me (a + 2) r) n = elem 32 (accRow s.me (a + 2) r) n % (moduli tr).2.2)) ∧
  (∀ (h : Hd) (ra : Reg) (an : Reg8) (o : Nat) (s : State), Fresh s → h.s = true → Calm s → Tab.get 0 s.me.holders an.val = s.slot.cid →
       PanelAt s (s.slot.rx ra.val) o 9216 → s.clearOfRings s.focus.lc o 9216 = true →
       (∃ t, Runs (.ald h an ra) s t ∧ SameMemory s t ∧ ClosedSlot s t h s.slot.rv s.slot.rx s.slot.rk 0 ∧
         ∀ b r, r < 48 → accRow t.me b r = if b = an.val then BitVec.ofNat 1536 (ownNat s (o + 192 * r) 192) else accRow s.me b r) ∧
       (∃ t, Runs (.ast h an ra) s t ∧ OnlyAccess s t ∧ SameMemoryBut (lsKey s.focus.ctx s.focus.lc o) 9216 s t ∧
         ClosedSlot s t h s.slot.rv s.slot.rx s.slot.rk 0 ∧ ∀ r, r < 48 → ownNat t (o + 192 * r) 192 = (accRow s.me an.val r).toNat))

/-- R246 to R248: the integer products of `mma` and `mmas` (each pair of kept elements meets the two positions that its nibble of metadata
names), and the residue products of `mmr`, added to each element of the accumulators modulo 2^32. R69, R90, R246, R247: `mma` and `mmas` on
every floating type, of any depth: k-block after k-block, each element is the exact sum of itself and the products of the block, with the
scales of MXFP4, rounded once to FP32, and the flags of the elements are ORed into `sys.fflags`; the exact sum of finite values is their
sum, and that of opposite infinities is invalid. -/
def Obligations.MatrixProducts : Prop :=
  (∀ (h : Hd) (ra rb rc : Reg) (an : Reg8) (i oa ob om : Nat) (tr : Fin 4) (s : State), Fresh s → h.s = true → Calm s → UnitFree s 9 →
       let k := if i = 0 then 48 else i
       let x (r : Reg) : Word := s.slot.rx r.val
       let byte (o : Nat) : Int := (own s o).toInt
       let a := an.val
       let holds (b : Nat) : Prop := Tab.get 0 s.me.holders b = s.slot.cid
       let after (t : State) (b r c : Nat) : BitVec 32 := BitVec.ofNat 32 (elem 32 (accRow t.me b r) c)
       let done (i : Instr) (t : State) (as : List Nat) : Prop := Runs i s t ∧ SameMemory s t ∧ ClosedSlot s t h s.slot.rv s.slot.rx s.slot.rk 0 ∧
         ∀ b r, b ∉ as → r < 48 → accRow t.me b r = accRow s.me b r
       ((Instr.mma h .i8 an ra rb i).wf = true → holds a → PanelAt s (x ra) oa (48 * k) → PanelAt s (x rb) ob (48 * k) →
         ∃ t, done (.mma h .i8 an ra rb i) t [a] ∧ ∀ r c, r < 48 → c < 48 →
           after t a r c = after s a r c + BitVec.ofInt 32 (sumTo k (fun q => byte (oa + r * k + q) * byte (ob + c * k + q)))) ∧
       ((Instr.mmas h .i8 an ra rb rc i).wf = true → holds a → PanelAt s (x ra) oa (48 * (k / 2)) → PanelAt s (x rb) ob (48 * k) →
         PanelAt s (x rc) om (48 * (k / 8)) →
         ∃ t, done (.mmas h .i8 an ra rb rc i) t [a] ∧ ∀ r c, r < 48 → c < 48 →
           let nib (g : Nat) : Nat := ownNat s (om + r * (k / 8) + g / 2) 1 / 16 ^ (g % 2) % 16
           after t a r c = after s a r c + BitVec.ofInt 32 (sumTo (k / 4) (fun g =>
             byte (oa + r * (k / 2) + 2 * g) * byte (ob + c * k + 4 * g + nib g % 4) +
             byte (oa + r * (k / 2) + 2 * g + 1) * byte (ob + c * k + 4 * g + nib g / 4)))) ∧
       ((Instr.mmr h tr an ra rb i).wf = true → holds a → holds (a + 1) → holds (a + 2) → PanelAt s (x ra) oa (192 * k) →
         PanelAt s (x rb) ob (192 * k) →
         ∃ t, done (.mmr h tr an ra rb i) t [a, a + 1, a + 2] ∧ ∀ r c j, r < 48 → c < 48 → j < 3 →
           after t (a + j) r c = after s (a + j) r c +
             BitVec.ofInt 32 (sumTo k (fun q => (own s (oa + r * (4 * k) + 4 * q + j)).toNat * (own s (ob + c * (4 * k) + 4 * q + j)).toNat)))) ∧
  (∀ (h : Hd) (ty : ETy) (ra rb rc : Reg) (an : Reg8) (i oa ob om : Nat) (fm : Fmt) (s : State), Fresh s → h.s = true → Calm s → UnitFree s 9 →
       fmtOf s.slot.nanread ty = some fm → Tab.get 0 s.me.holders an.val = s.slot.cid →
       let k := if i = 0 then 48 else i
       let w := ty.width
       let scales := if ty = .mx4 then 48 * (k / 32) else 0
       let before (r c : Nat) : Nat := elem 32 (accRow s.me an.val r) c
       let done (i : Instr) (e : Nat → Nat → Nat × FFlags) : Prop := ∃ t, Runs i s t ∧ SameMemory s t ∧
         ClosedSlot s t h s.slot.rv s.slot.rx s.slot.rk
           ((List.range 48).foldl (fun f r => (List.range 48).foldl (fun f c => f ||| (e r c).2) f) 0) ∧
         (∀ r c, r < 48 → c < 48 → elem 32 (accRow t.me an.val r) c = (e r c).1) ∧
         ∀ b r, b ≠ an.val → r < 48 → accRow t.me b r = accRow s.me b r
       ((Instr.mma h ty an ra rb i).wf = true → PanelAt s (s.slot.rx ra.val) oa (48 * (w * k / 8) + scales) →
         PanelAt s (s.slot.rx rb.val) ob (48 * (w * k / 8) + scales) →
         done (.mma h ty an ra rb i) (fun r c => blocked ty k (before r c) (denseTerms s fm ty oa ob k r c))) ∧
       ((Instr.mmas h ty an ra rb rc i).wf = true → PanelAt s (s.slot.rx ra.val) oa (48 * (w * (k / 2) / 8) + scales) →
         PanelAt s (s.slot.rx rb.val) ob (48 * (w * k / 8) + scales) → PanelAt s (s.slot.rx rc.val) om (48 * (k / 8)) →
         done (.mmas h ty an ra rb rc i) (fun r c => blocked ty k (before r c) (keptTerms s fm ty oa ob om k r c)))) ∧
  (∀ (rs : List Res),
    ((∀ r ∈ rs, r.sticky = false ∧ r.flags = 0 ∧ ∃ n m e, r.val = .fin n m e) → (sumExact rs).stands ((rs.map (fun r => r.val.rat)).foldl (· + ·) 0)) ∧
    ((∀ r ∈ rs, r.val.isNan = false) → (∃ r ∈ rs, r.val = .inf true) → (∃ r ∈ rs, r.val = .inf false) →
      (sumExact rs).val = .nan false ∧ (sumExact rs).flags &&& FFlags.invalid = FFlags.invalid))

/-- R253, R254: `mcap` issues a free capability entry of the target and answers its handle (the lowest free entry is the model's choice, log
67), `mreq` hands a command under a live capability to the target, and REMOTE_COMMAND_APPLY carries out the oldest and tells its sender:
here the command that clears an accumulator. R239: where the accumulators of another logical core stand in the unit of the physical core,
they go to their image-area frame first. R255: pass 0 of `route` counts the tokens of each expert and answers how many have one; pass 1
gives each token the next place of its expert, or all ones where it has none or its expert is full, the counts compared as INT32, lists
the dropped tokens in order and answers their number. -/
def Obligations.RemoteCommandsAndRouting : Prop :=
  ((∀ (h : Hd) (rd ra : Reg) (base target i : Nat) (cap : Cap) (s : State), Fresh s → h.s = true → Calm s → s.slot.sup = true →
       Mapped s .r (s.slot.rx ra.val) 32 base → (s.slot.rx ra.val).toNat + 31 < 2 ^ 64 → capOf (Mem.bytes s.mem base 32) = some (target, cap) →
       i < 16 → ((Tab.get {} (s.core s.focus.ctx target).caps i).live s.here.phase = false) →
       (∀ j, j < i → (Tab.get {} (s.core s.focus.ctx target).caps j).live s.here.phase = true) →
       let g := (Tab.get 0 (s.core s.focus.ctx target).gens i + 1) % 2 ^ 32
       ∃ t, Runs (.mcap h rd ra) s t ∧ SameMemory s t ∧
         ClosedSlot s t h s.slot.rv (setX rd.val (BitVec.ofNat 64 (target + i * 2 ^ 10 + g * 2 ^ 16)) s.slot.rx) s.slot.rk 0 ∧
         Tab.get {} (t.core s.focus.ctx target).caps i = cap ∧ Tab.get 0 (t.core s.focus.ctx target).gens i = g) ∧
     (∀ (h : Hd) (rd ra rb : Reg) (target i g : Nat) (s : State), Fresh s → h.s = true → s.here.cr.det = false → Unpaused s →
       (Instr.mreq h rd ra rb).wf = true → target < 768 → i < 16 → g < 2 ^ 32 →
       s.slot.rx ra.val = BitVec.ofNat 64 (target + i * 2 ^ 10 + g * 2 ^ 16) → s.placed s.focus.ctx target = true →
       let c := s.core s.focus.ctx target
       let cmd := (List.range 4).map (fun q => s.slot.rx (rb.val + q))
       (Tab.get {} c.caps i).live s.here.phase = true → Tab.get 0 c.gens i = g → c.remoteQ.length < 8 →
       (∀ r, decodeRemote cmd = some r → (∀ a ∈ r.ans, (Tab.get {} c.caps i).mask / 2 ^ a % 2 = 1) ∧ ∀ q ∈ r.ranges, (Tab.get {} c.caps i).admits q = true) →
       (decodeRemote cmd).isSome = true →
       ∃ t, Runs (.mreq h rd ra rb) s t ∧ SameMemory s t ∧ ClosedSlot s t h s.slot.rv (setX rd.val 0 s.slot.rx) s.slot.rk 0 ∧
         (t.core s.focus.ctx target).remoteQ =
           c.remoteQ ++ [{ sender := s.focus.lc, nan := s.slot.nanread, cycle := s.cycle, handle := s.slot.rx ra.val, cmd := cmd }]) ∧
     (∀ (ctx lc a : Nat) (q : RemoteCmd) (rest : List RemoteCmd) (s : State), (s.core ctx lc).remoteQ = q :: rest → a < 8 →
       q.cmd.getD 0 0 = BitVec.ofNat 64 (a * 2 ^ 8) → s.accOpen ctx lc [a] = false → s.eventRoom ctx q.sender = true → lc < 768 → q.sender < 768 →
       let core := s.physCore ctx lc
       s.rivals ctx core 9 { ctx := ctx, lc := lc, pos := 9 } = [] → s.commandAhead ctx core q.cycle (some lc) = false →
       (s.core ctx lc).framed = false →
       let applied (t : State) : Prop := exec (.remoteCommandApply ctx lc) s = .next t ∧ t.slots = s.slots ∧ (t.core ctx lc).remoteQ = rest ∧
         (∀ b r, r < 48 → accRow (t.core ctx lc) b r = if b = a then 0 else accRow (s.core ctx lc) b r) ∧
         (∃ m : Msg, (t.core ctx q.sender).box = (s.core ctx q.sender).box ++ [m] ∧ m.kind = .msg ∧ m.src = lc ∧ m.tag = 0x7FFE ∧
           m.words = [q.cmd.getD 0 0, q.handle]) ∧ Tab.get 0 t.resident core = coreKey ctx lc + 1
       ((Tab.get 0 s.resident core = 0 ∨ Tab.get 0 s.resident core = coreKey ctx lc + 1) → ∃ t, applied t ∧ SameMemoryAt ctx q.sender s t) ∧
       (∀ old key, Tab.get 0 s.resident core = coreKey ctx old + 1 → old < 768 → old ≠ lc → (s.ctxOf ctx).status = .live →
         s.placed ctx old = true → s.physCore ctx old = core → (s.ctxOf ctx).partials = [] → Young s → (s.core ctx q.sender).suspended = [] →
         let frame := (s.ctxOf ctx).imageArea old + 0x22200
         (∀ x, x < 73728 → ∃ l, s.leaf ctx (frame + x) = .ok l ∧ l.pa = key + x ∧ inHbm l.pa = true) →
         ∃ t, applied t ∧ SameMemoryBut key 73728 s t ∧
           ∀ b r, b < 8 → r < 48 → leNat (Mem.bytes t.mem (key + 9216 * b + 192 * r) 192) = (accRow (s.core ctx old) b r).toNat))) ∧
  (∀ (h : Hd) (rd ra rb : Reg) (o : Nat) (s : State), Fresh s → h.s = true → Calm s → ownPlace s.focus.lc (s.slot.rx ra.val) = some o →
       o + 40 ≤ lsSize →
       let f (i : Nat) : Nat := ownNat s (o + 8 * i) 8
       let nt := f 0 % 2 ^ 16
       let ne := f 0 / 2 ^ 16 % 2 ^ 16
       let cap : Nat := f 0 / 2 ^ 32 % 2 ^ 16
       routeOk (f 0) (f 1) (f 2) (f 3) (f 4) = true → routeFits (f 0) (f 1) (f 2) (f 3) (f 4) = true →
       let expert (t : Nat) : Nat := ownNat s (f 1 + 2 * t) 2
       let before (t e : Nat) : Nat := ((List.range t).filter (fun q => decide (expert q = e))).length
       let place (t : Nat) : Nat := (ownNat s (f 2 + 4 * expert t) 4 + before t (expert t)) % 2 ^ 32
       let fits (t : Nat) : Prop := (BitVec.ofNat 32 (place t)).toInt < cap
       (∀ p ∈ [(f 2, 4 * ne), (f 3, 4 * nt), (f 4, 2 * nt)], s.clearOfRings s.focus.lc p.1 p.2 = true) →
       (s.slot.rx rb.val = 0 →
         ∃ t, Runs (.route h rd ra rb) s t ∧ OnlyAccess s t ∧ SameMemoryBut (lsKey s.focus.ctx s.focus.lc (f 2)) (4 * ne) s t ∧
           ClosedSlot s t h s.slot.rv
             (setX rd.val (BitVec.ofNat 64 ((List.range nt).filter (fun q => decide (expert q < ne))).length) s.slot.rx) s.slot.rk 0 ∧
           ∀ e, e < ne → ownNat t (f 2 + 4 * e) 4 = before nt e) ∧
       (s.slot.rx rb.val = 1 →
         (let rs := [(f 1, 2 * nt), (f 2, 4 * ne), (f 3, 4 * nt), (f 4, 2 * nt)]
          rs.Pairwise (fun p q => p.1 + p.2 ≤ q.1 ∨ q.1 + q.2 ≤ p.1)) →
         ∃ (t : State) (drops : List Nat), Runs (.route h rd ra rb) s t ∧ OnlyAccess s t ∧ drops.Pairwise (· < ·) ∧
           (∀ q, q ∈ drops ↔ q < nt ∧ expert q < ne ∧ ¬ fits q) ∧
           ClosedSlot s t h s.slot.rv (setX rd.val (BitVec.ofNat 64 drops.length) s.slot.rx) s.slot.rk 0 ∧
           (∀ e, e < ne → ownNat t (f 2 + 4 * e) 4 = (ownNat s (f 2 + 4 * e) 4 + before nt e) % 2 ^ 32) ∧
           (∀ q, q < nt → (expert q < ne → fits q → ownNat t (f 3 + 4 * q) 4 = (expert q * cap + place q) % 2 ^ 32) ∧
             (¬ (expert q < ne ∧ fits q) → ownNat t (f 3 + 4 * q) 4 = 2 ^ 32 - 1)) ∧
           ∀ d, d < drops.length → ownNat t (f 4 + 2 * d) 2 = drops.getD d 0))

namespace Sys2Proof.Machine

/-- Bytes of an automaton image whose page `p` of 4096 bytes stands in memory from key `pg p`. -/
def imgBytes (s : State) (pg : Nat → Nat) (o n : Nat) : List Byte :=
  (List.range n).map (fun i => Mem.read s.mem (pg ((o + i) / 4096) + (o + i) % 4096))

/-- The number that `n` bytes of an image hold. -/
def imgNat (s : State) (pg : Nat → Nat) (o n : Nat) : Nat := leNat (imgBytes s pg o n)

/-- Pages `first` to `first + n - 1` of the image at `base` are readable by the slot in focus and stand at `pg`. -/
def PagesAt (s : State) (base : Nat) (pg : Nat → Nat) (first n : Nat) : Prop :=
  base + 4096 * (first + n) ≤ 2 ^ 56 ∧
  ∀ p, first ≤ p → p < first + n → Mapped s .r (BitVec.ofNat 64 (base + 4096 * p)) 4096 (pg p)

/-- The transition entry of a state and a class as the image holds it (R259). -/
def imageEntry (s : State) (d : Desc) (pg : Nat → Nat) (st c : Nat) : Nat :=
  let e := st * d.classes + c
  imgNat s pg (4096 * (e / 1024 + 1) + 4 * (e % 1024)) 4

/-- The transition entry that a step uses: from the pinned copy of its page where there is one, else from the image (R267). -/
def transEntry (s : State) (d : Desc) (pg : Nat → Nat) (st c : Nat) : Nat :=
  let e := st * d.classes + c
  match s.me.pinCopy d (e / 1024) with
  | [] => imageEntry s d pg st c
  | bs => leNat ((bs.drop (4 * (e % 1024))).take 4)

/-- Some descriptor bound to the image of `d` holds `bs` as its copy of page `p` (R267, R270). -/
def PinnedAs (s : State) (d : Desc) (p : Nat) (bs : List Byte) : Prop :=
  bs ≠ [] ∧ ∃ e ∈ s.me.descs, e.2.holder ≠ 0 ∧ e.2.base = d.base ∧ e.2.stale = false ∧ Tab.get [] e.2.pins p = bs

/-- Whatever is written into memory at the keys of `k`, `P` holds of the state. -/
def Steady (s : State) (k : Nat → Prop) (P : State → Prop) : Prop :=
  ∀ m v, (∀ x, ¬ k x → Mem.read m x = Mem.read s.mem x) → P { s with mem := m, versions := v }

/-- `Mapped` for a range over several 64 KiB pages, of which page `j` stands from key `kb j` up. -/
def MappedPages (s : State) (need : Need) (a n : Nat) (kb : Nat → Nat) : Prop :=
  a + n ≤ 2 ^ 56 ∧ ∀ j,
    let lo := Nat.max a (65536 * j)
    let hi := Nat.min (a + n) (65536 * (j + 1))
    lo < hi → Mapped s need (BitVec.ofNat 64 lo) (hi - lo) (kb j + lo % 65536)

/-- A descriptor whose image keeps the rules of R258 to R260 and is readable. -/
def TableReady (s : State) (d : Desc) (pg : Nat → Nat) : Prop :=
  d.stale = false ∧ d.start < d.states ∧ d.states ≤ 0x3FFFFD ∧ d.states * d.classes ≤ 1024 * d.pages ∧
  (∀ b, d.classmap.getD b 0 < d.classes) ∧ (∀ y, d.call.getD y 0 < 0x3FFFFD) ∧ PagesAt s d.base pg 1 d.pages ∧
  ∀ st c, st < d.states → c < d.classes → d.entryBad (transEntry s d pg st c) = none

/-- One step of R264 by a lane with state word `w` and stack `l` (its top entry first) on a byte, where no deeper entry than `l` holds
is wanted and an overflow does not trap: the new word and stack. `e` gives the transition entries. -/
def stepWord (d : Desc) (e : Nat → Nat → Nat) (p : Nat × LaneStk) (byte : Nat) : Nat × LaneStk :=
  let reset := p.1 / 2 ^ 31 % 2 = 1
  let l : LaneStk := if reset then {} else p.2
  let st := if reset then d.start else p.1 % 2 ^ 22
  let go (n acc bnd : Nat) (m : LaneStk) : Nat × LaneStk :=
    (n + acc * 2 ^ 22 + m.ovf.toNat * 2 ^ 23 + bnd * 2 ^ 24 + Nat.min m.depth 63 * 2 ^ 25, m)
  if st = 0x3FFFFE ∨ st = 0x3FFFFD then go st 0 0 l
  else if d.states ≤ st then go 0x3FFFFE 0 0 l
  else
    let v := e st (d.classmap.getD byte 0)
    let acc := v / 2 ^ 22 % 2
    let bnd := v / 2 ^ 23 % 2
    let y := v / 2 ^ 26 % 64
    match v / 2 ^ 24 % 4 with
    | 0 => go (v % 2 ^ 22) acc bnd l
    | 1 =>
      if 16 + d.stkBytes / 192 ≤ l.depth then go 0x3FFFFE 0 0 { l with ovf := true }
      else go (d.call.getD y 0) acc bnd { l with depth := l.depth + 1, win := (y * 2 ^ 22 + v % 2 ^ 22) :: l.win }
    | _ =>
      if l.depth = 0 ∨ l.win.headD 0 / 2 ^ 22 % 64 ≠ y then go 0x3FFFFE 0 0 l
      else go (if v % 2 ^ 22 = 0x3FFFFF then l.win.headD 0 % 2 ^ 22 else v % 2 ^ 22) acc bnd { l with depth := l.depth - 1, win := l.win.tail }

/-- The steps of a lane over bytes. -/
def stepWords (d : Desc) (e : Nat → Nat → Nat) (p : Nat × LaneStk) (bs : List Nat) : Nat × LaneStk := bs.foldl (stepWord d e) p

/-- The positions of bytes whose transition has BND. -/
def marks (d : Desc) (e : Nat → Nat → Nat) (p : Nat × LaneStk) (bs : List Nat) : List Nat :=
  (List.range bs.length).filter (fun k => decide ((stepWords d e p (bs.take (k + 1))).1 / 2 ^ 24 % 2 = 1))

/-- A lane that a RESET word empties or whose stack lies in the hardware window with room for a push (R263, R265). -/
def Shallow (p : Nat × LaneStk) : Prop := p.1 / 2 ^ 31 % 2 = 1 ∨ p.2.depth < 16

end Sys2Proof.Machine

/-- R261, R262, R268 to R271: `autbind` fills a free descriptor, or one that its continuation holds, from a header and an image that keep the
rules; `autunbind` empties a held one and no other; `autpin` makes copies of the pages that no descriptor of the image has pinned, or drops
all of its own, and a step uses a copy that any descriptor bound to the image holds; `autstk` sets the spill area and
empties the stacks. An instruction on a descriptor that is not held traps PROTECTION. -/
def Obligations.Descriptors : Prop :=
  ∀ (h : Hd) (p : Pred) (dn : Reg8) (vd va vb ra rb rc rd : Reg) (lane : Fin 48) (pg : Nat → Nat) (s : State), Fresh s → h.s = true → Calm s →
    UnitFree s 10 →
    let n := dn.val
    let d := s.desc n
    let cid := s.slot.cid
    let a := s.slot.rx ra.val
    let b := s.slot.rx rb.val
    let closed (i : Instr) (t : State) (d' : Desc) : Prop := Runs i s t ∧ SameMemory s t ∧ ClosedSlot s t h s.slot.rv s.slot.rx s.slot.rk 0 ∧
      t.desc n = d' ∧ (∀ m, m ≠ n → t.desc m = s.desc m) ∧ t.me.holders = s.me.holders
    ((d.holder = 0 ∨ d.holder = cid) → s.binding s.focus n = false → (∀ u ∈ s.siblings, ∀ k ∈ u.tasks, ∀ q x, k.op ≠ .autbind n q x) → a.toNat % 4096 = 0 →
      let new := headerDesc cid a.toNat (imgBytes s pg 0 576)
      (headerChecks (imgBytes s pg 0 576)).all (·.2) = true → PagesAt s a.toNat pg 0 new.extent →
      (∀ q, q < new.extent → ∀ l, s.leaf s.focus.ctx (a.toNat + 4096 * q) = .ok l → l.w = false) →
      (∀ st c, st < new.states → c < new.classes → new.entryBad (imageEntry s new pg st c) = none) →
      (∀ q bs, q < new.pages → PinnedAs s new q bs → ∀ i, 4 * i + 4 ≤ bs.length → new.entryBad (fieldAt bs (4 * i) 4) = none) →
      ∃ t, closed (.autbind h dn ra) t new) ∧
    (d.holder = cid →
      (∃ t, closed (.autunbind h dn) t {}) ∧
      (d.stale = false →
        (b = 0 → a.toNat ≤ d.pages → a.toNat < 2 ^ 32 → ∃ t, closed (.autpin h dn ra rb) t { d with pins := [] }) ∧
        (b ≠ 0 → a.toNat + b.toNat ≤ d.pages → d.pages < 2 ^ 32 → PagesAt s d.base pg (a.toNat + 1) b.toNat →
          s.me.pinned.length + ((List.range b.toNat).filter (fun q => !s.me.pinned.contains (d.base, a.toNat + q))).length ≤ 48 →
          ∃ (t : State) (ps : Tab (List Byte)), closed (.autpin h dn ra rb) t { d with pins := ps } ∧
            ∀ q, if a.toNat ≤ q ∧ q < a.toNat + b.toNat then
                (PinnedAs s d q (Tab.get [] ps q) ∨
                  (∀ bs, ¬ PinnedAs s d q bs) ∧ Tab.get [] ps q = imgBytes s pg (4096 * (q + 1)) (d.pageBytes q))
              else Tab.get [] ps q = Tab.get [] d.pins q) ∧
        (∀ m o tr, m % 192 = 0 → m ≤ lsSize → tr < 2 → b = BitVec.ofNat 64 (m + tr * 2 ^ 63) →
          (m ≠ 0 → ownPlace s.focus.lc a = some o ∧ o % 4 = 0 ∧ o + m ≤ lsSize) →
          ∃ (t : State) (d' : Desc), closed (.autstk h dn ra rb) t d' ∧ d'.stkBytes = m ∧ d'.trap = decide (tr = 1) ∧ d'.lanes = [] ∧ (m ≠ 0 → d'.stkBase = o) ∧
            ({ d' with stkBase := 0, stkBytes := 0, trap := false, lanes := [] } : Desc) =
              { d with stkBase := 0, stkBytes := 0, trap := false, lanes := [] }))) ∧
    (∀ q, (s.me.pinCopy d q = [] ∧ ∀ bs, ¬ PinnedAs s d q bs) ∨ PinnedAs s d q (s.me.pinCopy d q)) ∧
    (d.holder ≠ cid →
      (∃ t, closed (.autunbind h dn) t d) ∧
      ∀ i ∈ ([.autpin h dn ra rb, .autstk h dn ra rb, .autstep h p dn vd va vb, .autrun h p dn vd va rb, .maprun h p dn vd va rb rc,
          .mapinit h p dn vd ra, .allowStore h dn ra vb lane, .allowApply h dn ra vb lane, .triewalk h p dn vd va rb,
          .detok h dn rd ra rb rc] : List Instr),
        exec i s = .next (s.takeTrap (s.fault .protection 0)))

/-- R263, R264, R272, R273: `autstep` takes one step of every active lane, and `autrun` a step for each byte of a lane's stream, listing the
positions of the bytes whose transition has BND and writing their number to the run record. -/
def Obligations.AutomatonSteps : Prop :=
  ∀ (h : Hd) (p : Pred) (dn : Reg8) (vd va vb rb : Reg) (pg : Nat → Nat) (o : Nat) (s : State), Fresh s → h.s = true → Calm s → UnitFree s 10 →
    let t0 := s.slot
    let d := s.desc dn.val
    d.holder = t0.cid → TableReady s d pg →
    let e := transEntry s d pg
    let start (i : Nat) : Nat × LaneStk := (elem 32 (t0.rv va.val) i, Tab.get {} d.lanes i)
    let on (i : Nat) : Prop := i < 48 ∧ onLane t0 p 32 i = true
    let closed (i : Instr) (t : State) (v : VReg) (f : Nat → Nat × LaneStk) : Prop :=
      Runs i s t ∧ ClosedSlot s t h (setTo vd.val v t0.rv) t0.rx t0.rk 0 ∧
      (∀ i, on i → elem 32 v i = (f i).1 ∧ Tab.get {} (t.desc dn.val).lanes i = (f i).2) ∧
      (∀ i, i < 48 → ¬ on i → elem 32 v i = elem 32 (t0.rv vd.val) i ∧ Tab.get {} (t.desc dn.val).lanes i = Tab.get {} d.lanes i) ∧
      ({ t.desc dn.val with lanes := [] } : Desc) = { d with lanes := [] } ∧ ∀ m, m ≠ dn.val → t.desc m = s.desc m
    ((∀ i, on i → Shallow (start i)) →
      ∃ (t : State) (v : VReg), closed (.autstep h p dn vd va vb) t v (fun i => stepWord d e (start i) (elem 32 (t0.rv vb.val) i % 256)) ∧ SameMemory s t) ∧
    (PanelAt s (t0.rx rb.val) o 768 → s.clearOfRings s.focus.lc o 768 = true →
      let fld (i q n : Nat) : Nat := ownNat s (o + 16 * i + q) n
      let off (i : Nat) : Nat := fld i 0 4
      let len (i : Nat) : Nat := fld i 4 4
      let list (i : Nat) : Nat := fld i 8 4
      let cap (i : Nat) : Nat := fld i 12 2
      let apart (x m y k : Nat) : Prop := m = 0 ∨ k = 0 ∨ x + m ≤ y ∨ y + k ≤ x
      (∀ i, on i → off i < 2 ^ 19 ∧ off i + len i ≤ lsSize ∧ list i < 2 ^ 19 ∧ list i % 4 = 0 ∧ list i + 4 * cap i ≤ lsSize ∧
        s.clearOfRings s.focus.lc (list i) (4 * cap i) = true ∧ apart (list i) (4 * cap i) o 768 ∧
        ∀ j, on j → apart (list i) (4 * cap i) (off j) (len j) ∧ (j ≠ i → apart (list i) (4 * cap i) (list j) (4 * cap j))) →
      let bytes (i : Nat) : List Nat := (List.range (len i)).map (fun k => (own s (off i + k)).toNat)
      (∀ i, on i → ∀ k, k < len i → Shallow (stepWords d e (start i) ((bytes i).take k))) →
      let key (x : Nat) : Nat := lsKey s.focus.ctx s.focus.lc x
      ∃ (t : State) (v : VReg), closed (.autrun h p dn vd va rb) t v (fun i =>
          if len i = 0 then (if (start i).1 / 2 ^ 31 % 2 = 1 then (d.start, {}) else start i) else stepWords d e (start i) (bytes i)) ∧
        (∀ i, on i →
          let ms := marks d e (start i) (bytes i)
          ownNat t (o + 16 * i + 14) 2 = Nat.min ms.length 65535 ∧
          ∀ q, q < cap i → q < ms.length → ownNat t (list i + 4 * q) 4 = ms.getD q 0) ∧
        ∀ x, (∀ i, on i → (x < key (list i) ∨ key (list i) + 4 * cap i ≤ x) ∧ (x < key (o + 16 * i + 14) ∨ key (o + 16 * i + 16) ≤ x)) →
          Mem.read t.mem x = Mem.read s.mem x)

/-- R275 to R278: `mapinit` spreads a start set over the lanes, `maprun` runs every lane through the same bytes by the states alone, `compose`
looks the states of one map up in another, `autq` tests the fields of lane words. -/
def Obligations.TransitionMaps : Prop :=
  ∀ (h : Hd) (p : Pred) (q : Query) (dn kd : Reg8) (vd va vb vs ra rb rc : Reg) (pg : Nat → Nat) (c o : Nat) (s : State),
    Fresh s → h.s = true → Calm s → UnitFree s 10 →
    let t0 := s.slot
    let d := s.desc dn.val
    let st (r : Reg) (i : Nat) : Nat := elem 32 (t0.rv r.val) i % 2 ^ 22
    let lanes (v : VReg) (f : Nat → Nat) : Prop := ∀ i, i < 48 → elem 32 v i = if onLane t0 p 32 i then f i else elem 32 (t0.rv vd.val) i
    let inStore' (r : Reg) (n : Nat) : Prop := placeOf s.focus.lc (t0.rx r.val) = some (.ls c o) ∧ o + n ≤ lsSize ∧
      (c = s.focus.lc ∨ s.placed s.focus.ctx c = true)
    let at' (k n : Nat) : Nat := leNat (Mem.bytes s.mem (lsKey s.focus.ctx c (o + k)) n)
    (∃ (t : State) (v : VReg), Issues (.compose h p vd va vb vs) s t ∧ Closed s t h (setTo vd.val v t0.rv) t0.rx t0.rk 0 ∧
      lanes v (fun i =>
        if st va i = 0x3FFFFE ∨ st va i = 0x3FFFFD then st va i
        else match (List.range 48).find? (fun j => decide (st vs j = st va i)) with
          | some j => st vb j
          | none => 0x3FFFFD)) ∧
    (∃ (t : State) (k : PReg), Issues (.autq h q kd va) s t ∧ Closed s t h t0.rv t0.rx (setK kd.val k t0.rk) 0 ∧
      ∀ i, i < 48 → (k.getLsbD i = true ↔ match q with
        | .unres => st va i = 0x3FFFFD
        | .acc => elem 32 (t0.rv va.val) i / 2 ^ 22 % 2 = 1
        | .dead => st va i = 0x3FFFFE
        | .ovf => elem 32 (t0.rv va.val) i / 2 ^ 23 % 2 = 1)) ∧
    (d.holder = t0.cid → d.pda = false →
      (d.stale = false → inStore' ra 196 → (t0.rx ra.val).toNat % 4 = 0 → 1 ≤ at' 0 4 → at' 0 4 ≤ 48 →
        (∀ k, k < at' 0 4 → at' (4 + 4 * k) 4 < d.states ∧ ∀ j, j < k → at' (4 + 4 * j) 4 ≠ at' (4 + 4 * k) 4) →
        ∃ (t : State) (v : VReg), Runs (.mapinit h p dn vd ra) s t ∧ OnlyAccess s t ∧ SameMemory s t ∧ ClosedSlot s t h (setTo vd.val v t0.rv) t0.rx t0.rk 0 ∧
          lanes v (fun i => if i < at' 0 4 then at' (4 + 4 * i) 4 else 0x3FFFFD)) ∧
      (TableReady s d pg → (t0.rx rc.val).toNat ≤ lsSize → inStore' rb (t0.rx rc.val).toNat →
        ∃ (t : State) (v : VReg), Runs (.maprun h p dn vd va rb rc) s t ∧ OnlyAccess s t ∧ SameMemory s t ∧ ClosedSlot s t h (setTo vd.val v t0.rv) t0.rx t0.rk 0 ∧
          lanes v (fun i => (List.range (t0.rx rc.val).toNat).foldl (fun n k =>
            if n = 0x3FFFFE ∨ n = 0x3FFFFD then n
            else if d.states ≤ n then 0x3FFFFE
            else transEntry s d pg n (d.classmap.getD (at' k 1) 0) % 2 ^ 22) (st va i))))

namespace Sys2Proof.Machine

/-- Node `k` is a child of a node whose first child is `first`; `sib` gives the next sibling (R285). -/
inductive Kid (sib : Nat → Nat) (first : Nat) : Nat → Prop where
  | here : first ≠ 0 → Kid sib first first
  | next (k : Nat) : Kid sib first k → sib k ≠ 0 → Kid sib first (sib k)

/-- The walk of the trie from the root in `c0` reaches node `k` in `c` (R285, R287, R288). -/
inductive TriePath (byte child sib : Nat → Nat) (go : Nat × LaneStk → Nat → Nat × LaneStk) (c0 : Nat × LaneStk) : Nat → Nat × LaneStk → Prop where
  | root : TriePath byte child sib go c0 0 c0
  | down (p k : Nat) (c : Nat × LaneStk) : TriePath byte child sib go c0 p c → Kid sib (child p) k → TriePath byte child sib go c0 k (go c (byte k))

/-- The stored mask of the class whose directory entry is at `de`: one bit for each token (R284). -/
def storedMask (s : State) (pg : Nat → Nat) (de : Nat) : List Bool :=
  (List.range (imgNat s pg (de + 4) 4)).flatMap (fun k =>
    let w := imgNat s pg (imgNat s pg de 4 + 4 * k) 4
    List.replicate (w % 2 ^ 21 + 1) (decide (w / 2 ^ 31 = 1)))

/-- The state word and stack from which a lane is judged, RESET applied: spilled entries follow the window (R265, R287, R288). -/
def judged (s : State) (d : Desc) (lane w : Nat) : Nat × LaneStk :=
  let l := Tab.get {} d.lanes lane
  if w / 2 ^ 31 % 2 = 1 then (d.start, {})
  else (w, { l with win := l.win ++
    ((List.range (l.depth - 16)).map (fun i => ownNat s (d.stkBase + lane * (d.stkBytes / 48) + 4 * i) 4)).reverse })

/-- The window of a lane is full as far as its depth goes, and what is spilled lies in the own store (R265). -/
def StackHeld (d : Desc) (lane : Nat) : Prop :=
  let l := Tab.get {} d.lanes lane
  l.win.length = Nat.min l.depth 16 ∧ (16 < l.depth → d.stkBase + lane * (d.stkBytes / 48) + 4 * (l.depth - 16) ≤ lsSize)

/-- A descriptor whose image holds a vocabulary and is readable, with the tables of R283 and R286 within it. -/
def VocabReady (s : State) (d : Desc) (pg : Nat → Nat) : Prop :=
  TableReady s d pg ∧ d.vocab ≠ 0 ∧ PagesAt s d.base pg 0 d.vpages ∧ d.smoff + 2 * d.states ≤ 4096 * d.vpages ∧
  d.mdoff + 8 * d.mcls ≤ 4096 * d.vpages ∧ d.ttoff + 8 * d.vocab ≤ 4096 * d.vpages

/-- A token's string in the token table keeps the rules of R286. -/
def TokenOk (s : State) (d : Desc) (pg : Nat → Nat) (t : Nat) : Prop :=
  let te := d.ttoff + 8 * t
  t < d.vocab ∧ imgNat s pg (te + 4) 2 ≤ 1024 ∧ imgNat s pg (te + 6) 2 = 0 ∧ imgNat s pg te 4 + imgNat s pg (te + 4) 2 ≤ 4096 * d.vpages

/-- The string of a token (R286). -/
def tokenString (s : State) (d : Desc) (pg : Nat → Nat) (t : Nat) : List Byte :=
  imgBytes s pg (imgNat s pg (d.ttoff + 8 * t) 4) (imgNat s pg (d.ttoff + 8 * t + 4) 2)

/-- Token `t` is allowed for a lane judged from `c` (R287): `N` bounds the nodes of the trie. -/
def allowedToken (s : State) (d : Desc) (pg : Nat → Nat) (c : Nat × LaneStk) (t : Nat) : Prop :=
  let st := c.1 % 2 ^ 22
  let entry := imgNat s pg (d.smoff + 2 * st) 2
  let node (k o n : Nat) : Nat := imgNat s pg (d.trieoff + 16 * k + o) n
  st < d.states ∧ (storedMask s pg (d.mdoff + 8 * (entry % 2 ^ 15))).getD t false = true ∧
  (entry / 2 ^ 15 = 1 → ∃ (k : Nat) (r : Nat × LaneStk), TriePath (fun k => node k 0 1) (fun k => node k 4 4) (fun k => node k 8 4)
    (stepWord d (transEntry s d pg)) c k r ∧ node k 12 4 = 2 ^ 31 + t ∧ r.1 % 2 ^ 22 ≠ 0x3FFFFE)

/-- What an `allow` reads keeps the rules of R283 to R285: the class, its run list, and the first `N` nodes of the trie. -/
def MaskOk (s : State) (d : Desc) (pg : Nat → Nat) (st N : Nat) : Prop :=
  let cls := imgNat s pg (d.smoff + 2 * st) 2 % 2 ^ 15
  let de := d.mdoff + 8 * cls
  let off := imgNat s pg de 4
  let n := imgNat s pg (de + 4) 4
  let node (k o n : Nat) : Nat := imgNat s pg (d.trieoff + 16 * k + o) n
  st < d.states →
    cls < d.mcls ∧ off % 4 = 0 ∧ off + 4 * n ≤ 4096 * d.vpages ∧ (∀ k, k < n → imgNat s pg (off + 4 * k) 4 / 2 ^ 21 % 2 ^ 10 = 0) ∧
    (storedMask s pg de).length = d.vocab ∧ 0 < N ∧ d.trieoff + 16 * N ≤ 4096 * d.vpages ∧
    ∀ k, k < N → node k 1 3 = 0 ∧ node k 12 4 / 2 ^ 20 % 2 ^ 11 = 0 ∧ (2 ^ 31 ≤ node k 12 4 → node k 12 4 - 2 ^ 31 < d.vocab) ∧
      (∀ o, o = 4 ∨ o = 8 → node k o 4 ≠ 0 → k < node k o 4 ∧ node k o 4 < N)

end Sys2Proof.Machine

/-- R283 to R291: `allow.store` writes one bit for each token of the vocabulary, set where the lane's state and stack allow it, and
`allow.apply` writes minus infinity over the logits of the others; `triewalk` walks each lane's copy over its token's string; `detok`
writes the strings of whole tokens while they fit. None changes a lane's state or stack. -/
def Obligations.Vocabulary : Prop :=
  ∀ (h : Hd) (p : Pred) (dn : Reg8) (rd vd va vb ra rb rc : Reg) (lane : Fin 48) (pg : Nat → Nat) (N o ob base : Nat) (kb : Nat → Nat)
    (s : State), Fresh s → h.s = true → Calm s → UnitFree s 10 →
    let t0 := s.slot
    let d := s.desc dn.val
    d.holder = t0.cid → VocabReady s d pg →
    let key (x : Nat) : Nat := lsKey s.focus.ctx s.focus.lc x
    let w := elem 32 (t0.rv vb.val) lane.val
    let c := judged s d lane.val w
    let V := d.vocab
    (MaskOk s d pg (c.1 % 2 ^ 22) N → StackHeld d lane.val →
      (let n := (V + 7) / 8
       let area := d.stkBase + lane.val * (d.stkBytes / 48)
       ownPlace s.focus.lc (t0.rx ra.val) = some o → o + n ≤ lsSize → s.clearOfRings s.focus.lc o n = true → (o + n ≤ area ∨ area + d.stkBytes / 48 ≤ o) →
        (Tab.get {} d.lanes lane.val).depth ≤ 16 + d.stkBytes / 192 →
        ∃ t, Runs (.allowStore h dn ra vb lane) s t ∧ OnlyAccess s t ∧ SameMemoryBut (key o) n s t ∧
          ClosedSlot s t h t0.rv t0.rx t0.rk 0 ∧
          ∀ q, q < 8 * n → (ownNat t (o + q / 8) 1 / 2 ^ (q % 8) % 2 = 1 ↔ q < V ∧ allowedToken s d pg c q)) ∧
      (placeOf s.focus.lc (t0.rx ra.val) = some (.glob (t0.rx ra.val).toNat) → (t0.rx ra.val).toNat % 4 = 0 → V ≤ 48 →
        (t0.rx ra.val).toNat + 4 * V ≤ 2 ^ 56 → Mapped s .w (t0.rx ra.val) (4 * V) base →
        ∃ t, Runs (.allowApply h dn ra vb lane) s t ∧ OnlyAccess s t ∧ ClosedSlot s t h t0.rv t0.rx t0.rk 0 ∧ SameMemoryBut base (4 * V) s t ∧
          ∀ q, q < V → (allowedToken s d pg c q → Mem.bytes t.mem (base + 4 * q) 4 = Mem.bytes s.mem (base + 4 * q) 4) ∧
            (¬ allowedToken s d pg c q → leNat (Mem.bytes t.mem (base + 4 * q) 4) = 0xFF800000)) ∧
      (let a := (t0.rx ra.val).toNat
       let at' (x : Nat) : Nat := kb ((a + x) / 65536) + (a + x) % 65536
       let hit (y : Nat) : Prop := ∃ x, x < 4 * V ∧ y = at' x
       let pages := Nat.max d.vpages (d.pages + 1)
       placeOf s.focus.lc (t0.rx ra.val) = some (.glob a) → a % 4 = 0 → a + 4 * V ≤ 2 ^ 56 →
        (∀ x y, x < 4 * V → y < 4 * V → at' x = at' y → x = y) → (∀ x k, x < 4 * V → k < pages → at' x < pg k ∨ pg k + 4096 ≤ at' x) →
        Steady s hit (fun u => MappedPages u .w a (4 * V) kb ∧ PagesAt u d.base pg 0 pages) →
        ∃ t, Runs (.allowApply h dn ra vb lane) s t ∧ OnlyAccess s t ∧ ClosedSlot s t h t0.rv t0.rx t0.rk 0 ∧
          (∀ y, ¬ hit y → Mem.read t.mem y = Mem.read s.mem y) ∧
          ∀ q, q < V → (allowedToken s d pg c q → Mem.bytes t.mem (at' (4 * q)) 4 = Mem.bytes s.mem (at' (4 * q)) 4) ∧
            (¬ allowedToken s d pg c q → leNat (Mem.bytes t.mem (at' (4 * q)) 4) = 0xFF800000)) ∧
      (let area := d.stkBase + lane.val * (d.stkBytes / 48)
       ownPlace s.focus.lc (t0.rx ra.val) = some o → (t0.rx ra.val).toNat % 4 = 0 → o + 4 * V ≤ lsSize →
        s.clearOfRings s.focus.lc o (4 * V) = true → (o + 4 * V ≤ area ∨ area + d.stkBytes / 48 ≤ o) → (Tab.get {} d.lanes lane.val).depth ≤ 16 + d.stkBytes / 192 →
        ∃ t, Runs (.allowApply h dn ra vb lane) s t ∧ OnlyAccess s t ∧ ClosedSlot s t h t0.rv t0.rx t0.rk 0 ∧ SameMemoryBut (key o) (4 * V) s t ∧
          ∀ q, q < V → (allowedToken s d pg c q → ownNat t (o + 4 * q) 4 = ownNat s (o + 4 * q) 4) ∧
            (¬ allowedToken s d pg c q → ownNat t (o + 4 * q) 4 = 0xFF800000))) ∧
    (ownPlace s.focus.lc (t0.rx rb.val) = some o → o % 4 = 0 → o + 192 ≤ lsSize →
      let tok (i : Nat) : Nat := ownNat s (o + 4 * i) 4
      (∀ i, i < 48 → onLane t0 p 32 i = true → tok i < V → TokenOk s d pg (tok i) ∧ StackHeld d i) →
      ∃ (t : State) (v : VReg), Runs (.triewalk h p dn vd va rb) s t ∧ SameMemory s t ∧ ClosedSlot s t h (setTo vd.val v t0.rv) t0.rx t0.rk 0 ∧
        ({ t.desc dn.val with walk := [] } : Desc) = { d with walk := [] } ∧
        ∀ i, i < 48 → elem 32 v i =
          if onLane t0 p 32 i then
            (if V ≤ tok i then 0x3FFFFE
             else (stepWords d (transEntry s d pg) (judged s d i (elem 32 (t0.rv va.val) i)) ((tokenString s d pg (tok i)).map BitVec.toNat)).1)
          else elem 32 (t0.rv vd.val) i) ∧
    (∀ n cap, n ≤ 4096 → cap ≤ lsSize → t0.rx rc.val = BitVec.ofNat 64 (n + cap * 2 ^ 32) →
      ownPlace s.focus.lc (t0.rx ra.val) = some o → (t0.rx ra.val).toNat % 4 = 0 → o + 4 * n ≤ lsSize →
      ownPlace s.focus.lc (t0.rx rb.val) = some ob → ob + cap ≤ lsSize → s.clearOfRings s.focus.lc ob cap = true → (o + 4 * n ≤ ob ∨ ob + cap ≤ o) →
      let tok (j : Nat) : Nat := ownNat s (o + 4 * j) 4
      (∀ j, j < n → TokenOk s d pg (tok j)) →
      let upTo (j : Nat) : List Byte := (List.range j).flatMap (fun q => tokenString s d pg (tok q))
      ∃ (t : State) (j : Nat), Runs (.detok h dn rd ra rb rc) s t ∧ OnlyAccess s t ∧ j ≤ n ∧ (upTo j).length ≤ cap ∧ (j < n → cap < (upTo (j + 1)).length) ∧
        SameMemoryBut (key ob) (upTo j).length s t ∧ Mem.bytes t.mem (key ob) (upTo j).length = upTo j ∧
        ClosedSlot s t h t0.rv (setX rd.val (BitVec.ofNat 64 ((upTo j).length + j * 2 ^ 32)) t0.rx) t0.rk 0)

namespace Sys2Proof.Machine

/-- The number that `n` bytes at offset `o` of a local store hold. -/
def lsNat (s : State) (ctx l o n : Nat) : Nat := leNat (Mem.bytes s.mem (lsKey ctx l o) n)

/-- Header word `k` and slot entry `j` of the ring at offset `off` (R310, R311). -/
def ringWord (s : State) (ctx own off k : Nat) : Nat := lsNat s ctx own (off + 8 * k) 8
def ringEntry (s : State) (ctx own off j : Nat) : Nat := lsNat s ctx own (off + 64 + 2 * j) 2

/-- A registered ring of `n` slots of `b` bytes (R310, R312). -/
def RingAt (s : State) (ctx own off n b : Nat) : Prop :=
  let g := ringWord s ctx own off 4
  off ∈ (s.core ctx own).rings ∧ g % 8 ≤ 6 ∧ n = 2 ^ (g % 8) ∧ b = g / 2 ^ 16 % 2 ^ 16 * 48 ∧ 0 < b ∧ off + 192 + n * b ≤ lsSize

/-- Counter `q` went up to `q'` over the slots in state `want`, as far as `lim` (R313). -/
def Advanced (s : State) (ctx own off n want q q' lim : Nat) : Prop :=
  let st (j : Nat) : Nat := ringEntry s ctx own off (j % n) / 2 ^ 14
  let most := (lim + 2 ^ 64 - q) % 2 ^ 64
  ∃ m : Nat, m ≤ most ∧ q' = (q + m) % 2 ^ 64 ∧ (∀ j, j < m → st (q + j) = want) ∧ (m = most ∨ st (q + m) ≠ want)

/-- One of the four slot operations of logical core `lc` was done on slot `i` (R311, R313): nothing but the header changed, and of it the
entry and the counter of the operation. -/
def RingStepped (s t : State) (ctx own off lc n i : Nat) (kind : RingOp) : Prop :=
  let w (k : Nat) : Nat := ringWord s ctx own off k
  let w' (k : Nat) : Nat := ringWord t ctx own off k
  let counter : Nat := match kind with | .post => 0 | .rsv => 1 | .take => 2 | .free => 3
  SameMemoryBut (lsKey ctx own off) 192 s t ∧ (∀ k, k < 8 → k ≠ counter → w' k = w k) ∧
  (∀ j, j < 64 → ringEntry t ctx own off j =
    if j = i then (match kind with | .rsv => 2 ^ 14 + lc | .post => 2 * 2 ^ 14 + lc | .take => 3 * 2 ^ 14 + lc | .free => 0x3FF)
    else ringEntry s ctx own off j) ∧
  (match kind with
    | .rsv => w' 1 = (w 1 + 1) % 2 ^ 64
    | .take => w' 2 = (w 2 + 1) % 2 ^ 64
    | .post => Advanced t ctx own off n 2 (w 0) (w' 0) (w 1)
    | .free => Advanced t ctx own off n 0 (w 3) (w' 3) (w 2))

/-- A context in which the steps of a hart or an engine meet nothing but the checks of memory, every clock standing well before a rebase. -/
def CalmFor (s : State) (ctx : Nat) : Prop :=
  (s.ctxOf ctx).status = .live ∧ (s.ctxOf ctx).sealing = false ∧ (s.ctxOf ctx).cr.det = false ∧
  (s.ctxOf ctx).partials = [] ∧ (s.ctxOf ctx).cwatches = [] ∧ (s.ctxOf ctx).ovfPending = false ∧ ∀ p, (s.clock ctx p).toNat + 2 ^ 40 < 2 ^ 47

end Sys2Proof.Machine

/-- R310 to R313: `ringinit` writes the header of an empty ring and registers it, or takes a ring off the register; `slrsv`, `sltake`,
`slpost` and `slfree` move one slot on, at an own ring or a peer's; where no slot is free or posted the first two answer 0. -/
def Obligations.Rings : Prop :=
  ∀ (h : Hd) (rd ra rb rc : Reg) (own off n b i : Nat) (s : State), Fresh s → h.s = true → Calm s →
    let t0 := s.slot
    let ctx := s.focus.ctx
    let lc := s.focus.lc
    let ring := t0.rx ra.val
    let closed (i : Instr) (t : State) (x : Nat → Word) : Prop := Runs i s t ∧ ClosedSlot s t h t0.rv x t0.rk 0
    (ownPlace lc ring = some off → off % 192 = 0 → (off ∈ s.me.rings → ringWord s ctx lc off 5 = 0) →
      (t0.rx rb.val = 0 → ∃ t, closed (.ringinit h ra rb rc) t t0.rx ∧ SameMemory s t ∧ t.me.rings = s.me.rings.erase off) ∧
      (t0.rx rb.val = BitVec.ofNat 64 n → t0.rx rc.val = BitVec.ofNat 64 b → n ∈ [2, 4, 8, 16, 32, 64] → b % 48 = 0 → 48 ≤ b → b ≤ 49152 →
        off + 192 + n * b ≤ lsSize → (off ∈ s.me.rings ∨ s.me.rings.length < 16) →
        (∀ q ∈ s.me.rings, q ≠ off → let g := ringWord s ctx lc q 4
          off + 192 + n * b ≤ q ∨ q + 192 + 2 ^ (g % 8) * (g / 2 ^ 16 % 2 ^ 16 * 48) ≤ off) →
        ∃ t, closed (.ringinit h ra rb rc) t t0.rx ∧ SameMemoryBut (lsKey ctx lc off) 192 s t ∧ RingAt t ctx lc off n b ∧
          (∀ k, k ∈ [0, 1, 2, 3, 5, 7] → ringWord t ctx lc off k = 0) ∧ ringWord t ctx lc off 6 = 0x3FF03FF ∧
          (∀ j, j < 64 → ringEntry t ctx lc off j = if j < n then 0x3FF else 0) ∧ ∀ q, q ∈ t.me.rings ↔ q = off ∨ q ∈ s.me.rings)) ∧
    (placeOf lc ring = some (.ls own off) → (own = lc ∨ s.placed ctx own = true ∧ (s.core ctx own).watch = []) → lc < 1024 →
      RingAt s ctx own off n b →
      let w (k : Nat) : Nat := ringWord s ctx own off k
      let slot : Word := ring + BitVec.ofNat 64 (192 + i * b)
      ((w 5 = 0 ∨ 2 ^ 63 ≤ w 5) →
        ((w 1 + 2 ^ 64 - w 3) % 2 ^ 64 < n → i = w 1 % n →
          ∃ t, closed (.slrsv h rd ra) t (setX rd.val slot t0.rx) ∧ OnlyAccess s t ∧ RingStepped s t ctx own off lc n i .rsv) ∧
        (n ≤ (w 1 + 2 ^ 64 - w 3) % 2 ^ 64 → ∃ t, closed (.slrsv h rd ra) t (setX rd.val 0 t0.rx) ∧ OnlyAccess s t ∧ SameMemory s t)) ∧
      (w 5 < 2 ^ 63 →
        (w 0 ≠ w 2 → i = w 2 % n →
          ∃ t, closed (.sltake h rd ra) t (setX rd.val slot t0.rx) ∧ OnlyAccess s t ∧ RingStepped s t ctx own off lc n i .take) ∧
        (w 0 = w 2 → ∃ t, closed (.sltake h rd ra) t (setX rd.val 0 t0.rx) ∧ OnlyAccess s t ∧ SameMemory s t)) ∧
      (i < n → t0.rx rb.val = slot → ringEntry s ctx own off i % 1024 = lc →
        (ringEntry s ctx own off i / 2 ^ 14 = 1 →
          ∃ t, closed (.slpost h ra rb) t t0.rx ∧ OnlyAccess s t ∧ RingStepped s t ctx own off lc n i .post) ∧
        (ringEntry s ctx own off i / 2 ^ 14 = 3 →
          ∃ t, closed (.slfree h ra rb) t t0.rx ∧ OnlyAccess s t ∧ RingStepped s t ctx own off lc n i .free)))

/-- R305 to R308, R175: `copy` puts its command at the end of the queue of a hart with room and answers 0, else 1, or 2 for no hart.
COPY_CHUNK moves at most one sector of what is left of the oldest command, and COPY_COMPLETE ends a command with nothing left, telling its
issuer where that was asked, and queues its continuation in the same step. -/
def Obligations.Copies : Prop :=
  (∀ (h : Hd) (rd ra rb : Reg) (s : State), Fresh s → h.s = true → s.here.cr.det = false → Unpaused s →
    (Instr.copy h rd ra rb).wf = true →
    let n := (s.slot.rx ra.val).toNat
    let x := s.hart n
    let answers (t : State) (st : Word) : Prop := Runs (.copy h rd ra rb) s t ∧ SameMemory s t ∧
      ClosedSlot s t h s.slot.rv (setX rd.val st s.slot.rx) s.slot.rk 0 ∧ ∀ k, k ≠ n → t.hart k = s.hart k
    (47 < n → ∃ t, answers t 2 ∧ t.hart n = x) ∧
    (∀ c, n ≤ 47 → copyOf ((List.range 8).map (fun i => s.slot.rx (rb.val + i))) = some c → s.endsChk c.src c.len = none →
      s.endsChk c.dst c.len = none → copyOverlap s.focus.lc c = false →
      (x.room = true → ∃ (t : State) (r : CopyRun), answers t 0 ∧ t.hart n = { x with queue := x.queue ++ [.copy r] } ∧ r.ctx = s.focus.ctx ∧ r.lc = s.focus.lc ∧
        r.nan = s.slot.nanread ∧ r.c = c ∧ r.left = [(0, c.len)] ∧ r.bytes = 0 ∧ r.refused = none ∧ r.started = false) ∧
      (x.room = false → ∃ t, answers t 1 ∧ t.hart n = x))) ∧
  (∀ (hart pick from' len sb db : Nat) (r : CopyRun) (sp dp : Place) (s : State), (s.hart hart).stopped = false →
    (s.hart hart).queue = [.copy r] → (s.hart hart).behind r.ctx r.lc r.ticket = false → CalmFor s r.ctx → r.waiting = false → r.refused = none →
    (r.left = [(from', len)] → 0 < len → placeOf r.lc r.c.src = some sp → placeOf r.lc r.c.dst = some dp →
      Open s (hartWho hart r.ctx r.lc r.nan) .r (sp.plus from') len sb → Open s (hartWho hart r.ctx r.lc r.nan) .w (dp.plus from') len db →
      ∃ (t : State) (a k : Nat), exec (.copyChunk hart pick) s = .next t ∧ t.slots = s.slots ∧ a + k ≤ len ∧ 0 < k ∧ k ≤ 48 ∧
        SameMemoryBut (db + a) k s t ∧ Mem.bytes t.mem (db + a) k = Mem.bytes s.mem (sb + a) k ∧
        ∃ r' : CopyRun, (t.hart hart).queue = [.copy r'] ∧ r'.bytes = r.bytes + k ∧
          r'.left = [(from', a), (from' + a + k, len - (a + k))].filter (fun q => decide (0 < q.2))) ∧
    (r.left = [] → r.c.cont = false →
      (r.c.done = false → ∃ t, exec (.copyComplete hart) s = .next t ∧ SameMemory s t ∧ t.slots = s.slots ∧ (t.hart hart).queue = [] ∧
        (t.core r.ctx r.lc).box = (s.core r.ctx r.lc).box) ∧
      (r.c.done = true → s.eventRoom r.ctx r.lc = true →
        ∃ (t : State) (m : Msg), exec (.copyComplete hart) s = .next t ∧ SameMemoryAt r.ctx r.lc s t ∧ t.slots = s.slots ∧ (t.hart hart).queue = [] ∧
          (t.core r.ctx r.lc).box = (s.core r.ctx r.lc).box ++ [m] ∧ m.kind = .copydone ∧ m.src = r.lc ∧ m.tag = r.c.tag ∧ m.nan = r.nan ∧
          m.words = [0, BitVec.ofNat 64 r.bytes, r.c.src, r.c.dst, 0, r.c.recAddr, 0])) ∧
    (∀ kb i rest, r.left = [] → r.c.cont = true → r.lc < 768 → Open s (hartWho hart r.ctx r.lc r.nan) .r (.glob r.c.recAddr.toNat) 192 kb →
      let bs := Mem.bytes s.mem kb 192
      let home := if (Record.parse bs).bind = 0x3FF then r.lc else (Record.parse bs).bind
      Record.badField bs = none → (s.ctxOf r.ctx).poolFree = i :: rest → (s.core r.ctx r.lc).suspended = [] → s.eventRoom r.ctx r.lc = true →
      ∃ (t : State) (q : QEntry), exec (.copyComplete hart) s = .next t ∧ t.slots = s.slots ∧ (t.hart hart).queue = [] ∧ (t.ctxOf r.ctx).poolFree = rest ∧
        (t.core r.ctx home).ready = (s.core r.ctx home).ready ++ [q] ∧ q.image = false ∧ q.ref = i ∧ q.bind = (Record.parse bs).bind ∧
        q.prio = (Record.parse bs).prio ∧ q.node = (Record.parse bs).node ∧ q.await = none ∧
        (t.ctxOf r.ctx).drains = (s.ctxOf r.ctx).drains.map (fun e => { e with copies := e.copies.erase r.ticket }) ∧
        (r.c.done = false → (t.core r.ctx r.lc).box = (s.core r.ctx r.lc).box) ∧
        (r.c.done = true → ∃ m : Msg, (t.core r.ctx r.lc).box = (s.core r.ctx r.lc).box ++ [m] ∧ m.kind = .copydone ∧ m.src = r.lc ∧ m.tag = r.c.tag ∧
          m.nan = r.nan ∧ m.words = [0, BitVec.ofNat 64 r.bytes, r.c.src, r.c.dst, 0, r.c.recAddr, 0])))

namespace Sys2Proof.Machine

/-- The subscription in entry `e` of hart `n`. -/
def State.sub (s : State) (n e : Nat) : Sub := Tab.get {} (s.hart n).subs e

/-- Hart `n` works, and may take its next step on the subscription in entry `e`: it is live and started, waits on no page, was refused
nothing, and both its rings lie in its issuer's store. -/
def Serves (s : State) (n e : Nat) (b : Sub) (fo : Nat) : Prop :=
  s.sub n e = b ∧ (s.hart n).stopped = false ∧ b.live = true ∧ b.waiting = false ∧ b.refused = none ∧ (s.hart n).queue.contains (.sub e) = false ∧
  CalmFor s b.ctx ∧ b.lc < 1024 ∧ ownPlace b.lc b.feed = some fo ∧ (s.core b.ctx b.lc).watch = [] ∧ (s.hart n).behind b.ctx b.lc b.ticket = false

/-- Nothing of the hart changed but the subscription in entry `e`, which is now `b`. -/
def SubNow (s t : State) (n e : Nat) (b : Sub) : Prop :=
  t.slots = s.slots ∧ t.sub n e = b ∧ (t.hart n).queue = (s.hart n).queue ∧ (∀ k, k ≠ e → t.sub n k = s.sub n k) ∧
  ∀ k, k ≠ n → t.hart k = s.hart k

end Sys2Proof.Machine

/-- R317 to R321: `sub.tile` takes a free entry of its hart, attaches the ring and answers the handle (the lowest free entry is
the model's choice, log 67), and `unsub` asks for its end. TILE_PUSH
reserves a slot, moves one chunk of the tile at its place (zeros where the tile passes the region), and posts the slot; TILE_RETURN takes
a posted return slot, moves one chunk back, and frees it; SUBSCRIPTION_END of a subscription with nothing left clears ATTACH and sends
COPYDONE. That one step moves one part of an element, in two pieces where a sector boundary cuts it, and that `pick` names it, is the model's
choice (log 46). -/
def Obligations.Tiles : Prop :=
  (∀ (h : Hd) (rd ra rb : Reg) (off n b xo e : Nat) (r : SubRec) (s : State), Fresh s → h.s = true → Calm s → s.focus.lc < 1024 →
    let x := s.hart r.hart
    ownPlace s.focus.lc (s.slot.rx ra.val) = some off → RingAt s s.focus.ctx s.focus.lc off n b → ringWord s s.focus.ctx s.focus.lc off 5 = 0 →
    ownPlace s.focus.lc (s.slot.rx rb.val) = some xo → xo % 8 = 0 → xo + 64 ≤ lsSize →
    subOf (Mem.bytes s.mem (lsKey s.focus.ctx s.focus.lc xo) 64) = some r → r.ret = false → r.tr * r.tc * r.elem ≤ b →
    x.room = true → e < 16 → (Tab.get {} x.subs e).live = false → (∀ k, k < e → (Tab.get {} x.subs k).live = true) →
    let g := if (Tab.get {} x.subs e).gen + 1 < 2 ^ 32 then (Tab.get {} x.subs e).gen + 1 else 1
    let handle := r.hart + e * 2 ^ 6 + g * 2 ^ 16
    ∃ (t : State) (u : Sub), Runs (.subTile h rd ra rb) s t ∧ ClosedSlot s t h s.slot.rv (setX rd.val (BitVec.ofNat 64 handle) s.slot.rx) s.slot.rk 0 ∧
      SameMemoryBut (lsKey s.focus.ctx s.focus.lc (off + 40)) 8 s t ∧ ringWord t s.focus.ctx s.focus.lc off 5 = handle ∧
      t.sub r.hart e = u ∧ u.live = true ∧ u.ctx = s.focus.ctx ∧ u.lc = s.focus.lc ∧ u.r = r ∧ u.feed = s.slot.rx ra.val ∧ u.gen = g ∧
      u.pushed = 0 ∧ u.returned = 0 ∧ (t.hart r.hart).queue = x.queue ++ [.sub e]) ∧
  (∀ (h : Hd) (ra : Reg) (n e : Nat) (b : Sub) (s : State), Fresh s → h.s = true → Unpaused s → s.here.cr.det = false →
    s.sub n e = b → n < 48 → e < 16 → b.gen < 2 ^ 32 → s.slot.rx ra.val = BitVec.ofNat 64 (n + e * 2 ^ 6 + b.gen * 2 ^ 16) →
    let mine := b.live = true ∧ b.ctx = s.focus.ctx ∧ b.lc = s.focus.lc
    ∃ t, Runs (.unsub h ra) s t ∧ SameMemory s t ∧ ClosedSlot s t h s.slot.rv s.slot.rx s.slot.rk 0 ∧
      (mine → t.sub n e = { b with unsub := true }) ∧ (¬ mine → t.harts = s.harts)) ∧
  (∀ (n e pick fo ns nb : Nat) (b : Sub) (s : State), Serves s n e b fo → RingAt s b.ctx b.lc fo ns nb →
    let r := b.r
    let w (k : Nat) : Nat := ringWord s b.ctx b.lc fo k
    (b.push = none → b.unsub = false → b.pushed < r.total → (w 1 + 2 ^ 64 - w 3) % 2 ^ 64 < ns →
      ∃ t, exec (.tilePush n e pick) s = .next t ∧ RingStepped s t b.ctx b.lc fo b.lc ns (w 1 % ns) .rsv ∧
        SubNow s t n e { b with push := some (192 + w 1 % ns * nb, r.chunks r.base b.pushed true) }) ∧
    (∀ i, b.push = some (192 + i * nb, []) → i < ns → ringEntry s b.ctx b.lc fo i = 2 ^ 14 + b.lc →
      ∃ t, exec (.tilePush n e pick) s = .next t ∧ RingStepped s t b.ctx b.lc fo b.lc ns i .post ∧
        SubNow s t n e { b with push := none, pushed := b.pushed + 1 }) ∧
    (∀ slot id i j p, b.push = some (slot, [id]) → r.chunk id = (i, j, p) → fo + slot + r.pos i j p + r.part ≤ lsSize →
      clearAt s b.ctx b.lc (fo + slot + r.pos i j p) r.part = true →
      let at0 := lsKey b.ctx b.lc (fo + slot + r.pos i j p)
      (r.addr r.base b.pushed i j p = none →
        ∃ t, exec (.tilePush n e pick) s = .next t ∧ SubNow s t n e { b with push := some (slot, []) } ∧
          SameMemoryBut at0 r.part s t ∧ Mem.bytes t.mem at0 r.part = List.replicate r.part 0) ∧
      (∀ a pl o m src, r.addr r.base b.pushed i j p = some a → placeOf b.lc a = some pl → r.piece a (id % 2) = some (o, m) → 0 < m →
        Open s (hartWho n b.ctx b.lc b.nan) .r (pl.plus o) m src →
        ∃ t, exec (.tilePush n e pick) s = .next t ∧ SubNow s t n e { b with push := some (slot, []) } ∧ SameMemoryBut (at0 + o) m s t ∧
          ∀ q, q < m → Mem.read t.mem (at0 + o + q) =
            if r.conj = true ∧ p = 1 ∧ o + q + 1 = r.part then Mem.read s.mem (src + q) ^^^ 0x80 else Mem.read s.mem (src + q))) ∧
    (∀ ro ms mb, r.ret = true → ownPlace b.lc r.rring = some ro → RingAt s b.ctx b.lc ro ms mb →
      let v (k : Nat) : Nat := ringWord s b.ctx b.lc ro k
      (b.ret = none → b.returned < r.total → v 0 ≠ v 2 →
        ∃ t, exec (.tileReturn n e pick) s = .next t ∧ RingStepped s t b.ctx b.lc ro b.lc ms (v 2 % ms) .take ∧
          SubNow s t n e { b with ret := some (192 + v 2 % ms * mb, r.chunks r.rbase b.returned false) }) ∧
      (∀ i, b.ret = some (192 + i * mb, []) → i < ms → ringEntry s b.ctx b.lc ro i = 3 * 2 ^ 14 + b.lc →
        ∃ t, exec (.tileReturn n e pick) s = .next t ∧ RingStepped s t b.ctx b.lc ro b.lc ms i .free ∧
          SubNow s t n e { b with ret := none, returned := b.returned + 1 }) ∧
      (∀ slot id i j p a pl o m dst, b.ret = some (slot, [id]) → r.chunk id = (i, j, p) → ro + slot + r.pos i j p + r.part ≤ lsSize →
        r.addr r.rbase b.returned i j p = some a → placeOf b.lc a = some pl → r.piece a (id % 2) = some (o, m) → 0 < m →
        Open s (hartWho n b.ctx b.lc b.nan) .w (pl.plus o) m dst →
        ∃ t, exec (.tileReturn n e pick) s = .next t ∧ SubNow s t n e { b with ret := some (slot, []) } ∧ SameMemoryBut dst m s t ∧
          Mem.bytes t.mem dst m = Mem.bytes s.mem (lsKey b.ctx b.lc (ro + slot + r.pos i j p + o)) m)) ∧
    (r.ret = false → r.total ≤ b.pushed → b.push = none → b.ret = none → s.eventRoom b.ctx b.lc = true →
      (s.core b.ctx b.lc).suspended = [] →
      ∃ (t : State) (m : Msg), exec (.subscriptionEnd n e) s = .next t ∧ SubNow s t n e { gen := b.gen } ∧ SameMemoryBut (lsKey b.ctx b.lc (fo + 40)) 8 s t ∧
        ringWord t b.ctx b.lc fo 5 = 0 ∧ (t.core b.ctx b.lc).box = (s.core b.ctx b.lc).box ++ [m] ∧ m.kind = .copydone ∧ m.src = b.lc ∧
        m.tag = r.tag ∧ m.nan = b.nan ∧ m.words = [0, BitVec.ofNat 64 b.pushed, BitVec.ofNat 64 b.returned,
          BitVec.ofNat 64 (n + e * 2 ^ 6 + b.gen * 2 ^ 16), 0, 0, 1]))

namespace Sys2Proof.Machine

/-- Graph `gi` is live, and the engine reaches its record at `gb` and its node records at `nb`; nothing waits on a page. -/
def GraphAt (s : State) (ctx gi : Nat) (g : Graph) (gb : Nat) (nb : Nat → Nat) (more : List (Nat × Nat × Nat)) : Prop :=
  s.graph ctx gi = g ∧ g.ncap ≠ 0 ∧ CalmFor s ctx ∧ (s.ctxOf ctx).waitLists = [] ∧
  Arena s (engWho ctx g.lc g.nan) ((g.addr, 192, gb) :: (List.range g.ncap).map (fun i => (g.at i, 192, nb i)) ++ more)

/-- Node `i` went from its state to `new`, in the engine's own state and in the two records (R343, R345). -/
def NodeMoved (s t : State) (ctx gi i new gb : Nat) (nb : Nat → Nat) : Prop :=
  let g := s.graph ctx gi
  let g' := t.graph ctx gi
  (g'.node i).state = new ∧ (g'.node i).known = true ∧ (∀ j, j ≠ i → g'.node j = g.node j) ∧
  g'.counts = moveCount g.counts (g.node i).state new ∧
  memNat t (nb i) 4 = new ∧ (∀ k, k < 7 → memNat t (gb + 32 + 4 * k) 4 = g'.counts.getD k 0 % 2 ^ 32) ∧
  SameMemoryOut [(0, 192, gb), (0, 192, nb i)] s t

/-- The ranges of node `i` are to be treated next, page by page (R349, R351). -/
def Treats (g g' : Graph) (i : Nat) (inf : NodeInfo) : Prop :=
  ∃ m : NodeMove, g'.moves = g.moves ++ [m] ∧ m.node = i ∧ m.stage = .next ∧
    ∀ p pre, (p, pre) ∈ m.pages ↔ p % 65536 = 0 ∧ ∃ r ∈ inf.ranges, r.2.2 = pre ∧ r.1 < p + 65536 ∧ p < r.1 + r.2.1

/-- The slot in focus issued a group of one instruction with header `h` that retired its node (R355). -/
def Retired (s t : State) (h : Hd) : Prop :=
  t.slot.node = 0 ∧ t.slot.pc = nextPc s.slot.pc h.len ∧ t.slot.x = s.slot.x ∧ t.slot.v = s.slot.v ∧ t.slot.k = s.slot.k ∧
  t.slot.longs = [] ∧ t.slot.cid = s.slot.cid ∧ ∀ f : Focus, f.key ≠ s.focus.key → t.slotAt f = s.slotAt f

end Sys2Proof.Machine

/-- R343, R347, R355, R358, R361: `glaunch` registers a graph whose record keeps the rules, its nodes PENDING; `gstat` delivers its counts;
`nodedone` and `nodefail` retire the node of the continuation, a retry leading to its ranges anew; `nodeadd` adds a node and `edgeadd` an
edge, or either answers why not and changes nothing (a graph that is done takes no node, though its notice is still to come: the model's
choice, log 64). -/
def Obligations.GraphInstructions : Prop :=
  ∀ (h : Hd) (rd ra rb : Reg) (code : BitVec 16) (gi gb rb' lb i j : Nat) (nb : Nat → Nat) (g : Graph) (s : State),
    Fresh s → h.s = true → s.here.cr.det = false →
    let ctx := s.focus.ctx
    let t0 := s.slot
    let a := t0.rx ra.val
    let closed (i : Instr) (t : State) (x : Nat → Word) : Prop := Runs i s t ∧ ClosedSlot s t h t0.rv x t0.rk 0
    let rec192 (key : Nat) : List Byte := Mem.bytes s.mem key 192
    ((∀ k, k < gi → (s.graph ctx k).ncap ≠ 0) → gi < 256 → s.graph ctx gi = {} → CalmFor s ctx → Unpaused s → s.here.waitLists = [] →
      a.toNat % 192 = 0 → Arena s (engWho ctx s.focus.lc t0.nanread) [(a.toNat, 192, gb)] →
      Open s { s.who t0.nanread with engine := true, csets := false } .rw (.glob a.toNat) 192 gb →
      (graphChecks (rec192 gb)).all (·.2) = true →
      ∃ t, closed (.glaunch h ra) t t0.rx ∧ SameMemoryOut [(0, 192, gb)] s t ∧
        memNat t (gb + 28) 2 = 1 ∧ memNat t (gb + 32) 4 = memNat s (gb + 8) 4 ∧ (∀ k, k < 6 → memNat t (gb + 36 + 4 * k) 4 = 0) ∧
        memNat t (gb + 60) 4 = 0xFFFFFFFF ∧
        let u := t.graph ctx gi
        u.addr = a.toNat ∧ u.nodes = memNat s gb 8 ∧ u.ncount = memNat s (gb + 8) 4 ∧ u.ncap = memNat s (gb + 12) 4 ∧
        u.fpool = memNat s (gb + 16) 8 ∧ u.notify = memNat s (gb + 24) 2 ∧ u.tag = memNat s (gb + 26) 2 ∧ u.lc = s.focus.lc ∧ u.scan = 0 ∧
        (∀ k, (u.node k).state = 0)) ∧
    (s.here.graphs.find? (fun e => decide (e.2.addr = a.toNat)) = some (gi, g) → octetOk rd = true → g.counts.length = 7 →
      Mapped s .r a 64 gb → Calm s → a.toNat + 64 ≤ 2 ^ 56 →
      ∃ t, closed (.gstat h rd ra) t (fun q => if rd.val ≤ q ∧ q < rd.val + 8 then
          (if q = rd.val then BitVec.ofNat 64 (1 + g.ff * 2 ^ 32) else BitVec.ofNat 64 (g.counts.getD (q - rd.val - 1) 0)) else t0.rx q) ∧
        SameMemory s t) ∧
    (GraphAt s ctx gi g gb nb [] → i < g.ncap → t0.node ≠ 0 → s.focus.pos < 8 → s.here.nodeOf t0.node = some (gi, g, i) →
      (g.node i).state = 2 → (g.node i).known = true →
      (∃ t, Issues (.nodedone h) s t ∧ Retired s t h ∧ NodeMoved s t ctx gi i 4 gb nb ∧
        (t.graph ctx gi).tokens = g.tokens ++ (if (g.node i).succ = [] then [] else [(g.node i).succ]) ∧ (t.graph ctx gi).dispatch = g.dispatch) ∧
      (∀ inf, (g.node i).info = some inf → (∀ r ∈ inf.ranges, 0 < r.2.1) →
        ((g.node i).attempts < inf.retry → ∃ t, Issues (.nodefail h code) s t ∧ Retired s t h ∧ NodeMoved s t ctx gi i 3 gb nb ∧
          ((t.graph ctx gi).node i).attempts = (g.node i).attempts + 1 ∧ (t.graph ctx gi).dispatch = g.dispatch ∧ Treats g (t.graph ctx gi) i inf ∧
          memNat t (nb i + 104) 2 = ((g.node i).attempts + 1) % 2 ^ 16 ∧ memNat t (nb i + 106) 2 = code.toNat) ∧
        (inf.retry ≤ (g.node i).attempts → ∃ (t : State) (w : Sweep), Issues (.nodefail h code) s t ∧ Retired s t h ∧ NodeMoved s t ctx gi i 5 gb nb ∧
          (t.graph ctx gi).sweeps = g.sweeps ++ [w] ∧ w.f = i ∧ w.next = [] ∧ (∀ k, k ∈ w.level ↔ k ∈ (g.node i).succ) ∧
          (t.graph ctx gi).ff = Nat.min g.ff i ∧ memNat t (gb + 60) 4 = Nat.min g.ff i % 2 ^ 32 ∧ memNat t (nb i + 106) 2 = code.toNat))) ∧
    (GraphAt s ctx gi g gb nb [] → Calm s → s.here.graphs.find? (fun e => decide (e.2.addr = a.toNat)) = some (gi, g) →
      (g.ncount < g.ncap → g.ended = false → g.counts.length = 7 → Mapped s .r (t0.rx rb.val) 192 rb' → (t0.rx rb.val).toNat + 192 ≤ 2 ^ 64 →
        memNat s rb' 4 = 0 → memNat s (rb' + 104) 4 = 0 → (∀ k, 108 ≤ k → k < 192 → Mem.read s.mem (rb' + k) = 0) →
        ∃ t, closed (.nodeadd h rd ra rb) t (setX rd.val (BitVec.ofNat 64 g.ncount) t0.rx) ∧
          SameMemoryOut [(0, 192, gb), (0, 192, nb g.ncount)] s t ∧ Mem.bytes t.mem (nb g.ncount) 192 = rec192 rb' ∧
          (t.graph ctx gi).ncount = g.ncount + 1 ∧ memNat t (gb + 8) 4 = (g.ncount + 1) % 2 ^ 32 ∧
          memNat t (gb + 32) 4 = (g.counts.getD 0 0 + 1) % 2 ^ 32 ∧ ((t.graph ctx gi).node g.ncount).count = memNat s (rb' + 4) 4 ∧
          (t.graph ctx gi).due = if memNat s (rb' + 4) 4 = 0 then g.due ++ [g.ncount] else g.due) ∧
      (g.ncap ≤ g.ncount ∨ g.ended = true → Mapped s .r (t0.rx rb.val) 192 rb' → (t0.rx rb.val).toNat + 192 ≤ 2 ^ 64 →
        ∃ t, closed (.nodeadd h rd ra rb) t (setX rd.val 0xFFFFFFFF t0.rx) ∧ SameMemory s t ∧ t.graph ctx gi = g)) ∧
    (GraphAt s ctx gi g gb nb [(memNat s (nb i + 16) 8, 4 * memNat s (nb i + 26) 2, lb)] → i < g.ncap → j < g.ncap → i ≠ j →
      Unpaused s → s.here.nodeOf a = some (gi, g, i) → s.here.nodeOf (t0.rx rb.val) = some (gi, g, j) →
      (g.node i).known = true → (g.node j).known = true →
      let refused (st : Word) : Prop := ∃ t, closed (.edgeadd h rd ra rb) t (setX rd.val st t0.rx) ∧ SameMemory s t ∧ t.graph ctx gi = g
      let full := let c := memNat s (nb i + 26) 2
        c = 0 ∨ c ≤ memNat s (nb i + 24) 2
      (4 ≤ (g.node i).state → refused 1) ∧ ((g.node i).state < 4 → (g.node j).state ≠ 0 → refused 2) ∧
      ((g.node i).state < 4 → (g.node j).state = 0 → full → refused 3) ∧
      ((g.node i).state < 4 → (g.node j).state = 0 → memNat s (nb i + 24) 2 < memNat s (nb i + 26) 2 →
        let k := memNat s (nb i + 24) 2
        ∃ t, closed (.edgeadd h rd ra rb) t (setX rd.val 0 t0.rx) ∧ memNat t (lb + 4 * k) 4 = j % 2 ^ 32 ∧ memNat t (nb i + 24) 2 = k + 1 ∧
          memNat t (nb j + 4) 4 = ((g.node j).count + 1) % 2 ^ 32 ∧ ((t.graph ctx gi).node j).count = (g.node j).count + 1 ∧
          ((t.graph ctx gi).node i).succ = (g.node i).succ ++ (if (g.node i).info = none then [] else [j])))

/-- R156, R347, R349, R351, R352, R355, R357, R360: the steps of the Marionette on a node or a graph: the scan, the becoming ready of a node,
the move of a page of its ranges (its entry invalid, its bytes in the new frame, its entry on that frame and die), its dispatch as a queued
continuation whose record has the contents of R352, a token that lowers a count, a node that a sweep cancels, the report of a logical core,
and the end of a graph with its notice. That each stage of a page move is one NODE_READY step, and the copy of its 65536 bytes one of them, is
the model's choice (log 46). -/
def Obligations.GraphSteps : Prop :=
  ∀ (ctx gi gb i : Nat) (nb : Nat → Nat) (g : Graph) (more : List (Nat × Nat × Nat)) (s : State), GraphAt s ctx gi g gb nb more → g.counts.length = 7 →
    let quiet (t : State) : Prop := t.slots = s.slots
    let fld (i o n : Nat) : Nat := memNat s (nb i + o) n
    (g.lost = [] → g.scan = i → i ∉ g.due → i < g.ncount → i < g.ncap → (g.node i).known = false → fld i 0 4 = 0 → fld i 104 2 = 0 → fld i 106 2 = 0 →
      ∃ t, exec (.graphScan ctx gi) s = .next t ∧ quiet t ∧ SameMemory s t ∧ (t.graph ctx gi).scan = i + 1 ∧
        ((t.graph ctx gi).node i).known = true ∧ ((t.graph ctx gi).node i).count = fld i 4 4 ∧
        (t.graph ctx gi).due = if fld i 4 4 = 0 then g.due ++ [i] else g.due) ∧
    (∀ inf q lb, i ∈ g.due → (∀ m ∈ g.moves, m.node ≠ i) → i < g.ncap → (g.node i).state = 0 → (g.node i).count = 0 →
      nodeInfo (Mem.bytes s.mem (nb i) 192) = some inf → (∀ r ∈ inf.ranges, 0 < r.2.1) →
      let k := fld i 24 2
      let succ := (List.range k).map (fun j => memNat s (lb + 4 * j) 4)
      (k = 0 ∨ more = [(fld i 16 8, 4 * k, lb)]) → (∀ j ∈ succ, j < g.ncount) →
      (inf.place < 768 ∧ q = inf.place ∨ 768 ≤ inf.place ∧ ∃ l, s.leaf ctx (g.at i) = .ok l ∧ q = 192 * l.home + g.at i / 192 % 192) →
      ∃ t, exec (.nodeReady ctx gi i) s = .next t ∧ quiet t ∧ NodeMoved s t ctx gi i 1 gb nb ∧ (t.graph ctx gi).due = g.due.erase i ∧
        (t.graph ctx gi).dispatch = g.dispatch ∧ Treats g (t.graph ctx gi) i inf ∧ ((t.graph ctx gi).node i).q = some q ∧
        ((t.graph ctx gi).node i).info = some inf ∧ ((t.graph ctx gi).node i).succ = succ) ∧
    (∀ m, g.moves.find? (fun m => decide (m.node = i)) = some m →
      (m.stage = .next → m.pages = [] → (g.node i).state = 1 ∨ (g.node i).state = 3 →
        ∃ t, exec (.nodeReady ctx gi i) s = .next t ∧ quiet t ∧ SameMemory s t ∧ (t.graph ctx gi).dispatch = g.dispatch ++ [i] ∧
          (t.graph ctx gi).moves = g.moves.filter (fun x => decide (x.node ≠ i))) ∧
      (∀ page pre rest ea q, m.pages = (page, pre) :: rest → page % 65536 = 0 → s.leafEntry ctx page 4 (s.ctxOf ctx).cr.root = some ea → ea + 16 ≤ winBase →
        (g.node i).q = some q → q < 768 → m.frame < 2 ^ 32 → Young s →
        let w0 := memNat s ea 8
        let w1 := memNat s (ea + 8) 8
        let moved (t : State) (x0 x1 : Nat) : Prop := exec (.nodeReady ctx gi i) s = .next t ∧ quiet t ∧ SameMemoryBut ea 16 s t ∧
          memNat t ea 8 = x0 ∧ memNat t (ea + 8) 8 = x1
        let stage (t : State) (m' : NodeMove) : Prop := (t.graph ctx gi).moves.find? (fun m => decide (m.node = i)) = some m'
        (m.stage = .taken → w0 % 2 = 1 → w0 / 2 ^ 16 % 2 ^ 32 = m.old → ∃ t, moved t (w0 - 1) w1 ∧ stage t { m with stage := .cleared }) ∧
        (m.stage = .absent → s.frameFits ctx (leafOf page 0 w0 w1) m.frame = true →
          ∃ t, exec (.nodeReady ctx gi i) s = .next t ∧ quiet t ∧ SameMemoryBut (m.frame * 65536) 65536 s t ∧ stage t { m with stage := .copied } ∧
            ∀ x, x < 65536 → Mem.read t.mem (m.frame * 65536 + x) = Mem.read s.mem (m.old * 65536 + x)) ∧
        (m.stage = .copied → ∃ (t : State) (x0 x1 : Nat), moved t x0 x1 ∧ x0 % 2 = 1 ∧ x0 / 2 ^ 16 % 2 ^ 32 = m.frame ∧
          x0 / 2 % 2 ^ 15 = w0 / 2 % 2 ^ 15 ∧ x0 / 2 ^ 48 = w0 / 2 ^ 48 ∧ x1 / 2 ^ 24 % 4 = q / 192 ∧ x1 % 2 ^ 24 = w1 % 2 ^ 24 ∧
          x1 / 2 ^ 26 = w1 / 2 ^ 26 ∧ stage t { m with stage := .mapped, frame := m.old, die := w1 / 2 ^ 24 % 4 }))) ∧
    (∀ inf q cb p ps, i ∈ g.dispatch → ((g.node i).state = 1 ∨ (g.node i).state = 3) → (g.node i).info = some inf → (g.node i).q = some q → q < 768 →
      more = [(inf.cont, 192, cb)] → (s.ctxOf ctx).poolFree = p :: ps →
      let tm := Mem.bytes s.mem cb 192
      let old := Record.parse tm
      Record.badField tm = none → popCount 32 (old.mask ||| 0x300).toNat ≤ 16 →
      ∃ (t : State) (e : QEntry) (r : Record), exec (.nodeDispatch ctx gi i) s = .next t ∧ quiet t ∧ (t.graph ctx gi).dispatch = g.dispatch.erase i ∧
        (t.core ctx q).ready = (s.core ctx q).ready ++ [e] ∧ e.ref = p ∧ e.image = false ∧ e.prio = inf.prio ∧ e.bind = inf.place ∧
        e.node = BitVec.ofNat 64 (g.at i) ∧ (t.ctxOf ctx).poolFree = ps ∧
        RecordIn s t ctx p r ∧ r.pc = old.pc ∧ r.k1 = old.k1 ∧ r.nan = old.nan ∧ r.node = BitVec.ofNat 64 (g.at i) ∧ r.cause = 0 ∧ r.prio = inf.prio ∧
        r.bind = inf.place ∧ r.await = none ∧ r.mask = old.mask ||| 0x300 ∧ r.live.length = (maskRegs r.mask).length ∧
        ∀ (k x : Nat), (maskRegs r.mask)[k]? = some x → ∃ v : Word, r.live[k]? = some v ∧ (x = 8 → v = BitVec.ofNat 64 (g.at i)) ∧ (x = 9 → v = BitVec.ofNat 64 i) ∧
          (x ≠ 8 → x ≠ 9 → ∃ k' : Nat, (maskRegs old.mask)[k']? = some x ∧ v = BitVec.ofNat 64 (fieldAt tm (32 + 8 * k') 8))) ∧
    (∀ j rest, g.tokens = [j :: rest] → j < g.ncap → (g.node j).known = true → (g.node j).state = 0 → (g.node j).count ≠ 0 → j ∉ g.due →
      ∃ t, exec (.nodeToken ctx gi) s = .next t ∧ quiet t ∧ SameMemoryOut [(0, 192, nb j)] s t ∧
        (t.graph ctx gi).tokens = (if rest = [] then [] else [rest]) ∧ ((t.graph ctx gi).node j).count = (g.node j).count - 1 ∧
        memNat t (nb j + 4) 4 = ((g.node j).count - 1) % 2 ^ 32 ∧ (t.graph ctx gi).due = if (g.node j).count = 1 then g.due ++ [j] else g.due) ∧
    (∀ w rest, g.sweeps = [w] →
      (w.level = i :: rest → i < g.ncap → (g.node i).known = true → (g.node i).info ≠ none →
        ((g.node i).state = 0 → w.f < 2 ^ 24 → ∃ t, exec (.dominoSweep ctx gi) s = .next t ∧ quiet t ∧ NodeMoved s t ctx gi i 6 gb nb ∧
          memNat t (nb i + 96) 8 = 2 ^ 63 + w.f ∧ (t.graph ctx gi).sweeps = [{ w with level := rest, next := w.next ++ (g.node i).succ }]) ∧
        ((g.node i).state ≠ 0 → (g.node i).state ≠ 6 → ∃ t, exec (.dominoSweep ctx gi) s = .next t ∧ quiet t ∧ SameMemory s t ∧
          (t.graph ctx gi).sweeps = [{ w with level := rest }] ∧ ∀ k, (t.graph ctx gi).node k = g.node k)) ∧
      (w.level = [] → w.next = [] → ∃ t, exec (.dominoSweep ctx gi) s = .next t ∧ quiet t ∧ SameMemory s t ∧ (t.graph ctx gi).sweeps = [])) ∧
    (g.ended = true →
      (∀ l, l < 768 → l ∉ g.reported → (∀ c ∈ treeChildren l, c ∈ g.reported) →
        ∃ (t : State) (r : Nat × Nat), exec (.treeReport ctx gi l) s = .next t ∧ quiet t ∧ SameMemory s t ∧ (t.graph ctx gi).reported = l :: g.reported ∧
          Tab.get (0, 0xFFFFFFFF) (t.graph ctx gi).reports l = r ∧
          r.1 = (s.ownReport ctx g l).1 + ((treeChildren l).map (fun c => (Tab.get (0, 0xFFFFFFFF) g.reports c).1)).foldl (· + ·) 0 ∧
          r.2 ≤ (s.ownReport ctx g l).2 ∧ ∀ c ∈ treeChildren l, r.2 ≤ (Tab.get (0, 0xFFFFFFFF) g.reports c).2) ∧
      (0 ∈ g.reported → (s.core ctx g.notify).suspended = [] → (∀ d ∈ (s.ctxOf ctx).deferred, d.dst ≠ g.notify) → s.eventRoom ctx g.notify = true →
        let r := Tab.get (0, 0xFFFFFFFF) g.reports 0
        ∃ (t : State) (m : Msg), exec (.graphDone ctx gi) s = .next t ∧ quiet t ∧ SameMemoryOut [(0, 192, gb)] s t ∧ memNat t (gb + 28) 2 = 2 ∧
          memNat t (gb + 60) 4 = r.2 % 2 ^ 32 ∧ (t.graph ctx gi).ncap = 0 ∧ (t.core ctx g.notify).box = (s.core ctx g.notify).box ++ [m] ∧
          m.kind = .node ∧ m.src = 0x3FE ∧ m.tag = g.tag ∧ m.nan = g.nan ∧
          m.words = [1, g.addr, g.counts.getD 4 0, r.1, g.counts.getD 6 0, r.2, g.ncount].map (BitVec.ofNat 64)))

namespace Sys2Proof.Machine

/-- A context whose phase step has no cell to write and no event to place. -/
def PhaseCalm (s : State) (ctx : Nat) : Prop :=
  (s.ctxOf ctx).guardsNext = [] ∧ (s.ctxOf ctx).prefixes = [] ∧ (s.ctxOf ctx).cwatches = [] ∧ (s.ctxOf ctx).partials = [] ∧
  (s.ctxOf ctx).waitLists = [] ∧ (s.ctxOf ctx).status = .live ∧ (s.ctxOf ctx).sealing = false

/-- The phase of the context has gone up by one (R181). -/
def PhaseUp (s t : State) (ctx : Nat) : Prop := (t.ctxOf ctx).phase = ((s.ctxOf ctx).phase + 1) % 2 ^ 16 ∧ SameMemory s t ∧ t.slots = s.slots

/-- The positions `ps` of loop `l` were queued as continuations of a round, each on its logical core, in order (R366). -/
def Queued (s t : State) (ctx : Nat) (l : Loop) (list ps : List Nat) (commit : Bool) : Prop :=
  t.slots = s.slots ∧ ∀ c, c < 768 → (t.core ctx c).ready.map (·.iter) = (s.core ctx c).ready.map (·.iter) ++
    (ps.filter (fun p => decide (l.first + p % l.ncores = c))).map (fun p => some { index := list.getD p 0, pos := p, commit := commit })

/-- The free records of the pool stand whole at the keys `pa`, apart from each other and from the ranges `rs`, whatever is written there. -/
def PoolAt (s : State) (ctx : Nat) (pa : Nat → Nat) (rs : List (Nat × Nat × Nat)) : Prop :=
  let c := s.ctxOf ctx
  Young s ∧ c.poolFree.Pairwise (fun i j => pa i + 192 ≤ pa j ∨ pa j + 192 ≤ pa i) ∧
  ∀ i ∈ c.poolFree, c.recordAddr i % 65536 + 192 ≤ 65536 ∧ inHbm (pa i) = true ∧
    (∀ r ∈ rs, pa i + 192 ≤ r.2.2 ∨ r.2.2 + r.2.1 ≤ pa i) ∧
    ∀ m v, (∀ x, (∀ k ∈ c.poolFree, x < pa k ∨ pa k + 192 ≤ x) → (∀ r ∈ rs, x < r.2.2 ∨ r.2.2 + r.2.1 ≤ x) → Mem.read m x = Mem.read s.mem x) →
      ∃ l, ({ s with mem := m, versions := v } : State).leaf ctx (c.recordAddr i) = .ok l ∧ l.pa = pa i

/-- The records of a round over positions `ps`, taken from the pool in order, with the contents of R366; no other byte but those of `rs`
changed. -/
def RoundRecords (s t : State) (ctx : Nat) (l : Loop) (list ps : List Nat) (commit : Bool) (pa : Nat → Nat) (rs : List (Nat × Nat × Nat)) : Prop :=
  (∀ (j p : Nat), ps[j]? = some p → ∃ (i : Nat) (k : Word) (e : QEntry), (s.ctxOf ctx).poolFree[j]? = some i ∧
    let lc := l.first + p % l.ncores
    e ∈ (t.core ctx lc).ready ∧ e.ref = i ∧ e.image = false ∧ e.prio = l.prio ∧ e.bind = lc ∧ e.node = 0 ∧
    e.iter = some { index := list.getD p 0, pos := p, commit := commit } ∧
    Mem.bytes t.mem (pa i) 192 = ({
      pc := if commit then l.cmtpc else l.rsvpc, mask := 0xF00, bind := lc, nan := l.nan, prio := l.prio, k1 := BitVec.allOnes 48
      live := BitVec.ofNat 64 (list.getD p 0) :: l.args, link := k } : Record).bytes) ∧
  ∀ x, (∀ i ∈ (s.ctxOf ctx).poolFree, x < pa i ∨ pa i + 192 ≤ x) → (∀ r ∈ rs, x < r.2.2 ∨ r.2.2 + r.2.1 ≤ x) → Mem.read t.mem x = Mem.read s.mem x

end Sys2Proof.Machine

/-- R365, R370 to R375: `rloop` registers a loop and clears its retry buffer; `rsv` and LINE_FOLD leave the reservation of the lowest index of
the window in the tag, `rchk` tells whether the tag is the iteration's own, `rdone` ends the iteration and the engine counts it. -/
def Obligations.LoopInstructions : Prop :=
  ∀ (h : Hd) (rd ra : Reg) (gb bb : Nat) (l : Loop) (it : Iter) (s : State), h.s = true → s.here.cr.det = false →
    let ctx := s.focus.ctx
    let t0 := s.slot
    let a := t0.rx ra.val
    let tag := l.win * 2 ^ 40 + it.index
    (Fresh s → s.here.loop = none → Unpaused s → CalmFor s ctx → s.here.waitLists = [] → a.toNat % 192 = 0 → a.toNat < 2 ^ 56 →
      Open s { s.who t0.nanread with engine := true, csets := false } .r (.glob a.toNat) 192 gb →
      (loopChecks (Mem.bytes s.mem gb 192)).all (·.2) = true →
      goodTarget (BitVec.ofNat 64 (memNat s (gb + 16) 8)) → goodTarget (BitVec.ofNat 64 (memNat s (gb + 24) 8)) →
      let w := memNat s (gb + 8) 4
      Arena s (engWho ctx s.focus.lc t0.nanread) [(memNat s (gb + 32) 8, retryBytes w, bb)] →
      ∃ (t : State) (u : Loop), Runs (.rloop h ra) s t ∧ ClosedSlot s t h t0.rv t0.rx t0.rk 0 ∧ SameMemoryBut bb (retryBytes w) s t ∧ t.here.loop = some u ∧
        u.n = memNat s gb 8 ∧ u.w = w ∧ u.first = memNat s (gb + 12) 2 ∧ u.ncores = memNat s (gb + 14) 2 ∧ u.tag = memNat s (gb + 66) 2 ∧
        u.maxwin = memNat s (gb + 68) 4 ∧ u.prio = memNat s (gb + 64) 2 ∧ u.rsvpc = BitVec.ofNat 64 (memNat s (gb + 16) 8) ∧
        u.cmtpc = BitVec.ofNat 64 (memNat s (gb + 24) 8) ∧ u.rbuf = BitVec.ofNat 64 (memNat s (gb + 32) 8) ∧
        u.args = (List.range 3).map (fun k => BitVec.ofNat 64 (memNat s (gb + 40 + 8 * k) 8)) ∧ u.addr = a ∧ u.nan = t0.nanread ∧
        u.lc = s.focus.lc ∧ u.done = 0 ∧ u.next = 0 ∧ u.wins = 0 ∧ u.started = false ∧ u.ended = false ∧
        Mem.bytes t.mem bb (retryBytes w) =
          List.replicate 32 0 ++ List.replicate (8 * w) 0xFF ++ List.replicate (8 * ((w + 63) / 64)) 0) ∧
    (s.here.loop = some l → l.ended = false → t0.iter = some it →
      (Fresh s → Calm s → a.toNat % 8 = 0 → a.toNat < 2 ^ 56 →
        (it.commit = false → tag < 2 ^ 64 → Mapped s .rw a 8 gb →
          let old := memNat s gb 8
          ∃ t u : State, Runs (.rsv h ra) s t ∧ SameMemory s t ∧ ClosedSlot s t h t0.rv t0.rx t0.rk 0 ∧
            exec (.lineFold ctx (gb - a.toNat % 192)) t = .next u ∧ SameMemoryBut gb 8 s u ∧
            memNat u gb 8 = if old / 2 ^ 40 = tag / 2 ^ 40 then Nat.min old tag else tag) ∧
        (it.commit = true → Mapped s .r a 8 gb →
          ∃ t, Runs (.rchk h rd ra) s t ∧ SameMemory s t ∧
            ClosedSlot s t h t0.rv (setX rd.val (if memNat s gb 8 = tag then 1 else 0) t0.rx) t0.rk 0)) ∧
      (Idle s → s.focus.pos < 8 → t0.node = 0 → s.here.waitLists = [] → CalmFor s ctx → it.pos < l.w →
        Arena s (engWho ctx l.lc l.nan) [(l.rbuf.toNat, retryBytes l.w, bb)] →
        (∃ (t : State) (u : Loop), exec (.rdoneOk h) s = .next t ∧ Emptied t.slot ∧ t.here.loop = some u ∧ u.opened = l.opened.erase it.pos ∧ u.failed = l.failed ∧
          u.done = l.done + (if it.commit then 1 else 0) ∧ SameMemoryBut (bb + 16) 8 s t ∧
          (it.commit = true → memNat t (bb + 16) 8 = (l.done + 1) % 2 ^ 64) ∧ (it.commit = false → SameMemory s t) ∧
          ∀ f : Focus, f.key ≠ s.focus.key → t.slotAt f = s.slotAt f) ∧
        (∃ (t : State) (u : Loop), exec (.rdoneFail h) s = .next t ∧ Emptied t.slot ∧ t.here.loop = some u ∧ u.opened = l.opened.erase it.pos ∧
          u.failed = it.pos :: l.failed ∧ u.done = l.done ∧ SameMemoryBut (bb + 32 + 8 * l.w + 8 * (it.pos / 64)) 8 s t ∧
          (∀ k, k < 64 → (memNat t (bb + 32 + 8 * l.w + 8 * (it.pos / 64)) 8 / 2 ^ k % 2 = 1 ↔ 64 * (it.pos / 64) + k ∈ it.pos :: l.failed)) ∧
          ∀ f : Focus, f.key ≠ s.focus.key → t.slotAt f = s.slotAt f)))

/-- R366, R367, R375, R376: WINDOW_START takes the first phase step of a loop, and then opens windows: the lost iterations of the last in
order, then fresh ones, in the retry buffer, and queued as a reserve round by records of R366; ROUND_END takes a phase step and starts the
commit round over the iterations that reserved, or closes the window; LOOP_COMPLETE takes the last phase step and then places the notice.
R377: windows that so run bodies which reserve all that they touch leave the memory of a serial run, within N windows; that no other
iteration's commit changes what one reserves is the model's reading (log 75). -/
def Obligations.LoopRounds : Prop :=
  (∀ (bodies : Nat → Body) (m : Cells) (l : Loop), l.n < 2 ^ 24 - 1 → 0 < l.w → l.list = [] → l.failed = [] → l.next = 0 → l.done = 0 → 0 < l.win →
    l.win < 2 ^ 24 → (∀ i, i < l.n → (bodies i).covered) → (∀ i j, i < l.n → j < l.n → i ≠ j → (bodies i).settled (bodies j)) →
    let r := loopRun bodies m (fun _ => 0) l l.n
    r.1 = serialRun bodies l.n m ∧ r.2.done = l.n ∧ r.2.wins ≤ l.wins + l.n) ∧
  (∀ (ctx : Nat) (l : Loop) (s : State), (s.ctxOf ctx).loop = some l → PhaseCalm s ctx →
    let now (t : State) : Loop := ((t.ctxOf ctx).loop.getD {})
    (l.ended = false →
      (l.started = false → ∃ t, exec (.windowStart ctx) s = .next t ∧ PhaseUp s t ctx ∧ now t = { l with started := true }) ∧
      (∀ bb, l.started = true → l.round = false → CalmFor s ctx → 0 < l.ncores → l.first + l.ncores ≤ 768 → l.list.length ≤ l.w →
        Arena s (engWho ctx l.lc l.nan) [(l.rbuf.toNat, retryBytes l.w, bb)] →
        let lost := ((List.range l.list.length).filter (fun p => decide (p ∈ l.failed))).map (fun p => l.list.getD p 0)
        let fresh := Nat.min (l.w - lost.length) (l.n - l.next)
        let list := lost ++ (List.range fresh).map (· + l.next)
        list.length ≤ (s.ctxOf ctx).poolFree.length →
        ∃ t, exec (.windowStart ctx) s = .next t ∧ Queued s t ctx l list (List.range list.length) false ∧
          (let rs := [(l.rbuf.toNat, retryBytes l.w, bb)]
           ∀ pa, PoolAt s ctx pa rs → RoundRecords s t ctx l list (List.range list.length) false pa rs ∧
             Mem.bytes t.mem bb (retryBytes l.w) = [(s.ctxOf ctx).windowCtr, l.next + fresh, l.done, l.wins + 1].flatMap (leBytes 8) ++
               list.flatMap (leBytes 8) ++ List.replicate (8 * (l.w - list.length)) 0xFF ++ List.replicate (8 * ((l.w + 63) / 64)) 0) ∧
          (now t).list = list ∧ (now t).failed = [] ∧ (now t).next = l.next + fresh ∧ (now t).wins = l.wins + 1 ∧ (now t).round = true ∧
          (now t).commit = false ∧ (now t).opened = List.range list.length ∧ (now t).win = (s.ctxOf ctx).windowCtr ∧
          (t.ctxOf ctx).windowCtr = if (s.ctxOf ctx).windowCtr = 0xFFFFFF then 1 else (s.ctxOf ctx).windowCtr + 1) ∧
      (l.round = true → l.opened = [] → l.ends = [] →
        (l.commit = false → 0 < l.ncores → l.first + l.ncores ≤ 768 →
          let ps := (List.range l.list.length).filter (fun p => decide (p ∉ l.failed))
          ps.length ≤ (s.ctxOf ctx).poolFree.length →
          ∃ t, exec (.roundEnd ctx) s = .next t ∧ (t.ctxOf ctx).phase = ((s.ctxOf ctx).phase + 1) % 2 ^ 16 ∧ Queued s t ctx l l.list ps true ∧
            (∀ pa, PoolAt s ctx pa [] → RoundRecords s t ctx l l.list ps true pa []) ∧
            (now t).commit = true ∧ (now t).round = true ∧ (now t).opened = ps) ∧
        (l.commit = true → l.toQueue = [] → l.done ≠ l.n → (l.maxwin = 0 ∨ l.wins ≠ l.maxwin) →
          ∃ t, exec (.roundEnd ctx) s = .next t ∧ PhaseUp s t ctx ∧ now t = { l with round := false }) ∧
        (l.commit = true → (l.done = l.n ∨ l.maxwin ≠ 0 ∧ l.wins = l.maxwin) →
          ∃ t, exec (.loopComplete ctx) s = .next t ∧ PhaseUp s t ctx ∧ now t = { l with ended := true }))) ∧
    (l.ended = true → (s.ctxOf ctx).cr.det = false → s.eventRoom ctx l.lc = true →
      ∃ (t : State) (m : Msg), exec (.loopComplete ctx) s = .next t ∧ SameMemoryAt ctx l.lc s t ∧ t.slots = s.slots ∧ (t.ctxOf ctx).loop = none ∧
        (t.core ctx l.lc).box = (s.core ctx l.lc).box ++ [m] ∧ m.kind = .node ∧ m.src = 0x3FF ∧ m.tag = l.tag ∧ m.nan = l.nan ∧
        m.words = [3, l.addr, if l.done = l.n then 0 else 1, BitVec.ofNat 64 l.wins, BitVec.ofNat 64 l.done, BitVec.ofNat 64 (l.n - l.done),
          BitVec.ofNat 64 l.win]))

namespace Sys2Proof.Machine

/-- A request of operation `op` with the arguments `args` stands in the control block and is in progress (R394, R395). -/
def Asked (s : State) (ctx op : Nat) (args : List Nat) : Prop :=
  s.request ctx = some (op :: args ++ List.replicate (7 - args.length) 0)

/-- The request has the result `code`, which REQUEST_COMPLETE reports. -/
def Answered (s t : State) (ctx code : Nat) : Prop :=
  (t.ctxOf ctx).ccbReq = (s.ctxOf ctx).ccbReq.map (fun r => { r with result := some code })

/-- The request has the result `code`, and nothing else changed. -/
def OnlyAnswer (s t : State) (ctx code : Nat) : Prop :=
  Answered s t ctx code ∧ ({ t with ctxs := [] } : State) = { s with ctxs := [] } ∧
  ({ t.ctxOf ctx with ccbReq := none } : Ctx) = { s.ctxOf ctx with ccbReq := none } ∧ ∀ c, c ≠ ctx → t.ctxOf c = s.ctxOf c

/-- The `n` bytes that hardware writes at the global address `va` of a context stand in memory, and no other byte changed, if the tables
map them within one page of HBM, no reduction waits and no version counter is near its end. -/
def HwWrote (s t : State) (ctx va : Nat) (bs : List Byte) : Prop :=
  ∀ l, (s.ctxOf ctx).partials = [] → Young s → s.leaf ctx va = .ok l → va % 65536 + bs.length ≤ 65536 → inHbm l.pa = true →
    Mem.bytes t.mem l.pa bs.length = bs ∧ SameMemoryBut l.pa bs.length s t

/-- A TRAPNOTE with cause `cause` of the context stands last in its supervisor mailbox (R187). -/
def Noted (s t : State) (ctx cause : Nat) (w2 w3 : Word) : Prop :=
  let lc := (s.ctxOf ctx).cr.supcore
  ∃ m : Msg, (t.core ctx lc).box = (s.core ctx lc).box ++ [m] ∧ m.kind = .trapnote ∧ m.src = 0x3FF ∧
    m.words.take 3 = [BitVec.ofNat 64 cause, w2, w3]

/-- Such a TRAPNOTE is the last of those that the context has still to send. -/
def NoteDue (s t : State) (ctx cause : Nat) (w2 w3 : Word) : Prop :=
  (t.ctxOf ctx).notes = (s.ctxOf ctx).notes ++ [{ src := 0x3FF, kind := .trapnote, words := [BitVec.ofNat 64 cause, w2, w3] }]

/-- No slot of the logical cores `p` of a context is to be stopped or saved. -/
def StillAt (s : State) (ctx : Nat) (p : Nat → Bool) : Prop := s.slotsIn ctx p [.running, .held, .released] = []

/-- Nothing runs for a context. -/
def Still (s : State) (ctx : Nat) : Prop := StillAt s ctx (fun _ => true)

/-- The logical cores that physical core `q` hosts for a context. -/
def onCore (s : State) (ctx q : Nat) : List Nat := (List.range 768).filter (fun l => s.placed ctx l && decide (s.physCore ctx l = q))

/-- The logical cores in `ls` go to the physical cores that `g` gives, in a context whose others stay where they are. -/
def MovedCores (s t : State) (ctx : Nat) (ls : List Nat) (g : Nat → Nat) : Prop :=
  ∀ l, l < 768 → (l ∈ ls → t.placed ctx l = true ∧ t.physCore ctx l = g l) ∧
    (l ∉ ls → t.placed ctx l = s.placed ctx l ∧ (s.placed ctx l = true → t.physCore ctx l = s.physCore ctx l))

end Sys2Proof.Machine

/-- R12, R13, R16, R394 to R399, R403, R414: the requests of the control block but SEAL and END, the TRAPNOTE that completes one, and timers;
a security core that is lost serves none. PLACE moves a cluster whose running slot it stops: the image of the slot is saved and queued.
R17: PLACE first moves the logical cores of a core that has failed: to a core of its cluster that hosts none, else with their logical cluster
to a spare cluster, else to the core of the cluster that hosts fewest. The model's choices and readings: the lowest number among equals, the
V bit lost where no core is left, and that PLACE makes the move (log 36); REFUSED for a cluster number above 95 (log 35); no service by a lost
security core (log 38); source 0x3FF of the TRAPNOTE (log 54). -/
def Obligations.ControlRequests : Prop :=
  ∀ (s : State) (ctx : Nat), (s.ctxOf ctx).status = .live → ctx < 2 ^ 16 →
    let rows := [(Instr.place ctx, 1, 5), (.framemode ctx, 2, 3), (.slotresume ctx, 3, 2), (.slotend ctx, 4, 2), (.keygen ctx, 5, 2),
      (.keyfree ctx, 6, 1), (.attest ctx, 7, 2), (.controlSeal ctx, 8, 0), (.controlEnd ctx, 9, 0)]
    (s.secured = false → (∀ e ∈ rows, exec e.1 s = .next s) ∧ exec (.requestComplete ctx) s = .next s) ∧ (s.secured = true →
    (∀ p ps l, (s.ctxOf ctx).fled = p :: ps → p < 800 → Tab.wf 0 (s.ctxOf ctx).placement = true → (∀ e ∈ (s.ctxOf ctx).placement, e.1 < 768) → l ∈ onCore s ctx p →
      (∀ k ∈ onCore s ctx p, k / 8 = l / 8) → StillAt s ctx (fun k => decide (k / 8 = l / 8)) →
      let mates := ((List.range 8).map (fun m => p / 8 * 8 + m)).filter s.alive
      let spare (b : Nat) : Prop := b < 100 ∧ (s.ctxOf ctx).cr.clusters.testBit b = true ∧ ∀ m, m < 8 → s.alive (8 * b + m) = true ∧ onCore s ctx (8 * b + m) = []
      ∃ t, exec (.place ctx) s = .next t ∧ (t.ctxOf ctx).fled = ps ∧ SameMemory s t ∧ t.slots = s.slots ∧
        (∀ q, q ∈ mates → onCore s ctx q = [] → (∀ r ∈ mates, r < q → onCore s ctx r ≠ []) → MovedCores s t ctx (onCore s ctx p) (fun _ => q)) ∧
        ((∀ q ∈ mates, onCore s ctx q ≠ []) →
          (∀ b, spare b → (∀ c, c < b → ¬ spare c) →
            MovedCores s t ctx ((List.range 768).filter (fun k => decide (k / 8 = l / 8) && s.placed ctx k)) (fun k => 8 * b + k % 8)) ∧
          ((∀ b, ¬ spare b) → onCore s ctx p = [l] →
            (mates = [] → t.placed ctx l = false) ∧
            (mates ≠ [] → ∃ q ∈ mates, (∀ r ∈ mates, (onCore s ctx q).length ≤ (onCore s ctx r).length) ∧ MovedCores s t ctx [l] (fun _ => q))))) ∧
    ((s.ctxOf ctx).fled = [] →
    (∀ e ∈ rows,
      ∀ ws, s.request ctx = some ws → ws.head? = some e.2.1 → (∃ w ∈ ws.drop (e.2.2 + 1), w ≠ 0) →
        ∃ t, exec e.1 s = .next t ∧ OnlyAnswer s t ctx 3) ∧
    (∀ j w2 w3 w4 w5, Asked s ctx 1 [j, w2, w3, w4, w5] →
      let e (m : Nat) : BitVec 32 := BitVec.ofNat 32 ([w2, w3, w4, w5].getD (m / 2) 0 / 2 ^ (32 * (m % 2)))
      let good : Prop := j ≤ 95 ∧ ∀ m, m < 8 → field (e m).toNat 17 14 = 0 ∧ field (e m).toNat 3 5 ≤ 24 ∧
        s.owns ctx (physOf (e m)) = true ∧ physOf (e m) / 8 = physOf (e 0) / 8
      (good → ∀ f, s.slotsIn ctx (fun l => decide (l / 8 = j)) [.running, .held, .released] = [f] → s.focus = f → f.lc / 8 = j → f.pos < 8 → Idle s →
        s.slot.mode = .running → s.slot.pend = none → s.slot.stopReq = .none → s.slot.wait = .none → s.slot.await = none → s.slot.progress = 0 →
        ∃ (t : State) (q : QEntry), exec (.place ctx) s = .next t ∧ Answered s t ctx 0 ∧ Emptied t.slot ∧ t.me.ready = s.me.ready ++ [q] ∧ q.image = true ∧
          q.ref = f.pos ∧ q.cid = s.slot.cid ∧ t.physCore ctx f.lc = physOf (e (f.lc % 8)) ∧
          ∀ l, let frame := s.here.imageFrame f.lc f.pos
            s.here.partials = [] → Young s → s.leaf ctx frame = .ok l → frame % 65536 + 8192 ≤ 65536 → inHbm l.pa = true →
            Mem.bytes t.mem l.pa 8192 = s.slot.image s.slot.pc ∧ SameMemoryBut l.pa 8192 s t) ∧
      (good → StillAt s ctx (fun l => decide (l / 8 = j)) →
        let src (l : Nat) : BitVec 32 := if l / 8 = j then e (l % 8) else s.place ctx l
        ∃ t, exec (.place ctx) s = .next t ∧ Answered s t ctx 0 ∧ SameMemory s t ∧ t.slots = s.slots ∧
          ∀ l, l < 768 →
            let mates := ((List.range 768).filter (fun q => decide (q ≠ l) && (src q).getLsbD 31 && decide (physOf (src q) = physOf (src l)))).length
            field (t.place ctx l).toNat 0 10 = field (src l).toNat 0 10 ∧ (t.place ctx l).getLsbD 31 = (src l).getLsbD 31 ∧
            (mates < 128 → field (t.place ctx l).toNat 10 7 = mates)) ∧
      (¬ good → ∃ t, exec (.place ctx) s = .next t ∧ OnlyAnswer s t ctx 2)) ∧
    (∀ base mode key, Asked s ctx 2 [base, mode, key] → base % 65536 = 0 → inHbm base = true → (mode = 0 → key = 0) →
      let o := frameOwner (s.frame base)
      let good : Prop := mode ≤ 2 ∧ (o = 0 ∨ o = ctx) ∧ (mode ≠ 0 → s.keyOk ctx key mode = true) ∧
        (mode = 2 → s.treeRoom ctx (base / 65536) = true)
      (good → ∃ t, exec (.framemode ctx) s = .next t ∧ Answered s t ctx 0 ∧ frameOwner (t.frame base) = ctx ∧
        frameMode (t.frame base) = mode ∧ field (t.frame base) 18 14 = 0 ∧ (∀ a, a / 65536 ≠ base / 65536 → t.frame a = s.frame a) ∧
        SameMemoryBut base 65536 s t ∧
        ∀ k, k < 65536 → Mem.read t.mem (base + k) = 0 ∧ Tab.get 0 t.versions (base + k) = 0 ∧ Tab.get false t.poison (base + k) = false) ∧
      (¬ good → ∃ t, exec (.framemode ctx) s = .next t ∧ OnlyAnswer s t ctx 2)) ∧
    (∀ lc pos, lc < 768 → pos ≤ 8 →
      let f : Focus := { ctx := ctx, lc := lc, pos := pos }
      (Asked s ctx 3 [lc, pos] → (s.slotAt f).mode = .halted → ∀ bs, s.peekBytes ctx ((s.ctxOf ctx).imageFrame lc pos) 8192 = some bs →
        Slot.imageBad bs = none → ((s.slotAt f).restore bs).await = none → (s.ctxOf ctx).partials = [] →
        s.freePos ctx ((s.hosted ctx (s.physCore ctx lc)).filter (fun l => decide (l ≠ lc))) pos = true →
        ∃ t, exec (.slotresume ctx) s = .next t ∧ Answered s t ctx 0 ∧ SameMemory s t ∧
          t.slotAt f = { (s.slotAt f).restore bs with mode := .running } ∧ ∀ g : Focus, g.key ≠ f.key → t.slotAt g = s.slotAt g) ∧
      (Asked s ctx 4 [lc, pos] → (s.slotAt f).mode = .halted → (s.slotAt f).longs = [] → (s.slotAt f).tasks = [] →
        (s.slotAt f).iter = none → (s.slotAt f).node = 0 → (s.ctxOf ctx).waitLists = [] →
        ∃ t, exec (.slotend ctx) s = .next t ∧ Answered s t ctx 0 ∧ SameMemory s t ∧ Emptied (t.slotAt f) ∧
          (∀ e ∈ (t.core ctx lc).holders, e.2 ≠ (s.slotAt f).cid) ∧ (∀ e ∈ (t.core ctx lc).descs, e.2.holder ≠ (s.slotAt f).cid) ∧
          ∀ g : Focus, g.key ≠ f.key → t.slotAt g = s.slotAt g) ∧
      ((s.slotAt f).mode ≠ .halted →
        (Asked s ctx 3 [lc, pos] → ∃ t, exec (.slotresume ctx) s = .next t ∧ OnlyAnswer s t ctx 2) ∧
        (Asked s ctx 4 [lc, pos] → ∃ t, exec (.slotend ctx) s = .next t ∧ OnlyAnswer s t ctx 2))) ∧
    (∀ k kind,
      let e := Tab.get {} s.keys k
      (Asked s ctx 5 [k, kind] →
        ((1 ≤ k ∧ k ≤ 127 ∧ (kind = 1 ∨ kind = 2) ∧ e.full = false) →
          ∃ t, exec (.keygen ctx) s = .next t ∧ Answered s t ctx 0 ∧ SameMemory s t ∧
            (let n := Tab.get {} t.keys k
             n.full = true ∧ n.owner = ctx ∧ n.guarded = decide (kind = 2)) ∧ ∀ q, q ≠ k → Tab.get {} t.keys q = Tab.get {} s.keys q) ∧
        (¬ (1 ≤ k ∧ k ≤ 127 ∧ (kind = 1 ∨ kind = 2) ∧ e.full = false) → ∃ t, exec (.keygen ctx) s = .next t ∧ OnlyAnswer s t ctx 2)) ∧
      (Asked s ctx 6 [k] →
        ((1 ≤ k ∧ k ≤ 127 ∧ e.full = true ∧ e.owner = ctx) →
          ∃ t, exec (.keyfree ctx) s = .next t ∧ Answered s t ctx 0 ∧ SameMemory s t ∧ (Tab.get {} t.keys k).full = false ∧
            ∀ q, q ≠ k → Tab.get {} t.keys q = Tab.get {} s.keys q) ∧
        (¬ (1 ≤ k ∧ k ≤ 127 ∧ e.full = true ∧ e.owner = ctx) → ∃ t, exec (.keyfree ctx) s = .next t ∧ OnlyAnswer s t ctx 2))) ∧
    (∀ a b ka kb, Asked s ctx 7 [a, b] → CalmFor s ctx →
      Arena s (nutWho (s.ctxOf ctx) ctx) [(a, 64, ka), (b, 50088, kb)] →
      ∃ t, exec (.attest ctx) s = .next t ∧ Answered s t ctx 0 ∧ t.reportCtr = s.reportCtr + 1 ∧ SameMemoryBut kb 50088 s t ∧
        Mem.bytes t.mem kb 232 = leBytes 4 0x5A4E4154 ++ leBytes 2 1 ++ leBytes 2 ctx ++ leBytes 64 (s.ctxOf ctx).measurement.toNat ++
          leBytes 64 s.fwDigest.toNat ++ Mem.bytes s.mem ka 64 ++ leBytes 8 (s.ctxOf ctx).cr.flags ++
          leBytes 16 (s.ctxOf ctx).cr.clusters ++ leBytes 8 (s.reportCtr + 1)) ∧
    (∀ q code, s.eventRoom ctx (s.ctxOf ctx).cr.supcore = true → (s.core ctx (s.ctxOf ctx).cr.supcore).suspended = [] →
      ((s.ctxOf ctx).ccbReq = some { q := q, result := some code } ∨
        (code = 3 ∧ (s.ctxOf ctx).ccbReq = some { q := q } ∧
          ∀ ws, s.request ctx = some ws → ws.head?.getD 0 = 0 ∨ 9 < ws.head?.getD 0)) →
      ∃ t, exec (.requestComplete ctx) s = .next t ∧ (t.ctxOf ctx).ccbReq = none ∧
        HwWrote s t ctx ((s.ctxOf ctx).cr.ccb.toNat + 8) (leBytes 8 (q % 2 ^ 32 + code * 2 ^ 32)) ∧
        Noted s t ctx 7 (BitVec.ofNat 64 q) (BitVec.ofNat 64 code)) ∧
    (∀ lc v nan, lc < 768 →
      ∃ t, exec (.timerArm ctx lc v nan) s = .next t ∧ SameMemory s t ∧ t.slots = s.slots ∧ t.cores = s.cores ∧
        Tab.get {} (t.ctxOf ctx).timers lc =
          (if v = 0 then {} else { armed := true, t := v.toNat, left := v.toNat, nan := nan }) ∧
        ∀ c, c ≠ lc → Tab.get {} (t.ctxOf ctx).timers c = Tab.get {} (s.ctxOf ctx).timers c) ∧
    (∀ lc,
      let r := Tab.get {} (s.ctxOf ctx).timers lc
      (r.armed = true → r.left = 0 → s.eventRoom ctx lc = true → (s.core ctx lc).suspended = [] →
        ∃ t, exec (.timerExpiry ctx lc) s = .next t ∧ Tab.get {} (t.ctxOf ctx).timers lc = {} ∧
          HwWrote s t ctx ((s.ctxOf ctx).cr.ccb.toNat + 192 + 8 * lc) (leBytes 8 0) ∧
          ∃ m : Msg, (t.core ctx lc).box = (s.core ctx lc).box ++ [m] ∧ m.kind = .timer ∧ m.src = lc ∧ m.word 1 = BitVec.ofNat 64 r.t) ∧
      (r.armed = true → r.left ≠ 0 → exec (.timerExpiry ctx lc) s = .next s))))

namespace Sys2Proof.Machine

/-- Management session `n` is READY, the security core serves, and no request is in progress (R407, R411, R414). -/
def Managing (s : State) (n : Nat) : Prop :=
  (s.session n).stage = .ready ∧ (s.session n).kind = .manage ∧ s.secured = true ∧ s.requests = []

/-- The last thing that the device sent is the answer to request `seq` of session `n`. -/
def Replied (s t : State) (n seq code : Nat) (body : List Byte) : Prop := t.outbox = s.outbox ++ [.answer n seq code body]

/-- Nothing of a context is left on the cores: no slot, no core state, no local store, no owned core; the context is gone from the live
ones, and every other context, slot and core is as it was, but for reductions that wait for a frame that is freed (R339, R399, R406). -/
def Dropped (s t : State) (ctx : Nat) : Prop :=
  t.ctxOf ctx = {} ∧ (∀ c, c ≠ ctx → ({ t.ctxOf c with partials := [] } : Ctx) = { s.ctxOf c with partials := [] } ∧
    ((s.ctxOf c).partials = [] → (t.ctxOf c).partials = [])) ∧ (∀ core, t.owns ctx core = false) ∧
  (∀ lc, lc < 768 → t.core ctx lc = {} ∧ (∀ p, p < 16 → t.slotAt { ctx := ctx, lc := lc, pos := p } = {}) ∧
    ∀ o, o < 0x80000 → Mem.read t.mem (lsKey ctx lc o) = 0) ∧
  (∀ c lc, c ≠ ctx → lc < 768 → t.core c lc = s.core c lc ∧ (∀ p, p < 16 → t.slotAt { ctx := c, lc := lc, pos := p } = s.slotAt { ctx := c, lc := lc, pos := p }) ∧
    ∀ o, o < 0x80000 → Mem.read t.mem (lsKey c lc o) = Mem.read s.mem (lsKey c lc o))

/-- `z` holds a context as it stood in `s` (R339). -/
def Saved (s : State) (ctx : Nat) (z : SealedCtx) : Prop :=
  z.ctx.status = .sealed ∧ z.ctx.cr = (s.ctxOf ctx).cr ∧ z.ctx.placement = (s.ctxOf ctx).placement ∧ z.ctx.phase = (s.ctxOf ctx).phase ∧
  z.ctx.clocks = (s.ctxOf ctx).clocks ∧ z.ctx.graphs = (s.ctxOf ctx).graphs ∧ z.ctx.liveLoop = (s.ctxOf ctx).liveLoop ∧
  z.ctx.timers = (s.ctxOf ctx).timers ∧ z.ctx.deferred = (s.ctxOf ctx).deferred ∧ z.ctx.waitLists = (s.ctxOf ctx).waitLists ∧
  z.lost = s.keyless ∧ z.nclusters = ((List.range 100).filter (fun i => (s.ctxOf ctx).cr.clusters.testBit i)).length ∧
  ∀ lc, lc < 768 → Tab.get {} z.cores (coreKey ctx lc) = s.core ctx lc ∧
    (∀ p, p < 16 → Tab.get {} z.slots (ctx * 16384 + 16 * lc + p) = s.slotAt { ctx := ctx, lc := lc, pos := p }) ∧
    ∀ o, o < 0x80000 → Tab.get 0 z.ls (lsKey ctx lc o) = Mem.read s.mem (lsKey ctx lc o)

/-- What a context owns outside the cores is gone: its endpoints are UNBOUND, its key slots EMPTY, its frames free and zero (R406). -/
def Freed (s t : State) (ctx : Nat) : Prop :=
  (∀ e ∈ s.endpoints, e.2.state ≠ .unbound → e.2.ctx = ctx → t.endpoint e.1 = {}) ∧
  (∀ e ∈ t.keys, ¬ (e.2.full = true ∧ e.2.owner = ctx)) ∧ Tab.get {} t.sealedCtxs ctx = {} ∧
  ∀ f, frameOwner (Tab.get 0 s.frames f).toNat = ctx → Tab.get 0 t.frames f = 0 ∧
    ∀ k, k < 65536 → Mem.read t.mem (65536 * f + k) = 0

end Sys2Proof.Machine

/-- R338, R339, R340, R406, R411: a context whose slots and harts have stopped is sealed, and later resumed with what it held onto the free
clusters of lowest number, or ended, from its control block and over a management session, a seal in progress also where its session has
failed since; what the keys of an erased seal held is lost. The seal writes its status and its seal area, whose bytes are free (log 31). That it
writes STATUS OK before it seals, and END of a sealed context, are the model's readings (log 33), as is a seal that goes on where its session
has failed (log 35). -/
def Obligations.ContextEnds : Prop :=
  ∀ (s : State) (ctx n seq : Nat), 0 < ctx → ctx < 2 ^ 16 → (∀ e ∈ s.frames, e.1 * 65536 < hbmTop) →
    let z := Tab.get {} s.sealedCtxs ctx
    ((s.ctxOf ctx).status = .live → Still s ctx → s.secured = true →
      (s.requests = [.manageSeal n seq ctx] → (s.session n).stage = .failed → s.hartsBusy ctx = false →
        ∃ t, exec (.manageSeal n seq ctx) s = .next t ∧ Dropped s t ctx ∧ Saved s ctx (Tab.get {} t.sealedCtxs ctx) ∧ t.requests = []) ∧
      (Asked s ctx 8 [] → s.hartsBusy ctx = false → ∃ t, exec (.controlSeal ctx) s = .next t ∧ Dropped s t ctx ∧
        Saved s ctx (Tab.get {} t.sealedCtxs ctx) ∧
        ∀ r l, (s.ctxOf ctx).ccbReq = some r →
          let va := (s.ctxOf ctx).cr.ccb.toNat + 8
          let sealed (a : Nat) : Prop := (s.ctxOf ctx).cr.sealarea.toNat ≤ a ∧ a < (s.ctxOf ctx).cr.sealarea.toNat + (Config.sealImage s.draws).length
          let area (x : Nat) : Prop := ∃ a m, sealed a ∧ s.leaf ctx a = .ok m ∧ m.pa = x
          let other (m : Tab Byte) : Prop := ∀ x, ¬ area x → (x < l.pa ∨ l.pa + 8 ≤ x) → Mem.read m x = Mem.read s.mem x
          (s.ctxOf ctx).partials = [] → (∀ a, frameMode (s.frame a) ≠ 2) → s.leaf ctx va = .ok l → va % 65536 + 8 ≤ 65536 → inHbm l.pa = true → (∀ k, k < 8 → ¬ area (l.pa + k)) →
          (∀ m, other m → ∀ a, a = va ∨ sealed a → ({ s with mem := m } : State).leaf ctx a = s.leaf ctx a) →
          Mem.bytes t.mem l.pa 8 = leBytes 8 (r.q % 2 ^ 32) ∧ ∀ x, x < 2 ^ 48 → ¬ area x → (x < l.pa ∨ l.pa + 8 ≤ x) → Mem.read t.mem x = Mem.read s.mem x) ∧
      (Asked s ctx 9 [] → ∃ t, exec (.controlEnd ctx) s = .next t ∧ Dropped s t ctx ∧ Freed s t ctx) ∧
      (Managing s n →
        (s.hartsBusy ctx = false → ∃ t, exec (.manageSeal n seq ctx) s = .next t ∧ Dropped s t ctx ∧
          Saved s ctx (Tab.get {} t.sealedCtxs ctx) ∧
          ∃ o : List OutMsg, t.outbox = o ++ [.answer n seq 0 []]) ∧
        (∃ t, exec (.manageEnd n seq ctx) s = .next t ∧ Dropped s t ctx ∧ Freed s t ctx ∧ Replied s t n seq 0 []))) ∧
    (Managing s n → (s.ctxOf ctx).status ≠ .live → ∃ t, exec (.manageSeal n seq ctx) s = .next t ∧
      t = { s with outbox := s.outbox ++ [.answer n seq 2 []] }) ∧
    (Managing s n → (s.ctxOf ctx).status ≠ .live →
      (z = {} → exec (.manageEnd n seq ctx) s = .next { s with outbox := s.outbox ++ [.answer n seq 2 []] }) ∧
      (z ≠ {} → ∃ t, exec (.manageEnd n seq ctx) s = .next t ∧ Freed s t ctx ∧ Replied s t n seq 0 [])) ∧
    (Managing s n →
      let free := ((List.range 100).filter (fun a => (List.range 8).all (fun m => decide (Tab.get 0 s.owners (8 * a + m) = 0)))).take z.nclusters
      let wf : Prop := Tab.wf {} z.slots = true ∧ (∀ e ∈ z.slots, e.1 / 16384 = ctx) ∧ (∀ e ∈ z.cores, e.1 / 1024 = ctx) ∧
        ∀ e ∈ z.ls, lsKey ctx 0 0 ≤ e.1 ∧ e.1 < lsKey (ctx + 1) 0 0
      (z ≠ {} → wf → z.lost = false → 1 ≤ z.nclusters → free.length = z.nclusters →
        (∀ a ∈ free, ∀ m, m < 8 → s.alive (8 * a + m) = true) →
        ∃ t, exec (.resume n seq ctx) s = .next t ∧ Replied s t n seq 0 [] ∧ (t.ctxOf ctx).status = .live ∧
          t.ctxOf ctx = { z.ctx with status := .live, placement := (t.ctxOf ctx).placement, cr := { z.ctx.cr with clusters := (t.ctxOf ctx).cr.clusters } } ∧
          (∀ a, (t.ctxOf ctx).cr.clusters.testBit a = decide (a ∈ free)) ∧ Tab.get {} t.sealedCtxs ctx = {} ∧
          ∀ lc, lc < 768 → t.placed ctx lc = true ∧ t.physCore ctx lc = 8 * free.getD (lc / 8 * z.nclusters / 96) 0 + lc % 8 ∧
            t.owns ctx (t.physCore ctx lc) = true ∧ t.core ctx lc = Tab.get {} z.cores (coreKey ctx lc) ∧
            (∀ o, o < 0x80000 → Mem.read t.mem (lsKey ctx lc o) = Tab.get 0 z.ls (lsKey ctx lc o)) ∧
            ∀ p, p < 16 →
              let u := Tab.get {} z.slots (ctx * 16384 + 16 * lc + p)
              u ≠ {} → t.slotAt { ctx := ctx, lc := lc, pos := p } =
                { u with spillBase := if p < 8 then z.ctx.cr.spillbase + p * z.ctx.cr.spillbytes else u.spillBase }) ∧
      (z = {} ∨ (z.lost = false ∧ free.length < z.nclusters) → exec (.resume n seq ctx) s = .next { s with outbox := s.outbox ++ [.answer n seq 2 []] }) ∧
      (z.lost = true → exec (.resume n seq ctx) s = .next { s with outbox := s.outbox ++ [.answer n seq 4 []] }))

namespace Sys2Proof.Machine

/-- The first 232 bytes of an attestation report (R403). -/
def reportHead (s : State) (ctx : Nat) (nonce : List Byte) : List Byte :=
  leBytes 4 0x5A4E4154 ++ leBytes 2 1 ++ leBytes 2 ctx ++ leBytes 64 (s.ctxOf ctx).measurement.toNat ++ leBytes 64 s.fwDigest.toNat ++
    nonce ++ leBytes 8 (s.ctxOf ctx).cr.flags ++ leBytes 16 (s.ctxOf ctx).cr.clusters ++ leBytes 8 (s.reportCtr + 1)

/-- The Nutcracker admits the session that a HELLO asks for (R407, R410). -/
def Admitted (s : State) (b : HelloBody) : Prop :=
  1 ≤ b.life ∧ b.life ≤ 86400 ∧ b.ek.length = 1568 ∧ b.eps.Nodup ∧ (∀ e ∈ b.eps, e < 192) ∧
  match b.kind with
  | .manage => b.eps = [] ∧ b.ctx = 0 ∧ b.hkey = Config.operatorKey
  | .data => b.eps ≠ [] ∧ b.ctx < 2 ^ 32 ∧ (s.ctxOf b.ctx).status = .live ∧
      (∃ k : Nat, ∀ e ∈ b.eps, (s.endpoint e).state = .locked ∧ (s.endpoint e).ctx = b.ctx ∧ (s.endpoint e).locker = k) ∧
      ((s.ctxOf b.ctx).cr.hostid = 0 ∨ (s.ctxOf b.ctx).cr.hostid = (digest (leBytes 64 b.hkey.toNat)).toNat)

/-- The session and nothing but it changed. -/
def OnlySession (s t : State) (n : Nat) : Prop := ∀ k, k ≠ n → t.session k = s.session k

end Sys2Proof.Machine

/-- R404, R405, R407 to R411: HELLO is answered by ACCEPT and FINISH by READY, a DATA session's endpoints entering RUN; a session
fails with its endpoints, by each of its causes; a wrong header also ends a handshake, and a request that is none is answered; a management
session locks and unbinds endpoints and reads the counters, the log and the certificate, its requests served in the order they came. That a DATA
HELLO needs a live context, and that each message counts as one packet, are the model's readings (log 35). -/
def Obligations.Sessions : Prop :=
  ∀ (s : State) (n seq : Nat), s.secured = true →
    (∀ b : HelloBody,
      (Admitted s b →
        let hello := leBytes 2 0x5A4B ++ [1, 1] ++ leBytes 4 (1680 + 2 * b.eps.length) ++ helloBody b
        ∃ (t : State) (accept : List Byte), exec (.hello b) s = .next t ∧ t.outbox = s.outbox ++ [.accept s.nextSess accept] ∧ t.nextSess = s.nextSess + 1 ∧
          t.reportCtr = s.reportCtr + 1 ∧ OnlySession s t s.nextSess ∧ accept.length = 51656 ∧
          (accept.drop 1568).take 232 = reportHead s b.ctx (leBytes 64 (digest hello).toNat) ∧
          (let q := t.session s.nextSess
           q.stage = .accepted ∧ q.kind = b.kind ∧ q.ctx = b.ctx ∧ q.eps = b.eps ∧ q.hkey = b.hkey ∧ q.left = b.life ∧
             q.transcript = digest (hello ++ (leBytes 2 0x5A4B ++ [2, 1] ++ leBytes 4 51656 ++ accept) ++ accept.take 1568) ∧
             q.keys = digest ((Config.encapsulate s.draws b.ek).2 ++ leBytes 64 q.transcript.toNat)) ∧
          ((Config.encapsulate s.draws b.ek).1.length = 1568 → accept.take 1568 = (Config.encapsulate s.draws b.ek).1) ∧
          t.endpoints = s.endpoints ∧ SameMemory s t) ∧
      (¬ Admitted s b → exec (.hello b) s = .next s)) ∧
    (∀ sig,
      let q := s.session n
      let signed : Prop := sig.length = 49856 ∧ Config.verifies q.hkey (leBytes 64 q.transcript.toNat) sig = true ∧
        (q.kind = .data → ∃ k : Nat, ∀ e ∈ q.eps, (s.endpoint e).state = .locked ∧ (s.endpoint e).ctx = q.ctx ∧ (s.endpoint e).locker = k)
      q.stage = .accepted →
      (signed → ∃ t, exec (.finish n sig) s = .next t ∧ t.outbox = s.outbox ++ [.ready n] ∧ t.session n = { q with stage := .ready, outAt := s.outbox.length } ∧
        OnlySession s t n ∧ (∀ e ∈ q.eps, t.endpoint e = { s.endpoint e with state := .run, session := n }) ∧
        (∀ e, e ∉ q.eps → t.endpoint e = s.endpoint e) ∧ SameMemory s t) ∧
      (¬ signed → ∃ t, exec (.finish n sig) s = .next t ∧ t.session n = {} ∧ OnlySession s t n ∧ t.endpoints = s.endpoints ∧ t.outbox = s.outbox)) ∧
    (∀ cause, (s.session n).stage = .ready →
      (match cause with
        | .tag | .header => True
        | .replay psn => psn < s.accepted n
        | .lifetime => (s.session n).left = 0
        | .packets => 2 ^ 48 ≤ (s.sent n).length ∨ 2 ^ 48 ≤ s.accepted n
        | .request _ => False) →
      ∃ t, exec (.sessionFail n cause) s = .next t ∧ t.session n = { s.session n with stage := .failed } ∧ OnlySession s t n ∧
        (∀ e, t.endpoint e = if e ∈ (s.session n).eps ∧ (s.endpoint e).state = .run then { s.endpoint e with state := .error } else s.endpoint e) ∧
        ∀ e, (s.session n).eps = [e] → (s.endpoint e).state = .run → (s.ctxOf (s.endpoint e).ctx).status = .live →
          s.eventRoom (s.endpoint e).ctx (s.ctxOf (s.endpoint e).ctx).cr.supcore = true → Noted s t (s.endpoint e).ctx 9 (BitVec.ofNat 64 e) 0) ∧
    ((s.session n).stage = .accepted → ∃ t, exec (.sessionFail n .header) s = .next t ∧ t.session n = {} ∧ OnlySession s t n ∧
      t.endpoints = s.endpoints ∧ t.outbox = s.outbox) ∧
    (Managing s n → exec (.sessionFail n (.request seq)) s = .next { s with outbox := s.outbox ++ [.answer n seq 3 []] }) ∧
    ((s.session n).stage = .ready → (s.session n).kind = .manage → ∀ (r : Instr) (rs : List Instr), s.requests = r :: rs →
      ∀ i ∈ [Instr.cert n seq, .health n seq, .sessionFail n (.request seq)], i ≠ r → exec i s = .next { s with requests := s.requests ++ [i] }) ∧
    (Managing s n →
      (∀ ep ctx rbase rlen defcore, ep < 192 →
        let exists' : Prop := (s.ctxOf ctx).status = .live ∨ Tab.get {} s.sealedCtxs ctx ≠ {}
        ((s.endpoint ep).state ≠ .unbound →
          exec (.lock n seq ep ctx rbase rlen defcore) s = .next { s with outbox := s.outbox ++ [.answer n seq 1 []] }) ∧
        ((s.endpoint ep).state = .unbound → ¬ (exists' ∧ rlen.toNat ≤ 2 ^ 30 ∧ defcore ≤ 767) →
          exec (.lock n seq ep ctx rbase rlen defcore) s = .next { s with outbox := s.outbox ++ [.answer n seq 2 []] }) ∧
        ((s.endpoint ep).state = .unbound → exists' → rlen.toNat ≤ 2 ^ 30 → defcore ≤ 767 →
          ∃ t, exec (.lock n seq ep ctx rbase rlen defcore) s = .next t ∧ Replied s t n seq 0 [] ∧ SameMemory s t ∧
            t.endpoint ep = { state := .locked, ctx := ctx, locker := n, rbase := rbase, rlen := rlen.toNat, defcore := defcore } ∧
            ∀ e, e ≠ ep → t.endpoint e = s.endpoint e)) ∧
      (∀ ep,
        let p := s.endpoint ep
        (p.state ≠ .unbound → p.locker = n → ∃ t, exec (.unbind n seq ep) s = .next t ∧ Replied s t n seq 0 [] ∧ SameMemory s t ∧
          t.endpoint ep = {} ∧ (∀ e, e ≠ ep → t.endpoint e = s.endpoint e) ∧ t.cores = s.cores) ∧
        (p.state = .unbound ∨ p.locker ≠ n → exec (.unbind n seq ep) s = .next { s with outbox := s.outbox ++ [.answer n seq 2 []] })) ∧
      (∃ body : List Byte, exec (.health n seq) s = .next { s with outbox := s.outbox ++ [.answer n seq 0 body] } ∧
        body.take 8 = leBytes 4 s.log.length ++ leBytes 4 0 ∧
        body.length = 8 + 8 * 7 + 8 * (800 + 200 + 24672 + 48 + 12 + 8 + 2) + 32 * s.log.length ∧
        (∀ i, i < 800 → (body.drop (16 + 8 * i)).take 8 =
          leBytes 4 (Tab.get {} s.counters (unitKey .core i)).transient ++ leBytes 4 (Tab.get {} s.counters (unitKey .core i)).lasting)) ∧
      exec (.cert n seq) s = .next { s with outbox := s.outbox ++
        [.answer n seq 0 (leBytes 4 Config.certificate.length ++ leBytes 4 0 ++ Config.certificate)] }) ∧
    ((s.session n).stage = .ready → (s.session n).kind = .data → s.requests = [] → ∀ ep ctx,
      ∀ i ∈ [Instr.unbind n seq ep, .manageEnd n seq ctx, .manageSeal n seq ctx, .resume n seq ctx, .health n seq, .cert n seq,
          .sessionFail n (.request seq)],
        ∃ t, exec i s = .next t ∧ t.session n = { s.session n with stage := .failed } ∧ t.outbox = s.outbox)

/-- R117, R390 to R393, R402: CREATE checks its record, owns the named clusters, places every logical core, writes the image of local store,
measures what it was given, gives every slot its start values and queues the entry continuation; a record that a check fails, or of
another length, changes nothing, and nothing is made where every number is in use. The checks are those of the model's `recordOk` and `createOk`;
that these read the base of the store's section as an offset, the MODE of the leaves, and the first page of the seal area is the
model's reading (log 34). -/
def Obligations.Creation : Prop :=
  ∀ (s : State) (n seq ctx : Nat) (record : List Byte) (text data ls : Section), Managing s n →
    let said (code : Nat) : State := { s with outbox := s.outbox ++ [.answer n seq code []] }
    (record.length ≠ 256 → exec (.create n seq record text data ls) s = .next (said 3)) ∧
    (record.length = 256 → s.freeNumber = none → exec (.create n seq record text data ls) s = .next (said 2)) ∧
    (s.freeNumber = some ctx → s.core ctx 0 = {} → record.length = 256 →
    let r := CreateRec.parse record
    let cs := (List.range 100).filter (fun a => r.clusters.testBit a)
    let ok := recordOk record && (s.setCtx ctx { cr := r }).createOk ctx r ls
    (ok = true → (∀ a ∈ cs, ∀ m, m < 8 → s.alive (8 * a + m) = true) →
      let sect (x : Section) : List Byte := leBytes 8 x.base.toNat ++ leBytes 8 x.bytes.length ++ x.bytes
      let meas := digest (record ++ sect text ++ sect data ++ sect ls)
      ∃ t, exec (.create n seq record text data ls) s = .next t ∧
        (∃ o : List OutMsg, t.outbox = o ++ [.answer n seq 0 (leBytes 4 ctx ++ leBytes 4 0 ++ leBytes 64 meas.toNat)]) ∧
        (t.ctxOf ctx).status = .live ∧ (t.ctxOf ctx).cr = r ∧ (t.ctxOf ctx).measurement = meas ∧ (t.ctxOf ctx).phase = 0 ∧
        (t.ctxOf ctx).clocks = [] ∧ (t.ctxOf ctx).poolFree = (List.range r.pooln).drop 1 ∧ (∀ c, c ≠ ctx → t.ctxOf c = s.ctxOf c) ∧
        (∀ a ∈ cs, ∀ m, m < 8 → t.owns ctx (8 * a + m) = true) ∧
        (∀ lc, lc < 768 → t.placed ctx lc = true ∧ t.physCore ctx lc = 8 * cs.getD (lc / 8 * cs.length / 96) 0 + lc % 8 ∧
          (∀ k, k < ls.bytes.length → Mem.read t.mem (lsKey ctx lc (ls.base.toNat + k)) = ls.bytes.getD k 0) ∧
          ∀ p, p < 8 →
            let f : Focus := { ctx := ctx, lc := lc, pos := p }
            (t.slotAt f).mode = .free ∧ (t.slotAt f).trapvec = r.trapvec ∧
            (t.slotAt f).slice = (if r.slice ≠ 0 ∧ r.slice < 8192 then 8192 else r.slice) ∧
            (t.slotAt f).spillTop = r.spillbase + p * r.spillbytes ∧ (t.slotAt f).spillLimit = r.spillbase + (p + 1) * r.spillbytes) ∧
        (∃ q : QEntry, (t.core ctx 0).ready = [q] ∧ q.image = false ∧ q.ref = 0 ∧ q.prio = 0) ∧
        ∀ f, r.itree / 65536 ≤ f → f < r.itree / 65536 + r.itreelen / 65536 → frameOwner (Tab.get 0 t.frames f).toNat = 0xFFFF) ∧
    (ok = false → exec (.create n seq record text data ls) s = .next (said 2)))

/-- R172, R177, R189, R404, R408, R418, R421: what a host in RUN asks of its endpoint: a message into a mailbox with room, to the DEFCORE where it
names none, and the lines of a read or a write of the context's memory, one step each: the last is answered, before that the endpoint
keeps the request and takes no other. A request in hand goes on where the endpoint has entered ERROR, and is then not answered. That a message
without a destination goes to the DEFCORE is the model's reading (log 51), and so is that the endpoint keeps a request and takes no other
until it is answered (log 52). -/
def Obligations.HostRequests : Prop :=
  ∀ (s : State) (ep : Nat),
    let p := s.endpoint ep
    let ctx := p.ctx
    (s.ctxOf ctx).status = .live →
    (p.state = .run → p.run = none → ∀ dst tag nan words,
      let said (code : Nat) : State := { s with outbox := s.outbox ++ [.placed ep code] }
      exec (.msg ep none tag nan words) s = exec (.msg ep (some p.defcore) tag nan words) s ∧
      (767 < dst → exec (.msg ep (some dst) tag nan words) s = .next (said 2)) ∧
      (dst ≤ 767 → (s.core ctx dst).box.length + 256 ≥ 32 + (s.ctxOf ctx).ringN → exec (.msg ep (some dst) tag nan words) s = .next (said 1)) ∧
      (dst ≤ 767 → (s.core ctx dst).box.length + 256 < 32 + (s.ctxOf ctx).ringN →
        ∃ (t : State) (m : Msg), exec (.msg ep (some dst) tag nan words) s = .next t ∧ t.outbox = s.outbox ++ [.placed ep 0] ∧ SameMemoryAt ctx dst s t ∧
          (t.core ctx dst).box = (s.core ctx dst).box ++ [m] ∧ m.kind = .msg ∧ m.src = 0x300 + ep ∧ m.tag = tag.toNat ∧ m.nan = nan ∧
          m.stamp = s.clock ctx (epParty ep) ∧ ((s.clock ctx (epParty ep)).toNat < 2 ^ 47 → (t.clock ctx (epParty ep)).toNat = (s.clock ctx (epParty ep)).toNat + 1) ∧
          ∀ i, 1 ≤ i → i ≤ 7 → m.word i = words.getD (i - 1) 0)) ∧
    (∀ (va : Word) (key i : Nat) (bytes got : List Byte),
      let n := bytes.length
      let lo := if i = 0 then va.toNat else 192 * (va.toNat / 192 + i)
      let hi := Nat.min (va.toNat + n) (192 * (va.toNat / 192 + i + 1))
      let wr : HostRun := { write := true, va := va, len := n, bytes := bytes, lines := i }
      let rd : HostRun := { write := false, va := va, len := n, lines := i, got := got }
      let told (m : OutMsg) : List OutMsg := s.outbox ++ (if p.state = .run then [m] else [])
      (p.state = .run ∨ p.state = .error ∧ 0 < i) → CalmFor s ctx → n ≤ 4096 → va.toNat + n ≤ 2 ^ 56 → lo < va.toNat + n →
      Arena s (epWho ctx ep) [(lo, hi - lo, key)] →
      (p.run = (if i = 0 then none else some wr) → ∃ t, exec (.write ep va bytes) s = .next t ∧ t.slots = s.slots ∧
        Mem.bytes t.mem key (hi - lo) = (bytes.drop (lo - va.toNat)).take (hi - lo) ∧ SameMemoryBut key (hi - lo) s t ∧
        if hi = va.toNat + n then t.outbox = told (.writeDone ep 0 0) ∧ (t.endpoint ep).run = none
        else t.outbox = s.outbox ∧ (t.endpoint ep).run = some { wr with lines := i + 1 }) ∧
      (p.run = (if i = 0 then none else some rd) → (i = 0 → got = []) → ∃ t, exec (.read ep va n) s = .next t ∧ t.slots = s.slots ∧ SameMemory s t ∧
        let all := got ++ Mem.bytes s.mem key (hi - lo)
        if hi = va.toNat + n then t.outbox = told (.readDone ep 0 all) ∧ (t.endpoint ep).run = none
        else t.outbox = s.outbox ∧ (t.endpoint ep).run = some { rd with lines := i + 1, got := all })) ∧
    (∀ q : HostRun, p.run = some q →
      (∀ dst tag nan words, exec (.msg ep (some dst) tag nan words) s = .next s) ∧
      (∀ va bytes, ¬(q.write = true ∧ q.va = va ∧ q.len = bytes.length ∧ q.bytes = bytes) → exec (.write ep va bytes) s = .next s) ∧
      ∀ va n, ¬(q.write = false ∧ q.va = va ∧ q.len = n ∧ q.bytes = []) → exec (.read ep va n) s = .next s) ∧
    (p.state = .run → ∀ (va : Word) (bytes : List Byte), p.run = none → 2 ^ 56 ≤ va.toNat → 0 < bytes.length → bytes.length ≤ 4096 →
      exec (.write ep va bytes) s = .next { s with outbox := s.outbox ++ [.writeDone ep TrapKind.protection.code 0] } ∧
      exec (.read ep va bytes.length) s = .next { s with outbox := s.outbox ++ [.readDone ep TrapKind.protection.code []] })

namespace Sys2Proof.Machine

/-- The log gained one entry, its oldest gone if it held 4096 (R427). -/
def Logged (s t : State) (e : LogEntry) : Prop := t.log = (if s.log.length < 4096 then s.log else s.log.drop 1) ++ [e]

/-- One more transient or lasting event of a unit is counted, up to 2^32 - 1, and nothing else of the counters changed (R427). -/
def Counted (s t : State) (key : Nat) (lasting : Bool) : Prop :=
  let a := Tab.get {} s.counters key
  Tab.get {} t.counters key = (if lasting then { a with lasting := Nat.min (a.lasting + 1) 0xFFFFFFFF }
    else { a with transient := Nat.min (a.transient + 1) 0xFFFFFFFF }) ∧
  ∀ k, k ≠ key → Tab.get {} t.counters k = Tab.get {} s.counters k

/-- Every key of the part is gone: no key slot is full, slot 0 is erased, every session has failed, an endpoint in RUN is in ERROR, and no seal can be
resumed (R413). -/
def KeysErased (s t : State) : Prop :=
  t.keys = [] ∧ t.keyless = true ∧ (∀ e ∈ t.sessions, e.2.stage = .failed ∧ e.2.keys = 0) ∧ (∀ e ∈ t.sealedCtxs, e.2.lost = true) ∧
  ∀ e, e < 192 → t.endpoint e = if (s.endpoint e).state = .run then { s.endpoint e with state := .error } else s.endpoint e

end Sys2Proof.Machine

/-- R146, R402, R413, R414, R417, R423 to R429: what the part itself does: a grant shares the budget over dies and clusters by what their cores
asked, and sets the matrix duty of every cluster to the largest sixteenth that fits; alarms raise TRAPNOTEs and erase keys, and leave the
port off that an earlier one turned off; the standby verifies the firmware and takes over; a fault is counted, logged, repaired and
reported, and a failed check of a GUARDED unit poisons it; a power reset leaves the machine of reset with its firmware verified, and what
was repaired. The model's choices and readings: what a core asks and draws, whole thousandths of an ampere, and the duties lowered further
while the rails pass the budget (log 39); the lowest spare lane (log 36); when the standby takes over (log 38); what a reset keeps and clears
(log 5); the source of a TRAPNOTE (log 54). -/
def Obligations.PartSteps : Prop :=
  ∀ s : State,
    let quiet : Prop := ∀ c lc, ∀ q ∈ (s.core c lc).suspended, q.image = true
    (let works (k : Nat) : Prop := s.alive k = true ∧ s.hosted (s.ownerCtx k) k ≠ []
     let other (k : Nat) : Nat := if works k then 1000 + Config.vectorDraw s.draws k % 3001 else 0
     let matrix (k : Nat) : Nat := if works k then Config.matrixDraw s.draws k % 5501 else 0
     let asked (k : Nat) : Nat := other k + matrix k
     let sum (f : Nat → Nat) (lo n : Nat) : Nat := ((List.range n).map (fun i => f (lo + i))).foldr (· + ·) 0
     let share (whole part all : Nat) : Nat := if all = 0 then 0 else whole * part / all
     let budget := if s.alarm1 then Config.loweredBudget s.draws % 6000000 else 6000000
     let drawn (a d : Nat) : Nat := sum (fun k => 16 * other k + Nat.min (16 * matrix k) (5500 * d)) (8 * a) 8
     let rails (f : Nat → Nat) : Nat := sum (fun a => drawn a (f a)) 0 100
     ∃ (t : State) (best : Nat → Nat) (k : Nat), exec .arbiterGrant s = .next t ∧ SameMemory s t ∧ t.slots = s.slots ∧
       (∀ c, c < 800 → Tab.get 0 t.requested c = asked c) ∧
       (∀ a, a < 100 →
         let die := share budget (sum asked (a / 25 * 200) 200) (sum asked 0 800)
         let grant := share die (sum asked (8 * a) 8) (sum asked (a / 25 * 200) 200)
         1 ≤ best a ∧ best a ≤ 16 ∧ (drawn a (best a) ≤ 16 * grant ∨ best a = 1) ∧ (∀ e, best a < e → e ≤ 16 → 16 * grant < drawn a e) ∧
         Tab.get 16 t.duty a = Nat.max 1 (best a - k)) ∧
       (rails (fun a => Nat.max 1 (best a - k)) ≤ 16 * budget ∨ k = 15) ∧ (∀ j, j < k → 16 * budget < rails (fun a => Nat.max 1 (best a - j))) ∧
       (s.alarm1 = false → rails (fun a => Tab.get 16 t.duty a) ≤ 16 * 6000000)) ∧
    (let alarmed (t : State) : Prop := ∃ (e : LogEntry) (k : UnitKind), Logged s t e ∧ e.cls = 3 ∧ e.event = 7 ∧ e.time = s.timeUs ∧ e.unit = unitCode k ∧
       e.number < unitCount k
     (∀ cause coissue,
       ∃ t, exec (.class1Alarm cause coissue) s = .next t ∧ t.alarm1 = true ∧ t.coissueOff = (s.coissueOff || coissue) ∧ SameMemory s t ∧
         t.slots = s.slots ∧ alarmed t ∧ ∀ c, s.liveCtxs = [c] → NoteDue s t c 8 (BitVec.ofNat 64 (cause.val + 1)) 0) ∧
     exec .class1AlarmClear s = .next { s with alarm1 := false, coissueOff := false } ∧
     ∃ t, exec .class2Alarm s = .next t ∧ KeysErased s t ∧ (quiet → SameMemory s t) ∧ t.slots = s.slots ∧ alarmed t) ∧
    (let promotes : Prop := Tab.get false s.retired (7 * 2 ^ 16) = true ∧ Tab.get false s.retired (7 * 2 ^ 16 + 1) = false ∧ s.standby = false
     (promotes → ∃ t, exec .standbyPromotion s = .next t ∧ t.standby = true ∧ KeysErased s t ∧ (quiet → SameMemory s t) ∧ t.slots = s.slots ∧
       t.owners = s.owners ∧ t.frames = s.frames ∧ t.fwDigest = digest s.firmware.flatten ∧
       t.fwVerified = Config.firmwareVerifies (s.firmware.getD 0 []) (s.firmware.getD 1 []) (s.firmware.getD 2 [])) ∧
     (¬ promotes → exec .standbyPromotion s = .next s)) ∧
    (∀ port, port < 8 → ∃ t, exec (.droppedPacket port) s = .next t ∧ Counted s t (6 * 2 ^ 16 + port) false ∧
      Logged s t { time := s.timeUs, unit := 6, cls := 1, event := 6, number := port, addr := 0, ctx := 0 } ∧
      { t with counters := [], log := [] } = { s with counters := [], log := [] }) ∧
    (∀ (kind : UnitKind) (n event : Nat), n < unitCount kind → 1 ≤ event → event ≤ 5 →
      let key := unitCode kind * 2 ^ 16 + n
      let logs (t : State) (cls : Nat) (addr : Word) : Prop := ∃ e : LogEntry, Logged s t e ∧ e.unit = unitCode kind ∧ e.cls = cls ∧ e.event = event ∧
        e.number = n ∧ e.addr = addr ∧ e.time = s.timeUs ∧
        (kind ≠ .core → (addr = 0 ∨ inHbm addr.toNat = false ∨ frameOwner (s.frame addr.toNat) = 0xFFFF) → e.ctx = 0)
      (∀ addr, ∃ t, exec (.lastingFault kind n event addr true) s = .next t ∧ Counted s t key false ∧ logs t 1 addr ∧
        { t with counters := [], log := [] } = { s with counters := [], log := [] }) ∧
      ((kind = .core → s.ownerCtx n = 0 ∧ (s.ctxOf 0).placement = []) →
        ∃ t, exec (.lastingFault kind n event 0 false) s = .next t ∧ Counted s t key true ∧ Tab.get false t.retired key = true ∧ logs t 2 0 ∧
          SameMemory s t ∧ t.slots = s.slots ∧
          (kind = .hbmLane → n % 2056 < 2048 → (∀ e ∈ s.lanesUsed, e.1 / 2056 ≠ n / 2056) →
            (∀ l, l < 8 → Tab.get false s.retired (3 * 2 ^ 16 + (2056 * (n / 2056) + 2048 + l)) = false) →
            Tab.get 0 t.lanesUsed n = 2048 ∧ Tab.get 0 t.lanePend n = 2048) ∧
          ∀ c, s.liveCtxs = [c] →
            (s.serves kind n c = true → NoteDue s t c 10 (BitVec.ofNat 64 (unitCode kind + 2 * 2 ^ 8 + event * 2 ^ 16 + n * 2 ^ 32)) 0) ∧
            (s.serves kind n c = false → (t.ctxOf c).notes = (s.ctxOf c).notes)) ∧
      (∀ c, kind = .core → c ≠ 0 → s.ownerCtx n = c → s.hosted c n = [] →
        ∃ t, exec (.lastingFault kind n event 0 false) s = .next t ∧ Counted s t key true ∧ t.alive n = false ∧ logs t 2 0 ∧
          (t.ctxOf c).fled = (s.ctxOf c).fled ++ [n] ∧ SameMemory s t ∧ t.slots = s.slots) ∧
      (∀ addr : Word, addr ≠ 0 → inHbm addr.toNat = true → (kind = .link ∨ kind = .slice) →
        ∃ t, exec (.lastingFault kind n event addr false) s = .next t ∧ SameMemory s t ∧
          ∀ u ∈ unitsOfLine addr.toNat, Tab.get false t.poison u = true ∧ field (Tab.get 0 t.frames (u / 65536)).toNat 18 1 = 1)) ∧
    (∀ (kind : UnitKind) (n : Nat) (addr : Word), inHbm addr.toNat = true → frameMode (s.frame addr.toNat) = 2 →
      let u := macUnit addr.toNat
      ∃ t, exec (.lastingFault kind n 0 addr false) s = .next t ∧ Tab.get false t.poison u = true ∧
        field (Tab.get 0 t.frames (u / 65536)).toNat 18 1 = 1 ∧ (∀ v, v ≠ u → Tab.get false t.poison v = Tab.get false s.poison v) ∧
        { t with poison := [], frames := [] } = { s with poison := [], frames := [] }) ∧
    (∀ stack, exec (.laneRemap stack) s = .next { s with lanePend := s.lanePend.filter (fun e => decide (e.1 / 2056 ≠ stack)) }) ∧
    ∀ nut harts arb, ∃ t, exec (.powerReset nut harts arb) s = .next t ∧
      t.fwVerified = Config.firmwareVerifies nut harts arb ∧ t.fwDigest = digest (nut ++ harts ++ arb) ∧ t.mem = [] ∧ t.slots = [] ∧
      t.cores = [] ∧ t.ctxs = [] ∧ t.owners = [] ∧ t.frames = [] ∧ t.keys = [] ∧ t.endpoints = [] ∧ t.sessions = [] ∧
      (Tab.wf {} s.harts = true → ∀ h, t.hart h = { stopped := (s.hart h).stopped, served := (s.hart h).served }) ∧
      t.sealedCtxs = [] ∧ t.log = [] ∧ t.timeUs = 0 ∧ t.alarm1 = false ∧ t.reportCtr = s.reportCtr ∧ t.retired = s.retired

namespace Sys2Proof.Machine

/-- Memory has its canonical form, and so has the local store that each sealed context keeps. -/
def AllCanonical (s : State) : Prop :=
  s.MemCanonical ∧ ∀ e ∈ s.sealedCtxs, Mem.wf e.2.ls = true ∧ ∀ c ∈ e.2.ls, lsKey e.1 0 0 ≤ c.1 ∧ c.1 < lsKey (e.1 + 1) 0 0

/-- The trap that a word raises which does not decode (R46). -/
def wordTrap : DecodeError → TrapKind
  | .illegalFormat => .illegalFormat
  | .illegalOpcode => .illegalOpcode
  | .illegalField => .illegalField

/-- The unassigned major opcodes (R53), each range by its first and its last. -/
def unassigned : List (Nat × Nat) :=
  [(0x000, 0x000), (0x02E, 0x02F), (0x033, 0x03F), (0x047, 0x04F), (0x05F, 0x05F), (0x066, 0x07F), (0x0AA, 0x0BF), (0x0CE, 0x0DF),
   (0x0EA, 0x0EF), (0x0F3, 0x0FF), (0x108, 0x10F), (0x116, 0x117), (0x11C, 0x1FF)]

end Sys2Proof.Machine

/-- R35 to R42, R52: every well-formed instruction that has an encoding decodes from its bytes, whatever follows them, and every word that
decodes is the encoding of the well-formed instruction that it decodes to, so each word has one meaning. -/
def Obligations.RoundTrip : Prop :=
  (∀ (i : Instr) (bs rest : List Byte), i.wf = true → encode i = some bs →
    decode (bs ++ rest) = .ok (i, bs.length) ∧ (bs.length = 8 ∨ bs.length = 12 ∨ bs.length = 16)) ∧
  ∀ (bs : List Byte) (i : Instr) (n : Nat), decode bs = .ok (i, n) → i.wf = true ∧ encode i = some (bs.take n)

/-- R46 steps 3 to 6, R53: LEN 11 and a word that its fetch block cuts off are refused, and each of the 349 unassigned codes, in every length
and whatever its other fields hold, raises ILLEGAL_OPCODE. -/
def Obligations.UnassignedWords : Prop :=
  (∀ (len : Len) (w : Nat) (rest : List Byte), w % 4 = len.code → (∃ r ∈ unassigned, r.1 ≤ w / 8 % 512 ∧ w / 8 % 512 ≤ r.2) →
    decode (leBytes len.bytes w ++ rest) = .error .illegalOpcode ∧ fetchedOf (leBytes len.bytes w ++ rest) = .trap .illegalOpcode 0) ∧
  (unassigned.map (fun r => r.2 - r.1 + 1)).foldr (· + ·) 0 = 349 ∧
  (∀ (bs : List Byte), leNat bs % 4 = 3 → decode bs = .error .illegalFormat) ∧
  ∀ (len : Len) (bs : List Byte), leNat bs % 4 = len.code → bs.length < len.bytes → decode bs = .error .illegalFormat

/-- Words that the spec writes out, one of each family at least, decode to the instructions that it gives for them (R256, R279, R295, R322,
R333, R363, R378 and the worked encodings of chapters 3, 5, 6, 8 and 9). -/
def Obligations.SampleWords : Prop :=
  let s8 : Hd := { len := .l64, s := true }
  let n8 : Hd := { len := .l64, s := false }
  let word (w : Nat) : Except DecodeError (Instr × Nat) := decode (leBytes 8 w)
  word 0x0001800002110008 = .ok (.add n8 17 16 (.imm 1), 8) ∧
  word 0x00C80100012500F0 = .ok (.bfx n8 true 5 9 8 3, 8) ∧
  word 0x004000000000011C = .ok (.call s8 0x40, 8) ∧
  word 0x000C012001100200 = .ok (.ld n8 .w true 16 8 12, 8) ∧
  word 0x000800304500020C = .ok (.st s8 .d 17 8 8, 8) ∧
  word 0x00000030451002CC = .ok (.amo s8 (.rop .add) .d 16 8 17, 8) ∧
  word 0x030010000138028C = .ok (.recv s8 .msg (some 9) 24 0x300, 8) ∧
  word 0x0000058028020480 = .ok (.vcmp n8 { k := 0, kn := false } Ctl.zero .gt .f32 2 0 10, 8) ∧
  word 0x00CA0001882404A8 = .ok (.vlop3 n8 { k := 0, kn := false } 4 1 2 3 0xCA, 8) ∧
  word 0x000000702D42061C = .ok (.mma s8 .bf16 2 10 11 0, 8) ∧
  word 0x000002000823071C = .ok (.autstep s8 { k := 0, kn := false } 2 3 1 2, 8) ∧
  word 0x0003110016800784 = .ok (.allowApply s8 1 20 5 3, 8) ∧
  word 0x0000000061300804 = .ok (.copy s8 16 9 24, 8) ∧
  word 0x00030000000008A4 = .ok (.nodefail s8 3, 8) ∧
  word 0x00000100000008DC = .ok (.rdoneFail s8, 8) ∧
  word 0x0012000000000144 = .ok (.trap s8 0x12, 8)

/-- R46, R95, R166: a step that issues for a slot whose turn it is runs the instruction that the bytes at its PC decode to, and one cycle
passes: after the fetch, which is a read of the slot, the position is noted as the last that issued; where `exec` of the instruction then
answers `u`, the step answers `u` a cycle later, its memory as in `u`, the unit of the core has taken a matrix or automaton instruction that
joined its group, and what a step changes of accumulators that stand in their frame goes there. A word that does not decode raises its trap. A
slot whose turn it is not does nothing. The model's choices and readings: one cycle for each step (log 8), an issue out of turn that does
nothing (log 1), and the fetch of the bytes to the end of the block (log 9). -/
def Obligations.StepRunsDecodedInstruction : Prop :=
  ∀ (f : Focus) (rest : List Choice) (key : Nat) (s : State), s.agenda = .issue f :: rest →
    let s0 : State := { s with agenda := rest, focus := f }
    let n := 32 - s0.slot.pc.toNat % 32
    let bs := Mem.bytes s.mem key n
    (s0.turn f = false → step s = .next (s.syncFrames s0).elapse) ∧
    (s0.turn f = true → s0.slot.stopped = [] → s0.slot.pc.toNat % 4 = 0 → s0.slot.pc.toNat % 32 ≠ 28 → s.codeLog = [] → s0.here.partials = [] →
      Open s0 (s0.who s0.slot.nanread) .x (.glob s0.slot.pc.toNat) n key →
      ∃ s1 : State, OnlyAccess s0 s1 ∧ s1.mem = s.mem ∧ s1.slots = s.slots ∧
        let s2 := { s1 with lastPos := Tab.set 0 s1.lastPos (s1.physCore f.ctx f.lc) f.pos }.mod (fun t => { t with drainAt := none })
        (∀ i m, decode bs = .ok (i, m) → ∀ u, exec i s2 = .next u →
          step s = .next (s.syncFrames (if s2.slot.longs.length < u.slot.longs.length then
            (if usesAcc i then u.unitTake u.focus.ctx u.focus.lc else if usesAu i then u.unitTakeAu u.focus.ctx u.focus.lc else u) else u)).elapse) ∧
        (∀ e, decode bs = .error e → step s = .next (s.syncFrames (s1.takeTrap (s1.fault (wordTrap e) 0))).elapse)) ∧
    (∀ v u : State, (∀ e ∈ u.cores, e.2.framed = false) → v.syncFrames u = u) ∧
    ∀ u : State, u.elapse.cycle = u.cycle + 1 ∧ SameMemory u u.elapse ∧ u.elapse.cores = u.cores ∧ u.elapse.focus = u.focus ∧
      ∀ g : Focus, { u.elapse.slotAt g with sliceCount := 0 } = { u.slotAt g with sliceCount := 0 }

/-- R390, R399, R404, R407, R412, R427: what reset leaves: no context, no owned core, every frame free and CLEAR, every key slot EMPTY, every
endpoint UNBOUND, no session, counters and log empty, the clock at zero. The model's choices: memory reads zero (log 2), a slot that holds
nothing is empty (log 4), every counter is zero (log 5). Its tables have their canonical form, and no run from any state stops. -/
def Obligations.ResetState : Prop :=
  (∀ c core, State.reset.ctxOf c = {} ∧ Tab.get 0 State.reset.owners core = 0) ∧
  (∀ f, State.reset.frame f = 0) ∧ (∀ k, (Tab.get {} State.reset.keys k).full = false) ∧
  (∀ e, (State.reset.endpoint e).state = .unbound) ∧ (∀ n, (State.reset.session n).stage = .none) ∧
  (∀ k, Tab.get {} State.reset.counters k = {}) ∧ State.reset.log = [] ∧ State.reset.timeUs = 0 ∧ State.reset.cycle = 0 ∧
  (∀ a, Mem.read State.reset.mem a = 0) ∧ (∀ f, State.reset.slotAt f = {}) ∧ AllCanonical State.reset ∧ ∀ s, SafeFrom s

/-- Every step of the machine, whatever it does, keeps memory in its canonical form, so that equal memories are equal data. -/
def Obligations.CanonicalFormKept : Prop :=
  Kept AllCanonical
end

