-- ==== Sys2Proof/Laws/Tab.lean ====
section
/-! SUPPORT. What reads and writes of tables and of byte memory give, and that every write keeps the canonical form. -/

namespace Sys2Proof.Machine

set_option Elab.async false

theorem Tab.get_append {α : Type} (d : α) (a b : Tab α) (k : Nat) :
    Tab.get d (a ++ b) k = if a.any (fun e => decide (e.1 = k)) then Tab.get d a k else Tab.get d b k := by
  induction a with
  | nil => rfl
  | cons e r ih =>
    obtain ⟨j, v⟩ := e
    by_cases h : j = k
    · simp [Tab.get, h]
    · simp only [List.cons_append, Tab.get, h, if_false, ih, List.any_cons, decide_false, Bool.false_or]

/-- A key that the filter drops is not found. -/
theorem Tab.get_drop {α : Type} (d : α) (p : Nat → Bool) (t : Tab α) (k : Nat) (h : p k = false) :
    Tab.get d (t.filter (fun e => p e.1)) k = d := by
  induction t with
  | nil => rfl
  | cons e r ih =>
    obtain ⟨j, v⟩ := e
    by_cases hp : p j = true
    · have : j ≠ k := by rintro rfl; simp [h] at hp
      simp [hp, Tab.get, this, ih]
    · simp [hp, ih]

/-- A key that the filter keeps reads as before. -/
theorem Tab.get_keep {α : Type} (d : α) (p : Nat → Bool) (t : Tab α) (k : Nat) (h : p k = true) :
    Tab.get d (t.filter (fun e => p e.1)) k = Tab.get d t k := by
  induction t with
  | nil => rfl
  | cons e r ih =>
    obtain ⟨j, v⟩ := e
    by_cases hj : j = k
    · subst hj; simp [h, Tab.get]
    · by_cases hp : p j = true
      · simp [hp, Tab.get, hj, ih]
      · simp [hp, Tab.get, hj, ih]

theorem Tab.any_filter {α : Type} (p : Nat → Bool) (t : Tab α) (k : Nat) :
    (t.filter (fun e => p e.1)).any (fun e => decide (e.1 = k)) = (p k && t.any (fun e => decide (e.1 = k))) := by
  induction t with
  | nil => simp
  | cons e r ih =>
    obtain ⟨j, v⟩ := e
    by_cases hp : p j = true
    · by_cases hj : j = k
      · subst hj; simp [hp]
      · simp [hp, hj, ih]
    · by_cases hj : j = k
      · subst hj; simp [hp, ih]
      · simp [hp, hj, ih]

theorem Tab.get_none {α : Type} (d : α) (t : Tab α) (k : Nat) (h : t.any (fun e => decide (e.1 = k)) = false) : Tab.get d t k = d := by
  induction t with
  | nil => rfl
  | cons e r ih =>
    obtain ⟨j, v⟩ := e
    simp only [List.any_cons, Bool.or_eq_false_iff, decide_eq_false_iff_not] at h
    simp [Tab.get, h.1, ih h.2]

/-- A table cut at `lo` and `hi` around entries `m` whose keys lie in `[lo, hi)`. -/
theorem Tab.get_splice {α : Type} (d : α) (t m : Tab α) (lo hi k : Nat) (hm : ∀ e ∈ m, lo ≤ e.1 ∧ e.1 < hi) :
    Tab.get d (Tab.below lo t ++ m ++ Tab.from hi t) k =
      if k < lo then Tab.get d t k else if k < hi then Tab.get d m k else Tab.get d t k := by
  have hany : ∀ k, (k < lo ∨ hi ≤ k) → m.any (fun e => decide (e.1 = k)) = false := by
    intro k hk
    rw [List.any_eq_false]
    intro e he
    have := hm e he
    simp; omega
  rw [List.append_assoc, Tab.get_append, Tab.get_append]
  unfold Tab.below Tab.from
  rw [Tab.any_filter (fun k => decide (k < lo))]
  by_cases h1 : k < lo
  · by_cases ht : t.any (fun e => decide (e.1 = k)) = true
    · simp only [h1, ht, decide_true, Bool.and_self, if_true]
      exact Tab.get_keep d (fun k => decide (k < lo)) t k (by simp [h1])
    · simp only [Bool.not_eq_true] at ht
      simp only [h1, ht, decide_true, Bool.and_false, Bool.false_eq_true, if_false, if_true, hany k (.inl h1)]
      rw [Tab.get_none _ _ _ ht]
      apply Tab.get_none
      rw [Tab.any_filter (fun k => decide (hi ≤ k)), ht, Bool.and_false]
  · simp only [h1, decide_false, Bool.false_and, Bool.false_eq_true, if_false]
    by_cases h2 : k < hi
    · simp only [h2, if_true]
      by_cases ha : m.any (fun e => decide (e.1 = k)) = true
      · simp [ha]
      · simp only [Bool.not_eq_true] at ha
        simp only [ha, Bool.false_eq_true, if_false, Tab.get_none _ _ _ ha]
        exact Tab.get_drop d (fun k => decide (hi ≤ k)) t k (by simp; omega)
    · simp only [h2, if_false, hany k (.inr (by omega)), Bool.false_eq_true]
      exact Tab.get_keep d (fun k => decide (hi ≤ k)) t k (by simp; omega)

theorem Tab.get_set {α : Type} [DecidableEq α] (d : α) (t : Tab α) (k j : Nat) (v : α) :
    Tab.get d (Tab.set d t k v) j = if j = k then v else Tab.get d t j := by
  unfold Tab.set
  rw [Tab.get_splice d t _ k (k + 1) j (by intro e he; split at he <;> simp at he; subst he; simp)]
  by_cases h : j = k
  · subst h
    by_cases hv : v = d
    · simp [hv, Tab.get]
    · simp [hv, Tab.get]
  · by_cases h1 : j < k
    · simp [h, h1]
    · simp [h, h1, show ¬ j < k + 1 by omega]

@[simp] theorem Tab.get_set_self {α : Type} [DecidableEq α] (d : α) (t : Tab α) (k : Nat) (v : α) : Tab.get d (Tab.set d t k v) k = v := by
  simp [Tab.get_set]

theorem Tab.get_set_ne {α : Type} [DecidableEq α] (d : α) (t : Tab α) {k j : Nat} (v : α) (h : j ≠ k) :
    Tab.get d (Tab.set d t k v) j = Tab.get d t j := by
  simp [Tab.get_set, h]

theorem Tab.wf_iff {α : Type} [DecidableEq α] (d : α) (t : Tab α) :
    Tab.wf d t = true ↔ t.Pairwise (fun a b => a.1 < b.1) ∧ ∀ e ∈ t, e.2 ≠ d := by
  simp [Tab.wf]

theorem Tab.wf_splice {α : Type} [DecidableEq α] (d : α) (t m : Tab α) (lo hi : Nat) (hl : lo ≤ hi) (ht : Tab.wf d t = true)
    (hm : Tab.wf d m = true) (hr : ∀ e ∈ m, lo ≤ e.1 ∧ e.1 < hi) : Tab.wf d (Tab.below lo t ++ m ++ Tab.from hi t) = true := by
  rw [Tab.wf_iff] at *
  obtain ⟨p1, q1⟩ := ht
  obtain ⟨p2, q2⟩ := hm
  unfold Tab.below Tab.from
  refine ⟨?_, ?_⟩
  · rw [List.append_assoc, List.pairwise_append, List.pairwise_append]
    refine ⟨p1.filter _, ⟨p2, p1.filter _, ?_⟩, ?_⟩
    · intro a ha b hb
      have := hr a ha
      simp only [List.mem_filter, decide_eq_true_eq] at hb
      omega
    · intro a ha b hb
      simp only [List.mem_filter, decide_eq_true_eq] at ha
      rcases List.mem_append.1 hb with hb | hb
      · have := hr b hb; omega
      · simp only [List.mem_filter, decide_eq_true_eq] at hb; omega
  · intro e he
    simp only [List.mem_append, List.mem_filter] at he
    rcases he with (he | he) | he
    · exact q1 e he.1
    · exact q2 e he
    · exact q1 e he.1

theorem Tab.wf_set {α : Type} [DecidableEq α] (d : α) (t : Tab α) (k : Nat) (v : α) (h : Tab.wf d t = true) :
    Tab.wf d (Tab.set d t k v) = true := by
  unfold Tab.set
  apply Tab.wf_splice d t _ k (k + 1) (by omega) h
  · split <;> simp_all [Tab.wf]
  · intro e he; split at he <;> simp at he; subst he; simp

theorem Tab.wf_filter {α : Type} [DecidableEq α] (d : α) (t : Tab α) (p : Nat × α → Bool) (h : Tab.wf d t = true) :
    Tab.wf d (t.filter p) = true := by
  rw [Tab.wf_iff] at *
  exact ⟨h.1.filter _, fun e he => h.2 e (List.mem_filter.1 he).1⟩

theorem Mem.cells_keys (a : Nat) (bs : List Byte) : ∀ e ∈ Mem.cells a bs, a ≤ e.1 ∧ e.1 < a + bs.length := by
  induction bs generalizing a with
  | nil => simp [Mem.cells]
  | cons b r ih =>
    intro e he
    simp only [Mem.cells] at he
    split at he
    · have := ih (a + 1) e he; simp; omega
    · simp only [List.mem_cons] at he
      rcases he with rfl | he
      · simp
      · have := ih (a + 1) e he; simp; omega

theorem Mem.cells_wf (a : Nat) (bs : List Byte) : Mem.wf (Mem.cells a bs) = true := by
  unfold Mem.wf
  induction bs generalizing a with
  | nil => rfl
  | cons b r ih =>
    simp only [Mem.cells]
    split
    · exact ih (a + 1)
    · rename_i hb
      rw [Tab.wf_iff]
      have h := (Tab.wf_iff _ _).1 (ih (a + 1))
      refine ⟨List.pairwise_cons.2 ⟨?_, h.1⟩, ?_⟩
      · intro e he; have := Mem.cells_keys (a + 1) r e he; simp; omega
      · intro e he
        simp only [List.mem_cons] at he
        rcases he with rfl | he
        · exact hb
        · exact h.2 e he

/-- A write keeps the canonical form. -/
theorem Mem.wf_write (m : Tab Byte) (a : Nat) (bs : List Byte) (h : Mem.wf m = true) : Mem.wf (Mem.write m a bs) = true :=
  Tab.wf_splice Mem.dflt m _ a (a + bs.length) (by omega) h (Mem.cells_wf a bs) (Mem.cells_keys a bs)

theorem Mem.read_cells (a : Nat) (bs : List Byte) (x : Nat) :
    Tab.get Mem.dflt (Mem.cells a bs) x = if a ≤ x then bs.getD (x - a) Mem.dflt else Mem.dflt := by
  induction bs generalizing a with
  | nil => simp [Mem.cells, Tab.get]
  | cons b r ih =>
    simp only [Mem.cells]
    by_cases hx : x = a
    · subst hx
      split
      · rename_i hb
        rw [ih, if_neg (by omega)]
        simp [hb]
      · simp [Tab.get]
    · split
      · rw [ih]
        by_cases h1 : a ≤ x
        · have e : x - a = (x - (a + 1)) + 1 := by omega
          simp only [h1, show a + 1 ≤ x by omega, if_true]
          rw [e, List.getD_cons_succ]
        · simp [h1, show ¬ a + 1 ≤ x by omega]
      · simp only [Tab.get, show a ≠ x by omega, if_false]
        rw [ih]
        by_cases h1 : a ≤ x
        · have e : x - a = (x - (a + 1)) + 1 := by omega
          simp only [h1, show a + 1 ≤ x by omega, if_true]
          rw [e, List.getD_cons_succ]
        · simp [h1, show ¬ a + 1 ≤ x by omega]

/-- A byte after a write: the byte written where the write lies, else the byte before. -/
theorem Mem.read_write (m : Tab Byte) (a : Nat) (bs : List Byte) (x : Nat) :
    Mem.read (Mem.write m a bs) x = if a ≤ x ∧ x < a + bs.length then bs.getD (x - a) Mem.dflt else Mem.read m x := by
  unfold Mem.read Mem.write
  rw [Tab.get_splice Mem.dflt m _ a (a + bs.length) x (Mem.cells_keys a bs), Mem.read_cells]
  by_cases h1 : x < a
  · simp [h1, show ¬ a ≤ x by omega]
  · by_cases h2 : x < a + bs.length
    · simp [h1, h2, show a ≤ x by omega]
    · simp [h1, h2]

theorem Mem.read_write_out (m : Tab Byte) (a : Nat) (bs : List Byte) {x : Nat} (h : x < a ∨ a + bs.length ≤ x) :
    Mem.read (Mem.write m a bs) x = Mem.read m x := by
  rw [Mem.read_write, if_neg (by omega)]

@[simp] theorem leBytes_length (n v : Nat) : (leBytes n v).length = n := by
  induction n generalizing v with
  | zero => rfl
  | succ n ih => simp [leBytes, ih]

/-- The number that the low `n` bytes of `v` hold. -/
theorem leNat_leBytes (n v : Nat) : leNat (leBytes n v) = v % 256 ^ n := by
  induction n generalizing v with
  | zero => simp [leBytes, leNat, Nat.mod_one]
  | succ n ih =>
    simp only [leBytes, leNat, ih, BitVec.toNat_ofNat]
    have e : (256 : Nat) ^ (n + 1) = 256 * 256 ^ n := by rw [Nat.pow_succ, Nat.mul_comm]
    rw [e, Nat.mod_mul]

theorem leNat_lt (bs : List Byte) : leNat bs < 256 ^ bs.length := by
  induction bs with
  | nil => simp [leNat]
  | cons b r ih =>
    have := b.isLt
    simp only [leNat, List.length_cons, Nat.pow_succ]
    omega

end Sys2Proof.Machine
end

