-- ==== Sys2Proof/Laws/State.lean ====
section
/-! SUPPORT. What each update of the state and of a slot does to each field: one lemma for each, and what the accessors read after an
update. -/

namespace Sys2Proof.Machine

@[simp] theorem State.setSlot_mem (s : State) (f : Focus) (t : Slot) : (s.setSlot f t).mem = s.mem := rfl
@[simp] theorem State.setSlot_slots (s : State) (f : Focus) (t : Slot) : (s.setSlot f t).slots = Tab.set {} s.slots f.key t := rfl
@[simp] theorem State.setSlot_cores (s : State) (f : Focus) (t : Slot) : (s.setSlot f t).cores = s.cores := rfl
@[simp] theorem State.setSlot_ctxs (s : State) (f : Focus) (t : Slot) : (s.setSlot f t).ctxs = s.ctxs := rfl
@[simp] theorem State.setSlot_owners (s : State) (f : Focus) (t : Slot) : (s.setSlot f t).owners = s.owners := rfl
@[simp] theorem State.setSlot_frames (s : State) (f : Focus) (t : Slot) : (s.setSlot f t).frames = s.frames := rfl
@[simp] theorem State.setSlot_poison (s : State) (f : Focus) (t : Slot) : (s.setSlot f t).poison = s.poison := rfl
@[simp] theorem State.setSlot_versions (s : State) (f : Focus) (t : Slot) : (s.setSlot f t).versions = s.versions := rfl
@[simp] theorem State.setSlot_keys (s : State) (f : Focus) (t : Slot) : (s.setSlot f t).keys = s.keys := rfl
@[simp] theorem State.setSlot_endpoints (s : State) (f : Focus) (t : Slot) : (s.setSlot f t).endpoints = s.endpoints := rfl
@[simp] theorem State.setSlot_sessions (s : State) (f : Focus) (t : Slot) : (s.setSlot f t).sessions = s.sessions := rfl
@[simp] theorem State.setSlot_nextSess (s : State) (f : Focus) (t : Slot) : (s.setSlot f t).nextSess = s.nextSess := rfl
@[simp] theorem State.setSlot_requests (s : State) (f : Focus) (t : Slot) : (s.setSlot f t).requests = s.requests := rfl
@[simp] theorem State.setSlot_harts (s : State) (f : Focus) (t : Slot) : (s.setSlot f t).harts = s.harts := rfl
@[simp] theorem State.setSlot_sealedCtxs (s : State) (f : Focus) (t : Slot) : (s.setSlot f t).sealedCtxs = s.sealedCtxs := rfl
@[simp] theorem State.setSlot_fwVerified (s : State) (f : Focus) (t : Slot) : (s.setSlot f t).fwVerified = s.fwVerified := rfl
@[simp] theorem State.setSlot_fwDigest (s : State) (f : Focus) (t : Slot) : (s.setSlot f t).fwDigest = s.fwDigest := rfl
@[simp] theorem State.setSlot_firmware (s : State) (f : Focus) (t : Slot) : (s.setSlot f t).firmware = s.firmware := rfl
@[simp] theorem State.setSlot_reportCtr (s : State) (f : Focus) (t : Slot) : (s.setSlot f t).reportCtr = s.reportCtr := rfl
@[simp] theorem State.setSlot_counters (s : State) (f : Focus) (t : Slot) : (s.setSlot f t).counters = s.counters := rfl
@[simp] theorem State.setSlot_log (s : State) (f : Focus) (t : Slot) : (s.setSlot f t).log = s.log := rfl
@[simp] theorem State.setSlot_timeUs (s : State) (f : Focus) (t : Slot) : (s.setSlot f t).timeUs = s.timeUs := rfl
@[simp] theorem State.setSlot_cycle (s : State) (f : Focus) (t : Slot) : (s.setSlot f t).cycle = s.cycle := rfl
@[simp] theorem State.setSlot_duty (s : State) (f : Focus) (t : Slot) : (s.setSlot f t).duty = s.duty := rfl
@[simp] theorem State.setSlot_requested (s : State) (f : Focus) (t : Slot) : (s.setSlot f t).requested = s.requested := rfl
@[simp] theorem State.setSlot_alarm1 (s : State) (f : Focus) (t : Slot) : (s.setSlot f t).alarm1 = s.alarm1 := rfl
@[simp] theorem State.setSlot_keyless (s : State) (f : Focus) (t : Slot) : (s.setSlot f t).keyless = s.keyless := rfl
@[simp] theorem State.setSlot_coissueOff (s : State) (f : Focus) (t : Slot) : (s.setSlot f t).coissueOff = s.coissueOff := rfl
@[simp] theorem State.setSlot_standby (s : State) (f : Focus) (t : Slot) : (s.setSlot f t).standby = s.standby := rfl
@[simp] theorem State.setSlot_retired (s : State) (f : Focus) (t : Slot) : (s.setSlot f t).retired = s.retired := rfl
@[simp] theorem State.setSlot_sliceMap (s : State) (f : Focus) (t : Slot) : (s.setSlot f t).sliceMap = s.sliceMap := rfl
@[simp] theorem State.setSlot_lanesUsed (s : State) (f : Focus) (t : Slot) : (s.setSlot f t).lanesUsed = s.lanesUsed := rfl
@[simp] theorem State.setSlot_lanePend (s : State) (f : Focus) (t : Slot) : (s.setSlot f t).lanePend = s.lanePend := rfl
@[simp] theorem State.setSlot_lastPos (s : State) (f : Focus) (t : Slot) : (s.setSlot f t).lastPos = s.lastPos := rfl
@[simp] theorem State.setSlot_passCount (s : State) (f : Focus) (t : Slot) : (s.setSlot f t).passCount = s.passCount := rfl
@[simp] theorem State.setSlot_resident (s : State) (f : Focus) (t : Slot) : (s.setSlot f t).resident = s.resident := rfl
@[simp] theorem State.setSlot_residentAu (s : State) (f : Focus) (t : Slot) : (s.setSlot f t).residentAu = s.residentAu := rfl
@[simp] theorem State.setSlot_outbox (s : State) (f : Focus) (t : Slot) : (s.setSlot f t).outbox = s.outbox := rfl
@[simp] theorem State.setSlot_codeLog (s : State) (f : Focus) (t : Slot) : (s.setSlot f t).codeLog = s.codeLog := rfl
@[simp] theorem State.setSlot_agenda (s : State) (f : Focus) (t : Slot) : (s.setSlot f t).agenda = s.agenda := rfl
@[simp] theorem State.setSlot_focus (s : State) (f : Focus) (t : Slot) : (s.setSlot f t).focus = s.focus := rfl
@[simp] theorem State.setSlot_draws (s : State) (f : Focus) (t : Slot) : (s.setSlot f t).draws = s.draws := rfl

@[simp] theorem State.modSlot_mem (s : State) (f : Focus) (g : Slot → Slot) : (s.modSlot f g).mem = s.mem := rfl
@[simp] theorem State.modSlot_slots (s : State) (f : Focus) (g : Slot → Slot) : (s.modSlot f g).slots = Tab.set {} s.slots f.key (g (s.slotAt f)) := rfl
@[simp] theorem State.modSlot_cores (s : State) (f : Focus) (g : Slot → Slot) : (s.modSlot f g).cores = s.cores := rfl
@[simp] theorem State.modSlot_ctxs (s : State) (f : Focus) (g : Slot → Slot) : (s.modSlot f g).ctxs = s.ctxs := rfl
@[simp] theorem State.modSlot_owners (s : State) (f : Focus) (g : Slot → Slot) : (s.modSlot f g).owners = s.owners := rfl
@[simp] theorem State.modSlot_frames (s : State) (f : Focus) (g : Slot → Slot) : (s.modSlot f g).frames = s.frames := rfl
@[simp] theorem State.modSlot_poison (s : State) (f : Focus) (g : Slot → Slot) : (s.modSlot f g).poison = s.poison := rfl
@[simp] theorem State.modSlot_versions (s : State) (f : Focus) (g : Slot → Slot) : (s.modSlot f g).versions = s.versions := rfl
@[simp] theorem State.modSlot_keys (s : State) (f : Focus) (g : Slot → Slot) : (s.modSlot f g).keys = s.keys := rfl
@[simp] theorem State.modSlot_endpoints (s : State) (f : Focus) (g : Slot → Slot) : (s.modSlot f g).endpoints = s.endpoints := rfl
@[simp] theorem State.modSlot_sessions (s : State) (f : Focus) (g : Slot → Slot) : (s.modSlot f g).sessions = s.sessions := rfl
@[simp] theorem State.modSlot_nextSess (s : State) (f : Focus) (g : Slot → Slot) : (s.modSlot f g).nextSess = s.nextSess := rfl
@[simp] theorem State.modSlot_requests (s : State) (f : Focus) (g : Slot → Slot) : (s.modSlot f g).requests = s.requests := rfl
@[simp] theorem State.modSlot_harts (s : State) (f : Focus) (g : Slot → Slot) : (s.modSlot f g).harts = s.harts := rfl
@[simp] theorem State.modSlot_sealedCtxs (s : State) (f : Focus) (g : Slot → Slot) : (s.modSlot f g).sealedCtxs = s.sealedCtxs := rfl
@[simp] theorem State.modSlot_fwVerified (s : State) (f : Focus) (g : Slot → Slot) : (s.modSlot f g).fwVerified = s.fwVerified := rfl
@[simp] theorem State.modSlot_fwDigest (s : State) (f : Focus) (g : Slot → Slot) : (s.modSlot f g).fwDigest = s.fwDigest := rfl
@[simp] theorem State.modSlot_firmware (s : State) (f : Focus) (g : Slot → Slot) : (s.modSlot f g).firmware = s.firmware := rfl
@[simp] theorem State.modSlot_reportCtr (s : State) (f : Focus) (g : Slot → Slot) : (s.modSlot f g).reportCtr = s.reportCtr := rfl
@[simp] theorem State.modSlot_counters (s : State) (f : Focus) (g : Slot → Slot) : (s.modSlot f g).counters = s.counters := rfl
@[simp] theorem State.modSlot_log (s : State) (f : Focus) (g : Slot → Slot) : (s.modSlot f g).log = s.log := rfl
@[simp] theorem State.modSlot_timeUs (s : State) (f : Focus) (g : Slot → Slot) : (s.modSlot f g).timeUs = s.timeUs := rfl
@[simp] theorem State.modSlot_cycle (s : State) (f : Focus) (g : Slot → Slot) : (s.modSlot f g).cycle = s.cycle := rfl
@[simp] theorem State.modSlot_duty (s : State) (f : Focus) (g : Slot → Slot) : (s.modSlot f g).duty = s.duty := rfl
@[simp] theorem State.modSlot_requested (s : State) (f : Focus) (g : Slot → Slot) : (s.modSlot f g).requested = s.requested := rfl
@[simp] theorem State.modSlot_alarm1 (s : State) (f : Focus) (g : Slot → Slot) : (s.modSlot f g).alarm1 = s.alarm1 := rfl
@[simp] theorem State.modSlot_keyless (s : State) (f : Focus) (g : Slot → Slot) : (s.modSlot f g).keyless = s.keyless := rfl
@[simp] theorem State.modSlot_coissueOff (s : State) (f : Focus) (g : Slot → Slot) : (s.modSlot f g).coissueOff = s.coissueOff := rfl
@[simp] theorem State.modSlot_standby (s : State) (f : Focus) (g : Slot → Slot) : (s.modSlot f g).standby = s.standby := rfl
@[simp] theorem State.modSlot_retired (s : State) (f : Focus) (g : Slot → Slot) : (s.modSlot f g).retired = s.retired := rfl
@[simp] theorem State.modSlot_sliceMap (s : State) (f : Focus) (g : Slot → Slot) : (s.modSlot f g).sliceMap = s.sliceMap := rfl
@[simp] theorem State.modSlot_lanesUsed (s : State) (f : Focus) (g : Slot → Slot) : (s.modSlot f g).lanesUsed = s.lanesUsed := rfl
@[simp] theorem State.modSlot_lanePend (s : State) (f : Focus) (g : Slot → Slot) : (s.modSlot f g).lanePend = s.lanePend := rfl
@[simp] theorem State.modSlot_lastPos (s : State) (f : Focus) (g : Slot → Slot) : (s.modSlot f g).lastPos = s.lastPos := rfl
@[simp] theorem State.modSlot_passCount (s : State) (f : Focus) (g : Slot → Slot) : (s.modSlot f g).passCount = s.passCount := rfl
@[simp] theorem State.modSlot_resident (s : State) (f : Focus) (g : Slot → Slot) : (s.modSlot f g).resident = s.resident := rfl
@[simp] theorem State.modSlot_residentAu (s : State) (f : Focus) (g : Slot → Slot) : (s.modSlot f g).residentAu = s.residentAu := rfl
@[simp] theorem State.modSlot_outbox (s : State) (f : Focus) (g : Slot → Slot) : (s.modSlot f g).outbox = s.outbox := rfl
@[simp] theorem State.modSlot_codeLog (s : State) (f : Focus) (g : Slot → Slot) : (s.modSlot f g).codeLog = s.codeLog := rfl
@[simp] theorem State.modSlot_agenda (s : State) (f : Focus) (g : Slot → Slot) : (s.modSlot f g).agenda = s.agenda := rfl
@[simp] theorem State.modSlot_focus (s : State) (f : Focus) (g : Slot → Slot) : (s.modSlot f g).focus = s.focus := rfl
@[simp] theorem State.modSlot_draws (s : State) (f : Focus) (g : Slot → Slot) : (s.modSlot f g).draws = s.draws := rfl

@[simp] theorem State.mod_mem (s : State) (g : Slot → Slot) : (s.mod g).mem = s.mem := rfl
@[simp] theorem State.mod_slots (s : State) (g : Slot → Slot) : (s.mod g).slots = Tab.set {} s.slots s.focus.key (g s.slot) := rfl
@[simp] theorem State.mod_cores (s : State) (g : Slot → Slot) : (s.mod g).cores = s.cores := rfl
@[simp] theorem State.mod_ctxs (s : State) (g : Slot → Slot) : (s.mod g).ctxs = s.ctxs := rfl
@[simp] theorem State.mod_owners (s : State) (g : Slot → Slot) : (s.mod g).owners = s.owners := rfl
@[simp] theorem State.mod_frames (s : State) (g : Slot → Slot) : (s.mod g).frames = s.frames := rfl
@[simp] theorem State.mod_poison (s : State) (g : Slot → Slot) : (s.mod g).poison = s.poison := rfl
@[simp] theorem State.mod_versions (s : State) (g : Slot → Slot) : (s.mod g).versions = s.versions := rfl
@[simp] theorem State.mod_keys (s : State) (g : Slot → Slot) : (s.mod g).keys = s.keys := rfl
@[simp] theorem State.mod_endpoints (s : State) (g : Slot → Slot) : (s.mod g).endpoints = s.endpoints := rfl
@[simp] theorem State.mod_sessions (s : State) (g : Slot → Slot) : (s.mod g).sessions = s.sessions := rfl
@[simp] theorem State.mod_nextSess (s : State) (g : Slot → Slot) : (s.mod g).nextSess = s.nextSess := rfl
@[simp] theorem State.mod_requests (s : State) (g : Slot → Slot) : (s.mod g).requests = s.requests := rfl
@[simp] theorem State.mod_harts (s : State) (g : Slot → Slot) : (s.mod g).harts = s.harts := rfl
@[simp] theorem State.mod_sealedCtxs (s : State) (g : Slot → Slot) : (s.mod g).sealedCtxs = s.sealedCtxs := rfl
@[simp] theorem State.mod_fwVerified (s : State) (g : Slot → Slot) : (s.mod g).fwVerified = s.fwVerified := rfl
@[simp] theorem State.mod_fwDigest (s : State) (g : Slot → Slot) : (s.mod g).fwDigest = s.fwDigest := rfl
@[simp] theorem State.mod_firmware (s : State) (g : Slot → Slot) : (s.mod g).firmware = s.firmware := rfl
@[simp] theorem State.mod_reportCtr (s : State) (g : Slot → Slot) : (s.mod g).reportCtr = s.reportCtr := rfl
@[simp] theorem State.mod_counters (s : State) (g : Slot → Slot) : (s.mod g).counters = s.counters := rfl
@[simp] theorem State.mod_log (s : State) (g : Slot → Slot) : (s.mod g).log = s.log := rfl
@[simp] theorem State.mod_timeUs (s : State) (g : Slot → Slot) : (s.mod g).timeUs = s.timeUs := rfl
@[simp] theorem State.mod_cycle (s : State) (g : Slot → Slot) : (s.mod g).cycle = s.cycle := rfl
@[simp] theorem State.mod_duty (s : State) (g : Slot → Slot) : (s.mod g).duty = s.duty := rfl
@[simp] theorem State.mod_requested (s : State) (g : Slot → Slot) : (s.mod g).requested = s.requested := rfl
@[simp] theorem State.mod_alarm1 (s : State) (g : Slot → Slot) : (s.mod g).alarm1 = s.alarm1 := rfl
@[simp] theorem State.mod_keyless (s : State) (g : Slot → Slot) : (s.mod g).keyless = s.keyless := rfl
@[simp] theorem State.mod_coissueOff (s : State) (g : Slot → Slot) : (s.mod g).coissueOff = s.coissueOff := rfl
@[simp] theorem State.mod_standby (s : State) (g : Slot → Slot) : (s.mod g).standby = s.standby := rfl
@[simp] theorem State.mod_retired (s : State) (g : Slot → Slot) : (s.mod g).retired = s.retired := rfl
@[simp] theorem State.mod_sliceMap (s : State) (g : Slot → Slot) : (s.mod g).sliceMap = s.sliceMap := rfl
@[simp] theorem State.mod_lanesUsed (s : State) (g : Slot → Slot) : (s.mod g).lanesUsed = s.lanesUsed := rfl
@[simp] theorem State.mod_lanePend (s : State) (g : Slot → Slot) : (s.mod g).lanePend = s.lanePend := rfl
@[simp] theorem State.mod_lastPos (s : State) (g : Slot → Slot) : (s.mod g).lastPos = s.lastPos := rfl
@[simp] theorem State.mod_passCount (s : State) (g : Slot → Slot) : (s.mod g).passCount = s.passCount := rfl
@[simp] theorem State.mod_resident (s : State) (g : Slot → Slot) : (s.mod g).resident = s.resident := rfl
@[simp] theorem State.mod_residentAu (s : State) (g : Slot → Slot) : (s.mod g).residentAu = s.residentAu := rfl
@[simp] theorem State.mod_outbox (s : State) (g : Slot → Slot) : (s.mod g).outbox = s.outbox := rfl
@[simp] theorem State.mod_codeLog (s : State) (g : Slot → Slot) : (s.mod g).codeLog = s.codeLog := rfl
@[simp] theorem State.mod_agenda (s : State) (g : Slot → Slot) : (s.mod g).agenda = s.agenda := rfl
@[simp] theorem State.mod_focus (s : State) (g : Slot → Slot) : (s.mod g).focus = s.focus := rfl
@[simp] theorem State.mod_draws (s : State) (g : Slot → Slot) : (s.mod g).draws = s.draws := rfl

@[simp] theorem State.setCore_mem (s : State) (ctx lc : Nat) (c : LCore) : (s.setCore ctx lc c).mem = s.mem := rfl
@[simp] theorem State.setCore_slots (s : State) (ctx lc : Nat) (c : LCore) : (s.setCore ctx lc c).slots = s.slots := rfl
@[simp] theorem State.setCore_cores (s : State) (ctx lc : Nat) (c : LCore) : (s.setCore ctx lc c).cores = Tab.set {} s.cores (coreKey ctx lc) c := rfl
@[simp] theorem State.setCore_ctxs (s : State) (ctx lc : Nat) (c : LCore) : (s.setCore ctx lc c).ctxs = s.ctxs := rfl
@[simp] theorem State.setCore_owners (s : State) (ctx lc : Nat) (c : LCore) : (s.setCore ctx lc c).owners = s.owners := rfl
@[simp] theorem State.setCore_frames (s : State) (ctx lc : Nat) (c : LCore) : (s.setCore ctx lc c).frames = s.frames := rfl
@[simp] theorem State.setCore_poison (s : State) (ctx lc : Nat) (c : LCore) : (s.setCore ctx lc c).poison = s.poison := rfl
@[simp] theorem State.setCore_versions (s : State) (ctx lc : Nat) (c : LCore) : (s.setCore ctx lc c).versions = s.versions := rfl
@[simp] theorem State.setCore_keys (s : State) (ctx lc : Nat) (c : LCore) : (s.setCore ctx lc c).keys = s.keys := rfl
@[simp] theorem State.setCore_endpoints (s : State) (ctx lc : Nat) (c : LCore) : (s.setCore ctx lc c).endpoints = s.endpoints := rfl
@[simp] theorem State.setCore_sessions (s : State) (ctx lc : Nat) (c : LCore) : (s.setCore ctx lc c).sessions = s.sessions := rfl
@[simp] theorem State.setCore_nextSess (s : State) (ctx lc : Nat) (c : LCore) : (s.setCore ctx lc c).nextSess = s.nextSess := rfl
@[simp] theorem State.setCore_requests (s : State) (ctx lc : Nat) (c : LCore) : (s.setCore ctx lc c).requests = s.requests := rfl
@[simp] theorem State.setCore_harts (s : State) (ctx lc : Nat) (c : LCore) : (s.setCore ctx lc c).harts = s.harts := rfl
@[simp] theorem State.setCore_sealedCtxs (s : State) (ctx lc : Nat) (c : LCore) : (s.setCore ctx lc c).sealedCtxs = s.sealedCtxs := rfl
@[simp] theorem State.setCore_fwVerified (s : State) (ctx lc : Nat) (c : LCore) : (s.setCore ctx lc c).fwVerified = s.fwVerified := rfl
@[simp] theorem State.setCore_fwDigest (s : State) (ctx lc : Nat) (c : LCore) : (s.setCore ctx lc c).fwDigest = s.fwDigest := rfl
@[simp] theorem State.setCore_firmware (s : State) (ctx lc : Nat) (c : LCore) : (s.setCore ctx lc c).firmware = s.firmware := rfl
@[simp] theorem State.setCore_reportCtr (s : State) (ctx lc : Nat) (c : LCore) : (s.setCore ctx lc c).reportCtr = s.reportCtr := rfl
@[simp] theorem State.setCore_counters (s : State) (ctx lc : Nat) (c : LCore) : (s.setCore ctx lc c).counters = s.counters := rfl
@[simp] theorem State.setCore_log (s : State) (ctx lc : Nat) (c : LCore) : (s.setCore ctx lc c).log = s.log := rfl
@[simp] theorem State.setCore_timeUs (s : State) (ctx lc : Nat) (c : LCore) : (s.setCore ctx lc c).timeUs = s.timeUs := rfl
@[simp] theorem State.setCore_cycle (s : State) (ctx lc : Nat) (c : LCore) : (s.setCore ctx lc c).cycle = s.cycle := rfl
@[simp] theorem State.setCore_duty (s : State) (ctx lc : Nat) (c : LCore) : (s.setCore ctx lc c).duty = s.duty := rfl
@[simp] theorem State.setCore_requested (s : State) (ctx lc : Nat) (c : LCore) : (s.setCore ctx lc c).requested = s.requested := rfl
@[simp] theorem State.setCore_alarm1 (s : State) (ctx lc : Nat) (c : LCore) : (s.setCore ctx lc c).alarm1 = s.alarm1 := rfl
@[simp] theorem State.setCore_keyless (s : State) (ctx lc : Nat) (c : LCore) : (s.setCore ctx lc c).keyless = s.keyless := rfl
@[simp] theorem State.setCore_coissueOff (s : State) (ctx lc : Nat) (c : LCore) : (s.setCore ctx lc c).coissueOff = s.coissueOff := rfl
@[simp] theorem State.setCore_standby (s : State) (ctx lc : Nat) (c : LCore) : (s.setCore ctx lc c).standby = s.standby := rfl
@[simp] theorem State.setCore_retired (s : State) (ctx lc : Nat) (c : LCore) : (s.setCore ctx lc c).retired = s.retired := rfl
@[simp] theorem State.setCore_sliceMap (s : State) (ctx lc : Nat) (c : LCore) : (s.setCore ctx lc c).sliceMap = s.sliceMap := rfl
@[simp] theorem State.setCore_lanesUsed (s : State) (ctx lc : Nat) (c : LCore) : (s.setCore ctx lc c).lanesUsed = s.lanesUsed := rfl
@[simp] theorem State.setCore_lanePend (s : State) (ctx lc : Nat) (c : LCore) : (s.setCore ctx lc c).lanePend = s.lanePend := rfl
@[simp] theorem State.setCore_lastPos (s : State) (ctx lc : Nat) (c : LCore) : (s.setCore ctx lc c).lastPos = s.lastPos := rfl
@[simp] theorem State.setCore_passCount (s : State) (ctx lc : Nat) (c : LCore) : (s.setCore ctx lc c).passCount = s.passCount := rfl
@[simp] theorem State.setCore_resident (s : State) (ctx lc : Nat) (c : LCore) : (s.setCore ctx lc c).resident = s.resident := rfl
@[simp] theorem State.setCore_residentAu (s : State) (ctx lc : Nat) (c : LCore) : (s.setCore ctx lc c).residentAu = s.residentAu := rfl
@[simp] theorem State.setCore_outbox (s : State) (ctx lc : Nat) (c : LCore) : (s.setCore ctx lc c).outbox = s.outbox := rfl
@[simp] theorem State.setCore_codeLog (s : State) (ctx lc : Nat) (c : LCore) : (s.setCore ctx lc c).codeLog = s.codeLog := rfl
@[simp] theorem State.setCore_agenda (s : State) (ctx lc : Nat) (c : LCore) : (s.setCore ctx lc c).agenda = s.agenda := rfl
@[simp] theorem State.setCore_focus (s : State) (ctx lc : Nat) (c : LCore) : (s.setCore ctx lc c).focus = s.focus := rfl
@[simp] theorem State.setCore_draws (s : State) (ctx lc : Nat) (c : LCore) : (s.setCore ctx lc c).draws = s.draws := rfl

@[simp] theorem State.modCore_mem (s : State) (ctx lc : Nat) (g : LCore → LCore) : (s.modCore ctx lc g).mem = s.mem := rfl
@[simp] theorem State.modCore_slots (s : State) (ctx lc : Nat) (g : LCore → LCore) : (s.modCore ctx lc g).slots = s.slots := rfl
@[simp] theorem State.modCore_cores (s : State) (ctx lc : Nat) (g : LCore → LCore) : (s.modCore ctx lc g).cores = Tab.set {} s.cores (coreKey ctx lc) (g (s.core ctx lc)) := rfl
@[simp] theorem State.modCore_ctxs (s : State) (ctx lc : Nat) (g : LCore → LCore) : (s.modCore ctx lc g).ctxs = s.ctxs := rfl
@[simp] theorem State.modCore_owners (s : State) (ctx lc : Nat) (g : LCore → LCore) : (s.modCore ctx lc g).owners = s.owners := rfl
@[simp] theorem State.modCore_frames (s : State) (ctx lc : Nat) (g : LCore → LCore) : (s.modCore ctx lc g).frames = s.frames := rfl
@[simp] theorem State.modCore_poison (s : State) (ctx lc : Nat) (g : LCore → LCore) : (s.modCore ctx lc g).poison = s.poison := rfl
@[simp] theorem State.modCore_versions (s : State) (ctx lc : Nat) (g : LCore → LCore) : (s.modCore ctx lc g).versions = s.versions := rfl
@[simp] theorem State.modCore_keys (s : State) (ctx lc : Nat) (g : LCore → LCore) : (s.modCore ctx lc g).keys = s.keys := rfl
@[simp] theorem State.modCore_endpoints (s : State) (ctx lc : Nat) (g : LCore → LCore) : (s.modCore ctx lc g).endpoints = s.endpoints := rfl
@[simp] theorem State.modCore_sessions (s : State) (ctx lc : Nat) (g : LCore → LCore) : (s.modCore ctx lc g).sessions = s.sessions := rfl
@[simp] theorem State.modCore_nextSess (s : State) (ctx lc : Nat) (g : LCore → LCore) : (s.modCore ctx lc g).nextSess = s.nextSess := rfl
@[simp] theorem State.modCore_requests (s : State) (ctx lc : Nat) (g : LCore → LCore) : (s.modCore ctx lc g).requests = s.requests := rfl
@[simp] theorem State.modCore_harts (s : State) (ctx lc : Nat) (g : LCore → LCore) : (s.modCore ctx lc g).harts = s.harts := rfl
@[simp] theorem State.modCore_sealedCtxs (s : State) (ctx lc : Nat) (g : LCore → LCore) : (s.modCore ctx lc g).sealedCtxs = s.sealedCtxs := rfl
@[simp] theorem State.modCore_fwVerified (s : State) (ctx lc : Nat) (g : LCore → LCore) : (s.modCore ctx lc g).fwVerified = s.fwVerified := rfl
@[simp] theorem State.modCore_fwDigest (s : State) (ctx lc : Nat) (g : LCore → LCore) : (s.modCore ctx lc g).fwDigest = s.fwDigest := rfl
@[simp] theorem State.modCore_firmware (s : State) (ctx lc : Nat) (g : LCore → LCore) : (s.modCore ctx lc g).firmware = s.firmware := rfl
@[simp] theorem State.modCore_reportCtr (s : State) (ctx lc : Nat) (g : LCore → LCore) : (s.modCore ctx lc g).reportCtr = s.reportCtr := rfl
@[simp] theorem State.modCore_counters (s : State) (ctx lc : Nat) (g : LCore → LCore) : (s.modCore ctx lc g).counters = s.counters := rfl
@[simp] theorem State.modCore_log (s : State) (ctx lc : Nat) (g : LCore → LCore) : (s.modCore ctx lc g).log = s.log := rfl
@[simp] theorem State.modCore_timeUs (s : State) (ctx lc : Nat) (g : LCore → LCore) : (s.modCore ctx lc g).timeUs = s.timeUs := rfl
@[simp] theorem State.modCore_cycle (s : State) (ctx lc : Nat) (g : LCore → LCore) : (s.modCore ctx lc g).cycle = s.cycle := rfl
@[simp] theorem State.modCore_duty (s : State) (ctx lc : Nat) (g : LCore → LCore) : (s.modCore ctx lc g).duty = s.duty := rfl
@[simp] theorem State.modCore_requested (s : State) (ctx lc : Nat) (g : LCore → LCore) : (s.modCore ctx lc g).requested = s.requested := rfl
@[simp] theorem State.modCore_alarm1 (s : State) (ctx lc : Nat) (g : LCore → LCore) : (s.modCore ctx lc g).alarm1 = s.alarm1 := rfl
@[simp] theorem State.modCore_keyless (s : State) (ctx lc : Nat) (g : LCore → LCore) : (s.modCore ctx lc g).keyless = s.keyless := rfl
@[simp] theorem State.modCore_coissueOff (s : State) (ctx lc : Nat) (g : LCore → LCore) : (s.modCore ctx lc g).coissueOff = s.coissueOff := rfl
@[simp] theorem State.modCore_standby (s : State) (ctx lc : Nat) (g : LCore → LCore) : (s.modCore ctx lc g).standby = s.standby := rfl
@[simp] theorem State.modCore_retired (s : State) (ctx lc : Nat) (g : LCore → LCore) : (s.modCore ctx lc g).retired = s.retired := rfl
@[simp] theorem State.modCore_sliceMap (s : State) (ctx lc : Nat) (g : LCore → LCore) : (s.modCore ctx lc g).sliceMap = s.sliceMap := rfl
@[simp] theorem State.modCore_lanesUsed (s : State) (ctx lc : Nat) (g : LCore → LCore) : (s.modCore ctx lc g).lanesUsed = s.lanesUsed := rfl
@[simp] theorem State.modCore_lanePend (s : State) (ctx lc : Nat) (g : LCore → LCore) : (s.modCore ctx lc g).lanePend = s.lanePend := rfl
@[simp] theorem State.modCore_lastPos (s : State) (ctx lc : Nat) (g : LCore → LCore) : (s.modCore ctx lc g).lastPos = s.lastPos := rfl
@[simp] theorem State.modCore_passCount (s : State) (ctx lc : Nat) (g : LCore → LCore) : (s.modCore ctx lc g).passCount = s.passCount := rfl
@[simp] theorem State.modCore_resident (s : State) (ctx lc : Nat) (g : LCore → LCore) : (s.modCore ctx lc g).resident = s.resident := rfl
@[simp] theorem State.modCore_residentAu (s : State) (ctx lc : Nat) (g : LCore → LCore) : (s.modCore ctx lc g).residentAu = s.residentAu := rfl
@[simp] theorem State.modCore_outbox (s : State) (ctx lc : Nat) (g : LCore → LCore) : (s.modCore ctx lc g).outbox = s.outbox := rfl
@[simp] theorem State.modCore_codeLog (s : State) (ctx lc : Nat) (g : LCore → LCore) : (s.modCore ctx lc g).codeLog = s.codeLog := rfl
@[simp] theorem State.modCore_agenda (s : State) (ctx lc : Nat) (g : LCore → LCore) : (s.modCore ctx lc g).agenda = s.agenda := rfl
@[simp] theorem State.modCore_focus (s : State) (ctx lc : Nat) (g : LCore → LCore) : (s.modCore ctx lc g).focus = s.focus := rfl
@[simp] theorem State.modCore_draws (s : State) (ctx lc : Nat) (g : LCore → LCore) : (s.modCore ctx lc g).draws = s.draws := rfl

@[simp] theorem State.modMe_mem (s : State) (g : LCore → LCore) : (s.modMe g).mem = s.mem := rfl
@[simp] theorem State.modMe_slots (s : State) (g : LCore → LCore) : (s.modMe g).slots = s.slots := rfl
@[simp] theorem State.modMe_cores (s : State) (g : LCore → LCore) : (s.modMe g).cores = Tab.set {} s.cores (coreKey s.focus.ctx s.focus.lc) (g s.me) := rfl
@[simp] theorem State.modMe_ctxs (s : State) (g : LCore → LCore) : (s.modMe g).ctxs = s.ctxs := rfl
@[simp] theorem State.modMe_owners (s : State) (g : LCore → LCore) : (s.modMe g).owners = s.owners := rfl
@[simp] theorem State.modMe_frames (s : State) (g : LCore → LCore) : (s.modMe g).frames = s.frames := rfl
@[simp] theorem State.modMe_poison (s : State) (g : LCore → LCore) : (s.modMe g).poison = s.poison := rfl
@[simp] theorem State.modMe_versions (s : State) (g : LCore → LCore) : (s.modMe g).versions = s.versions := rfl
@[simp] theorem State.modMe_keys (s : State) (g : LCore → LCore) : (s.modMe g).keys = s.keys := rfl
@[simp] theorem State.modMe_endpoints (s : State) (g : LCore → LCore) : (s.modMe g).endpoints = s.endpoints := rfl
@[simp] theorem State.modMe_sessions (s : State) (g : LCore → LCore) : (s.modMe g).sessions = s.sessions := rfl
@[simp] theorem State.modMe_nextSess (s : State) (g : LCore → LCore) : (s.modMe g).nextSess = s.nextSess := rfl
@[simp] theorem State.modMe_requests (s : State) (g : LCore → LCore) : (s.modMe g).requests = s.requests := rfl
@[simp] theorem State.modMe_harts (s : State) (g : LCore → LCore) : (s.modMe g).harts = s.harts := rfl
@[simp] theorem State.modMe_sealedCtxs (s : State) (g : LCore → LCore) : (s.modMe g).sealedCtxs = s.sealedCtxs := rfl
@[simp] theorem State.modMe_fwVerified (s : State) (g : LCore → LCore) : (s.modMe g).fwVerified = s.fwVerified := rfl
@[simp] theorem State.modMe_fwDigest (s : State) (g : LCore → LCore) : (s.modMe g).fwDigest = s.fwDigest := rfl
@[simp] theorem State.modMe_firmware (s : State) (g : LCore → LCore) : (s.modMe g).firmware = s.firmware := rfl
@[simp] theorem State.modMe_reportCtr (s : State) (g : LCore → LCore) : (s.modMe g).reportCtr = s.reportCtr := rfl
@[simp] theorem State.modMe_counters (s : State) (g : LCore → LCore) : (s.modMe g).counters = s.counters := rfl
@[simp] theorem State.modMe_log (s : State) (g : LCore → LCore) : (s.modMe g).log = s.log := rfl
@[simp] theorem State.modMe_timeUs (s : State) (g : LCore → LCore) : (s.modMe g).timeUs = s.timeUs := rfl
@[simp] theorem State.modMe_cycle (s : State) (g : LCore → LCore) : (s.modMe g).cycle = s.cycle := rfl
@[simp] theorem State.modMe_duty (s : State) (g : LCore → LCore) : (s.modMe g).duty = s.duty := rfl
@[simp] theorem State.modMe_requested (s : State) (g : LCore → LCore) : (s.modMe g).requested = s.requested := rfl
@[simp] theorem State.modMe_alarm1 (s : State) (g : LCore → LCore) : (s.modMe g).alarm1 = s.alarm1 := rfl
@[simp] theorem State.modMe_keyless (s : State) (g : LCore → LCore) : (s.modMe g).keyless = s.keyless := rfl
@[simp] theorem State.modMe_coissueOff (s : State) (g : LCore → LCore) : (s.modMe g).coissueOff = s.coissueOff := rfl
@[simp] theorem State.modMe_standby (s : State) (g : LCore → LCore) : (s.modMe g).standby = s.standby := rfl
@[simp] theorem State.modMe_retired (s : State) (g : LCore → LCore) : (s.modMe g).retired = s.retired := rfl
@[simp] theorem State.modMe_sliceMap (s : State) (g : LCore → LCore) : (s.modMe g).sliceMap = s.sliceMap := rfl
@[simp] theorem State.modMe_lanesUsed (s : State) (g : LCore → LCore) : (s.modMe g).lanesUsed = s.lanesUsed := rfl
@[simp] theorem State.modMe_lanePend (s : State) (g : LCore → LCore) : (s.modMe g).lanePend = s.lanePend := rfl
@[simp] theorem State.modMe_lastPos (s : State) (g : LCore → LCore) : (s.modMe g).lastPos = s.lastPos := rfl
@[simp] theorem State.modMe_passCount (s : State) (g : LCore → LCore) : (s.modMe g).passCount = s.passCount := rfl
@[simp] theorem State.modMe_resident (s : State) (g : LCore → LCore) : (s.modMe g).resident = s.resident := rfl
@[simp] theorem State.modMe_residentAu (s : State) (g : LCore → LCore) : (s.modMe g).residentAu = s.residentAu := rfl
@[simp] theorem State.modMe_outbox (s : State) (g : LCore → LCore) : (s.modMe g).outbox = s.outbox := rfl
@[simp] theorem State.modMe_codeLog (s : State) (g : LCore → LCore) : (s.modMe g).codeLog = s.codeLog := rfl
@[simp] theorem State.modMe_agenda (s : State) (g : LCore → LCore) : (s.modMe g).agenda = s.agenda := rfl
@[simp] theorem State.modMe_focus (s : State) (g : LCore → LCore) : (s.modMe g).focus = s.focus := rfl
@[simp] theorem State.modMe_draws (s : State) (g : LCore → LCore) : (s.modMe g).draws = s.draws := rfl

@[simp] theorem State.setCtx_mem (s : State) (c : Nat) (x : Ctx) : (s.setCtx c x).mem = s.mem := rfl
@[simp] theorem State.setCtx_slots (s : State) (c : Nat) (x : Ctx) : (s.setCtx c x).slots = s.slots := rfl
@[simp] theorem State.setCtx_cores (s : State) (c : Nat) (x : Ctx) : (s.setCtx c x).cores = s.cores := rfl
@[simp] theorem State.setCtx_ctxs (s : State) (c : Nat) (x : Ctx) : (s.setCtx c x).ctxs = Tab.set {} s.ctxs c x := rfl
@[simp] theorem State.setCtx_owners (s : State) (c : Nat) (x : Ctx) : (s.setCtx c x).owners = s.owners := rfl
@[simp] theorem State.setCtx_frames (s : State) (c : Nat) (x : Ctx) : (s.setCtx c x).frames = s.frames := rfl
@[simp] theorem State.setCtx_poison (s : State) (c : Nat) (x : Ctx) : (s.setCtx c x).poison = s.poison := rfl
@[simp] theorem State.setCtx_versions (s : State) (c : Nat) (x : Ctx) : (s.setCtx c x).versions = s.versions := rfl
@[simp] theorem State.setCtx_keys (s : State) (c : Nat) (x : Ctx) : (s.setCtx c x).keys = s.keys := rfl
@[simp] theorem State.setCtx_endpoints (s : State) (c : Nat) (x : Ctx) : (s.setCtx c x).endpoints = s.endpoints := rfl
@[simp] theorem State.setCtx_sessions (s : State) (c : Nat) (x : Ctx) : (s.setCtx c x).sessions = s.sessions := rfl
@[simp] theorem State.setCtx_nextSess (s : State) (c : Nat) (x : Ctx) : (s.setCtx c x).nextSess = s.nextSess := rfl
@[simp] theorem State.setCtx_requests (s : State) (c : Nat) (x : Ctx) : (s.setCtx c x).requests = s.requests := rfl
@[simp] theorem State.setCtx_harts (s : State) (c : Nat) (x : Ctx) : (s.setCtx c x).harts = s.harts := rfl
@[simp] theorem State.setCtx_sealedCtxs (s : State) (c : Nat) (x : Ctx) : (s.setCtx c x).sealedCtxs = s.sealedCtxs := rfl
@[simp] theorem State.setCtx_fwVerified (s : State) (c : Nat) (x : Ctx) : (s.setCtx c x).fwVerified = s.fwVerified := rfl
@[simp] theorem State.setCtx_fwDigest (s : State) (c : Nat) (x : Ctx) : (s.setCtx c x).fwDigest = s.fwDigest := rfl
@[simp] theorem State.setCtx_firmware (s : State) (c : Nat) (x : Ctx) : (s.setCtx c x).firmware = s.firmware := rfl
@[simp] theorem State.setCtx_reportCtr (s : State) (c : Nat) (x : Ctx) : (s.setCtx c x).reportCtr = s.reportCtr := rfl
@[simp] theorem State.setCtx_counters (s : State) (c : Nat) (x : Ctx) : (s.setCtx c x).counters = s.counters := rfl
@[simp] theorem State.setCtx_log (s : State) (c : Nat) (x : Ctx) : (s.setCtx c x).log = s.log := rfl
@[simp] theorem State.setCtx_timeUs (s : State) (c : Nat) (x : Ctx) : (s.setCtx c x).timeUs = s.timeUs := rfl
@[simp] theorem State.setCtx_cycle (s : State) (c : Nat) (x : Ctx) : (s.setCtx c x).cycle = s.cycle := rfl
@[simp] theorem State.setCtx_duty (s : State) (c : Nat) (x : Ctx) : (s.setCtx c x).duty = s.duty := rfl
@[simp] theorem State.setCtx_requested (s : State) (c : Nat) (x : Ctx) : (s.setCtx c x).requested = s.requested := rfl
@[simp] theorem State.setCtx_alarm1 (s : State) (c : Nat) (x : Ctx) : (s.setCtx c x).alarm1 = s.alarm1 := rfl
@[simp] theorem State.setCtx_keyless (s : State) (c : Nat) (x : Ctx) : (s.setCtx c x).keyless = s.keyless := rfl
@[simp] theorem State.setCtx_coissueOff (s : State) (c : Nat) (x : Ctx) : (s.setCtx c x).coissueOff = s.coissueOff := rfl
@[simp] theorem State.setCtx_standby (s : State) (c : Nat) (x : Ctx) : (s.setCtx c x).standby = s.standby := rfl
@[simp] theorem State.setCtx_retired (s : State) (c : Nat) (x : Ctx) : (s.setCtx c x).retired = s.retired := rfl
@[simp] theorem State.setCtx_sliceMap (s : State) (c : Nat) (x : Ctx) : (s.setCtx c x).sliceMap = s.sliceMap := rfl
@[simp] theorem State.setCtx_lanesUsed (s : State) (c : Nat) (x : Ctx) : (s.setCtx c x).lanesUsed = s.lanesUsed := rfl
@[simp] theorem State.setCtx_lanePend (s : State) (c : Nat) (x : Ctx) : (s.setCtx c x).lanePend = s.lanePend := rfl
@[simp] theorem State.setCtx_lastPos (s : State) (c : Nat) (x : Ctx) : (s.setCtx c x).lastPos = s.lastPos := rfl
@[simp] theorem State.setCtx_passCount (s : State) (c : Nat) (x : Ctx) : (s.setCtx c x).passCount = s.passCount := rfl
@[simp] theorem State.setCtx_resident (s : State) (c : Nat) (x : Ctx) : (s.setCtx c x).resident = s.resident := rfl
@[simp] theorem State.setCtx_residentAu (s : State) (c : Nat) (x : Ctx) : (s.setCtx c x).residentAu = s.residentAu := rfl
@[simp] theorem State.setCtx_outbox (s : State) (c : Nat) (x : Ctx) : (s.setCtx c x).outbox = s.outbox := rfl
@[simp] theorem State.setCtx_codeLog (s : State) (c : Nat) (x : Ctx) : (s.setCtx c x).codeLog = s.codeLog := rfl
@[simp] theorem State.setCtx_agenda (s : State) (c : Nat) (x : Ctx) : (s.setCtx c x).agenda = s.agenda := rfl
@[simp] theorem State.setCtx_focus (s : State) (c : Nat) (x : Ctx) : (s.setCtx c x).focus = s.focus := rfl
@[simp] theorem State.setCtx_draws (s : State) (c : Nat) (x : Ctx) : (s.setCtx c x).draws = s.draws := rfl

@[simp] theorem State.modCtx_mem (s : State) (c : Nat) (g : Ctx → Ctx) : (s.modCtx c g).mem = s.mem := rfl
@[simp] theorem State.modCtx_slots (s : State) (c : Nat) (g : Ctx → Ctx) : (s.modCtx c g).slots = s.slots := rfl
@[simp] theorem State.modCtx_cores (s : State) (c : Nat) (g : Ctx → Ctx) : (s.modCtx c g).cores = s.cores := rfl
@[simp] theorem State.modCtx_ctxs (s : State) (c : Nat) (g : Ctx → Ctx) : (s.modCtx c g).ctxs = Tab.set {} s.ctxs c (g (s.ctxOf c)) := rfl
@[simp] theorem State.modCtx_owners (s : State) (c : Nat) (g : Ctx → Ctx) : (s.modCtx c g).owners = s.owners := rfl
@[simp] theorem State.modCtx_frames (s : State) (c : Nat) (g : Ctx → Ctx) : (s.modCtx c g).frames = s.frames := rfl
@[simp] theorem State.modCtx_poison (s : State) (c : Nat) (g : Ctx → Ctx) : (s.modCtx c g).poison = s.poison := rfl
@[simp] theorem State.modCtx_versions (s : State) (c : Nat) (g : Ctx → Ctx) : (s.modCtx c g).versions = s.versions := rfl
@[simp] theorem State.modCtx_keys (s : State) (c : Nat) (g : Ctx → Ctx) : (s.modCtx c g).keys = s.keys := rfl
@[simp] theorem State.modCtx_endpoints (s : State) (c : Nat) (g : Ctx → Ctx) : (s.modCtx c g).endpoints = s.endpoints := rfl
@[simp] theorem State.modCtx_sessions (s : State) (c : Nat) (g : Ctx → Ctx) : (s.modCtx c g).sessions = s.sessions := rfl
@[simp] theorem State.modCtx_nextSess (s : State) (c : Nat) (g : Ctx → Ctx) : (s.modCtx c g).nextSess = s.nextSess := rfl
@[simp] theorem State.modCtx_requests (s : State) (c : Nat) (g : Ctx → Ctx) : (s.modCtx c g).requests = s.requests := rfl
@[simp] theorem State.modCtx_harts (s : State) (c : Nat) (g : Ctx → Ctx) : (s.modCtx c g).harts = s.harts := rfl
@[simp] theorem State.modCtx_sealedCtxs (s : State) (c : Nat) (g : Ctx → Ctx) : (s.modCtx c g).sealedCtxs = s.sealedCtxs := rfl
@[simp] theorem State.modCtx_fwVerified (s : State) (c : Nat) (g : Ctx → Ctx) : (s.modCtx c g).fwVerified = s.fwVerified := rfl
@[simp] theorem State.modCtx_fwDigest (s : State) (c : Nat) (g : Ctx → Ctx) : (s.modCtx c g).fwDigest = s.fwDigest := rfl
@[simp] theorem State.modCtx_firmware (s : State) (c : Nat) (g : Ctx → Ctx) : (s.modCtx c g).firmware = s.firmware := rfl
@[simp] theorem State.modCtx_reportCtr (s : State) (c : Nat) (g : Ctx → Ctx) : (s.modCtx c g).reportCtr = s.reportCtr := rfl
@[simp] theorem State.modCtx_counters (s : State) (c : Nat) (g : Ctx → Ctx) : (s.modCtx c g).counters = s.counters := rfl
@[simp] theorem State.modCtx_log (s : State) (c : Nat) (g : Ctx → Ctx) : (s.modCtx c g).log = s.log := rfl
@[simp] theorem State.modCtx_timeUs (s : State) (c : Nat) (g : Ctx → Ctx) : (s.modCtx c g).timeUs = s.timeUs := rfl
@[simp] theorem State.modCtx_cycle (s : State) (c : Nat) (g : Ctx → Ctx) : (s.modCtx c g).cycle = s.cycle := rfl
@[simp] theorem State.modCtx_duty (s : State) (c : Nat) (g : Ctx → Ctx) : (s.modCtx c g).duty = s.duty := rfl
@[simp] theorem State.modCtx_requested (s : State) (c : Nat) (g : Ctx → Ctx) : (s.modCtx c g).requested = s.requested := rfl
@[simp] theorem State.modCtx_alarm1 (s : State) (c : Nat) (g : Ctx → Ctx) : (s.modCtx c g).alarm1 = s.alarm1 := rfl
@[simp] theorem State.modCtx_keyless (s : State) (c : Nat) (g : Ctx → Ctx) : (s.modCtx c g).keyless = s.keyless := rfl
@[simp] theorem State.modCtx_coissueOff (s : State) (c : Nat) (g : Ctx → Ctx) : (s.modCtx c g).coissueOff = s.coissueOff := rfl
@[simp] theorem State.modCtx_standby (s : State) (c : Nat) (g : Ctx → Ctx) : (s.modCtx c g).standby = s.standby := rfl
@[simp] theorem State.modCtx_retired (s : State) (c : Nat) (g : Ctx → Ctx) : (s.modCtx c g).retired = s.retired := rfl
@[simp] theorem State.modCtx_sliceMap (s : State) (c : Nat) (g : Ctx → Ctx) : (s.modCtx c g).sliceMap = s.sliceMap := rfl
@[simp] theorem State.modCtx_lanesUsed (s : State) (c : Nat) (g : Ctx → Ctx) : (s.modCtx c g).lanesUsed = s.lanesUsed := rfl
@[simp] theorem State.modCtx_lanePend (s : State) (c : Nat) (g : Ctx → Ctx) : (s.modCtx c g).lanePend = s.lanePend := rfl
@[simp] theorem State.modCtx_lastPos (s : State) (c : Nat) (g : Ctx → Ctx) : (s.modCtx c g).lastPos = s.lastPos := rfl
@[simp] theorem State.modCtx_passCount (s : State) (c : Nat) (g : Ctx → Ctx) : (s.modCtx c g).passCount = s.passCount := rfl
@[simp] theorem State.modCtx_resident (s : State) (c : Nat) (g : Ctx → Ctx) : (s.modCtx c g).resident = s.resident := rfl
@[simp] theorem State.modCtx_residentAu (s : State) (c : Nat) (g : Ctx → Ctx) : (s.modCtx c g).residentAu = s.residentAu := rfl
@[simp] theorem State.modCtx_outbox (s : State) (c : Nat) (g : Ctx → Ctx) : (s.modCtx c g).outbox = s.outbox := rfl
@[simp] theorem State.modCtx_codeLog (s : State) (c : Nat) (g : Ctx → Ctx) : (s.modCtx c g).codeLog = s.codeLog := rfl
@[simp] theorem State.modCtx_agenda (s : State) (c : Nat) (g : Ctx → Ctx) : (s.modCtx c g).agenda = s.agenda := rfl
@[simp] theorem State.modCtx_focus (s : State) (c : Nat) (g : Ctx → Ctx) : (s.modCtx c g).focus = s.focus := rfl
@[simp] theorem State.modCtx_draws (s : State) (c : Nat) (g : Ctx → Ctx) : (s.modCtx c g).draws = s.draws := rfl

@[simp] theorem State.modHere_mem (s : State) (g : Ctx → Ctx) : (s.modHere g).mem = s.mem := rfl
@[simp] theorem State.modHere_slots (s : State) (g : Ctx → Ctx) : (s.modHere g).slots = s.slots := rfl
@[simp] theorem State.modHere_cores (s : State) (g : Ctx → Ctx) : (s.modHere g).cores = s.cores := rfl
@[simp] theorem State.modHere_ctxs (s : State) (g : Ctx → Ctx) : (s.modHere g).ctxs = Tab.set {} s.ctxs s.focus.ctx (g s.here) := rfl
@[simp] theorem State.modHere_owners (s : State) (g : Ctx → Ctx) : (s.modHere g).owners = s.owners := rfl
@[simp] theorem State.modHere_frames (s : State) (g : Ctx → Ctx) : (s.modHere g).frames = s.frames := rfl
@[simp] theorem State.modHere_poison (s : State) (g : Ctx → Ctx) : (s.modHere g).poison = s.poison := rfl
@[simp] theorem State.modHere_versions (s : State) (g : Ctx → Ctx) : (s.modHere g).versions = s.versions := rfl
@[simp] theorem State.modHere_keys (s : State) (g : Ctx → Ctx) : (s.modHere g).keys = s.keys := rfl
@[simp] theorem State.modHere_endpoints (s : State) (g : Ctx → Ctx) : (s.modHere g).endpoints = s.endpoints := rfl
@[simp] theorem State.modHere_sessions (s : State) (g : Ctx → Ctx) : (s.modHere g).sessions = s.sessions := rfl
@[simp] theorem State.modHere_nextSess (s : State) (g : Ctx → Ctx) : (s.modHere g).nextSess = s.nextSess := rfl
@[simp] theorem State.modHere_requests (s : State) (g : Ctx → Ctx) : (s.modHere g).requests = s.requests := rfl
@[simp] theorem State.modHere_harts (s : State) (g : Ctx → Ctx) : (s.modHere g).harts = s.harts := rfl
@[simp] theorem State.modHere_sealedCtxs (s : State) (g : Ctx → Ctx) : (s.modHere g).sealedCtxs = s.sealedCtxs := rfl
@[simp] theorem State.modHere_fwVerified (s : State) (g : Ctx → Ctx) : (s.modHere g).fwVerified = s.fwVerified := rfl
@[simp] theorem State.modHere_fwDigest (s : State) (g : Ctx → Ctx) : (s.modHere g).fwDigest = s.fwDigest := rfl
@[simp] theorem State.modHere_firmware (s : State) (g : Ctx → Ctx) : (s.modHere g).firmware = s.firmware := rfl
@[simp] theorem State.modHere_reportCtr (s : State) (g : Ctx → Ctx) : (s.modHere g).reportCtr = s.reportCtr := rfl
@[simp] theorem State.modHere_counters (s : State) (g : Ctx → Ctx) : (s.modHere g).counters = s.counters := rfl
@[simp] theorem State.modHere_log (s : State) (g : Ctx → Ctx) : (s.modHere g).log = s.log := rfl
@[simp] theorem State.modHere_timeUs (s : State) (g : Ctx → Ctx) : (s.modHere g).timeUs = s.timeUs := rfl
@[simp] theorem State.modHere_cycle (s : State) (g : Ctx → Ctx) : (s.modHere g).cycle = s.cycle := rfl
@[simp] theorem State.modHere_duty (s : State) (g : Ctx → Ctx) : (s.modHere g).duty = s.duty := rfl
@[simp] theorem State.modHere_requested (s : State) (g : Ctx → Ctx) : (s.modHere g).requested = s.requested := rfl
@[simp] theorem State.modHere_alarm1 (s : State) (g : Ctx → Ctx) : (s.modHere g).alarm1 = s.alarm1 := rfl
@[simp] theorem State.modHere_keyless (s : State) (g : Ctx → Ctx) : (s.modHere g).keyless = s.keyless := rfl
@[simp] theorem State.modHere_coissueOff (s : State) (g : Ctx → Ctx) : (s.modHere g).coissueOff = s.coissueOff := rfl
@[simp] theorem State.modHere_standby (s : State) (g : Ctx → Ctx) : (s.modHere g).standby = s.standby := rfl
@[simp] theorem State.modHere_retired (s : State) (g : Ctx → Ctx) : (s.modHere g).retired = s.retired := rfl
@[simp] theorem State.modHere_sliceMap (s : State) (g : Ctx → Ctx) : (s.modHere g).sliceMap = s.sliceMap := rfl
@[simp] theorem State.modHere_lanesUsed (s : State) (g : Ctx → Ctx) : (s.modHere g).lanesUsed = s.lanesUsed := rfl
@[simp] theorem State.modHere_lanePend (s : State) (g : Ctx → Ctx) : (s.modHere g).lanePend = s.lanePend := rfl
@[simp] theorem State.modHere_lastPos (s : State) (g : Ctx → Ctx) : (s.modHere g).lastPos = s.lastPos := rfl
@[simp] theorem State.modHere_passCount (s : State) (g : Ctx → Ctx) : (s.modHere g).passCount = s.passCount := rfl
@[simp] theorem State.modHere_resident (s : State) (g : Ctx → Ctx) : (s.modHere g).resident = s.resident := rfl
@[simp] theorem State.modHere_residentAu (s : State) (g : Ctx → Ctx) : (s.modHere g).residentAu = s.residentAu := rfl
@[simp] theorem State.modHere_outbox (s : State) (g : Ctx → Ctx) : (s.modHere g).outbox = s.outbox := rfl
@[simp] theorem State.modHere_codeLog (s : State) (g : Ctx → Ctx) : (s.modHere g).codeLog = s.codeLog := rfl
@[simp] theorem State.modHere_agenda (s : State) (g : Ctx → Ctx) : (s.modHere g).agenda = s.agenda := rfl
@[simp] theorem State.modHere_focus (s : State) (g : Ctx → Ctx) : (s.modHere g).focus = s.focus := rfl
@[simp] theorem State.modHere_draws (s : State) (g : Ctx → Ctx) : (s.modHere g).draws = s.draws := rfl

@[simp] theorem State.draw_mem (s : State) : (s.draw).mem = s.mem := rfl
@[simp] theorem State.draw_slots (s : State) : (s.draw).slots = s.slots := rfl
@[simp] theorem State.draw_cores (s : State) : (s.draw).cores = s.cores := rfl
@[simp] theorem State.draw_ctxs (s : State) : (s.draw).ctxs = s.ctxs := rfl
@[simp] theorem State.draw_owners (s : State) : (s.draw).owners = s.owners := rfl
@[simp] theorem State.draw_frames (s : State) : (s.draw).frames = s.frames := rfl
@[simp] theorem State.draw_poison (s : State) : (s.draw).poison = s.poison := rfl
@[simp] theorem State.draw_versions (s : State) : (s.draw).versions = s.versions := rfl
@[simp] theorem State.draw_keys (s : State) : (s.draw).keys = s.keys := rfl
@[simp] theorem State.draw_endpoints (s : State) : (s.draw).endpoints = s.endpoints := rfl
@[simp] theorem State.draw_sessions (s : State) : (s.draw).sessions = s.sessions := rfl
@[simp] theorem State.draw_nextSess (s : State) : (s.draw).nextSess = s.nextSess := rfl
@[simp] theorem State.draw_requests (s : State) : (s.draw).requests = s.requests := rfl
@[simp] theorem State.draw_harts (s : State) : (s.draw).harts = s.harts := rfl
@[simp] theorem State.draw_sealedCtxs (s : State) : (s.draw).sealedCtxs = s.sealedCtxs := rfl
@[simp] theorem State.draw_fwVerified (s : State) : (s.draw).fwVerified = s.fwVerified := rfl
@[simp] theorem State.draw_fwDigest (s : State) : (s.draw).fwDigest = s.fwDigest := rfl
@[simp] theorem State.draw_firmware (s : State) : (s.draw).firmware = s.firmware := rfl
@[simp] theorem State.draw_reportCtr (s : State) : (s.draw).reportCtr = s.reportCtr := rfl
@[simp] theorem State.draw_counters (s : State) : (s.draw).counters = s.counters := rfl
@[simp] theorem State.draw_log (s : State) : (s.draw).log = s.log := rfl
@[simp] theorem State.draw_timeUs (s : State) : (s.draw).timeUs = s.timeUs := rfl
@[simp] theorem State.draw_cycle (s : State) : (s.draw).cycle = s.cycle := rfl
@[simp] theorem State.draw_duty (s : State) : (s.draw).duty = s.duty := rfl
@[simp] theorem State.draw_requested (s : State) : (s.draw).requested = s.requested := rfl
@[simp] theorem State.draw_alarm1 (s : State) : (s.draw).alarm1 = s.alarm1 := rfl
@[simp] theorem State.draw_keyless (s : State) : (s.draw).keyless = s.keyless := rfl
@[simp] theorem State.draw_coissueOff (s : State) : (s.draw).coissueOff = s.coissueOff := rfl
@[simp] theorem State.draw_standby (s : State) : (s.draw).standby = s.standby := rfl
@[simp] theorem State.draw_retired (s : State) : (s.draw).retired = s.retired := rfl
@[simp] theorem State.draw_sliceMap (s : State) : (s.draw).sliceMap = s.sliceMap := rfl
@[simp] theorem State.draw_lanesUsed (s : State) : (s.draw).lanesUsed = s.lanesUsed := rfl
@[simp] theorem State.draw_lanePend (s : State) : (s.draw).lanePend = s.lanePend := rfl
@[simp] theorem State.draw_lastPos (s : State) : (s.draw).lastPos = s.lastPos := rfl
@[simp] theorem State.draw_passCount (s : State) : (s.draw).passCount = s.passCount := rfl
@[simp] theorem State.draw_resident (s : State) : (s.draw).resident = s.resident := rfl
@[simp] theorem State.draw_residentAu (s : State) : (s.draw).residentAu = s.residentAu := rfl
@[simp] theorem State.draw_outbox (s : State) : (s.draw).outbox = s.outbox := rfl
@[simp] theorem State.draw_codeLog (s : State) : (s.draw).codeLog = s.codeLog := rfl
@[simp] theorem State.draw_agenda (s : State) : (s.draw).agenda = s.agenda := rfl
@[simp] theorem State.draw_focus (s : State) : (s.draw).focus = s.focus := rfl
@[simp] theorem State.draw_draws (s : State) : (s.draw).draws = s.draws + 1 := rfl

/-! Reads after updates. -/

@[simp] theorem State.slotAt_setSlot (s : State) (f : Focus) (t : Slot) : (s.setSlot f t).slotAt f = t := by
  simp [State.slotAt]
@[simp] theorem State.slotAt_modSlot (s : State) (f : Focus) (g : Slot → Slot) : (s.modSlot f g).slotAt f = g (s.slotAt f) := by
  simp [State.slotAt]
@[simp] theorem State.slot_mod (s : State) (g : Slot → Slot) : (s.mod g).slot = g s.slot := by
  simp [State.slot, State.slotAt]
theorem State.slotAt_mod (s : State) (g : Slot → Slot) (f : Focus) (h : f.key ≠ s.focus.key) : (s.mod g).slotAt f = s.slotAt f := by
  simp [State.slotAt, Tab.get_set_ne _ _ _ h]
@[simp] theorem State.core_setCore (s : State) (ctx lc : Nat) (c : LCore) : (s.setCore ctx lc c).core ctx lc = c := by
  simp [State.core]
@[simp] theorem State.core_modCore (s : State) (ctx lc : Nat) (g : LCore → LCore) : (s.modCore ctx lc g).core ctx lc = g (s.core ctx lc) := by
  simp [State.core]
@[simp] theorem State.me_modMe (s : State) (g : LCore → LCore) : (s.modMe g).me = g s.me := by
  simp [State.me, State.core]
@[simp] theorem State.ctxOf_setCtx (s : State) (c : Nat) (x : Ctx) : (s.setCtx c x).ctxOf c = x := by
  simp [State.ctxOf]
@[simp] theorem State.ctxOf_modCtx (s : State) (c : Nat) (g : Ctx → Ctx) : (s.modCtx c g).ctxOf c = g (s.ctxOf c) := by
  simp [State.ctxOf]
@[simp] theorem State.here_modHere (s : State) (g : Ctx → Ctx) : (s.modHere g).here = g s.here := by
  simp [State.here, State.ctxOf]
@[simp] theorem State.core_mod (s : State) (g : Slot → Slot) (ctx lc : Nat) : (s.mod g).core ctx lc = s.core ctx lc := rfl
@[simp] theorem State.me_mod (s : State) (g : Slot → Slot) : (s.mod g).me = s.me := rfl
@[simp] theorem State.ctxOf_mod (s : State) (g : Slot → Slot) (c : Nat) : (s.mod g).ctxOf c = s.ctxOf c := rfl
@[simp] theorem State.here_mod (s : State) (g : Slot → Slot) : (s.mod g).here = s.here := rfl
@[simp] theorem State.slot_modMe (s : State) (g : LCore → LCore) : (s.modMe g).slot = s.slot := rfl
@[simp] theorem State.slot_modCtx (s : State) (c : Nat) (g : Ctx → Ctx) : (s.modCtx c g).slot = s.slot := rfl

/-! Registers of a slot (R99). -/

@[simp] theorem Slot.rx_zero (t : Slot) : t.rx 0 = 0 := rfl
@[simp] theorem Slot.wx_zero (t : Slot) (v : Word) : t.wx 0 v = t := rfl
@[simp] theorem Slot.rk_zero (t : Slot) : t.rk 0 = BitVec.allOnes 48 := rfl
@[simp] theorem Slot.wk_zero (t : Slot) (v : PReg) : t.wk 0 v = t := rfl
theorem Slot.rx_wx (t : Slot) (r q : Nat) (v : Word) : (t.wx r v).rx q = if q = r ∧ r ≠ 0 then v else t.rx q := by
  by_cases h0 : r = 0
  · subst h0; simp
  · by_cases hq : q = 0
    · subst hq; simp [Ne.symm h0]
    · by_cases h : q = r
      · subst h; simp [Slot.rx, Slot.wx, hq]
      · simp [Slot.rx, Slot.wx, h0, hq, h, Tab.get_set_ne _ _ _ h]
theorem Slot.rk_wk (t : Slot) (r q : Nat) (v : PReg) : (t.wk r v).rk q = if q = r ∧ r ≠ 0 then v else t.rk q := by
  by_cases h0 : r = 0
  · subst h0; simp
  · by_cases hq : q = 0
    · subst hq; simp [Ne.symm h0]
    · by_cases h : q = r
      · subst h; simp [Slot.rk, Slot.wk, hq]
      · simp [Slot.rk, Slot.wk, h0, hq, h, Tab.get_set_ne _ _ _ h]
theorem Slot.rv_wv (t : Slot) (r q : Nat) (v : VReg) : (t.wv r v).rv q = if q = r then v else t.rv q := by
  simp [Slot.rv, Slot.wv, Tab.get_set]

@[simp] theorem Slot.wx_mode (t : Slot) (r : Nat) (v : Word) : (t.wx r v).mode = t.mode := by unfold Slot.wx; split <;> rfl
@[simp] theorem Slot.wx_pc (t : Slot) (r : Nat) (v : Word) : (t.wx r v).pc = t.pc := by unfold Slot.wx; split <;> rfl
@[simp] theorem Slot.wx_older (t : Slot) (r : Nat) (v : Word) : (t.wx r v).older = t.older := by unfold Slot.wx; split <;> rfl
@[simp] theorem Slot.wx_depth (t : Slot) (r : Nat) (v : Word) : (t.wx r v).depth = t.depth := by unfold Slot.wx; split <;> rfl
@[simp] theorem Slot.wx_v (t : Slot) (r : Nat) (v : Word) : (t.wx r v).v = t.v := by unfold Slot.wx; split <;> rfl
@[simp] theorem Slot.wx_k (t : Slot) (r : Nat) (v : Word) : (t.wx r v).k = t.k := by unfold Slot.wx; split <;> rfl
@[simp] theorem Slot.wx_nanread (t : Slot) (r : Nat) (v : Word) : (t.wx r v).nanread = t.nanread := by unfold Slot.wx; split <;> rfl
@[simp] theorem Slot.wx_fflags (t : Slot) (r : Nat) (v : Word) : (t.wx r v).fflags = t.fflags := by unfold Slot.wx; split <;> rfl
@[simp] theorem Slot.wx_progress (t : Slot) (r : Nat) (v : Word) : (t.wx r v).progress = t.progress := by unfold Slot.wx; split <;> rfl
@[simp] theorem Slot.wx_slice (t : Slot) (r : Nat) (v : Word) : (t.wx r v).slice = t.slice := by unfold Slot.wx; split <;> rfl
@[simp] theorem Slot.wx_sliceCount (t : Slot) (r : Nat) (v : Word) : (t.wx r v).sliceCount = t.sliceCount := by unfold Slot.wx; split <;> rfl
@[simp] theorem Slot.wx_forced (t : Slot) (r : Nat) (v : Word) : (t.wx r v).forced = t.forced := by unfold Slot.wx; split <;> rfl
@[simp] theorem Slot.wx_yields (t : Slot) (r : Nat) (v : Word) : (t.wx r v).yields = t.yields := by unfold Slot.wx; split <;> rfl
@[simp] theorem Slot.wx_clamped (t : Slot) (r : Nat) (v : Word) : (t.wx r v).clamped = t.clamped := by unfold Slot.wx; split <;> rfl
@[simp] theorem Slot.wx_trapvec (t : Slot) (r : Nat) (v : Word) : (t.wx r v).trapvec = t.trapvec := by unfold Slot.wx; split <;> rfl
@[simp] theorem Slot.wx_spillTop (t : Slot) (r : Nat) (v : Word) : (t.wx r v).spillTop = t.spillTop := by unfold Slot.wx; split <;> rfl
@[simp] theorem Slot.wx_spillLimit (t : Slot) (r : Nat) (v : Word) : (t.wx r v).spillLimit = t.spillLimit := by unfold Slot.wx; split <;> rfl
@[simp] theorem Slot.wx_spillBase (t : Slot) (r : Nat) (v : Word) : (t.wx r v).spillBase = t.spillBase := by unfold Slot.wx; split <;> rfl
@[simp] theorem Slot.wx_sup (t : Slot) (r : Nat) (v : Word) : (t.wx r v).sup = t.sup := by unfold Slot.wx; split <;> rfl
@[simp] theorem Slot.wx_prio (t : Slot) (r : Nat) (v : Word) : (t.wx r v).prio = t.prio := by unfold Slot.wx; split <;> rfl
@[simp] theorem Slot.wx_bind (t : Slot) (r : Nat) (v : Word) : (t.wx r v).bind = t.bind := by unfold Slot.wx; split <;> rfl
@[simp] theorem Slot.wx_node (t : Slot) (r : Nat) (v : Word) : (t.wx r v).node = t.node := by unfold Slot.wx; split <;> rfl
@[simp] theorem Slot.wx_iter (t : Slot) (r : Nat) (v : Word) : (t.wx r v).iter = t.iter := by unfold Slot.wx; split <;> rfl
@[simp] theorem Slot.wx_cid (t : Slot) (r : Nat) (v : Word) : (t.wx r v).cid = t.cid := by unfold Slot.wx; split <;> rfl
@[simp] theorem Slot.wx_region (t : Slot) (r : Nat) (v : Word) : (t.wx r v).region = t.region := by unfold Slot.wx; split <;> rfl
@[simp] theorem Slot.wx_rmask (t : Slot) (r : Nat) (v : Word) : (t.wx r v).rmask = t.rmask := by unfold Slot.wx; split <;> rfl
@[simp] theorem Slot.wx_rseq (t : Slot) (r : Nat) (v : Word) : (t.wx r v).rseq = t.rseq := by unfold Slot.wx; split <;> rfl
@[simp] theorem Slot.wx_key (t : Slot) (r : Nat) (v : Word) : (t.wx r v).key = t.key := by unfold Slot.wx; split <;> rfl
@[simp] theorem Slot.wx_rsrN (t : Slot) (r : Nat) (v : Word) : (t.wx r v).rsrN = t.rsrN := by unfold Slot.wx; split <;> rfl
@[simp] theorem Slot.wx_tasks (t : Slot) (r : Nat) (v : Word) : (t.wx r v).tasks = t.tasks := by unfold Slot.wx; split <;> rfl
@[simp] theorem Slot.wx_longs (t : Slot) (r : Nat) (v : Word) : (t.wx r v).longs = t.longs := by unfold Slot.wx; split <;> rfl
@[simp] theorem Slot.wx_parked (t : Slot) (r : Nat) (v : Word) : (t.wx r v).parked = t.parked := by unfold Slot.wx; split <;> rfl
@[simp] theorem Slot.wx_pend (t : Slot) (r : Nat) (v : Word) : (t.wx r v).pend = t.pend := by unfold Slot.wx; split <;> rfl
@[simp] theorem Slot.wx_stopped (t : Slot) (r : Nat) (v : Word) : (t.wx r v).stopped = t.stopped := by unfold Slot.wx; split <;> rfl
@[simp] theorem Slot.wx_stopReq (t : Slot) (r : Nat) (v : Word) : (t.wx r v).stopReq = t.stopReq := by unfold Slot.wx; split <;> rfl
@[simp] theorem Slot.wx_await (t : Slot) (r : Nat) (v : Word) : (t.wx r v).await = t.await := by unfold Slot.wx; split <;> rfl
@[simp] theorem Slot.wx_wait (t : Slot) (r : Nat) (v : Word) : (t.wx r v).wait = t.wait := by unfold Slot.wx; split <;> rfl
@[simp] theorem Slot.wx_defbrk (t : Slot) (r : Nat) (v : Word) : (t.wx r v).defbrk = t.defbrk := by unfold Slot.wx; split <;> rfl
@[simp] theorem Slot.wx_viewAt (t : Slot) (r : Nat) (v : Word) : (t.wx r v).viewAt = t.viewAt := by unfold Slot.wx; split <;> rfl
@[simp] theorem Slot.wx_idemAt (t : Slot) (r : Nat) (v : Word) : (t.wx r v).idemAt = t.idemAt := by unfold Slot.wx; split <;> rfl
@[simp] theorem Slot.wx_drainAt (t : Slot) (r : Nat) (v : Word) : (t.wx r v).drainAt = t.drainAt := by unfold Slot.wx; split <;> rfl
@[simp] theorem Slot.wx_stopNew (t : Slot) (r : Nat) (v : Word) : (t.wx r v).stopNew = t.stopNew := by unfold Slot.wx; split <;> rfl
@[simp] theorem Slot.wx_accAt (t : Slot) (r : Nat) (v : Word) : (t.wx r v).accAt = t.accAt := by unfold Slot.wx; split <;> rfl
@[simp] theorem Slot.wx_inputs (t : Slot) (r : Nat) (v : Word) : (t.wx r v).inputs = t.inputs := by unfold Slot.wx; split <;> rfl
@[simp] theorem Slot.wx_inK (t : Slot) (r : Nat) (v : Word) : (t.wx r v).inK = t.inK := by unfold Slot.wx; split <;> rfl
@[simp] theorem Slot.wx_undone (t : Slot) (r : Nat) (v : Word) : (t.wx r v).undone = t.undone := by unfold Slot.wx; split <;> rfl
@[simp] theorem Slot.wk_mode (t : Slot) (r : Nat) (v : PReg) : (t.wk r v).mode = t.mode := by unfold Slot.wk; split <;> rfl
@[simp] theorem Slot.wk_pc (t : Slot) (r : Nat) (v : PReg) : (t.wk r v).pc = t.pc := by unfold Slot.wk; split <;> rfl
@[simp] theorem Slot.wk_x (t : Slot) (r : Nat) (v : PReg) : (t.wk r v).x = t.x := by unfold Slot.wk; split <;> rfl
@[simp] theorem Slot.wk_older (t : Slot) (r : Nat) (v : PReg) : (t.wk r v).older = t.older := by unfold Slot.wk; split <;> rfl
@[simp] theorem Slot.wk_depth (t : Slot) (r : Nat) (v : PReg) : (t.wk r v).depth = t.depth := by unfold Slot.wk; split <;> rfl
@[simp] theorem Slot.wk_v (t : Slot) (r : Nat) (v : PReg) : (t.wk r v).v = t.v := by unfold Slot.wk; split <;> rfl
@[simp] theorem Slot.wk_nanread (t : Slot) (r : Nat) (v : PReg) : (t.wk r v).nanread = t.nanread := by unfold Slot.wk; split <;> rfl
@[simp] theorem Slot.wk_fflags (t : Slot) (r : Nat) (v : PReg) : (t.wk r v).fflags = t.fflags := by unfold Slot.wk; split <;> rfl
@[simp] theorem Slot.wk_progress (t : Slot) (r : Nat) (v : PReg) : (t.wk r v).progress = t.progress := by unfold Slot.wk; split <;> rfl
@[simp] theorem Slot.wk_slice (t : Slot) (r : Nat) (v : PReg) : (t.wk r v).slice = t.slice := by unfold Slot.wk; split <;> rfl
@[simp] theorem Slot.wk_sliceCount (t : Slot) (r : Nat) (v : PReg) : (t.wk r v).sliceCount = t.sliceCount := by unfold Slot.wk; split <;> rfl
@[simp] theorem Slot.wk_forced (t : Slot) (r : Nat) (v : PReg) : (t.wk r v).forced = t.forced := by unfold Slot.wk; split <;> rfl
@[simp] theorem Slot.wk_yields (t : Slot) (r : Nat) (v : PReg) : (t.wk r v).yields = t.yields := by unfold Slot.wk; split <;> rfl
@[simp] theorem Slot.wk_clamped (t : Slot) (r : Nat) (v : PReg) : (t.wk r v).clamped = t.clamped := by unfold Slot.wk; split <;> rfl
@[simp] theorem Slot.wk_trapvec (t : Slot) (r : Nat) (v : PReg) : (t.wk r v).trapvec = t.trapvec := by unfold Slot.wk; split <;> rfl
@[simp] theorem Slot.wk_spillTop (t : Slot) (r : Nat) (v : PReg) : (t.wk r v).spillTop = t.spillTop := by unfold Slot.wk; split <;> rfl
@[simp] theorem Slot.wk_spillLimit (t : Slot) (r : Nat) (v : PReg) : (t.wk r v).spillLimit = t.spillLimit := by unfold Slot.wk; split <;> rfl
@[simp] theorem Slot.wk_spillBase (t : Slot) (r : Nat) (v : PReg) : (t.wk r v).spillBase = t.spillBase := by unfold Slot.wk; split <;> rfl
@[simp] theorem Slot.wk_sup (t : Slot) (r : Nat) (v : PReg) : (t.wk r v).sup = t.sup := by unfold Slot.wk; split <;> rfl
@[simp] theorem Slot.wk_prio (t : Slot) (r : Nat) (v : PReg) : (t.wk r v).prio = t.prio := by unfold Slot.wk; split <;> rfl
@[simp] theorem Slot.wk_bind (t : Slot) (r : Nat) (v : PReg) : (t.wk r v).bind = t.bind := by unfold Slot.wk; split <;> rfl
@[simp] theorem Slot.wk_node (t : Slot) (r : Nat) (v : PReg) : (t.wk r v).node = t.node := by unfold Slot.wk; split <;> rfl
@[simp] theorem Slot.wk_iter (t : Slot) (r : Nat) (v : PReg) : (t.wk r v).iter = t.iter := by unfold Slot.wk; split <;> rfl
@[simp] theorem Slot.wk_cid (t : Slot) (r : Nat) (v : PReg) : (t.wk r v).cid = t.cid := by unfold Slot.wk; split <;> rfl
@[simp] theorem Slot.wk_region (t : Slot) (r : Nat) (v : PReg) : (t.wk r v).region = t.region := by unfold Slot.wk; split <;> rfl
@[simp] theorem Slot.wk_rmask (t : Slot) (r : Nat) (v : PReg) : (t.wk r v).rmask = t.rmask := by unfold Slot.wk; split <;> rfl
@[simp] theorem Slot.wk_rseq (t : Slot) (r : Nat) (v : PReg) : (t.wk r v).rseq = t.rseq := by unfold Slot.wk; split <;> rfl
@[simp] theorem Slot.wk_key (t : Slot) (r : Nat) (v : PReg) : (t.wk r v).key = t.key := by unfold Slot.wk; split <;> rfl
@[simp] theorem Slot.wk_rsrN (t : Slot) (r : Nat) (v : PReg) : (t.wk r v).rsrN = t.rsrN := by unfold Slot.wk; split <;> rfl
@[simp] theorem Slot.wk_tasks (t : Slot) (r : Nat) (v : PReg) : (t.wk r v).tasks = t.tasks := by unfold Slot.wk; split <;> rfl
@[simp] theorem Slot.wk_longs (t : Slot) (r : Nat) (v : PReg) : (t.wk r v).longs = t.longs := by unfold Slot.wk; split <;> rfl
@[simp] theorem Slot.wk_parked (t : Slot) (r : Nat) (v : PReg) : (t.wk r v).parked = t.parked := by unfold Slot.wk; split <;> rfl
@[simp] theorem Slot.wk_pend (t : Slot) (r : Nat) (v : PReg) : (t.wk r v).pend = t.pend := by unfold Slot.wk; split <;> rfl
@[simp] theorem Slot.wk_stopped (t : Slot) (r : Nat) (v : PReg) : (t.wk r v).stopped = t.stopped := by unfold Slot.wk; split <;> rfl
@[simp] theorem Slot.wk_stopReq (t : Slot) (r : Nat) (v : PReg) : (t.wk r v).stopReq = t.stopReq := by unfold Slot.wk; split <;> rfl
@[simp] theorem Slot.wk_await (t : Slot) (r : Nat) (v : PReg) : (t.wk r v).await = t.await := by unfold Slot.wk; split <;> rfl
@[simp] theorem Slot.wk_wait (t : Slot) (r : Nat) (v : PReg) : (t.wk r v).wait = t.wait := by unfold Slot.wk; split <;> rfl
@[simp] theorem Slot.wk_defbrk (t : Slot) (r : Nat) (v : PReg) : (t.wk r v).defbrk = t.defbrk := by unfold Slot.wk; split <;> rfl
@[simp] theorem Slot.wk_viewAt (t : Slot) (r : Nat) (v : PReg) : (t.wk r v).viewAt = t.viewAt := by unfold Slot.wk; split <;> rfl
@[simp] theorem Slot.wk_idemAt (t : Slot) (r : Nat) (v : PReg) : (t.wk r v).idemAt = t.idemAt := by unfold Slot.wk; split <;> rfl
@[simp] theorem Slot.wk_drainAt (t : Slot) (r : Nat) (v : PReg) : (t.wk r v).drainAt = t.drainAt := by unfold Slot.wk; split <;> rfl
@[simp] theorem Slot.wk_stopNew (t : Slot) (r : Nat) (v : PReg) : (t.wk r v).stopNew = t.stopNew := by unfold Slot.wk; split <;> rfl
@[simp] theorem Slot.wk_accAt (t : Slot) (r : Nat) (v : PReg) : (t.wk r v).accAt = t.accAt := by unfold Slot.wk; split <;> rfl
@[simp] theorem Slot.wk_inputs (t : Slot) (r : Nat) (v : PReg) : (t.wk r v).inputs = t.inputs := by unfold Slot.wk; split <;> rfl
@[simp] theorem Slot.wk_inK (t : Slot) (r : Nat) (v : PReg) : (t.wk r v).inK = t.inK := by unfold Slot.wk; split <;> rfl
@[simp] theorem Slot.wk_undone (t : Slot) (r : Nat) (v : PReg) : (t.wk r v).undone = t.undone := by unfold Slot.wk; split <;> rfl
@[simp] theorem Slot.wv_mode (t : Slot) (r : Nat) (v : VReg) : (t.wv r v).mode = t.mode := rfl
@[simp] theorem Slot.wv_pc (t : Slot) (r : Nat) (v : VReg) : (t.wv r v).pc = t.pc := rfl
@[simp] theorem Slot.wv_x (t : Slot) (r : Nat) (v : VReg) : (t.wv r v).x = t.x := rfl
@[simp] theorem Slot.wv_older (t : Slot) (r : Nat) (v : VReg) : (t.wv r v).older = t.older := rfl
@[simp] theorem Slot.wv_depth (t : Slot) (r : Nat) (v : VReg) : (t.wv r v).depth = t.depth := rfl
@[simp] theorem Slot.wv_k (t : Slot) (r : Nat) (v : VReg) : (t.wv r v).k = t.k := rfl
@[simp] theorem Slot.wv_nanread (t : Slot) (r : Nat) (v : VReg) : (t.wv r v).nanread = t.nanread := rfl
@[simp] theorem Slot.wv_fflags (t : Slot) (r : Nat) (v : VReg) : (t.wv r v).fflags = t.fflags := rfl
@[simp] theorem Slot.wv_progress (t : Slot) (r : Nat) (v : VReg) : (t.wv r v).progress = t.progress := rfl
@[simp] theorem Slot.wv_slice (t : Slot) (r : Nat) (v : VReg) : (t.wv r v).slice = t.slice := rfl
@[simp] theorem Slot.wv_sliceCount (t : Slot) (r : Nat) (v : VReg) : (t.wv r v).sliceCount = t.sliceCount := rfl
@[simp] theorem Slot.wv_forced (t : Slot) (r : Nat) (v : VReg) : (t.wv r v).forced = t.forced := rfl
@[simp] theorem Slot.wv_yields (t : Slot) (r : Nat) (v : VReg) : (t.wv r v).yields = t.yields := rfl
@[simp] theorem Slot.wv_clamped (t : Slot) (r : Nat) (v : VReg) : (t.wv r v).clamped = t.clamped := rfl
@[simp] theorem Slot.wv_trapvec (t : Slot) (r : Nat) (v : VReg) : (t.wv r v).trapvec = t.trapvec := rfl
@[simp] theorem Slot.wv_spillTop (t : Slot) (r : Nat) (v : VReg) : (t.wv r v).spillTop = t.spillTop := rfl
@[simp] theorem Slot.wv_spillLimit (t : Slot) (r : Nat) (v : VReg) : (t.wv r v).spillLimit = t.spillLimit := rfl
@[simp] theorem Slot.wv_spillBase (t : Slot) (r : Nat) (v : VReg) : (t.wv r v).spillBase = t.spillBase := rfl
@[simp] theorem Slot.wv_sup (t : Slot) (r : Nat) (v : VReg) : (t.wv r v).sup = t.sup := rfl
@[simp] theorem Slot.wv_prio (t : Slot) (r : Nat) (v : VReg) : (t.wv r v).prio = t.prio := rfl
@[simp] theorem Slot.wv_bind (t : Slot) (r : Nat) (v : VReg) : (t.wv r v).bind = t.bind := rfl
@[simp] theorem Slot.wv_node (t : Slot) (r : Nat) (v : VReg) : (t.wv r v).node = t.node := rfl
@[simp] theorem Slot.wv_iter (t : Slot) (r : Nat) (v : VReg) : (t.wv r v).iter = t.iter := rfl
@[simp] theorem Slot.wv_cid (t : Slot) (r : Nat) (v : VReg) : (t.wv r v).cid = t.cid := rfl
@[simp] theorem Slot.wv_region (t : Slot) (r : Nat) (v : VReg) : (t.wv r v).region = t.region := rfl
@[simp] theorem Slot.wv_rmask (t : Slot) (r : Nat) (v : VReg) : (t.wv r v).rmask = t.rmask := rfl
@[simp] theorem Slot.wv_rseq (t : Slot) (r : Nat) (v : VReg) : (t.wv r v).rseq = t.rseq := rfl
@[simp] theorem Slot.wv_key (t : Slot) (r : Nat) (v : VReg) : (t.wv r v).key = t.key := rfl
@[simp] theorem Slot.wv_rsrN (t : Slot) (r : Nat) (v : VReg) : (t.wv r v).rsrN = t.rsrN := rfl
@[simp] theorem Slot.wv_tasks (t : Slot) (r : Nat) (v : VReg) : (t.wv r v).tasks = t.tasks := rfl
@[simp] theorem Slot.wv_longs (t : Slot) (r : Nat) (v : VReg) : (t.wv r v).longs = t.longs := rfl
@[simp] theorem Slot.wv_parked (t : Slot) (r : Nat) (v : VReg) : (t.wv r v).parked = t.parked := rfl
@[simp] theorem Slot.wv_pend (t : Slot) (r : Nat) (v : VReg) : (t.wv r v).pend = t.pend := rfl
@[simp] theorem Slot.wv_stopped (t : Slot) (r : Nat) (v : VReg) : (t.wv r v).stopped = t.stopped := rfl
@[simp] theorem Slot.wv_stopReq (t : Slot) (r : Nat) (v : VReg) : (t.wv r v).stopReq = t.stopReq := rfl
@[simp] theorem Slot.wv_await (t : Slot) (r : Nat) (v : VReg) : (t.wv r v).await = t.await := rfl
@[simp] theorem Slot.wv_wait (t : Slot) (r : Nat) (v : VReg) : (t.wv r v).wait = t.wait := rfl
@[simp] theorem Slot.wv_defbrk (t : Slot) (r : Nat) (v : VReg) : (t.wv r v).defbrk = t.defbrk := rfl
@[simp] theorem Slot.wv_viewAt (t : Slot) (r : Nat) (v : VReg) : (t.wv r v).viewAt = t.viewAt := rfl
@[simp] theorem Slot.wv_idemAt (t : Slot) (r : Nat) (v : VReg) : (t.wv r v).idemAt = t.idemAt := rfl
@[simp] theorem Slot.wv_drainAt (t : Slot) (r : Nat) (v : VReg) : (t.wv r v).drainAt = t.drainAt := rfl
@[simp] theorem Slot.wv_stopNew (t : Slot) (r : Nat) (v : VReg) : (t.wv r v).stopNew = t.stopNew := rfl
@[simp] theorem Slot.wv_accAt (t : Slot) (r : Nat) (v : VReg) : (t.wv r v).accAt = t.accAt := rfl
@[simp] theorem Slot.wv_inputs (t : Slot) (r : Nat) (v : VReg) : (t.wv r v).inputs = t.inputs := rfl
@[simp] theorem Slot.wv_inK (t : Slot) (r : Nat) (v : VReg) : (t.wv r v).inK = t.inK := rfl
@[simp] theorem Slot.wv_undone (t : Slot) (r : Nat) (v : VReg) : (t.wv r v).undone = t.undone := rfl

end Sys2Proof.Machine
end

