-- ==== Sys2Proof/Laws/Ops.lean ====
section
/-! SUPPORT. What the shared operations of issue and group close do, once for all instructions that call them. -/

namespace Sys2Proof.Machine

set_option Elab.async false

/-- An update of the slot in focus changes nothing else. -/
theorem State.mod_only (s : State) (g : Slot → Slot) : OnlySlot s (s.mod g) :=
  ⟨rfl, fun f h => s.slotAt_mod g f h⟩

theorem State.mod_same (s : State) (g : Slot → Slot) : SameMemory s (s.mod g) := fun _ => rfl

@[simp] theorem State.focus_of_mod (s : State) (g : Slot → Slot) : (s.mod g).focus = s.focus := rfl

/-- Two updates of the slot in focus in a row are one. -/
theorem State.mod_mod (s : State) (f g : Slot → Slot) : OnlySlot s ((s.mod f).mod g) := by
  refine ⟨rfl, fun k hk => ?_⟩
  rw [State.slotAt_mod _ _ _ (by simpa using hk), State.slotAt_mod _ _ _ hk]

theorem Slot.gate_short (t : Slot) (h : Hd) : t.gate h false false false = none := by
  simp [Slot.gate]

theorem Slot.retire_none (t : Slot) (h : Hd) (hs : t.stopped = []) :
    t.retire h = { t with pc := nextPc t.pc h.len, parked := h.s && !t.longs.isEmpty } := by
  simp [Slot.retire, hs]

/-- A short instruction without checks of its own (R46, R166). -/
theorem State.issueShort_eq (s : State) (h : Hd) (eff : Slot → Slot) :
    s.issueShort h false none eff = s.mod (fun t => (eff t).retire h) := by
  simp [State.issueShort, Slot.gate_short]

/-- A short instruction that writes a scalar register. -/
theorem State.issueShort_wroteX (s : State) (h : Hd) (rd : Nat) (f : Slot → Word) (hs : s.slot.stopped = []) :
    WroteX s (s.issueShort h false none (fun t => t.wx rd (f t))) h rd (f s.slot) := by
  rw [State.issueShort_eq]
  have e : (s.mod (fun t => (t.wx rd (f t)).retire h)).slot =
      { s.slot.wx rd (f s.slot) with pc := nextPc s.slot.pc h.len, parked := h.s && !s.slot.longs.isEmpty } := by
    simp [Slot.retire, hs]
  refine ⟨s.mod_only _, s.mod_same _, ⟨?_, ?_⟩, fun q => ?_, ?_⟩ <;> rw [e]
  · simp
  · simp only [Slot.rx]
    have := Slot.rx_wx s.slot rd q (f s.slot)
    simpa [Slot.rx] using this
  · unfold Slot.wx; split <;> rfl

/-- A short instruction that writes a predicate register. -/
theorem State.issueShort_wroteK (s : State) (h : Hd) (kd : Nat) (f : Slot → PReg) (hs : s.slot.stopped = []) :
    WroteK s (s.issueShort h false none (fun t => t.wk kd (f t))) h kd (f s.slot) := by
  rw [State.issueShort_eq]
  have e : (s.mod (fun t => (t.wk kd (f t)).retire h)).slot =
      { s.slot.wk kd (f s.slot) with pc := nextPc s.slot.pc h.len, parked := h.s && !s.slot.longs.isEmpty } := by
    simp [Slot.retire, hs]
  refine ⟨s.mod_only _, s.mod_same _, ⟨?_, ?_⟩, fun q => ?_, ?_⟩ <;> rw [e]
  · simp
  · have := Slot.rk_wk s.slot kd q (f s.slot)
    simpa [Slot.rk] using this
  · unfold Slot.wk; split <;> rfl

/-- The checks of R46 steps 7 and 8 pass. -/
theorem Slot.gate_long {s : State} {h : Hd} {needS priv : Bool} (c : CanIssueLong s h needS priv) : s.slot.gate h true needS priv = none := by
  obtain ⟨c1, c2, c3, c4⟩ := c
  have h1 : (priv && !s.slot.sup) = false := by
    cases priv <;> simp_all
  have h2 : (needS && !h.s) = false := by
    cases needS <;> simp_all
  have h3 : ¬ 8 ≤ s.slot.longs.length := by omega
  simp [Slot.gate, h1, h2, h3]

theorem foldl_max_le (l : List Long) (n : Nat) : n ≤ l.foldl (fun n l => Nat.max n l.id) n ∧ ∀ x ∈ l, x.id ≤ l.foldl (fun n l => Nat.max n l.id) n := by
  induction l generalizing n with
  | nil => simp
  | cons a r ih =>
    have h := ih (Nat.max n a.id)
    have h1 : n ≤ Nat.max n a.id := Nat.le_max_left _ _
    have h2 : a.id ≤ Nat.max n a.id := Nat.le_max_right _ _
    simp only [List.foldl_cons]
    refine ⟨Nat.le_trans h1 h.1, fun x hx => ?_⟩
    rcases List.mem_cons.1 hx with rfl | hx
    · exact Nat.le_trans h2 h.1
    · exact h.2 x hx

/-- A long instruction whose checks pass is added to the group, and nothing else changes (R49, R164). -/
theorem State.issueLong_added {s : State} {h : Hd} {needS priv : Bool} (c : CanIssueLong s h needS priv) (word : Nat) (ra rb : Word) (j : Job) :
    Added s (s.issueLong h needS priv none word ra rb j) h j := by
  have e : s.issueLong h needS priv none word ra rb j = s.mod (fun t => (t.addLong s.cycle word ra rb j).retire h) := by
    simp [State.issueLong, Slot.gate_long c]
  rw [e]
  have hs := c.1
  obtain ⟨outs, fl, task, ea, rem, rsr⟩ := j
  have hid : ∀ l ∈ s.slot.longs, l.id < (s.slot.longs.foldl (fun n l => Nat.max n l.id) 0) + 1 := fun l hl =>
    Nat.lt_succ_of_le ((foldl_max_le s.slot.longs 0).2 l hl)
  cases task with
  | none =>
    refine ⟨s.mod_only _, s.mod_same _, ⟨?_, ?_⟩, ⟨_, word, ra, rb, hid, ?_, ?_⟩, ?_⟩ <;>
      simp [Slot.addLong, Slot.retire, hs, Slot.ipc]
  | some op =>
    refine ⟨s.mod_only _, s.mod_same _, ⟨?_, ?_⟩, ⟨_, word, ra, rb, hid, ?_, ?_⟩, ?_⟩ <;>
      simp [Slot.addLong, Slot.retire, hs, Slot.ipc]

/-! ### The bytes of a slot image (R111) -/

theorem flatMap_length {α β : Type} (f : α → List β) (k : Nat) (h : ∀ a, (f a).length = k) : ∀ l : List α, (l.flatMap f).length = k * l.length
  | [] => rfl
  | a :: r => by rw [List.flatMap_cons, List.length_append, h, flatMap_length f k h r, List.length_cons, Nat.mul_succ]; omega

theorem wordsBytes_length (l : List Word) : (wordsBytes l).length = 8 * l.length := flatMap_length _ 8 (fun _ => leBytes_length 8 _) l
theorem Slot.rxs_length (t : Slot) : ∀ n r, (t.rxs r n).length = n
  | 0, _ => rfl
  | n + 1, r => by rw [Slot.rxs, List.length_cons, Slot.rxs_length t n]
theorem Stopped.bytes_length (e : Stopped) : e.bytes.length = 528 := by
  simp only [Stopped.bytes, List.length_append, leBytes_length, zeros, List.length_replicate]
theorem stoppedBytes_length : ∀ l, (stoppedBytes l).length = 1056
  | [] => List.length_replicate
  | [e] => by simp only [stoppedBytes, List.length_append, Stopped.bytes_length, zeros, List.length_replicate]
  | e :: f :: _ => by simp only [stoppedBytes, List.length_append, Stopped.bytes_length]

/-- A slot image fills its frame. -/
theorem Slot.image_length (t : Slot) (pc : Word) : (t.image pc).length = 8192 := by
  have v : ((List.range 32).flatMap (fun i => leBytes 192 (t.rv i).toNat)).length = 192 * 32 := by
    rw [flatMap_length _ 192 (fun _ => leBytes_length _ _), List.length_range]
  have w : ((List.range 4).flatMap (fun j => wordsBytes ((List.range 16).map (fun i => ((t.older ++ [t.inLocal]).getD j []).getD i 0)))).length = 128 * 4 := by
    rw [flatMap_length _ 128 (fun _ => by rw [wordsBytes_length, List.length_map, List.length_range]), List.length_range]
  have k : ((List.range 7).flatMap (fun i => leBytes 8 (t.rk (i + 1)).toNat)).length = 8 * 7 := by
    rw [flatMap_length _ 8 (fun _ => leBytes_length _ _), List.length_range]
  simp only [Slot.image, Slot.imageRegs, Slot.imageStatus, List.length_append, v, w, k, wordsBytes_length, Slot.rxs_length, leBytes_length,
    stoppedBytes_length, zeros, List.length_replicate]

/-! ### Writes by hardware (R174, R433) -/

/-- Folding a line leaves a state that holds no gathered entry. -/
theorem State.foldLine_none {s : State} {ctx : Nat} (h : (s.ctxOf ctx).partials = []) (line : Nat) : s.foldLine ctx line = .ok s := by
  simp [State.foldLine, Ctx.entriesOf, h]

/-- Where no entry is gathered, no line needs a fold for hardware's access. -/
theorem State.linesAt_none {s : State} {ctx : Nat} (h : (s.ctxOf ctx).partials = []) (va n : Nat) : s.linesAt ctx va n = [] := by
  simp [State.linesAt, h]

/-- A write by hardware folds nothing where no entry is gathered. -/
theorem State.foldGlobal_none {s : State} {ctx : Nat} (h : (s.ctxOf ctx).partials = []) (va n : Nat) : s.foldGlobal ctx va n = s := by
  simp [State.foldGlobal, State.linesAt_none h, State.foldAll, State.foldLines, State.foldHeads, Except.map, pure, Except.pure]

/-- What a write by hardware within one page of HBM does where no version counter is full (R401): its bytes stand in memory, and no other byte has changed. -/
theorem State.hwWrite_mem {s : State} {ctx va : Nat} {bs : List Byte} {l : Leaf} (h : (s.ctxOf ctx).partials = []) (hl : s.leaf ctx va = .ok l)
    (hp : va % 65536 + bs.length ≤ 65536) (hb : inWindow l.pa = false)
    (hw : s.worn { key := l.pa, len := bs.length, off := va } 1 = false) :
    (s.hwWrite ctx va bs).mem = Mem.write s.mem l.pa bs ∧ (s.hwWrite ctx va bs).ctxs = s.ctxs ∧ (s.hwWrite ctx va bs).frames = s.frames ∧
    (s.hwWrite ctx va bs).poison = s.poison ∧ (s.hwWrite ctx va bs).focus = s.focus := by
  have c : cut64K va bs.length = [(va, bs.length)] := by simp only [cut64K]; rw [if_pos (by omega)]
  have m : (Except.map (fun l => ({ key := l.pa, len := bs.length, off := va } : Seg)) (s.leaf ctx va)) = .ok { key := l.pa, len := bs.length, off := va } := by
    rw [hl]; rfl
  unfold State.hwWrite State.rawWrite
  rw [State.foldGlobal_none h, c]
  simp only [List.mapM_cons, List.mapM_nil, m]
  simp [bind, Except.bind, pure, Except.pure, hb, hw, State.putSegs]

end Sys2Proof.Machine
end

