-- ==== Sys2Proof/Laws/PerInstr.lean ====
section
/-! SUPPORT. What holds of every instruction as syntax, constructor by constructor: the fields of a well-formed instruction fit the word, and
the rows of the opcode map read them back. The round trip of decoder and encoder rests on it. -/

namespace Sys2Proof.Laws

set_option Elab.async false
set_option linter.unusedSimpArgs false

theorem sizeCode (t : Size) : Size.ofCode t.code = some t ∧ t.code < 4 := by cases t <;> decide
theorem condCode (t : Cond) : Cond.ofCode t.code = some t ∧ t.code < 16 := by cases t <;> decide
theorem ropCode (t : ROp) : ROp.ofCode t.code = some t ∧ t.code < 8 := by cases t <;> decide
theorem amoCode (t : AmoOp) : AmoOp.ofCode t.code = some t ∧ t.code < 16 := by
  rcases t with t | _
  · cases t <;> decide
  · decide
theorem kindCode (t : Kind) : Kind.ofCode t.code = some t ∧ t.code < 16 := by cases t <;> decide
theorem pathCode (t : Path) : Path.ofCode t.code = some t ∧ t.code < 4 := by cases t <;> decide
theorem queryCode (t : Query) : Query.ofCode t.code = some t ∧ t.code < 4 := by cases t <;> decide
theorem sysCode (t : SysReg) : SysReg.ofCode t.code = some t ∧ t.code < 16 := by cases t <;> decide
theorem tyCode (t : ETy) : ETy.ofCode t.code = some t ∧ t.code < 16 := by
  cases t with
  | rn3 t => revert t; decide
  | _ => decide
theorem ctlCode (c : Ctl) : Ctl.ofCode c.code = some c ∧ c.code < 32 := by
  obtain ⟨rm, d, f⟩ := c
  cases rm <;> cases d <;> cases f <;> decide
theorem finCode {n : Nat} (x : Fin n) : finOf n x.val = some x ∧ x.val < n := by simp [finOf]
theorem triIf {α : Type} (t : Fin 4) (a b : α) : (if 12 + t.val < 12 then a else b) = b := if_neg (by omega)
theorem bitsCode {w : Nat} (hw : w ≤ 64) (m : BitVec w) : bitsOf w (m.setWidth 64) = some m := by
  have := m.isLt
  have h : (2 : Nat) ^ w ≤ 2 ^ 64 := Nat.pow_le_pow_right (by omega) hw
  have e : m.toNat % 2 ^ 64 = m.toNat := Nat.mod_eq_of_lt (by omega)
  have f : (m.setWidth 64).toNat = m.toNat := by rw [BitVec.toNat_setWidth]; exact e
  simp [bitsOf, f, this]
theorem immZero (h : Hd) : immOk h 0 = true := by
  obtain ⟨l, s⟩ := h; cases l <;> rfl
theorem immNat (h : Hd) (n : Nat) (hn : n < 2 ^ 15) : immOk h (BitVec.ofNat 64 n) = true := by
  obtain ⟨l, s⟩ := h
  cases l
  · simp only [immOk, beq_iff_eq]
    apply BitVec.eq_of_toNat_eq
    rw [BitVec.toNat_signExtend]
    simp [BitVec.msb_eq_decide, BitVec.toNat_setWidth]
    split <;> omega
  · simp only [immOk, beq_iff_eq]
    apply BitVec.eq_of_toNat_eq
    rw [BitVec.toNat_signExtend]
    simp [BitVec.msb_eq_decide, BitVec.toNat_setWidth]
    split <;> omega
  · rfl
theorem ctlZero {h : Hd} {c : Ctl} {a b d : Bool} (w : ctlOk h c a b d = true) : h.len = .l128 ∨ c.code = 0 := by
  simp only [ctlOk, Bool.and_eq_true, Bool.or_eq_true, decide_eq_true_eq] at w
  rcases w.1.1.1 with e | e
  · subst e; exact .inr rfl
  · exact .inl e

theorem rowNone : rowCode none = 0 := rfl
theorem rowSome (t : Fin 4) : rowCode (some t) = 12 + t.val := rfl
theorem depthLt {b : Bool} {i : Nat} (w : depthOk b i = true) : i ≤ 3072 := by
  cases b <;> simp [depthOk] at w <;> omega
theorem perLane (t : ETy) : 0 < t.perLane ∧ t.perLane ≤ 8 ∧ 1536 / t.width ≤ 384 := by
  cases t with
  | rn3 t => revert t; decide
  | _ => decide
theorem topLt {ty : ETy} {n : Nat} (w : decide (n ≤ Nat.min (1536 / ty.width) 48) = true) : n ≤ 48 := by
  have h : Nat.min (1536 / ty.width) 48 ≤ 48 := Nat.min_le_right _ _
  have := of_decide_eq_true w
  omega
theorem bitsZero : bitsOf 32 0#64 = some 0#32 := rfl
theorem srcReg (r : Raw) (b : Reg) : r.withSrc (.reg b) = { r with rb := b.val } := rfl
theorem srcImm (r : Raw) (i : Word) : r.withSrc (.imm i) = { r with i := i, fn := r.fn + 128 } := rfl
theorem fromNone (r : Raw) (k : Kind) : r.withFrom k none = { r with fn := k.code } := rfl
theorem fromSome (r : Raw) (k : Kind) (a : Reg) : r.withFrom k (some a) = { r with fn := k.code + 16, ra := a.val } := rfl

/-- Each field within its place gives `fits`. -/
theorem fitsOf {r : Raw} (b : r.op < 2 ^ 9 ∧ r.k < 2 ^ 3 ∧ r.rd < 2 ^ 5 ∧ r.ra < 2 ^ 5 ∧ r.rb < 2 ^ 5 ∧ r.rc < 2 ^ 5 ∧ r.t < 2 ^ 4 ∧
    r.fn < 2 ^ 8 ∧ r.ctl < 2 ^ 16) (hi : immOk r.head r.i = true) (hc : r.len = .l128 ∨ r.ctl = 0) : r.fits = true := by
  obtain ⟨b1, b2, b3, b4, b5, b6, b7, b8, b9⟩ := b
  have hi' : immOk { len := r.len, s := r.s } r.i = true := hi
  simp only [Raw.fits, b1, b2, b3, b4, b5, b6, b7, b8, b9, hi', decide_true, Bool.and_self, Bool.true_and, Bool.or_eq_true,
    decide_eq_true_eq]
  exact hc


/-- The fields of a well-formed instruction fit the word, and the opcode map reads the instruction back from them. -/
def Fits.Statement (i : Instr) : Prop := i.wf = true → ∀ r, i.raw = some r → r.fits = true ∧ build r = some i

namespace Fits

theorem add (h : Hd) (rd ra : Reg) (b : Src) : Statement (.add h rd ra b) := by
  intro w r e; cases e
  have ⟨e0, l0⟩ := finCode rd; have ⟨e1, l1⟩ := finCode ra
  rcases b with b | b
  · have ⟨e, l⟩ := finCode b
    exact ⟨fitsOf (by simp only [srcReg, Raw.hd]; omega) (immZero h) (.inr rfl), by simp [build, buildScalar, srcReg, Raw.hd, Raw.head, Raw.rD, Raw.rA, Raw.src, e0, e1, e]⟩
  · exact ⟨fitsOf (by simp only [srcImm, Raw.hd]; omega) (w) (.inr rfl), by simp [build, buildScalar, srcImm, Raw.hd, Raw.head, Raw.rD, Raw.rA, Raw.src, e0, e1]⟩
theorem sub (h : Hd) (rd ra : Reg) (b : Src) : Statement (.sub h rd ra b) := by
  intro w r e; cases e
  have ⟨e0, l0⟩ := finCode rd; have ⟨e1, l1⟩ := finCode ra
  rcases b with b | b
  · have ⟨e, l⟩ := finCode b
    exact ⟨fitsOf (by simp only [srcReg, Raw.hd]; omega) (immZero h) (.inr rfl), by simp [build, buildScalar, srcReg, Raw.hd, Raw.head, Raw.rD, Raw.rA, Raw.src, e0, e1, e]⟩
  · exact ⟨fitsOf (by simp only [srcImm, Raw.hd]; omega) (w) (.inr rfl), by simp [build, buildScalar, srcImm, Raw.hd, Raw.head, Raw.rD, Raw.rA, Raw.src, e0, e1]⟩
theorem mul (h : Hd) (rd ra : Reg) (b : Src) : Statement (.mul h rd ra b) := by
  intro w r e; cases e
  have ⟨e0, l0⟩ := finCode rd; have ⟨e1, l1⟩ := finCode ra
  rcases b with b | b
  · have ⟨e, l⟩ := finCode b
    exact ⟨fitsOf (by simp only [srcReg, Raw.hd]; omega) (immZero h) (.inr rfl), by simp [build, buildScalar, srcReg, Raw.hd, Raw.head, Raw.rD, Raw.rA, Raw.src, e0, e1, e]⟩
  · exact ⟨fitsOf (by simp only [srcImm, Raw.hd]; omega) (w) (.inr rfl), by simp [build, buildScalar, srcImm, Raw.hd, Raw.head, Raw.rD, Raw.rA, Raw.src, e0, e1]⟩
theorem mulh (h : Hd) (rd ra : Reg) (b : Src) : Statement (.mulh h rd ra b) := by
  intro w r e; cases e
  have ⟨e0, l0⟩ := finCode rd; have ⟨e1, l1⟩ := finCode ra
  rcases b with b | b
  · have ⟨e, l⟩ := finCode b
    exact ⟨fitsOf (by simp only [srcReg, Raw.hd]; omega) (immZero h) (.inr rfl), by simp [build, buildScalar, srcReg, Raw.hd, Raw.head, Raw.rD, Raw.rA, Raw.src, e0, e1, e]⟩
  · exact ⟨fitsOf (by simp only [srcImm, Raw.hd]; omega) (w) (.inr rfl), by simp [build, buildScalar, srcImm, Raw.hd, Raw.head, Raw.rD, Raw.rA, Raw.src, e0, e1]⟩
theorem mulhu (h : Hd) (rd ra : Reg) (b : Src) : Statement (.mulhu h rd ra b) := by
  intro w r e; cases e
  have ⟨e0, l0⟩ := finCode rd; have ⟨e1, l1⟩ := finCode ra
  rcases b with b | b
  · have ⟨e, l⟩ := finCode b
    exact ⟨fitsOf (by simp only [srcReg, Raw.hd]; omega) (immZero h) (.inr rfl), by simp [build, buildScalar, srcReg, Raw.hd, Raw.head, Raw.rD, Raw.rA, Raw.src, e0, e1, e]⟩
  · exact ⟨fitsOf (by simp only [srcImm, Raw.hd]; omega) (w) (.inr rfl), by simp [build, buildScalar, srcImm, Raw.hd, Raw.head, Raw.rD, Raw.rA, Raw.src, e0, e1]⟩
theorem div (h : Hd) (rd ra : Reg) (b : Src) : Statement (.div h rd ra b) := by
  intro w r e; cases e
  have ⟨e0, l0⟩ := finCode rd; have ⟨e1, l1⟩ := finCode ra
  rcases b with b | b
  · have ⟨e, l⟩ := finCode b
    exact ⟨fitsOf (by simp only [srcReg, Raw.hd]; omega) (immZero h) (.inr rfl), by simp [build, buildScalar, srcReg, Raw.hd, Raw.head, Raw.rD, Raw.rA, Raw.src, e0, e1, e]⟩
  · exact ⟨fitsOf (by simp only [srcImm, Raw.hd]; omega) (w) (.inr rfl), by simp [build, buildScalar, srcImm, Raw.hd, Raw.head, Raw.rD, Raw.rA, Raw.src, e0, e1]⟩
theorem divu (h : Hd) (rd ra : Reg) (b : Src) : Statement (.divu h rd ra b) := by
  intro w r e; cases e
  have ⟨e0, l0⟩ := finCode rd; have ⟨e1, l1⟩ := finCode ra
  rcases b with b | b
  · have ⟨e, l⟩ := finCode b
    exact ⟨fitsOf (by simp only [srcReg, Raw.hd]; omega) (immZero h) (.inr rfl), by simp [build, buildScalar, srcReg, Raw.hd, Raw.head, Raw.rD, Raw.rA, Raw.src, e0, e1, e]⟩
  · exact ⟨fitsOf (by simp only [srcImm, Raw.hd]; omega) (w) (.inr rfl), by simp [build, buildScalar, srcImm, Raw.hd, Raw.head, Raw.rD, Raw.rA, Raw.src, e0, e1]⟩
theorem rem (h : Hd) (rd ra : Reg) (b : Src) : Statement (.rem h rd ra b) := by
  intro w r e; cases e
  have ⟨e0, l0⟩ := finCode rd; have ⟨e1, l1⟩ := finCode ra
  rcases b with b | b
  · have ⟨e, l⟩ := finCode b
    exact ⟨fitsOf (by simp only [srcReg, Raw.hd]; omega) (immZero h) (.inr rfl), by simp [build, buildScalar, srcReg, Raw.hd, Raw.head, Raw.rD, Raw.rA, Raw.src, e0, e1, e]⟩
  · exact ⟨fitsOf (by simp only [srcImm, Raw.hd]; omega) (w) (.inr rfl), by simp [build, buildScalar, srcImm, Raw.hd, Raw.head, Raw.rD, Raw.rA, Raw.src, e0, e1]⟩
theorem remu (h : Hd) (rd ra : Reg) (b : Src) : Statement (.remu h rd ra b) := by
  intro w r e; cases e
  have ⟨e0, l0⟩ := finCode rd; have ⟨e1, l1⟩ := finCode ra
  rcases b with b | b
  · have ⟨e, l⟩ := finCode b
    exact ⟨fitsOf (by simp only [srcReg, Raw.hd]; omega) (immZero h) (.inr rfl), by simp [build, buildScalar, srcReg, Raw.hd, Raw.head, Raw.rD, Raw.rA, Raw.src, e0, e1, e]⟩
  · exact ⟨fitsOf (by simp only [srcImm, Raw.hd]; omega) (w) (.inr rfl), by simp [build, buildScalar, srcImm, Raw.hd, Raw.head, Raw.rD, Raw.rA, Raw.src, e0, e1]⟩
theorem and (h : Hd) (rd ra : Reg) (b : Src) : Statement (.and h rd ra b) := by
  intro w r e; cases e
  have ⟨e0, l0⟩ := finCode rd; have ⟨e1, l1⟩ := finCode ra
  rcases b with b | b
  · have ⟨e, l⟩ := finCode b
    exact ⟨fitsOf (by simp only [srcReg, Raw.hd]; omega) (immZero h) (.inr rfl), by simp [build, buildScalar, srcReg, Raw.hd, Raw.head, Raw.rD, Raw.rA, Raw.src, e0, e1, e]⟩
  · exact ⟨fitsOf (by simp only [srcImm, Raw.hd]; omega) (w) (.inr rfl), by simp [build, buildScalar, srcImm, Raw.hd, Raw.head, Raw.rD, Raw.rA, Raw.src, e0, e1]⟩
theorem or (h : Hd) (rd ra : Reg) (b : Src) : Statement (.or h rd ra b) := by
  intro w r e; cases e
  have ⟨e0, l0⟩ := finCode rd; have ⟨e1, l1⟩ := finCode ra
  rcases b with b | b
  · have ⟨e, l⟩ := finCode b
    exact ⟨fitsOf (by simp only [srcReg, Raw.hd]; omega) (immZero h) (.inr rfl), by simp [build, buildScalar, srcReg, Raw.hd, Raw.head, Raw.rD, Raw.rA, Raw.src, e0, e1, e]⟩
  · exact ⟨fitsOf (by simp only [srcImm, Raw.hd]; omega) (w) (.inr rfl), by simp [build, buildScalar, srcImm, Raw.hd, Raw.head, Raw.rD, Raw.rA, Raw.src, e0, e1]⟩
theorem xor (h : Hd) (rd ra : Reg) (b : Src) : Statement (.xor h rd ra b) := by
  intro w r e; cases e
  have ⟨e0, l0⟩ := finCode rd; have ⟨e1, l1⟩ := finCode ra
  rcases b with b | b
  · have ⟨e, l⟩ := finCode b
    exact ⟨fitsOf (by simp only [srcReg, Raw.hd]; omega) (immZero h) (.inr rfl), by simp [build, buildScalar, srcReg, Raw.hd, Raw.head, Raw.rD, Raw.rA, Raw.src, e0, e1, e]⟩
  · exact ⟨fitsOf (by simp only [srcImm, Raw.hd]; omega) (w) (.inr rfl), by simp [build, buildScalar, srcImm, Raw.hd, Raw.head, Raw.rD, Raw.rA, Raw.src, e0, e1]⟩
theorem andn (h : Hd) (rd ra : Reg) (b : Src) : Statement (.andn h rd ra b) := by
  intro w r e; cases e
  have ⟨e0, l0⟩ := finCode rd; have ⟨e1, l1⟩ := finCode ra
  rcases b with b | b
  · have ⟨e, l⟩ := finCode b
    exact ⟨fitsOf (by simp only [srcReg, Raw.hd]; omega) (immZero h) (.inr rfl), by simp [build, buildScalar, srcReg, Raw.hd, Raw.head, Raw.rD, Raw.rA, Raw.src, e0, e1, e]⟩
  · exact ⟨fitsOf (by simp only [srcImm, Raw.hd]; omega) (w) (.inr rfl), by simp [build, buildScalar, srcImm, Raw.hd, Raw.head, Raw.rD, Raw.rA, Raw.src, e0, e1]⟩
theorem orn (h : Hd) (rd ra : Reg) (b : Src) : Statement (.orn h rd ra b) := by
  intro w r e; cases e
  have ⟨e0, l0⟩ := finCode rd; have ⟨e1, l1⟩ := finCode ra
  rcases b with b | b
  · have ⟨e, l⟩ := finCode b
    exact ⟨fitsOf (by simp only [srcReg, Raw.hd]; omega) (immZero h) (.inr rfl), by simp [build, buildScalar, srcReg, Raw.hd, Raw.head, Raw.rD, Raw.rA, Raw.src, e0, e1, e]⟩
  · exact ⟨fitsOf (by simp only [srcImm, Raw.hd]; omega) (w) (.inr rfl), by simp [build, buildScalar, srcImm, Raw.hd, Raw.head, Raw.rD, Raw.rA, Raw.src, e0, e1]⟩
theorem shl (h : Hd) (rd ra : Reg) (b : Src) : Statement (.shl h rd ra b) := by
  intro w r e; cases e
  have ⟨e0, l0⟩ := finCode rd; have ⟨e1, l1⟩ := finCode ra
  rcases b with b | b
  · have ⟨e, l⟩ := finCode b
    exact ⟨fitsOf (by simp only [srcReg, Raw.hd]; omega) (immZero h) (.inr rfl), by simp [build, buildScalar, srcReg, Raw.hd, Raw.head, Raw.rD, Raw.rA, Raw.src, e0, e1, e]⟩
  · exact ⟨fitsOf (by simp only [srcImm, Raw.hd]; omega) ((Bool.and_eq_true_iff.1 w).1) (.inr rfl), by simp [build, buildScalar, srcImm, Raw.hd, Raw.head, Raw.rD, Raw.rA, Raw.src, e0, e1]⟩
theorem shr (h : Hd) (rd ra : Reg) (b : Src) : Statement (.shr h rd ra b) := by
  intro w r e; cases e
  have ⟨e0, l0⟩ := finCode rd; have ⟨e1, l1⟩ := finCode ra
  rcases b with b | b
  · have ⟨e, l⟩ := finCode b
    exact ⟨fitsOf (by simp only [srcReg, Raw.hd]; omega) (immZero h) (.inr rfl), by simp [build, buildScalar, srcReg, Raw.hd, Raw.head, Raw.rD, Raw.rA, Raw.src, e0, e1, e]⟩
  · exact ⟨fitsOf (by simp only [srcImm, Raw.hd]; omega) ((Bool.and_eq_true_iff.1 w).1) (.inr rfl), by simp [build, buildScalar, srcImm, Raw.hd, Raw.head, Raw.rD, Raw.rA, Raw.src, e0, e1]⟩
theorem sra (h : Hd) (rd ra : Reg) (b : Src) : Statement (.sra h rd ra b) := by
  intro w r e; cases e
  have ⟨e0, l0⟩ := finCode rd; have ⟨e1, l1⟩ := finCode ra
  rcases b with b | b
  · have ⟨e, l⟩ := finCode b
    exact ⟨fitsOf (by simp only [srcReg, Raw.hd]; omega) (immZero h) (.inr rfl), by simp [build, buildScalar, srcReg, Raw.hd, Raw.head, Raw.rD, Raw.rA, Raw.src, e0, e1, e]⟩
  · exact ⟨fitsOf (by simp only [srcImm, Raw.hd]; omega) ((Bool.and_eq_true_iff.1 w).1) (.inr rfl), by simp [build, buildScalar, srcImm, Raw.hd, Raw.head, Raw.rD, Raw.rA, Raw.src, e0, e1]⟩
theorem rol (h : Hd) (rd ra : Reg) (b : Src) : Statement (.rol h rd ra b) := by
  intro w r e; cases e
  have ⟨e0, l0⟩ := finCode rd; have ⟨e1, l1⟩ := finCode ra
  rcases b with b | b
  · have ⟨e, l⟩ := finCode b
    exact ⟨fitsOf (by simp only [srcReg, Raw.hd]; omega) (immZero h) (.inr rfl), by simp [build, buildScalar, srcReg, Raw.hd, Raw.head, Raw.rD, Raw.rA, Raw.src, e0, e1, e]⟩
  · exact ⟨fitsOf (by simp only [srcImm, Raw.hd]; omega) ((Bool.and_eq_true_iff.1 w).1) (.inr rfl), by simp [build, buildScalar, srcImm, Raw.hd, Raw.head, Raw.rD, Raw.rA, Raw.src, e0, e1]⟩
theorem ror (h : Hd) (rd ra : Reg) (b : Src) : Statement (.ror h rd ra b) := by
  intro w r e; cases e
  have ⟨e0, l0⟩ := finCode rd; have ⟨e1, l1⟩ := finCode ra
  rcases b with b | b
  · have ⟨e, l⟩ := finCode b
    exact ⟨fitsOf (by simp only [srcReg, Raw.hd]; omega) (immZero h) (.inr rfl), by simp [build, buildScalar, srcReg, Raw.hd, Raw.head, Raw.rD, Raw.rA, Raw.src, e0, e1, e]⟩
  · exact ⟨fitsOf (by simp only [srcImm, Raw.hd]; omega) ((Bool.and_eq_true_iff.1 w).1) (.inr rfl), by simp [build, buildScalar, srcImm, Raw.hd, Raw.head, Raw.rD, Raw.rA, Raw.src, e0, e1]⟩
theorem clz (h : Hd) (rd ra : Reg) : Statement (.clz h rd ra) := by
  intro w r e; cases e
  have ⟨e0, l0⟩ := finCode rd; have ⟨e1, l1⟩ := finCode ra
  exact ⟨fitsOf (by simp only [Raw.hd]; omega) (immZero h) (.inr rfl), by simp [build, buildScalar, Raw.hd, Raw.head, Raw.rD, Raw.rA, e0, e1]⟩
theorem ctz (h : Hd) (rd ra : Reg) : Statement (.ctz h rd ra) := by
  intro w r e; cases e
  have ⟨e0, l0⟩ := finCode rd; have ⟨e1, l1⟩ := finCode ra
  exact ⟨fitsOf (by simp only [Raw.hd]; omega) (immZero h) (.inr rfl), by simp [build, buildScalar, Raw.hd, Raw.head, Raw.rD, Raw.rA, e0, e1]⟩
theorem popc (h : Hd) (rd ra : Reg) : Statement (.popc h rd ra) := by
  intro w r e; cases e
  have ⟨e0, l0⟩ := finCode rd; have ⟨e1, l1⟩ := finCode ra
  exact ⟨fitsOf (by simp only [Raw.hd]; omega) (immZero h) (.inr rfl), by simp [build, buildScalar, Raw.hd, Raw.head, Raw.rD, Raw.rA, e0, e1]⟩
theorem min (h : Hd) (rd ra : Reg) (b : Src) : Statement (.min h rd ra b) := by
  intro w r e; cases e
  have ⟨e0, l0⟩ := finCode rd; have ⟨e1, l1⟩ := finCode ra
  rcases b with b | b
  · have ⟨e, l⟩ := finCode b
    exact ⟨fitsOf (by simp only [srcReg, Raw.hd]; omega) (immZero h) (.inr rfl), by simp [build, buildScalar, srcReg, Raw.hd, Raw.head, Raw.rD, Raw.rA, Raw.src, e0, e1, e]⟩
  · exact ⟨fitsOf (by simp only [srcImm, Raw.hd]; omega) (w) (.inr rfl), by simp [build, buildScalar, srcImm, Raw.hd, Raw.head, Raw.rD, Raw.rA, Raw.src, e0, e1]⟩
theorem max (h : Hd) (rd ra : Reg) (b : Src) : Statement (.max h rd ra b) := by
  intro w r e; cases e
  have ⟨e0, l0⟩ := finCode rd; have ⟨e1, l1⟩ := finCode ra
  rcases b with b | b
  · have ⟨e, l⟩ := finCode b
    exact ⟨fitsOf (by simp only [srcReg, Raw.hd]; omega) (immZero h) (.inr rfl), by simp [build, buildScalar, srcReg, Raw.hd, Raw.head, Raw.rD, Raw.rA, Raw.src, e0, e1, e]⟩
  · exact ⟨fitsOf (by simp only [srcImm, Raw.hd]; omega) (w) (.inr rfl), by simp [build, buildScalar, srcImm, Raw.hd, Raw.head, Raw.rD, Raw.rA, Raw.src, e0, e1]⟩
theorem minu (h : Hd) (rd ra : Reg) (b : Src) : Statement (.minu h rd ra b) := by
  intro w r e; cases e
  have ⟨e0, l0⟩ := finCode rd; have ⟨e1, l1⟩ := finCode ra
  rcases b with b | b
  · have ⟨e, l⟩ := finCode b
    exact ⟨fitsOf (by simp only [srcReg, Raw.hd]; omega) (immZero h) (.inr rfl), by simp [build, buildScalar, srcReg, Raw.hd, Raw.head, Raw.rD, Raw.rA, Raw.src, e0, e1, e]⟩
  · exact ⟨fitsOf (by simp only [srcImm, Raw.hd]; omega) (w) (.inr rfl), by simp [build, buildScalar, srcImm, Raw.hd, Raw.head, Raw.rD, Raw.rA, Raw.src, e0, e1]⟩
theorem maxu (h : Hd) (rd ra : Reg) (b : Src) : Statement (.maxu h rd ra b) := by
  intro w r e; cases e
  have ⟨e0, l0⟩ := finCode rd; have ⟨e1, l1⟩ := finCode ra
  rcases b with b | b
  · have ⟨e, l⟩ := finCode b
    exact ⟨fitsOf (by simp only [srcReg, Raw.hd]; omega) (immZero h) (.inr rfl), by simp [build, buildScalar, srcReg, Raw.hd, Raw.head, Raw.rD, Raw.rA, Raw.src, e0, e1, e]⟩
  · exact ⟨fitsOf (by simp only [srcImm, Raw.hd]; omega) (w) (.inr rfl), by simp [build, buildScalar, srcImm, Raw.hd, Raw.head, Raw.rD, Raw.rA, Raw.src, e0, e1]⟩
theorem cmp (h : Hd) (cond : Cond) (rd ra : Reg) (b : Src) : Statement (.cmp h cond rd ra b) := by
  intro w r e; cases e
  have ⟨e0, l0⟩ := condCode cond; have ⟨e1, l1⟩ := finCode rd; have ⟨e2, l2⟩ := finCode ra
  rcases b with b | b
  · have ⟨e, l⟩ := finCode b
    exact ⟨fitsOf (by simp only [srcReg, Raw.hd]; omega) (immZero h) (.inr rfl), by simp [build, buildScalar, srcReg, Raw.hd, Raw.head, Raw.cond, Raw.rD, Raw.rA, Raw.src, e0, e1, e2, (by omega : cond.code % 16 = cond.code), (by omega : (cond.code + 128) % 16 = cond.code), (by omega : cond.code < 128), e]⟩
  · exact ⟨fitsOf (by simp only [srcImm, Raw.hd]; omega) (w) (.inr rfl), by simp [build, buildScalar, srcImm, Raw.hd, Raw.head, Raw.cond, Raw.rD, Raw.rA, Raw.src, e0, e1, e2, (by omega : cond.code % 16 = cond.code), (by omega : (cond.code + 128) % 16 = cond.code), (by omega : cond.code < 128)]⟩
theorem sel (h : Hd) (rd rc ra rb : Reg) : Statement (.sel h rd rc ra rb) := by
  intro w r e; cases e
  have ⟨e0, l0⟩ := finCode rd; have ⟨e1, l1⟩ := finCode rc; have ⟨e2, l2⟩ := finCode ra; have ⟨e3, l3⟩ := finCode rb
  exact ⟨fitsOf (by simp only [Raw.hd]; omega) (immZero h) (.inr rfl), by simp [build, buildScalar, Raw.hd, Raw.head, Raw.rD, Raw.rC, Raw.rA, Raw.rB, e0, e1, e2, e3]⟩
theorem li (h : Hd) (rd : Reg) (i : Word) : Statement (.li h rd i) := by
  intro w r e; cases e
  have ⟨e0, l0⟩ := finCode rd
  exact ⟨fitsOf (by simp only [Raw.hd]; omega) (w) (.inr rfl), by simp [build, buildScalar, Raw.hd, Raw.head, Raw.rD, e0]⟩
theorem bfx (h : Hd) (signed : Bool) (rd ra : Reg) (pos : Fin 64) (lenm1 : Fin 64) : Statement (.bfx h signed rd ra pos lenm1) := by
  intro w r e; cases e
  simp only [Instr.wf, Bool.and_eq_true] at w
  have ⟨e0, l0⟩ := finCode rd; have ⟨e1, l1⟩ := finCode ra; have ⟨e2, l2⟩ := finCode pos; have ⟨e3, l3⟩ := finCode lenm1
  cases signed <;> exact ⟨fitsOf (by simp only [Raw.hd]; simp; try omega) (w.1) (.inr rfl), by simp [build, buildScalar, Raw.hd, Raw.head, Raw.rD, Raw.rA, e0, e1, e2, e3, (by omega : pos.val % 64 = pos.val), (by omega : (pos.val + 64 * lenm1.val) % 18446744073709551616 / 64 = lenm1.val), (by omega : (pos.val + 64 * lenm1.val) % 18446744073709551616 % 64 = pos.val)]⟩
theorem bfi (h : Hd) (rd ra : Reg) (pos : Fin 64) (lenm1 : Fin 64) : Statement (.bfi h rd ra pos lenm1) := by
  intro w r e; cases e
  simp only [Instr.wf, Bool.and_eq_true] at w
  have ⟨e0, l0⟩ := finCode rd; have ⟨e1, l1⟩ := finCode ra; have ⟨e2, l2⟩ := finCode pos; have ⟨e3, l3⟩ := finCode lenm1
  exact ⟨fitsOf (by simp only [Raw.hd]; omega) (w.1) (.inr rfl), by simp [build, buildScalar, Raw.hd, Raw.head, Raw.rD, Raw.rA, e0, e1, e2, e3, (by omega : pos.val % 64 = pos.val), (by omega : (pos.val + 64 * lenm1.val) % 18446744073709551616 / 64 = lenm1.val), (by omega : (pos.val + 64 * lenm1.val) % 18446744073709551616 % 64 = pos.val)]⟩
theorem br (h : Hd) (cond : Cond) (ra rb : Reg) (off : Word) : Statement (.br h cond ra rb off) := by
  intro w r e; cases e
  have ⟨e0, l0⟩ := condCode cond; have ⟨e1, l1⟩ := finCode ra; have ⟨e2, l2⟩ := finCode rb
  exact ⟨fitsOf (by simp only [Raw.hd]; omega) (w) (.inr rfl), by simp [build, buildControl, Raw.hd, Raw.head, Raw.cond, Raw.rA, Raw.rB, e0, e1, e2, (by omega : cond.code % 16 = cond.code)]⟩
theorem jmp (h : Hd) (off : Word) : Statement (.jmp h off) := by
  intro w r e; cases e
  exact ⟨fitsOf (by simp only [Raw.hd]; omega) (w) (.inr rfl), by simp [build, buildControl, Raw.hd, Raw.head]⟩
theorem jmpr (h : Hd) (ra : Reg) : Statement (.jmpr h ra) := by
  intro w r e; cases e
  have ⟨e0, l0⟩ := finCode ra
  exact ⟨fitsOf (by simp only [Raw.hd]; omega) (immZero h) (.inr rfl), by simp [build, buildControl, Raw.hd, Raw.head, Raw.rA, e0]⟩
theorem call (h : Hd) (off : Word) : Statement (.call h off) := by
  intro w r e; cases e
  exact ⟨fitsOf (by simp only [Raw.hd]; omega) (w) (.inr rfl), by simp [build, buildControl, Raw.hd, Raw.head]⟩
theorem callr (h : Hd) (ra : Reg) : Statement (.callr h ra) := by
  intro w r e; cases e
  have ⟨e0, l0⟩ := finCode ra
  exact ⟨fitsOf (by simp only [Raw.hd]; omega) (immZero h) (.inr rfl), by simp [build, buildControl, Raw.hd, Raw.head, Raw.rA, e0]⟩
theorem ret (h : Hd) : Statement (.ret h) := by
  intro w r e; cases e
  exact ⟨fitsOf (by simp only [Raw.hd]; omega) (immZero h) (.inr rfl), by simp [build, buildControl, Raw.hd, Raw.head]⟩
theorem idem (h : Hd) (mask : BitVec 32) : Statement (.idem h mask) := by
  intro w r e; cases e
  exact ⟨fitsOf (by simp only [Raw.hd]; omega) ((Bool.and_eq_true_iff.1 w).1) (.inr rfl), by simp [build, buildControl, Raw.hd, Raw.head, bitsCode (by decide : 32 ≤ 64)]⟩
theorem trapf (h : Hd) : Statement (.trapf h) := by
  intro w r e; cases e
  exact ⟨fitsOf (by simp only [Raw.hd]; omega) (immZero h) (.inr rfl), by simp [build, buildControl, Raw.hd, Raw.head]⟩
theorem trap (h : Hd) (code : BitVec 16) : Statement (.trap h code) := by
  intro w r e; cases e
  exact ⟨fitsOf (by simp only [Raw.hd]; omega) (w) (.inr rfl), by simp [build, buildControl, Raw.hd, Raw.head, bitsCode (by decide : 16 ≤ 64)]⟩
theorem eret (h : Hd) : Statement (.eret h) := by
  intro w r e; cases e
  exact ⟨fitsOf (by simp only [Raw.hd]; omega) (immZero h) (.inr rfl), by simp [build, buildControl, Raw.hd, Raw.head]⟩
theorem nop (h : Hd) : Statement (.nop h) := by
  intro w r e; cases e
  exact ⟨fitsOf (by simp only [Raw.hd]; omega) (immZero h) (.inr rfl), by simp [build, buildControl, Raw.hd, Raw.head]⟩
theorem quit (h : Hd) : Statement (.quit h) := by
  intro w r e; cases e
  exact ⟨fitsOf (by simp only [Raw.hd]; omega) (immZero h) (.inr rfl), by simp [build, buildControl, Raw.hd, Raw.head]⟩
theorem yield (h : Hd) : Statement (.yield h) := by
  intro w r e; cases e
  exact ⟨fitsOf (by simp only [Raw.hd]; omega) (immZero h) (.inr rfl), by simp [build, buildControl, Raw.hd, Raw.head]⟩
theorem brk (h : Hd) (code : BitVec 16) : Statement (.brk h code) := by
  intro w r e; cases e
  exact ⟨fitsOf (by simp only [Raw.hd]; omega) (w) (.inr rfl), by simp [build, buildControl, Raw.hd, Raw.head, bitsCode (by decide : 16 ≤ 64)]⟩
theorem sysr (h : Hd) (rd : Reg) (reg : SysReg) : Statement (.sysr h rd reg) := by
  intro w r e; cases e
  have ⟨e0, l0⟩ := finCode rd; have ⟨e1, l1⟩ := sysCode reg
  exact ⟨fitsOf (by simp only [Raw.hd]; omega) (immNat h _ (by omega)) (.inr rfl), by simp [build, buildControl, Raw.hd, Raw.head, Raw.rD, e0, e1, (by omega : reg.code % 18446744073709551616 = reg.code)]⟩
theorem sysw (h : Hd) (reg : SysReg) (ra : Reg) : Statement (.sysw h reg ra) := by
  intro w r e; cases e
  have ⟨e0, l0⟩ := sysCode reg; have ⟨e1, l1⟩ := finCode ra
  exact ⟨fitsOf (by simp only [Raw.hd]; omega) (immNat h _ (by omega)) (.inr rfl), by simp [build, buildControl, Raw.hd, Raw.head, Raw.rA, e0, e1, (by omega : reg.code % 18446744073709551616 = reg.code)]⟩
theorem sysx (h : Hd) (rd ra : Reg) (reg : SysReg) : Statement (.sysx h rd ra reg) := by
  intro w r e; cases e
  have ⟨e0, l0⟩ := finCode rd; have ⟨e1, l1⟩ := finCode ra; have ⟨e2, l2⟩ := sysCode reg
  exact ⟨fitsOf (by simp only [Raw.hd]; omega) (immNat h _ (by omega)) (.inr rfl), by simp [build, buildControl, Raw.hd, Raw.head, Raw.rD, Raw.rA, e0, e1, e2, (by omega : reg.code % 18446744073709551616 = reg.code)]⟩
theorem ld (h : Hd) (size : Size) (zext : Bool) (rd ra : Reg) (i : Word) : Statement (.ld h size zext rd ra i) := by
  intro w r e; cases e
  simp only [Instr.wf, Bool.and_eq_true] at w
  have ⟨e0, l0⟩ := sizeCode size; have ⟨e1, l1⟩ := finCode rd; have ⟨e2, l2⟩ := finCode ra
  cases zext <;> exact ⟨fitsOf (by simp only [Raw.hd]; simp; try omega) (w.1) (.inr rfl), by simp [build, buildMemory, Raw.hd, Raw.head, Raw.size, Raw.rD, Raw.rA, e0, e1, e2]⟩
theorem st (h : Hd) (size : Size) (rb ra : Reg) (i : Word) : Statement (.st h size rb ra i) := by
  intro w r e; cases e
  have ⟨e0, l0⟩ := sizeCode size; have ⟨e1, l1⟩ := finCode rb; have ⟨e2, l2⟩ := finCode ra
  exact ⟨fitsOf (by simp only [Raw.hd]; omega) (w) (.inr rfl), by simp [build, buildMemory, Raw.hd, Raw.head, Raw.size, Raw.rB, Raw.rA, e0, e1, e2]⟩
theorem pref (h : Hd) (ra : Reg) (i : Word) : Statement (.pref h ra i) := by
  intro w r e; cases e
  have ⟨e0, l0⟩ := finCode ra
  exact ⟨fitsOf (by simp only [Raw.hd]; omega) (w) (.inr rfl), by simp [build, buildMemory, Raw.hd, Raw.head, Raw.rA, e0]⟩
theorem disc (h : Hd) (ra : Reg) (i : Word) : Statement (.disc h ra i) := by
  intro w r e; cases e
  have ⟨e0, l0⟩ := finCode ra
  exact ⟨fitsOf (by simp only [Raw.hd]; omega) (w) (.inr rfl), by simp [build, buildMemory, Raw.hd, Raw.head, Raw.rA, e0]⟩
theorem flushl (h : Hd) (ra : Reg) (i : Word) : Statement (.flushl h ra i) := by
  intro w r e; cases e
  have ⟨e0, l0⟩ := finCode ra
  exact ⟨fitsOf (by simp only [Raw.hd]; omega) (w) (.inr rfl), by simp [build, buildMemory, Raw.hd, Raw.head, Raw.rA, e0]⟩
theorem xinv (h : Hd) (ra rb : Reg) : Statement (.xinv h ra rb) := by
  intro w r e; cases e
  have ⟨e0, l0⟩ := finCode ra; have ⟨e1, l1⟩ := finCode rb
  exact ⟨fitsOf (by simp only [Raw.hd]; omega) (immZero h) (.inr rfl), by simp [build, buildMemory, Raw.hd, Raw.head, Raw.rA, Raw.rB, e0, e1]⟩
theorem drain (h : Hd) (path : Path) : Statement (.drain h path) := by
  intro w r e; cases e
  have ⟨e0, l0⟩ := pathCode path
  exact ⟨fitsOf (by simp only [Raw.hd]; omega) (immZero h) (.inr rfl), by simp [build, buildMemory, Raw.hd, Raw.head, e0, (by omega : path.code % 4 = path.code)]⟩
theorem send (h : Hd) (rd ra rb : Reg) : Statement (.send h rd ra rb) := by
  intro w r e; cases e
  have ⟨e0, l0⟩ := finCode rd; have ⟨e1, l1⟩ := finCode ra; have ⟨e2, l2⟩ := finCode rb
  exact ⟨fitsOf (by simp only [Raw.hd]; omega) (immZero h) (.inr rfl), by simp [build, buildMemory, Raw.hd, Raw.head, Raw.rD, Raw.rA, Raw.rB, e0, e1, e2]⟩
theorem recv (h : Hd) (kind : Kind) (src : Option Reg) (rd : Reg) (mask : BitVec 32) : Statement (.recv h kind src rd mask) := by
  intro w r e; cases e
  simp only [Instr.wf, Bool.and_eq_true] at w
  have ⟨e0, l0⟩ := kindCode kind; have ⟨e1, l1⟩ := finCode rd
  rcases src with _ | src
  · exact ⟨fitsOf (by simp only [fromNone, Raw.hd]; omega) ((Bool.and_eq_true_iff.1 w.2).1) (.inr rfl), by simp [build, buildMemory, fromNone, Raw.hd, Raw.head, Raw.from?, Raw.rD, e0, e1, bitsCode (by decide : 32 ≤ 64), (by omega : kind.code % 16 = kind.code), (by omega : kind.code / 16 % 2 = 0), (by omega : (kind.code + 16) % 16 = kind.code), (by omega : (kind.code / 16 + 1) % 2 = 1), (by omega : kind.code / 32 % 2 = 0), (by omega : (kind.code + 16) / 32 % 2 = 0)]⟩
  · have ⟨e, l⟩ := finCode src
    exact ⟨fitsOf (by simp only [fromSome, Raw.hd]; omega) ((Bool.and_eq_true_iff.1 w.2).1) (.inr rfl), by simp [build, buildMemory, fromSome, Raw.hd, Raw.head, Raw.from?, Raw.rD, e0, e1, bitsCode (by decide : 32 ≤ 64), (by omega : kind.code % 16 = kind.code), (by omega : kind.code / 16 % 2 = 0), (by omega : (kind.code + 16) % 16 = kind.code), (by omega : (kind.code / 16 + 1) % 2 = 1), (by omega : kind.code / 32 % 2 = 0), (by omega : (kind.code + 16) / 32 % 2 = 0), e]⟩
theorem recvKeep (h : Hd) (kind : Kind) (src : Option Reg) (rd : Reg) : Statement (.recvKeep h kind src rd) := by
  intro w r e; cases e
  have ⟨e0, l0⟩ := kindCode kind; have ⟨e1, l1⟩ := finCode rd
  rcases src with _ | src
  · exact ⟨fitsOf (by simp only [fromNone, Raw.hd]; omega) (immZero h) (.inr rfl), by simp [build, buildMemory, fromNone, Raw.hd, Raw.head, Raw.from?, Raw.rD, e0, e1, bitsZero, (by omega : (kind.code + 32) % 16 = kind.code), (by omega : (kind.code + 32) / 16 % 2 = 0), (by omega : (kind.code + 16 + 32) % 16 = kind.code), (by omega : (kind.code + 16 + 32) / 16 % 2 = 1), (by omega : (kind.code / 32 + 1) % 2 = 1), (by omega : ((kind.code + 16) / 32 + 1) % 2 = 1)]⟩
  · have ⟨e, l⟩ := finCode src
    exact ⟨fitsOf (by simp only [fromSome, Raw.hd]; omega) (immZero h) (.inr rfl), by simp [build, buildMemory, fromSome, Raw.hd, Raw.head, Raw.from?, Raw.rD, e0, e1, bitsZero, (by omega : (kind.code + 32) % 16 = kind.code), (by omega : (kind.code + 32) / 16 % 2 = 0), (by omega : (kind.code + 16 + 32) % 16 = kind.code), (by omega : (kind.code + 16 + 32) / 16 % 2 = 1), (by omega : (kind.code / 32 + 1) % 2 = 1), (by omega : ((kind.code + 16) / 32 + 1) % 2 = 1), e]⟩
theorem poll (h : Hd) (kind : Kind) (src : Option Reg) (rd : Reg) : Statement (.poll h kind src rd) := by
  intro w r e; cases e
  have ⟨e0, l0⟩ := kindCode kind; have ⟨e1, l1⟩ := finCode rd
  rcases src with _ | src
  · exact ⟨fitsOf (by simp only [fromNone, Raw.hd]; omega) (immZero h) (.inr rfl), by simp [build, buildMemory, fromNone, Raw.hd, Raw.head, Raw.from?, Raw.rD, e0, e1, (by omega : kind.code % 16 = kind.code), (by omega : kind.code / 16 % 2 = 0), (by omega : (kind.code + 16) % 16 = kind.code), (by omega : (kind.code / 16 + 1) % 2 = 1)]⟩
  · have ⟨e, l⟩ := finCode src
    exact ⟨fitsOf (by simp only [fromSome, Raw.hd]; omega) (immZero h) (.inr rfl), by simp [build, buildMemory, fromSome, Raw.hd, Raw.head, Raw.from?, Raw.rD, e0, e1, (by omega : kind.code % 16 = kind.code), (by omega : kind.code / 16 % 2 = 0), (by omega : (kind.code + 16) % 16 = kind.code), (by omega : (kind.code / 16 + 1) % 2 = 1), e]⟩
theorem watch (h : Hd) (ra : Reg) : Statement (.watch h ra) := by
  intro w r e; cases e
  have ⟨e0, l0⟩ := finCode ra
  exact ⟨fitsOf (by simp only [Raw.hd]; omega) (immZero h) (.inr rfl), by simp [build, buildMemory, Raw.hd, Raw.head, Raw.rA, e0]⟩
theorem unwatch (h : Hd) (ra : Reg) : Statement (.unwatch h ra) := by
  intro w r e; cases e
  have ⟨e0, l0⟩ := finCode ra
  exact ⟨fitsOf (by simp only [Raw.hd]; omega) (immZero h) (.inr rfl), by simp [build, buildMemory, Raw.hd, Raw.head, Raw.rA, e0]⟩
theorem bar (h : Hd) : Statement (.bar h) := by
  intro w r e; cases e
  exact ⟨fitsOf (by simp only [Raw.hd]; omega) (immZero h) (.inr rfl), by simp [build, buildMemory, Raw.hd, Raw.head]⟩
theorem carrive (h : Hd) (ra : Reg) : Statement (.carrive h ra) := by
  intro w r e; cases e
  have ⟨e0, l0⟩ := finCode ra
  exact ⟨fitsOf (by simp only [Raw.hd]; omega) (immZero h) (.inr rfl), by simp [build, buildMemory, Raw.hd, Raw.head, Raw.rA, e0]⟩
theorem cwatch (h : Hd) (ra : Reg) : Statement (.cwatch h ra) := by
  intro w r e; cases e
  have ⟨e0, l0⟩ := finCode ra
  exact ⟨fitsOf (by simp only [Raw.hd]; omega) (immZero h) (.inr rfl), by simp [build, buildMemory, Raw.hd, Raw.head, Raw.rA, e0]⟩
theorem guard (h : Hd) (ra rb rc : Reg) (target : BitVec 32) : Statement (.guard h ra rb rc target) := by
  intro w r e; cases e
  simp only [Instr.wf, Bool.and_eq_true] at w
  have ⟨e0, l0⟩ := finCode ra; have ⟨e1, l1⟩ := finCode rb; have ⟨e2, l2⟩ := finCode rc
  exact ⟨fitsOf (by simp only [Raw.hd]; omega) (w.1) (.inr rfl), by simp [build, buildMemory, Raw.hd, Raw.head, Raw.rA, Raw.rB, Raw.rC, e0, e1, e2, bitsCode (by decide : 32 ≤ 64)]⟩
theorem amo (h : Hd) (op : AmoOp) (size : Size) (rd ra rb : Reg) : Statement (.amo h op size rd ra rb) := by
  intro w r e; cases e
  have ⟨e0, l0⟩ := amoCode op; have ⟨e1, l1⟩ := sizeCode size; have ⟨e2, l2⟩ := finCode rd; have ⟨e3, l3⟩ := finCode ra; have ⟨e4, l4⟩ := finCode rb
  exact ⟨fitsOf (by simp only [Raw.hd]; omega) (immZero h) (.inr rfl), by simp [build, buildMemory, Raw.hd, Raw.head, Raw.size, Raw.rD, Raw.rA, Raw.rB, e0, e1, e2, e3, e4, (by omega : op.code % 16 = op.code)]⟩
theorem cas (h : Hd) (size : Size) (rd ra rb rc : Reg) : Statement (.cas h size rd ra rb rc) := by
  intro w r e; cases e
  have ⟨e0, l0⟩ := sizeCode size; have ⟨e1, l1⟩ := finCode rd; have ⟨e2, l2⟩ := finCode ra; have ⟨e3, l3⟩ := finCode rb; have ⟨e4, l4⟩ := finCode rc
  exact ⟨fitsOf (by simp only [Raw.hd]; omega) (immZero h) (.inr rfl), by simp [build, buildMemory, Raw.hd, Raw.head, Raw.size, Raw.rD, Raw.rA, Raw.rB, Raw.rC, e0, e1, e2, e3, e4]⟩
theorem red (h : Hd) (op : ROp) (ty : ETy) (ra rb : Reg) : Statement (.red h op ty ra rb) := by
  intro w r e; cases e
  simp only [Instr.wf, Bool.and_eq_true] at w
  have ⟨e0, l0⟩ := ropCode op; have ⟨e1, l1⟩ := tyCode ty; have ⟨e2, l2⟩ := finCode ra; have ⟨e3, l3⟩ := finCode rb
  exact ⟨fitsOf (by simp only [Raw.hd]; omega) (immZero h) (.inr rfl), by simp [build, buildMemory, Raw.hd, Raw.head, Raw.rop, Raw.ty, Raw.rA, Raw.rB, e0, e1, e2, e3, (by omega : op.code % 16 = op.code)]⟩
theorem pfxadd (h : Hd) (ra : Reg) : Statement (.pfxadd h ra) := by
  intro w r e; cases e
  simp only [Instr.wf, Bool.and_eq_true] at w
  have ⟨e0, l0⟩ := finCode ra
  exact ⟨fitsOf (by simp only [Raw.hd]; omega) (immZero h) (.inr rfl), by simp [build, buildMemory, Raw.hd, Raw.head, Raw.rA, e0]⟩
theorem spawn (h : Hd) (prio : Fin 4) (ra rb : Reg) (mask : BitVec 32) : Statement (.spawn h prio ra rb mask) := by
  intro w r e; cases e
  have ⟨e0, l0⟩ := finCode prio; have ⟨e1, l1⟩ := finCode ra; have ⟨e2, l2⟩ := finCode rb
  exact ⟨fitsOf (by simp only [Raw.hd]; omega) ((Bool.and_eq_true_iff.1 w).1) (.inr rfl), by simp [build, buildMemory, Raw.hd, Raw.head, Raw.rA, Raw.rB, e0, e1, e2, bitsCode (by decide : 32 ≤ 64), (by omega : prio.val % 4 = prio.val)]⟩
theorem migrate (h : Hd) (ra : Reg) (mask : BitVec 32) : Statement (.migrate h ra mask) := by
  intro w r e; cases e
  have ⟨e0, l0⟩ := finCode ra
  exact ⟨fitsOf (by simp only [Raw.hd]; omega) ((Bool.and_eq_true_iff.1 w).1) (.inr rfl), by simp [build, buildMemory, Raw.hd, Raw.head, Raw.rA, e0, bitsCode (by decide : 32 ≤ 64)]⟩
theorem kand (h : Hd) (kd ka kb : Reg8) : Statement (.kand h kd ka kb) := by
  intro w r e; cases e
  have ⟨e0, l0⟩ := finCode kd; have ⟨e1, l1⟩ := finCode ka; have ⟨e2, l2⟩ := finCode kb
  exact ⟨fitsOf (by simp only [Raw.hd]; omega) (immZero h) (.inr rfl), by simp [build, buildVector, Raw.hd, Raw.head, Raw.sD, Raw.sA, Raw.sB, e0, e1, e2]⟩
theorem kor (h : Hd) (kd ka kb : Reg8) : Statement (.kor h kd ka kb) := by
  intro w r e; cases e
  have ⟨e0, l0⟩ := finCode kd; have ⟨e1, l1⟩ := finCode ka; have ⟨e2, l2⟩ := finCode kb
  exact ⟨fitsOf (by simp only [Raw.hd]; omega) (immZero h) (.inr rfl), by simp [build, buildVector, Raw.hd, Raw.head, Raw.sD, Raw.sA, Raw.sB, e0, e1, e2]⟩
theorem kxor (h : Hd) (kd ka kb : Reg8) : Statement (.kxor h kd ka kb) := by
  intro w r e; cases e
  have ⟨e0, l0⟩ := finCode kd; have ⟨e1, l1⟩ := finCode ka; have ⟨e2, l2⟩ := finCode kb
  exact ⟨fitsOf (by simp only [Raw.hd]; omega) (immZero h) (.inr rfl), by simp [build, buildVector, Raw.hd, Raw.head, Raw.sD, Raw.sA, Raw.sB, e0, e1, e2]⟩
theorem knot (h : Hd) (kd ka : Reg8) : Statement (.knot h kd ka) := by
  intro w r e; cases e
  have ⟨e0, l0⟩ := finCode kd; have ⟨e1, l1⟩ := finCode ka
  exact ⟨fitsOf (by simp only [Raw.hd]; omega) (immZero h) (.inr rfl), by simp [build, buildVector, Raw.hd, Raw.head, Raw.sD, Raw.sA, e0, e1]⟩
theorem kmov (h : Hd) (kd ka : Reg8) : Statement (.kmov h kd ka) := by
  intro w r e; cases e
  have ⟨e0, l0⟩ := finCode kd; have ⟨e1, l1⟩ := finCode ka
  exact ⟨fitsOf (by simp only [Raw.hd]; omega) (immZero h) (.inr rfl), by simp [build, buildVector, Raw.hd, Raw.head, Raw.sD, Raw.sA, e0, e1]⟩
theorem kpop (h : Hd) (rd : Reg) (ka : Reg8) : Statement (.kpop h rd ka) := by
  intro w r e; cases e
  have ⟨e0, l0⟩ := finCode rd; have ⟨e1, l1⟩ := finCode ka
  exact ⟨fitsOf (by simp only [Raw.hd]; omega) (immZero h) (.inr rfl), by simp [build, buildVector, Raw.hd, Raw.head, Raw.rD, Raw.sA, e0, e1]⟩
theorem vadd (h : Hd) (p : Pred) (c : Ctl) (ty : ETy) (vd va vb : Reg) : Statement (.vadd h p c ty vd va vb) := by
  intro w r e; cases e
  simp only [Instr.wf, Bool.and_eq_true] at w
  have ⟨e0, l0⟩ := finCode p.k; have ⟨e1, l1⟩ := ctlCode c; have ⟨e2, l2⟩ := tyCode ty; have ⟨e3, l3⟩ := finCode vd; have ⟨e4, l4⟩ := finCode va; have ⟨e5, l5⟩ := finCode vb
  exact ⟨fitsOf (by simp only [Raw.hd, Raw.withP]; omega) (immZero h) (ctlZero w.2), by simp [build, buildVector, Raw.hd, Raw.head, Raw.withP, Raw.pred, Raw.c, Raw.ty, Raw.rD, Raw.rA, Raw.rB, e0, e1, e2, e3, e4, e5]⟩
theorem vsub (h : Hd) (p : Pred) (c : Ctl) (ty : ETy) (vd va vb : Reg) : Statement (.vsub h p c ty vd va vb) := by
  intro w r e; cases e
  simp only [Instr.wf, Bool.and_eq_true] at w
  have ⟨e0, l0⟩ := finCode p.k; have ⟨e1, l1⟩ := ctlCode c; have ⟨e2, l2⟩ := tyCode ty; have ⟨e3, l3⟩ := finCode vd; have ⟨e4, l4⟩ := finCode va; have ⟨e5, l5⟩ := finCode vb
  exact ⟨fitsOf (by simp only [Raw.hd, Raw.withP]; omega) (immZero h) (ctlZero w.2), by simp [build, buildVector, Raw.hd, Raw.head, Raw.withP, Raw.pred, Raw.c, Raw.ty, Raw.rD, Raw.rA, Raw.rB, e0, e1, e2, e3, e4, e5]⟩
theorem vmul (h : Hd) (p : Pred) (c : Ctl) (ty : ETy) (vd va vb : Reg) : Statement (.vmul h p c ty vd va vb) := by
  intro w r e; cases e
  simp only [Instr.wf, Bool.and_eq_true] at w
  have ⟨e0, l0⟩ := finCode p.k; have ⟨e1, l1⟩ := ctlCode c; have ⟨e2, l2⟩ := tyCode ty; have ⟨e3, l3⟩ := finCode vd; have ⟨e4, l4⟩ := finCode va; have ⟨e5, l5⟩ := finCode vb
  exact ⟨fitsOf (by simp only [Raw.hd, Raw.withP]; omega) (immZero h) (ctlZero w.2), by simp [build, buildVector, Raw.hd, Raw.head, Raw.withP, Raw.pred, Raw.c, Raw.ty, Raw.rD, Raw.rA, Raw.rB, e0, e1, e2, e3, e4, e5]⟩
theorem vfma (h : Hd) (p : Pred) (c : Ctl) (ty : ETy) (vd va vb vc : Reg) : Statement (.vfma h p c ty vd va vb vc) := by
  intro w r e; cases e
  simp only [Instr.wf, Bool.and_eq_true] at w
  have ⟨e0, l0⟩ := finCode p.k; have ⟨e1, l1⟩ := ctlCode c; have ⟨e2, l2⟩ := tyCode ty; have ⟨e3, l3⟩ := finCode vd; have ⟨e4, l4⟩ := finCode va; have ⟨e5, l5⟩ := finCode vb; have ⟨e6, l6⟩ := finCode vc
  exact ⟨fitsOf (by simp only [Raw.hd, Raw.withP]; omega) (immZero h) (ctlZero w.2), by simp [build, buildVector, Raw.hd, Raw.head, Raw.withP, Raw.pred, Raw.c, Raw.ty, Raw.rD, Raw.rA, Raw.rB, Raw.rC, e0, e1, e2, e3, e4, e5, e6]⟩
theorem vfms (h : Hd) (p : Pred) (c : Ctl) (ty : ETy) (vd va vb vc : Reg) : Statement (.vfms h p c ty vd va vb vc) := by
  intro w r e; cases e
  simp only [Instr.wf, Bool.and_eq_true] at w
  have ⟨e0, l0⟩ := finCode p.k; have ⟨e1, l1⟩ := ctlCode c; have ⟨e2, l2⟩ := tyCode ty; have ⟨e3, l3⟩ := finCode vd; have ⟨e4, l4⟩ := finCode va; have ⟨e5, l5⟩ := finCode vb; have ⟨e6, l6⟩ := finCode vc
  exact ⟨fitsOf (by simp only [Raw.hd, Raw.withP]; omega) (immZero h) (ctlZero w.2), by simp [build, buildVector, Raw.hd, Raw.head, Raw.withP, Raw.pred, Raw.c, Raw.ty, Raw.rD, Raw.rA, Raw.rB, Raw.rC, e0, e1, e2, e3, e4, e5, e6]⟩
theorem vfnma (h : Hd) (p : Pred) (c : Ctl) (ty : ETy) (vd va vb vc : Reg) : Statement (.vfnma h p c ty vd va vb vc) := by
  intro w r e; cases e
  simp only [Instr.wf, Bool.and_eq_true] at w
  have ⟨e0, l0⟩ := finCode p.k; have ⟨e1, l1⟩ := ctlCode c; have ⟨e2, l2⟩ := tyCode ty; have ⟨e3, l3⟩ := finCode vd; have ⟨e4, l4⟩ := finCode va; have ⟨e5, l5⟩ := finCode vb; have ⟨e6, l6⟩ := finCode vc
  exact ⟨fitsOf (by simp only [Raw.hd, Raw.withP]; omega) (immZero h) (ctlZero w.2), by simp [build, buildVector, Raw.hd, Raw.head, Raw.withP, Raw.pred, Raw.c, Raw.ty, Raw.rD, Raw.rA, Raw.rB, Raw.rC, e0, e1, e2, e3, e4, e5, e6]⟩
theorem vdiv (h : Hd) (p : Pred) (c : Ctl) (ty : ETy) (vd va vb : Reg) : Statement (.vdiv h p c ty vd va vb) := by
  intro w r e; cases e
  simp only [Instr.wf, Bool.and_eq_true] at w
  have ⟨e0, l0⟩ := finCode p.k; have ⟨e1, l1⟩ := ctlCode c; have ⟨e2, l2⟩ := tyCode ty; have ⟨e3, l3⟩ := finCode vd; have ⟨e4, l4⟩ := finCode va; have ⟨e5, l5⟩ := finCode vb
  exact ⟨fitsOf (by simp only [Raw.hd, Raw.withP]; omega) (immZero h) (ctlZero w.2), by simp [build, buildVector, Raw.hd, Raw.head, Raw.withP, Raw.pred, Raw.c, Raw.ty, Raw.rD, Raw.rA, Raw.rB, e0, e1, e2, e3, e4, e5]⟩
theorem vsqrt (h : Hd) (p : Pred) (c : Ctl) (ty : ETy) (vd va : Reg) : Statement (.vsqrt h p c ty vd va) := by
  intro w r e; cases e
  simp only [Instr.wf, Bool.and_eq_true] at w
  have ⟨e0, l0⟩ := finCode p.k; have ⟨e1, l1⟩ := ctlCode c; have ⟨e2, l2⟩ := tyCode ty; have ⟨e3, l3⟩ := finCode vd; have ⟨e4, l4⟩ := finCode va
  exact ⟨fitsOf (by simp only [Raw.hd, Raw.withP]; omega) (immZero h) (ctlZero w.2), by simp [build, buildVector, Raw.hd, Raw.head, Raw.withP, Raw.pred, Raw.c, Raw.ty, Raw.rD, Raw.rA, e0, e1, e2, e3, e4]⟩
theorem vrcp (h : Hd) (p : Pred) (c : Ctl) (ty : ETy) (vd va : Reg) : Statement (.vrcp h p c ty vd va) := by
  intro w r e; cases e
  simp only [Instr.wf, Bool.and_eq_true] at w
  have ⟨e0, l0⟩ := finCode p.k; have ⟨e1, l1⟩ := ctlCode c; have ⟨e2, l2⟩ := tyCode ty; have ⟨e3, l3⟩ := finCode vd; have ⟨e4, l4⟩ := finCode va
  exact ⟨fitsOf (by simp only [Raw.hd, Raw.withP]; omega) (immZero h) (ctlZero w.2), by simp [build, buildVector, Raw.hd, Raw.head, Raw.withP, Raw.pred, Raw.c, Raw.ty, Raw.rD, Raw.rA, e0, e1, e2, e3, e4]⟩
theorem vrsqrt (h : Hd) (p : Pred) (c : Ctl) (ty : ETy) (vd va : Reg) : Statement (.vrsqrt h p c ty vd va) := by
  intro w r e; cases e
  simp only [Instr.wf, Bool.and_eq_true] at w
  have ⟨e0, l0⟩ := finCode p.k; have ⟨e1, l1⟩ := ctlCode c; have ⟨e2, l2⟩ := tyCode ty; have ⟨e3, l3⟩ := finCode vd; have ⟨e4, l4⟩ := finCode va
  exact ⟨fitsOf (by simp only [Raw.hd, Raw.withP]; omega) (immZero h) (ctlZero w.2), by simp [build, buildVector, Raw.hd, Raw.head, Raw.withP, Raw.pred, Raw.c, Raw.ty, Raw.rD, Raw.rA, e0, e1, e2, e3, e4]⟩
theorem vexp2 (h : Hd) (p : Pred) (c : Ctl) (ty : ETy) (vd va : Reg) : Statement (.vexp2 h p c ty vd va) := by
  intro w r e; cases e
  simp only [Instr.wf, Bool.and_eq_true] at w
  have ⟨e0, l0⟩ := finCode p.k; have ⟨e1, l1⟩ := ctlCode c; have ⟨e2, l2⟩ := tyCode ty; have ⟨e3, l3⟩ := finCode vd; have ⟨e4, l4⟩ := finCode va
  exact ⟨fitsOf (by simp only [Raw.hd, Raw.withP]; omega) (immZero h) (ctlZero w.2), by simp [build, buildVector, Raw.hd, Raw.head, Raw.withP, Raw.pred, Raw.c, Raw.ty, Raw.rD, Raw.rA, e0, e1, e2, e3, e4]⟩
theorem vlog2 (h : Hd) (p : Pred) (c : Ctl) (ty : ETy) (vd va : Reg) : Statement (.vlog2 h p c ty vd va) := by
  intro w r e; cases e
  simp only [Instr.wf, Bool.and_eq_true] at w
  have ⟨e0, l0⟩ := finCode p.k; have ⟨e1, l1⟩ := ctlCode c; have ⟨e2, l2⟩ := tyCode ty; have ⟨e3, l3⟩ := finCode vd; have ⟨e4, l4⟩ := finCode va
  exact ⟨fitsOf (by simp only [Raw.hd, Raw.withP]; omega) (immZero h) (ctlZero w.2), by simp [build, buildVector, Raw.hd, Raw.head, Raw.withP, Raw.pred, Raw.c, Raw.ty, Raw.rD, Raw.rA, e0, e1, e2, e3, e4]⟩
theorem vmin (h : Hd) (p : Pred) (c : Ctl) (ty : ETy) (vd va vb : Reg) : Statement (.vmin h p c ty vd va vb) := by
  intro w r e; cases e
  simp only [Instr.wf, Bool.and_eq_true] at w
  have ⟨e0, l0⟩ := finCode p.k; have ⟨e1, l1⟩ := ctlCode c; have ⟨e2, l2⟩ := tyCode ty; have ⟨e3, l3⟩ := finCode vd; have ⟨e4, l4⟩ := finCode va; have ⟨e5, l5⟩ := finCode vb
  exact ⟨fitsOf (by simp only [Raw.hd, Raw.withP]; omega) (immZero h) (ctlZero w.2), by simp [build, buildVector, Raw.hd, Raw.head, Raw.withP, Raw.pred, Raw.c, Raw.ty, Raw.rD, Raw.rA, Raw.rB, e0, e1, e2, e3, e4, e5]⟩
theorem vmax (h : Hd) (p : Pred) (c : Ctl) (ty : ETy) (vd va vb : Reg) : Statement (.vmax h p c ty vd va vb) := by
  intro w r e; cases e
  simp only [Instr.wf, Bool.and_eq_true] at w
  have ⟨e0, l0⟩ := finCode p.k; have ⟨e1, l1⟩ := ctlCode c; have ⟨e2, l2⟩ := tyCode ty; have ⟨e3, l3⟩ := finCode vd; have ⟨e4, l4⟩ := finCode va; have ⟨e5, l5⟩ := finCode vb
  exact ⟨fitsOf (by simp only [Raw.hd, Raw.withP]; omega) (immZero h) (ctlZero w.2), by simp [build, buildVector, Raw.hd, Raw.head, Raw.withP, Raw.pred, Raw.c, Raw.ty, Raw.rD, Raw.rA, Raw.rB, e0, e1, e2, e3, e4, e5]⟩
theorem vabs (h : Hd) (p : Pred) (ty : ETy) (vd va : Reg) : Statement (.vabs h p ty vd va) := by
  intro w r e; cases e
  simp only [Instr.wf, Bool.and_eq_true] at w
  have ⟨e0, l0⟩ := finCode p.k; have ⟨e1, l1⟩ := tyCode ty; have ⟨e2, l2⟩ := finCode vd; have ⟨e3, l3⟩ := finCode va
  exact ⟨fitsOf (by simp only [Raw.hd, Raw.withP]; omega) (immZero h) (.inr rfl), by simp [build, buildVector, Raw.hd, Raw.head, Raw.withP, Raw.pred, Raw.ty, Raw.rD, Raw.rA, e0, e1, e2, e3]⟩
theorem vneg (h : Hd) (p : Pred) (ty : ETy) (vd va : Reg) : Statement (.vneg h p ty vd va) := by
  intro w r e; cases e
  simp only [Instr.wf, Bool.and_eq_true] at w
  have ⟨e0, l0⟩ := finCode p.k; have ⟨e1, l1⟩ := tyCode ty; have ⟨e2, l2⟩ := finCode vd; have ⟨e3, l3⟩ := finCode va
  exact ⟨fitsOf (by simp only [Raw.hd, Raw.withP]; omega) (immZero h) (.inr rfl), by simp [build, buildVector, Raw.hd, Raw.head, Raw.withP, Raw.pred, Raw.ty, Raw.rD, Raw.rA, e0, e1, e2, e3]⟩
theorem vcmp (h : Hd) (p : Pred) (c : Ctl) (cond : Cond) (ty : ETy) (kd : Reg8) (va vb : Reg) : Statement (.vcmp h p c cond ty kd va vb) := by
  intro w r e; cases e
  simp only [Instr.wf, Bool.and_eq_true] at w
  have ⟨e0, l0⟩ := finCode p.k; have ⟨e1, l1⟩ := ctlCode c; have ⟨e2, l2⟩ := condCode cond; have ⟨e3, l3⟩ := tyCode ty; have ⟨e4, l4⟩ := finCode kd; have ⟨e5, l5⟩ := finCode va; have ⟨e6, l6⟩ := finCode vb
  exact ⟨fitsOf (by simp only [Raw.hd, Raw.withP]; omega) (immZero h) (ctlZero w.2), by simp [build, buildVector, Raw.hd, Raw.head, Raw.withP, Raw.pred, Raw.c, Raw.cond, Raw.ty, Raw.sD, Raw.rA, Raw.rB, e0, e1, e2, e3, e4, e5, e6, (by omega : cond.code % 16 = cond.code)]⟩
theorem vsel (h : Hd) (p : Pred) (ty : ETy) (vd va vb : Reg) : Statement (.vsel h p ty vd va vb) := by
  intro w r e; cases e
  simp only [Instr.wf, Bool.and_eq_true] at w
  have ⟨e0, l0⟩ := finCode p.k; have ⟨e1, l1⟩ := tyCode ty; have ⟨e2, l2⟩ := finCode vd; have ⟨e3, l3⟩ := finCode va; have ⟨e4, l4⟩ := finCode vb
  exact ⟨fitsOf (by simp only [Raw.hd, Raw.withP]; omega) (immZero h) (.inr rfl), by simp [build, buildVector, Raw.hd, Raw.head, Raw.withP, Raw.pred, Raw.ty, Raw.rD, Raw.rA, Raw.rB, e0, e1, e2, e3, e4]⟩
theorem vand (h : Hd) (p : Pred) (vd va vb : Reg) : Statement (.vand h p vd va vb) := by
  intro w r e; cases e
  have ⟨e0, l0⟩ := finCode p.k; have ⟨e1, l1⟩ := finCode vd; have ⟨e2, l2⟩ := finCode va; have ⟨e3, l3⟩ := finCode vb
  exact ⟨fitsOf (by simp only [Raw.hd, Raw.withP]; omega) (immZero h) (.inr rfl), by simp [build, buildVector, Raw.hd, Raw.head, Raw.withP, Raw.pred, Raw.rD, Raw.rA, Raw.rB, e0, e1, e2, e3]⟩
theorem vor (h : Hd) (p : Pred) (vd va vb : Reg) : Statement (.vor h p vd va vb) := by
  intro w r e; cases e
  have ⟨e0, l0⟩ := finCode p.k; have ⟨e1, l1⟩ := finCode vd; have ⟨e2, l2⟩ := finCode va; have ⟨e3, l3⟩ := finCode vb
  exact ⟨fitsOf (by simp only [Raw.hd, Raw.withP]; omega) (immZero h) (.inr rfl), by simp [build, buildVector, Raw.hd, Raw.head, Raw.withP, Raw.pred, Raw.rD, Raw.rA, Raw.rB, e0, e1, e2, e3]⟩
theorem vxor (h : Hd) (p : Pred) (vd va vb : Reg) : Statement (.vxor h p vd va vb) := by
  intro w r e; cases e
  have ⟨e0, l0⟩ := finCode p.k; have ⟨e1, l1⟩ := finCode vd; have ⟨e2, l2⟩ := finCode va; have ⟨e3, l3⟩ := finCode vb
  exact ⟨fitsOf (by simp only [Raw.hd, Raw.withP]; omega) (immZero h) (.inr rfl), by simp [build, buildVector, Raw.hd, Raw.head, Raw.withP, Raw.pred, Raw.rD, Raw.rA, Raw.rB, e0, e1, e2, e3]⟩
theorem vlop3 (h : Hd) (p : Pred) (vd va vb vc : Reg) (table : BitVec 8) : Statement (.vlop3 h p vd va vb vc table) := by
  intro w r e; cases e
  simp only [Instr.wf, Bool.and_eq_true] at w
  have ⟨e0, l0⟩ := finCode p.k; have ⟨e1, l1⟩ := finCode vd; have ⟨e2, l2⟩ := finCode va; have ⟨e3, l3⟩ := finCode vb; have ⟨e4, l4⟩ := finCode vc
  exact ⟨fitsOf (by simp only [Raw.hd, Raw.withP]; omega) (w.2) (.inr rfl), by simp [build, buildVector, Raw.hd, Raw.head, Raw.withP, Raw.pred, Raw.rD, Raw.rA, Raw.rB, Raw.rC, e0, e1, e2, e3, e4, bitsCode (by decide : 8 ≤ 64)]⟩
theorem vshl (h : Hd) (p : Pred) (ty : ETy) (vd va : Reg) (b : Src) : Statement (.vshl h p ty vd va b) := by
  intro w r e; cases e
  simp only [Instr.wf, Bool.and_eq_true] at w
  have ⟨e0, l0⟩ := finCode p.k; have ⟨e1, l1⟩ := tyCode ty; have ⟨e2, l2⟩ := finCode vd; have ⟨e3, l3⟩ := finCode va
  rcases b with b | b
  · have ⟨e, l⟩ := finCode b
    exact ⟨fitsOf (by simp only [srcReg, Raw.hd, Raw.withP]; omega) (immZero h) (.inr rfl), by simp [build, buildVector, srcReg, Raw.hd, Raw.head, Raw.withP, Raw.pred, Raw.ty, Raw.rD, Raw.rA, Raw.src, e0, e1, e2, e3, e]⟩
  · exact ⟨fitsOf (by simp only [srcImm, Raw.hd, Raw.withP]; omega) ((Bool.and_eq_true_iff.1 w.2).1) (.inr rfl), by simp [build, buildVector, srcImm, Raw.hd, Raw.head, Raw.withP, Raw.pred, Raw.ty, Raw.rD, Raw.rA, Raw.src, e0, e1, e2, e3]⟩
theorem vshr (h : Hd) (p : Pred) (ty : ETy) (vd va : Reg) (b : Src) : Statement (.vshr h p ty vd va b) := by
  intro w r e; cases e
  simp only [Instr.wf, Bool.and_eq_true] at w
  have ⟨e0, l0⟩ := finCode p.k; have ⟨e1, l1⟩ := tyCode ty; have ⟨e2, l2⟩ := finCode vd; have ⟨e3, l3⟩ := finCode va
  rcases b with b | b
  · have ⟨e, l⟩ := finCode b
    exact ⟨fitsOf (by simp only [srcReg, Raw.hd, Raw.withP]; omega) (immZero h) (.inr rfl), by simp [build, buildVector, srcReg, Raw.hd, Raw.head, Raw.withP, Raw.pred, Raw.ty, Raw.rD, Raw.rA, Raw.src, e0, e1, e2, e3, e]⟩
  · exact ⟨fitsOf (by simp only [srcImm, Raw.hd, Raw.withP]; omega) ((Bool.and_eq_true_iff.1 w.2).1) (.inr rfl), by simp [build, buildVector, srcImm, Raw.hd, Raw.head, Raw.withP, Raw.pred, Raw.ty, Raw.rD, Raw.rA, Raw.src, e0, e1, e2, e3]⟩
theorem vsra (h : Hd) (p : Pred) (ty : ETy) (vd va : Reg) (b : Src) : Statement (.vsra h p ty vd va b) := by
  intro w r e; cases e
  simp only [Instr.wf, Bool.and_eq_true] at w
  have ⟨e0, l0⟩ := finCode p.k; have ⟨e1, l1⟩ := tyCode ty; have ⟨e2, l2⟩ := finCode vd; have ⟨e3, l3⟩ := finCode va
  rcases b with b | b
  · have ⟨e, l⟩ := finCode b
    exact ⟨fitsOf (by simp only [srcReg, Raw.hd, Raw.withP]; omega) (immZero h) (.inr rfl), by simp [build, buildVector, srcReg, Raw.hd, Raw.head, Raw.withP, Raw.pred, Raw.ty, Raw.rD, Raw.rA, Raw.src, e0, e1, e2, e3, e]⟩
  · exact ⟨fitsOf (by simp only [srcImm, Raw.hd, Raw.withP]; omega) ((Bool.and_eq_true_iff.1 w.2).1) (.inr rfl), by simp [build, buildVector, srcImm, Raw.hd, Raw.head, Raw.withP, Raw.pred, Raw.ty, Raw.rD, Raw.rA, Raw.src, e0, e1, e2, e3]⟩
theorem vfsh (h : Hd) (p : Pred) (ty : ETy) (vd va vb vc : Reg) : Statement (.vfsh h p ty vd va vb vc) := by
  intro w r e; cases e
  simp only [Instr.wf, Bool.and_eq_true] at w
  have ⟨e0, l0⟩ := finCode p.k; have ⟨e1, l1⟩ := tyCode ty; have ⟨e2, l2⟩ := finCode vd; have ⟨e3, l3⟩ := finCode va; have ⟨e4, l4⟩ := finCode vb; have ⟨e5, l5⟩ := finCode vc
  exact ⟨fitsOf (by simp only [Raw.hd, Raw.withP]; omega) (immZero h) (.inr rfl), by simp [build, buildVector, Raw.hd, Raw.head, Raw.withP, Raw.pred, Raw.ty, Raw.rD, Raw.rA, Raw.rB, Raw.rC, e0, e1, e2, e3, e4, e5]⟩
theorem vrot (h : Hd) (p : Pred) (vd va : Reg) (b : Src) : Statement (.vrot h p vd va b) := by
  intro w r e; cases e
  simp only [Instr.wf, Bool.and_eq_true] at w
  have ⟨e0, l0⟩ := finCode p.k; have ⟨e1, l1⟩ := finCode vd; have ⟨e2, l2⟩ := finCode va
  rcases b with b | b
  · have ⟨e, l⟩ := finCode b
    exact ⟨fitsOf (by simp only [srcReg, Raw.hd, Raw.withP]; omega) (immZero h) (.inr rfl), by simp [build, buildVector, srcReg, Raw.hd, Raw.head, Raw.withP, Raw.pred, Raw.rD, Raw.rA, Raw.src, e0, e1, e2, e]⟩
  · exact ⟨fitsOf (by simp only [srcImm, Raw.hd, Raw.withP]; omega) ((Bool.and_eq_true_iff.1 w.2).1) (.inr rfl), by simp [build, buildVector, srcImm, Raw.hd, Raw.head, Raw.withP, Raw.pred, Raw.rD, Raw.rA, Raw.src, e0, e1, e2]⟩
theorem vperm (h : Hd) (p : Pred) (vd va vb : Reg) : Statement (.vperm h p vd va vb) := by
  intro w r e; cases e
  have ⟨e0, l0⟩ := finCode p.k; have ⟨e1, l1⟩ := finCode vd; have ⟨e2, l2⟩ := finCode va; have ⟨e3, l3⟩ := finCode vb
  exact ⟨fitsOf (by simp only [Raw.hd, Raw.withP]; omega) (immZero h) (.inr rfl), by simp [build, buildVector, Raw.hd, Raw.head, Raw.withP, Raw.pred, Raw.rD, Raw.rA, Raw.rB, e0, e1, e2, e3]⟩
theorem vbcast (h : Hd) (p : Pred) (ty : ETy) (vd ra : Reg) : Statement (.vbcast h p ty vd ra) := by
  intro w r e; cases e
  simp only [Instr.wf, Bool.and_eq_true] at w
  have ⟨e0, l0⟩ := finCode p.k; have ⟨e1, l1⟩ := tyCode ty; have ⟨e2, l2⟩ := finCode vd; have ⟨e3, l3⟩ := finCode ra
  exact ⟨fitsOf (by simp only [Raw.hd, Raw.withP]; omega) (immZero h) (.inr rfl), by simp [build, buildVector, Raw.hd, Raw.head, Raw.withP, Raw.pred, Raw.ty, Raw.rD, Raw.rA, e0, e1, e2, e3]⟩
theorem vext (h : Hd) (ty : ETy) (rd va : Reg) (e : Nat) : Statement (.vext h ty rd va e) := by
  intro w r e; cases e
  simp only [Instr.wf, Bool.and_eq_true] at w
  have ⟨e0, l0⟩ := tyCode ty; have ⟨e1, l1⟩ := finCode rd; have ⟨e2, l2⟩ := finCode va; have ⟨p1, p2, p3⟩ := perLane ty; have p4 := of_decide_eq_true w.1.2; have p5 := Nat.mod_lt e p1; have p6 : e / ty.perLane ≤ e := Nat.div_le_self _ _; have p7 := Nat.zero_le (e / ty.perLane)
  exact ⟨fitsOf (by simp only [Raw.hd]; omega) (w.2) (.inr rfl), by simp [build, buildVector, Raw.hd, Raw.head, Raw.ty, Raw.rD, Raw.rA, e0, e1, e2, (by omega : e / ty.perLane % 18446744073709551616 = e / ty.perLane), Nat.div_add_mod']⟩
theorem vins (h : Hd) (ty : ETy) (vd ra : Reg) (e : Nat) : Statement (.vins h ty vd ra e) := by
  intro w r e; cases e
  simp only [Instr.wf, Bool.and_eq_true] at w
  have ⟨e0, l0⟩ := tyCode ty; have ⟨e1, l1⟩ := finCode vd; have ⟨e2, l2⟩ := finCode ra; have ⟨p1, p2, p3⟩ := perLane ty; have p4 := of_decide_eq_true w.1.2; have p5 := Nat.mod_lt e p1; have p6 : e / ty.perLane ≤ e := Nat.div_le_self _ _; have p7 := Nat.zero_le (e / ty.perLane)
  exact ⟨fitsOf (by simp only [Raw.hd]; omega) (w.2) (.inr rfl), by simp [build, buildVector, Raw.hd, Raw.head, Raw.ty, Raw.rD, Raw.rA, e0, e1, e2, (by omega : e / ty.perLane % 18446744073709551616 = e / ty.perLane), Nat.div_add_mod']⟩
theorem vcvt (h : Hd) (p : Pred) (c : Ctl) (dst src : ETy) (vd va : Reg) : Statement (.vcvt h p c dst src vd va) := by
  intro w r e; cases e
  simp only [Instr.wf, Bool.and_eq_true] at w
  have ⟨e0, l0⟩ := finCode p.k; have ⟨e1, l1⟩ := ctlCode c; have ⟨e2, l2⟩ := tyCode dst; have ⟨e3, l3⟩ := tyCode src; have ⟨e4, l4⟩ := finCode vd; have ⟨e5, l5⟩ := finCode va
  exact ⟨fitsOf (by simp only [Raw.hd, Raw.withP]; omega) (immZero h) (ctlZero w.2), by simp [build, buildVector, Raw.hd, Raw.head, Raw.withP, Raw.pred, Raw.c, Raw.ty, Raw.rD, Raw.rA, e0, e1, e2, e3, e4, e5, (by omega : src.code % 16 = src.code)]⟩
theorem vred (h : Hd) (p : Pred) (c : Ctl) (op : ROp) (ty : ETy) (vd va : Reg) : Statement (.vred h p c op ty vd va) := by
  intro w r e; cases e
  simp only [Instr.wf, Bool.and_eq_true] at w
  have ⟨e0, l0⟩ := finCode p.k; have ⟨e1, l1⟩ := ctlCode c; have ⟨e2, l2⟩ := ropCode op; have ⟨e3, l3⟩ := tyCode ty; have ⟨e4, l4⟩ := finCode vd; have ⟨e5, l5⟩ := finCode va
  exact ⟨fitsOf (by simp only [Raw.hd, Raw.withP]; omega) (immZero h) (ctlZero w.2), by simp [build, buildMatrix, Raw.hd, Raw.head, Raw.withP, Raw.pred, Raw.c, Raw.rop, Raw.ty, Raw.rD, Raw.rA, e0, e1, e2, e3, e4, e5, (by omega : op.code % 16 = op.code)]⟩
theorem vscan (h : Hd) (p : Pred) (c : Ctl) (op : ROp) (ty : ETy) (vd va : Reg) : Statement (.vscan h p c op ty vd va) := by
  intro w r e; cases e
  simp only [Instr.wf, Bool.and_eq_true] at w
  have ⟨e0, l0⟩ := finCode p.k; have ⟨e1, l1⟩ := ctlCode c; have ⟨e2, l2⟩ := ropCode op; have ⟨e3, l3⟩ := tyCode ty; have ⟨e4, l4⟩ := finCode vd; have ⟨e5, l5⟩ := finCode va
  exact ⟨fitsOf (by simp only [Raw.hd, Raw.withP]; omega) (immZero h) (ctlZero w.2), by simp [build, buildMatrix, Raw.hd, Raw.head, Raw.withP, Raw.pred, Raw.c, Raw.rop, Raw.ty, Raw.rD, Raw.rA, e0, e1, e2, e3, e4, e5, (by omega : op.code % 16 = op.code)]⟩
theorem vtopk (h : Hd) (p : Pred) (c : Ctl) (ty : ETy) (vd va : Reg) (count : Nat) : Statement (.vtopk h p c ty vd va count) := by
  intro w r e; cases e
  simp only [Instr.wf, Bool.and_eq_true] at w
  have ⟨e0, l0⟩ := finCode p.k; have ⟨e1, l1⟩ := ctlCode c; have ⟨e2, l2⟩ := tyCode ty; have ⟨e3, l3⟩ := finCode vd; have ⟨e4, l4⟩ := finCode va; have hn := topLt w.1.2
  exact ⟨fitsOf (by simp only [Raw.hd, Raw.withP]; omega) (w.2) (ctlZero w.1.1.1.2), by simp [build, buildMatrix, Raw.hd, Raw.head, Raw.withP, Raw.pred, Raw.c, Raw.ty, Raw.rD, Raw.rA, e0, e1, e2, e3, e4, (by omega : count % 18446744073709551616 = count), (by omega : count < 18446744073709551616)]⟩
theorem vsparse (h : Hd) (p : Pred) (ty : ETy) (vd vc va : Reg) : Statement (.vsparse h p ty vd vc va) := by
  intro w r e; cases e
  simp only [Instr.wf, Bool.and_eq_true] at w
  have ⟨e0, l0⟩ := finCode p.k; have ⟨e1, l1⟩ := tyCode ty; have ⟨e2, l2⟩ := finCode vd; have ⟨e3, l3⟩ := finCode vc; have ⟨e4, l4⟩ := finCode va
  exact ⟨fitsOf (by simp only [Raw.hd, Raw.withP]; omega) (immZero h) (.inr rfl), by simp [build, buildMatrix, Raw.hd, Raw.head, Raw.withP, Raw.pred, Raw.ty, Raw.rD, Raw.rC, Raw.rA, e0, e1, e2, e3, e4]⟩
theorem vld (h : Hd) (p : Pred) (vd ra : Reg) (i : Word) : Statement (.vld h p vd ra i) := by
  intro w r e; cases e
  simp only [Instr.wf, Bool.and_eq_true] at w
  have ⟨e0, l0⟩ := finCode p.k; have ⟨e1, l1⟩ := finCode vd; have ⟨e2, l2⟩ := finCode ra
  exact ⟨fitsOf (by simp only [Raw.hd, Raw.withP]; omega) (w.2) (.inr rfl), by simp [build, buildMatrix, Raw.hd, Raw.head, Raw.withP, Raw.pred, Raw.rD, Raw.rA, e0, e1, e2]⟩
theorem vst (h : Hd) (p : Pred) (vb ra : Reg) (i : Word) : Statement (.vst h p vb ra i) := by
  intro w r e; cases e
  simp only [Instr.wf, Bool.and_eq_true] at w
  have ⟨e0, l0⟩ := finCode p.k; have ⟨e1, l1⟩ := finCode vb; have ⟨e2, l2⟩ := finCode ra
  exact ⟨fitsOf (by simp only [Raw.hd, Raw.withP]; omega) (w.2) (.inr rfl), by simp [build, buildMatrix, Raw.hd, Raw.head, Raw.withP, Raw.pred, Raw.rB, Raw.rA, e0, e1, e2]⟩
theorem vldg (h : Hd) (p : Pred) (ty : ETy) (vd ra vb : Reg) : Statement (.vldg h p ty vd ra vb) := by
  intro w r e; cases e
  simp only [Instr.wf, Bool.and_eq_true] at w
  have ⟨e0, l0⟩ := finCode p.k; have ⟨e1, l1⟩ := tyCode ty; have ⟨e2, l2⟩ := finCode vd; have ⟨e3, l3⟩ := finCode ra; have ⟨e4, l4⟩ := finCode vb
  exact ⟨fitsOf (by simp only [Raw.hd, Raw.withP]; omega) (immZero h) (.inr rfl), by simp [build, buildMatrix, Raw.hd, Raw.head, Raw.withP, Raw.pred, Raw.ty, Raw.rD, Raw.rA, Raw.rB, e0, e1, e2, e3, e4]⟩
theorem vsts (h : Hd) (p : Pred) (ty : ETy) (vc ra vb : Reg) : Statement (.vsts h p ty vc ra vb) := by
  intro w r e; cases e
  simp only [Instr.wf, Bool.and_eq_true] at w
  have ⟨e0, l0⟩ := finCode p.k; have ⟨e1, l1⟩ := tyCode ty; have ⟨e2, l2⟩ := finCode vc; have ⟨e3, l3⟩ := finCode ra; have ⟨e4, l4⟩ := finCode vb
  exact ⟨fitsOf (by simp only [Raw.hd, Raw.withP]; omega) (immZero h) (.inr rfl), by simp [build, buildMatrix, Raw.hd, Raw.head, Raw.withP, Raw.pred, Raw.ty, Raw.rC, Raw.rA, Raw.rB, e0, e1, e2, e3, e4]⟩
theorem vldc (h : Hd) (p : Pred) (ty : ETy) (vd ra rb : Reg) : Statement (.vldc h p ty vd ra rb) := by
  intro w r e; cases e
  simp only [Instr.wf, Bool.and_eq_true] at w
  have ⟨e0, l0⟩ := finCode p.k; have ⟨e1, l1⟩ := tyCode ty; have ⟨e2, l2⟩ := finCode vd; have ⟨e3, l3⟩ := finCode ra; have ⟨e4, l4⟩ := finCode rb
  exact ⟨fitsOf (by simp only [Raw.hd, Raw.withP]; omega) (immZero h) (.inr rfl), by simp [build, buildMatrix, Raw.hd, Raw.head, Raw.withP, Raw.pred, Raw.ty, Raw.rD, Raw.rA, Raw.rB, e0, e1, e2, e3, e4]⟩
theorem vstc (h : Hd) (p : Pred) (ty : ETy) (vc ra rb : Reg) : Statement (.vstc h p ty vc ra rb) := by
  intro w r e; cases e
  simp only [Instr.wf, Bool.and_eq_true] at w
  have ⟨e0, l0⟩ := finCode p.k; have ⟨e1, l1⟩ := tyCode ty; have ⟨e2, l2⟩ := finCode vc; have ⟨e3, l3⟩ := finCode ra; have ⟨e4, l4⟩ := finCode rb
  exact ⟨fitsOf (by simp only [Raw.hd, Raw.withP]; omega) (immZero h) (.inr rfl), by simp [build, buildMatrix, Raw.hd, Raw.head, Raw.withP, Raw.pred, Raw.ty, Raw.rC, Raw.rA, Raw.rB, e0, e1, e2, e3, e4]⟩
theorem aalloc (h : Hd) (rd : Reg) (an : Reg8) : Statement (.aalloc h rd an) := by
  intro w r e; cases e
  have ⟨e0, l0⟩ := finCode rd; have ⟨e1, l1⟩ := finCode an
  exact ⟨fitsOf (by simp only [Raw.hd]; omega) (immZero h) (.inr rfl), by simp [build, buildMatrix, Raw.hd, Raw.head, Raw.rD, Raw.sA, e0, e1]⟩
theorem afree (h : Hd) (an : Reg8) : Statement (.afree h an) := by
  intro w r e; cases e
  have ⟨e0, l0⟩ := finCode an
  exact ⟨fitsOf (by simp only [Raw.hd]; omega) (immZero h) (.inr rfl), by simp [build, buildMatrix, Raw.hd, Raw.head, Raw.sA, e0]⟩
theorem azero (h : Hd) (an : Reg8) : Statement (.azero h an) := by
  intro w r e; cases e
  have ⟨e0, l0⟩ := finCode an
  exact ⟨fitsOf (by simp only [Raw.hd]; omega) (immZero h) (.inr rfl), by simp [build, buildMatrix, Raw.hd, Raw.head, Raw.sA, e0]⟩
theorem mma (h : Hd) (ty : ETy) (an : Reg8) (ra rb : Reg) (i : Nat) : Statement (.mma h ty an ra rb i) := by
  intro w r e; cases e
  simp only [Instr.wf, Bool.and_eq_true] at w
  have ⟨e0, l0⟩ := tyCode ty; have ⟨e1, l1⟩ := finCode an; have ⟨e2, l2⟩ := finCode ra; have ⟨e3, l3⟩ := finCode rb; have hi := depthLt w.1.2
  exact ⟨fitsOf (by simp only [Raw.hd]; omega) (w.2) (.inr rfl), by simp [build, buildMatrix, Raw.hd, Raw.head, Raw.ty, Raw.sD, Raw.rA, Raw.rB, e0, e1, e2, e3, (by omega : i % 18446744073709551616 = i)]⟩
theorem mmas (h : Hd) (ty : ETy) (an : Reg8) (ra rb rc : Reg) (i : Nat) : Statement (.mmas h ty an ra rb rc i) := by
  intro w r e; cases e
  simp only [Instr.wf, Bool.and_eq_true] at w
  have ⟨e0, l0⟩ := tyCode ty; have ⟨e1, l1⟩ := finCode an; have ⟨e2, l2⟩ := finCode ra; have ⟨e3, l3⟩ := finCode rb; have ⟨e4, l4⟩ := finCode rc; have hi := depthLt w.1.2
  exact ⟨fitsOf (by simp only [Raw.hd]; omega) (w.2) (.inr rfl), by simp [build, buildMatrix, Raw.hd, Raw.head, Raw.ty, Raw.sD, Raw.rA, Raw.rB, Raw.rC, e0, e1, e2, e3, e4, (by omega : i % 18446744073709551616 = i)]⟩
theorem mmr (h : Hd) (t : Fin 4) (an : Reg8) (ra rb : Reg) (i : Nat) : Statement (.mmr h t an ra rb i) := by
  intro w r e; cases e
  simp only [Instr.wf, Bool.and_eq_true] at w
  have ⟨e0, l0⟩ := finCode t; have ⟨e1, l1⟩ := finCode an; have ⟨e2, l2⟩ := finCode ra; have ⟨e3, l3⟩ := finCode rb; have hi := depthLt w.1.2
  exact ⟨fitsOf (by simp only [Raw.hd]; omega) (w.2) (.inr rfl), by simp [build, buildMatrix, Raw.hd, Raw.head, Raw.triple, Raw.sD, Raw.rA, Raw.rB, e0, e1, e2, e3, (by omega : i % 18446744073709551616 = i), triIf t]⟩
theorem ard (h : Hd) (t : Option (Fin 4)) (vd : Reg) (an : Reg8) (rb : Reg) : Statement (.ard h t vd an rb) := by
  intro w r e; cases e
  have ⟨e0, l0⟩ := finCode vd; have ⟨e1, l1⟩ := finCode an; have ⟨e2, l2⟩ := finCode rb
  rcases t with _ | t
  · exact ⟨fitsOf (by simp only [rowNone, Raw.hd]; omega) (immZero h) (.inr rfl), by simp [build, buildMatrix, rowNone, Raw.hd, Raw.head, Raw.rowTy, Raw.rD, Raw.sA, Raw.rB, Raw.triple, e0, e1, e2]⟩
  · have ⟨e, l⟩ := finCode t
    exact ⟨fitsOf (by simp only [rowSome, Raw.hd]; omega) (immZero h) (.inr rfl), by simp [build, buildMatrix, rowSome, Raw.hd, Raw.head, Raw.rowTy, Raw.rD, Raw.sA, Raw.rB, Raw.triple, e0, e1, e2, e, triIf t]⟩
theorem awr (h : Hd) (t : Option (Fin 4)) (an : Reg8) (va rb : Reg) : Statement (.awr h t an va rb) := by
  intro w r e; cases e
  have ⟨e0, l0⟩ := finCode an; have ⟨e1, l1⟩ := finCode va; have ⟨e2, l2⟩ := finCode rb
  rcases t with _ | t
  · exact ⟨fitsOf (by simp only [rowNone, Raw.hd]; omega) (immZero h) (.inr rfl), by simp [build, buildMatrix, rowNone, Raw.hd, Raw.head, Raw.rowTy, Raw.sD, Raw.rA, Raw.rB, Raw.triple, e0, e1, e2]⟩
  · have ⟨e, l⟩ := finCode t
    exact ⟨fitsOf (by simp only [rowSome, Raw.hd]; omega) (immZero h) (.inr rfl), by simp [build, buildMatrix, rowSome, Raw.hd, Raw.head, Raw.rowTy, Raw.sD, Raw.rA, Raw.rB, Raw.triple, e0, e1, e2, e, triIf t]⟩
theorem ald (h : Hd) (an : Reg8) (ra : Reg) : Statement (.ald h an ra) := by
  intro w r e; cases e
  have ⟨e0, l0⟩ := finCode an; have ⟨e1, l1⟩ := finCode ra
  exact ⟨fitsOf (by simp only [Raw.hd]; omega) (immZero h) (.inr rfl), by simp [build, buildMatrix, Raw.hd, Raw.head, Raw.sD, Raw.rA, e0, e1]⟩
theorem ast (h : Hd) (an : Reg8) (ra : Reg) : Statement (.ast h an ra) := by
  intro w r e; cases e
  have ⟨e0, l0⟩ := finCode an; have ⟨e1, l1⟩ := finCode ra
  exact ⟨fitsOf (by simp only [Raw.hd]; omega) (immZero h) (.inr rfl), by simp [build, buildMatrix, Raw.hd, Raw.head, Raw.sD, Raw.rA, e0, e1]⟩
theorem rnsred (h : Hd) (t : Fin 4) (an : Reg8) : Statement (.rnsred h t an) := by
  intro w r e; cases e
  have ⟨e0, l0⟩ := finCode t; have ⟨e1, l1⟩ := finCode an
  exact ⟨fitsOf (by simp only [Raw.hd]; omega) (immZero h) (.inr rfl), by simp [build, buildMatrix, Raw.hd, Raw.head, Raw.triple, Raw.sD, e0, e1, triIf t]⟩
theorem mreq (h : Hd) (rd ra rb : Reg) : Statement (.mreq h rd ra rb) := by
  intro w r e; cases e
  have ⟨e0, l0⟩ := finCode rd; have ⟨e1, l1⟩ := finCode ra; have ⟨e2, l2⟩ := finCode rb
  exact ⟨fitsOf (by simp only [Raw.hd]; omega) (immZero h) (.inr rfl), by simp [build, buildMatrix, Raw.hd, Raw.head, Raw.rD, Raw.rA, Raw.rB, e0, e1, e2]⟩
theorem mcap (h : Hd) (rd ra : Reg) : Statement (.mcap h rd ra) := by
  intro w r e; cases e
  have ⟨e0, l0⟩ := finCode rd; have ⟨e1, l1⟩ := finCode ra
  exact ⟨fitsOf (by simp only [Raw.hd]; omega) (immZero h) (.inr rfl), by simp [build, buildMatrix, Raw.hd, Raw.head, Raw.rD, Raw.rA, e0, e1]⟩
theorem route (h : Hd) (rd ra rb : Reg) : Statement (.route h rd ra rb) := by
  intro w r e; cases e
  have ⟨e0, l0⟩ := finCode rd; have ⟨e1, l1⟩ := finCode ra; have ⟨e2, l2⟩ := finCode rb
  exact ⟨fitsOf (by simp only [Raw.hd]; omega) (immZero h) (.inr rfl), by simp [build, buildMatrix, Raw.hd, Raw.head, Raw.rD, Raw.rA, Raw.rB, e0, e1, e2]⟩
theorem autbind (h : Hd) (dn : Reg8) (ra : Reg) : Statement (.autbind h dn ra) := by
  intro w r e; cases e
  have ⟨e0, l0⟩ := finCode dn; have ⟨e1, l1⟩ := finCode ra
  exact ⟨fitsOf (by simp only [Raw.hd]; omega) (immZero h) (.inr rfl), by simp [build, buildUnits, Raw.hd, Raw.head, Raw.dN, Raw.rA, e0, e1, (by omega : dn.val % 8 = dn.val)]⟩
theorem autunbind (h : Hd) (dn : Reg8) : Statement (.autunbind h dn) := by
  intro w r e; cases e
  have ⟨e0, l0⟩ := finCode dn
  exact ⟨fitsOf (by simp only [Raw.hd]; omega) (immZero h) (.inr rfl), by simp [build, buildUnits, Raw.hd, Raw.head, Raw.dN, e0, (by omega : dn.val % 8 = dn.val)]⟩
theorem autpin (h : Hd) (dn : Reg8) (ra rb : Reg) : Statement (.autpin h dn ra rb) := by
  intro w r e; cases e
  have ⟨e0, l0⟩ := finCode dn; have ⟨e1, l1⟩ := finCode ra; have ⟨e2, l2⟩ := finCode rb
  exact ⟨fitsOf (by simp only [Raw.hd]; omega) (immZero h) (.inr rfl), by simp [build, buildUnits, Raw.hd, Raw.head, Raw.dN, Raw.rA, Raw.rB, e0, e1, e2, (by omega : dn.val % 8 = dn.val)]⟩
theorem autstk (h : Hd) (dn : Reg8) (ra rb : Reg) : Statement (.autstk h dn ra rb) := by
  intro w r e; cases e
  have ⟨e0, l0⟩ := finCode dn; have ⟨e1, l1⟩ := finCode ra; have ⟨e2, l2⟩ := finCode rb
  exact ⟨fitsOf (by simp only [Raw.hd]; omega) (immZero h) (.inr rfl), by simp [build, buildUnits, Raw.hd, Raw.head, Raw.dN, Raw.rA, Raw.rB, e0, e1, e2, (by omega : dn.val % 8 = dn.val)]⟩
theorem autstep (h : Hd) (p : Pred) (dn : Reg8) (vd va vb : Reg) : Statement (.autstep h p dn vd va vb) := by
  intro w r e; cases e
  have ⟨e0, l0⟩ := finCode p.k; have ⟨e1, l1⟩ := finCode dn; have ⟨e2, l2⟩ := finCode vd; have ⟨e3, l3⟩ := finCode va; have ⟨e4, l4⟩ := finCode vb
  exact ⟨fitsOf (by simp only [Raw.hd, Raw.withP]; omega) (immZero h) (.inr rfl), by simp [build, buildUnits, Raw.hd, Raw.head, Raw.withP, Raw.pred, Raw.dN, Raw.rD, Raw.rA, Raw.rB, e0, e1, e2, e3, e4, (by omega : dn.val % 8 = dn.val)]⟩
theorem autrun (h : Hd) (p : Pred) (dn : Reg8) (vd va rb : Reg) : Statement (.autrun h p dn vd va rb) := by
  intro w r e; cases e
  have ⟨e0, l0⟩ := finCode p.k; have ⟨e1, l1⟩ := finCode dn; have ⟨e2, l2⟩ := finCode vd; have ⟨e3, l3⟩ := finCode va; have ⟨e4, l4⟩ := finCode rb
  exact ⟨fitsOf (by simp only [Raw.hd, Raw.withP]; omega) (immZero h) (.inr rfl), by simp [build, buildUnits, Raw.hd, Raw.head, Raw.withP, Raw.pred, Raw.dN, Raw.rD, Raw.rA, Raw.rB, e0, e1, e2, e3, e4, (by omega : dn.val % 8 = dn.val)]⟩
theorem maprun (h : Hd) (p : Pred) (dn : Reg8) (vd va rb rc : Reg) : Statement (.maprun h p dn vd va rb rc) := by
  intro w r e; cases e
  have ⟨e0, l0⟩ := finCode p.k; have ⟨e1, l1⟩ := finCode dn; have ⟨e2, l2⟩ := finCode vd; have ⟨e3, l3⟩ := finCode va; have ⟨e4, l4⟩ := finCode rb; have ⟨e5, l5⟩ := finCode rc
  exact ⟨fitsOf (by simp only [Raw.hd, Raw.withP]; omega) (immZero h) (.inr rfl), by simp [build, buildUnits, Raw.hd, Raw.head, Raw.withP, Raw.pred, Raw.dN, Raw.rD, Raw.rA, Raw.rB, Raw.rC, e0, e1, e2, e3, e4, e5, (by omega : dn.val % 8 = dn.val)]⟩
theorem mapinit (h : Hd) (p : Pred) (dn : Reg8) (vd ra : Reg) : Statement (.mapinit h p dn vd ra) := by
  intro w r e; cases e
  have ⟨e0, l0⟩ := finCode p.k; have ⟨e1, l1⟩ := finCode dn; have ⟨e2, l2⟩ := finCode vd; have ⟨e3, l3⟩ := finCode ra
  exact ⟨fitsOf (by simp only [Raw.hd, Raw.withP]; omega) (immZero h) (.inr rfl), by simp [build, buildUnits, Raw.hd, Raw.head, Raw.withP, Raw.pred, Raw.dN, Raw.rD, Raw.rA, e0, e1, e2, e3, (by omega : dn.val % 8 = dn.val)]⟩
theorem compose (h : Hd) (p : Pred) (vd va vb vs : Reg) : Statement (.compose h p vd va vb vs) := by
  intro w r e; cases e
  have ⟨e0, l0⟩ := finCode p.k; have ⟨e1, l1⟩ := finCode vd; have ⟨e2, l2⟩ := finCode va; have ⟨e3, l3⟩ := finCode vb; have ⟨e4, l4⟩ := finCode vs
  exact ⟨fitsOf (by simp only [Raw.hd, Raw.withP]; omega) (immZero h) (.inr rfl), by simp [build, buildUnits, Raw.hd, Raw.head, Raw.withP, Raw.pred, Raw.rD, Raw.rA, Raw.rB, Raw.rC, e0, e1, e2, e3, e4]⟩
theorem autq (h : Hd) (q : Query) (kd : Reg8) (va : Reg) : Statement (.autq h q kd va) := by
  intro w r e; cases e
  have ⟨e0, l0⟩ := queryCode q; have ⟨e1, l1⟩ := finCode kd; have ⟨e2, l2⟩ := finCode va
  exact ⟨fitsOf (by simp only [Raw.hd]; omega) (immZero h) (.inr rfl), by simp [build, buildUnits, Raw.hd, Raw.head, Raw.sD, Raw.rA, e0, e1, e2, (by omega : 16 * q.code / 16 % 8 = q.code), (by omega : q.code % 8 = q.code)]⟩
theorem allowStore (h : Hd) (dn : Reg8) (ra vb : Reg) (lane : Fin 48) : Statement (.allowStore h dn ra vb lane) := by
  intro w r e; cases e
  have ⟨e0, l0⟩ := finCode dn; have ⟨e1, l1⟩ := finCode ra; have ⟨e2, l2⟩ := finCode vb; have ⟨e3, l3⟩ := finCode lane
  exact ⟨fitsOf (by simp only [Raw.hd]; omega) (immNat h _ (by omega)) (.inr rfl), by simp [build, buildUnits, Raw.hd, Raw.head, Raw.dN, Raw.rA, Raw.rB, e0, e1, e2, e3, (by omega : dn.val % 8 = dn.val), (by omega : dn.val / 16 % 2 = 0), (by omega : lane.val % 18446744073709551616 = lane.val)]⟩
theorem allowApply (h : Hd) (dn : Reg8) (ra vb : Reg) (lane : Fin 48) : Statement (.allowApply h dn ra vb lane) := by
  intro w r e; cases e
  have ⟨e0, l0⟩ := finCode dn; have ⟨e1, l1⟩ := finCode ra; have ⟨e2, l2⟩ := finCode vb; have ⟨e3, l3⟩ := finCode lane
  exact ⟨fitsOf (by simp only [Raw.hd]; omega) (immNat h _ (by omega)) (.inr rfl), by simp [build, buildUnits, Raw.hd, Raw.head, Raw.dN, Raw.rA, Raw.rB, e0, e1, e2, e3, (by omega : (dn.val + 16) % 8 = dn.val), (by omega : (dn.val / 16 + 1) % 2 = 1), (by omega : lane.val % 18446744073709551616 = lane.val)]⟩
theorem triewalk (h : Hd) (p : Pred) (dn : Reg8) (vd va rb : Reg) : Statement (.triewalk h p dn vd va rb) := by
  intro w r e; cases e
  have ⟨e0, l0⟩ := finCode p.k; have ⟨e1, l1⟩ := finCode dn; have ⟨e2, l2⟩ := finCode vd; have ⟨e3, l3⟩ := finCode va; have ⟨e4, l4⟩ := finCode rb
  exact ⟨fitsOf (by simp only [Raw.hd, Raw.withP]; omega) (immZero h) (.inr rfl), by simp [build, buildUnits, Raw.hd, Raw.head, Raw.withP, Raw.pred, Raw.dN, Raw.rD, Raw.rA, Raw.rB, e0, e1, e2, e3, e4, (by omega : dn.val % 8 = dn.val)]⟩
theorem detok (h : Hd) (dn : Reg8) (rd ra rb rc : Reg) : Statement (.detok h dn rd ra rb rc) := by
  intro w r e; cases e
  have ⟨e0, l0⟩ := finCode dn; have ⟨e1, l1⟩ := finCode rd; have ⟨e2, l2⟩ := finCode ra; have ⟨e3, l3⟩ := finCode rb; have ⟨e4, l4⟩ := finCode rc
  exact ⟨fitsOf (by simp only [Raw.hd]; omega) (immZero h) (.inr rfl), by simp [build, buildUnits, Raw.hd, Raw.head, Raw.dN, Raw.rD, Raw.rA, Raw.rB, Raw.rC, e0, e1, e2, e3, e4, (by omega : dn.val % 8 = dn.val)]⟩
theorem copy (h : Hd) (rd ra rb : Reg) : Statement (.copy h rd ra rb) := by
  intro w r e; cases e
  have ⟨e0, l0⟩ := finCode rd; have ⟨e1, l1⟩ := finCode ra; have ⟨e2, l2⟩ := finCode rb
  exact ⟨fitsOf (by simp only [Raw.hd]; omega) (immZero h) (.inr rfl), by simp [build, buildUnits, Raw.hd, Raw.head, Raw.rD, Raw.rA, Raw.rB, e0, e1, e2]⟩
theorem subTile (h : Hd) (rd ra rb : Reg) : Statement (.subTile h rd ra rb) := by
  intro w r e; cases e
  have ⟨e0, l0⟩ := finCode rd; have ⟨e1, l1⟩ := finCode ra; have ⟨e2, l2⟩ := finCode rb
  exact ⟨fitsOf (by simp only [Raw.hd]; omega) (immZero h) (.inr rfl), by simp [build, buildUnits, Raw.hd, Raw.head, Raw.rD, Raw.rA, Raw.rB, e0, e1, e2]⟩
theorem unsub (h : Hd) (ra : Reg) : Statement (.unsub h ra) := by
  intro w r e; cases e
  have ⟨e0, l0⟩ := finCode ra
  exact ⟨fitsOf (by simp only [Raw.hd]; omega) (immZero h) (.inr rfl), by simp [build, buildUnits, Raw.hd, Raw.head, Raw.rA, e0]⟩
theorem ringinit (h : Hd) (ra rb rc : Reg) : Statement (.ringinit h ra rb rc) := by
  intro w r e; cases e
  have ⟨e0, l0⟩ := finCode ra; have ⟨e1, l1⟩ := finCode rb; have ⟨e2, l2⟩ := finCode rc
  exact ⟨fitsOf (by simp only [Raw.hd]; omega) (immZero h) (.inr rfl), by simp [build, buildUnits, Raw.hd, Raw.head, Raw.rA, Raw.rB, Raw.rC, e0, e1, e2]⟩
theorem slrsv (h : Hd) (rd ra : Reg) : Statement (.slrsv h rd ra) := by
  intro w r e; cases e
  have ⟨e0, l0⟩ := finCode rd; have ⟨e1, l1⟩ := finCode ra
  exact ⟨fitsOf (by simp only [Raw.hd]; omega) (immZero h) (.inr rfl), by simp [build, buildUnits, Raw.hd, Raw.head, Raw.rD, Raw.rA, e0, e1]⟩
theorem slpost (h : Hd) (ra rb : Reg) : Statement (.slpost h ra rb) := by
  intro w r e; cases e
  have ⟨e0, l0⟩ := finCode ra; have ⟨e1, l1⟩ := finCode rb
  exact ⟨fitsOf (by simp only [Raw.hd]; omega) (immZero h) (.inr rfl), by simp [build, buildUnits, Raw.hd, Raw.head, Raw.rA, Raw.rB, e0, e1]⟩
theorem sltake (h : Hd) (rd ra : Reg) : Statement (.sltake h rd ra) := by
  intro w r e; cases e
  have ⟨e0, l0⟩ := finCode rd; have ⟨e1, l1⟩ := finCode ra
  exact ⟨fitsOf (by simp only [Raw.hd]; omega) (immZero h) (.inr rfl), by simp [build, buildUnits, Raw.hd, Raw.head, Raw.rD, Raw.rA, e0, e1]⟩
theorem slfree (h : Hd) (ra rb : Reg) : Statement (.slfree h ra rb) := by
  intro w r e; cases e
  have ⟨e0, l0⟩ := finCode ra; have ⟨e1, l1⟩ := finCode rb
  exact ⟨fitsOf (by simp only [Raw.hd]; omega) (immZero h) (.inr rfl), by simp [build, buildUnits, Raw.hd, Raw.head, Raw.rA, Raw.rB, e0, e1]⟩
theorem glaunch (h : Hd) (ra : Reg) : Statement (.glaunch h ra) := by
  intro w r e; cases e
  have ⟨e0, l0⟩ := finCode ra
  exact ⟨fitsOf (by simp only [Raw.hd]; omega) (immZero h) (.inr rfl), by simp [build, buildUnits, Raw.hd, Raw.head, Raw.rA, e0]⟩
theorem nodeadd (h : Hd) (rd ra rb : Reg) : Statement (.nodeadd h rd ra rb) := by
  intro w r e; cases e
  have ⟨e0, l0⟩ := finCode rd; have ⟨e1, l1⟩ := finCode ra; have ⟨e2, l2⟩ := finCode rb
  exact ⟨fitsOf (by simp only [Raw.hd]; omega) (immZero h) (.inr rfl), by simp [build, buildUnits, Raw.hd, Raw.head, Raw.rD, Raw.rA, Raw.rB, e0, e1, e2]⟩
theorem edgeadd (h : Hd) (rd ra rb : Reg) : Statement (.edgeadd h rd ra rb) := by
  intro w r e; cases e
  have ⟨e0, l0⟩ := finCode rd; have ⟨e1, l1⟩ := finCode ra; have ⟨e2, l2⟩ := finCode rb
  exact ⟨fitsOf (by simp only [Raw.hd]; omega) (immZero h) (.inr rfl), by simp [build, buildUnits, Raw.hd, Raw.head, Raw.rD, Raw.rA, Raw.rB, e0, e1, e2]⟩
theorem nodedone (h : Hd) : Statement (.nodedone h) := by
  intro w r e; cases e
  exact ⟨fitsOf (by simp only [Raw.hd]; omega) (immZero h) (.inr rfl), by simp [build, buildUnits, Raw.hd, Raw.head]⟩
theorem nodefail (h : Hd) (code : BitVec 16) : Statement (.nodefail h code) := by
  intro w r e; cases e
  simp only [Instr.wf, Bool.and_eq_true] at w
  exact ⟨fitsOf (by simp only [Raw.hd]; omega) (w.1) (.inr rfl), by simp [build, buildUnits, Raw.hd, Raw.head, bitsCode (by decide : 16 ≤ 64)]⟩
theorem gstat (h : Hd) (rd ra : Reg) : Statement (.gstat h rd ra) := by
  intro w r e; cases e
  have ⟨e0, l0⟩ := finCode rd; have ⟨e1, l1⟩ := finCode ra
  exact ⟨fitsOf (by simp only [Raw.hd]; omega) (immZero h) (.inr rfl), by simp [build, buildUnits, Raw.hd, Raw.head, Raw.rD, Raw.rA, e0, e1]⟩
theorem rloop (h : Hd) (ra : Reg) : Statement (.rloop h ra) := by
  intro w r e; cases e
  have ⟨e0, l0⟩ := finCode ra
  exact ⟨fitsOf (by simp only [Raw.hd]; omega) (immZero h) (.inr rfl), by simp [build, buildUnits, Raw.hd, Raw.head, Raw.rA, e0]⟩
theorem rsv (h : Hd) (ra : Reg) : Statement (.rsv h ra) := by
  intro w r e; cases e
  have ⟨e0, l0⟩ := finCode ra
  exact ⟨fitsOf (by simp only [Raw.hd]; omega) (immZero h) (.inr rfl), by simp [build, buildUnits, Raw.hd, Raw.head, Raw.rA, e0]⟩
theorem rchk (h : Hd) (rd ra : Reg) : Statement (.rchk h rd ra) := by
  intro w r e; cases e
  have ⟨e0, l0⟩ := finCode rd; have ⟨e1, l1⟩ := finCode ra
  exact ⟨fitsOf (by simp only [Raw.hd]; omega) (immZero h) (.inr rfl), by simp [build, buildUnits, Raw.hd, Raw.head, Raw.rD, Raw.rA, e0, e1]⟩
theorem rdoneOk (h : Hd) : Statement (.rdoneOk h) := by
  intro w r e; cases e
  exact ⟨fitsOf (by simp only [Raw.hd]; omega) (immZero h) (.inr rfl), by simp [build, buildUnits, Raw.hd, Raw.head]⟩
theorem rdoneFail (h : Hd) : Statement (.rdoneFail h) := by
  intro w r e; cases e
  exact ⟨fitsOf (by simp only [Raw.hd]; omega) (immZero h) (.inr rfl), by simp [build, buildUnits, Raw.hd, Raw.head]⟩
theorem slotGrant (ctx core : Nat) : Statement (.slotGrant ctx core) := fun _ _ e => nomatch e
theorem activeMessage (ctx lc : Nat) : Statement (.activeMessage ctx lc) := fun _ _ e => nomatch e
theorem windowSpill : Statement (.windowSpill) := fun _ _ e => nomatch e
theorem windowFill : Statement (.windowFill) := fun _ _ e => nomatch e
theorem groupClose : Statement (.groupClose) := fun _ _ e => nomatch e
theorem accessPerform : Statement (.accessPerform) := fun _ _ e => nomatch e
theorem accessRefusal : Statement (.accessRefusal) := fun _ _ e => nomatch e
theorem regionRestart : Statement (.regionRestart) := fun _ _ e => nomatch e
theorem trapDelivery : Statement (.trapDelivery) := fun _ _ e => nomatch e
theorem preemption : Statement (.preemption) := fun _ _ e => nomatch e
theorem lineFold (ctx line : Nat) : Statement (.lineFold ctx line) := fun _ _ e => nomatch e
theorem eventDeferredPlace (ctx lc : Nat) : Statement (.eventDeferredPlace ctx lc) := fun _ _ e => nomatch e
theorem phaseStep (ctx : Nat) : Statement (.phaseStep ctx) := fun _ _ e => nomatch e
theorem clockRebase (ctx : Nat) : Statement (.clockRebase ctx) := fun _ _ e => nomatch e
theorem waitCycleProbe (ctx lc : Nat) : Statement (.waitCycleProbe ctx lc) := fun _ _ e => nomatch e
theorem poolHoldRelease : Statement (.poolHoldRelease) := fun _ _ e => nomatch e
theorem waitListRelease (ctx page : Nat) : Statement (.waitListRelease ctx page) := fun _ _ e => nomatch e
theorem xinvdone (ctx lc : Nat) : Statement (.xinvdone ctx lc) := fun _ _ e => nomatch e
theorem draindone (ctx lc : Nat) : Statement (.draindone ctx lc) := fun _ _ e => nomatch e
theorem copyChunk (hart pick : Nat) : Statement (.copyChunk hart pick) := fun _ _ e => nomatch e
theorem copyComplete (hart : Nat) : Statement (.copyComplete hart) := fun _ _ e => nomatch e
theorem tilePush (hart entry pick : Nat) : Statement (.tilePush hart entry pick) := fun _ _ e => nomatch e
theorem tileReturn (hart entry pick : Nat) : Statement (.tileReturn hart entry pick) := fun _ _ e => nomatch e
theorem subscriptionEnd (hart entry : Nat) : Statement (.subscriptionEnd hart entry) := fun _ _ e => nomatch e
theorem remoteCommandApply (ctx lc : Nat) : Statement (.remoteCommandApply ctx lc) := fun _ _ e => nomatch e
theorem graphScan (ctx g : Nat) : Statement (.graphScan ctx g) := fun _ _ e => nomatch e
theorem nodeReady (ctx g node : Nat) : Statement (.nodeReady ctx g node) := fun _ _ e => nomatch e
theorem nodeDispatch (ctx g node : Nat) : Statement (.nodeDispatch ctx g node) := fun _ _ e => nomatch e
theorem nodeToken (ctx g : Nat) : Statement (.nodeToken ctx g) := fun _ _ e => nomatch e
theorem dominoSweep (ctx g : Nat) : Statement (.dominoSweep ctx g) := fun _ _ e => nomatch e
theorem treeReport (ctx g lc : Nat) : Statement (.treeReport ctx g lc) := fun _ _ e => nomatch e
theorem graphDone (ctx g : Nat) : Statement (.graphDone ctx g) := fun _ _ e => nomatch e
theorem windowStart (ctx : Nat) : Statement (.windowStart ctx) := fun _ _ e => nomatch e
theorem roundEnd (ctx : Nat) : Statement (.roundEnd ctx) := fun _ _ e => nomatch e
theorem loopComplete (ctx : Nat) : Statement (.loopComplete ctx) := fun _ _ e => nomatch e
theorem timerArm (ctx lc : Nat) (t : BitVec 32) (nan : Bool) : Statement (.timerArm ctx lc t nan) := fun _ _ e => nomatch e
theorem timerExpiry (ctx lc : Nat) : Statement (.timerExpiry ctx lc) := fun _ _ e => nomatch e
theorem place (ctx : Nat) : Statement (.place ctx) := fun _ _ e => nomatch e
theorem framemode (ctx : Nat) : Statement (.framemode ctx) := fun _ _ e => nomatch e
theorem slotresume (ctx : Nat) : Statement (.slotresume ctx) := fun _ _ e => nomatch e
theorem slotend (ctx : Nat) : Statement (.slotend ctx) := fun _ _ e => nomatch e
theorem keygen (ctx : Nat) : Statement (.keygen ctx) := fun _ _ e => nomatch e
theorem keyfree (ctx : Nat) : Statement (.keyfree ctx) := fun _ _ e => nomatch e
theorem attest (ctx : Nat) : Statement (.attest ctx) := fun _ _ e => nomatch e
theorem controlSeal (ctx : Nat) : Statement (.controlSeal ctx) := fun _ _ e => nomatch e
theorem controlEnd (ctx : Nat) : Statement (.controlEnd ctx) := fun _ _ e => nomatch e
theorem requestComplete (ctx : Nat) : Statement (.requestComplete ctx) := fun _ _ e => nomatch e
theorem hello (b : HelloBody) : Statement (.hello b) := fun _ _ e => nomatch e
theorem finish (session : Nat) (signature : List Byte) : Statement (.finish session signature) := fun _ _ e => nomatch e
theorem create (session seq : Nat) (rec' : List Byte) (text data ls : Section) : Statement (.create session seq rec' text data ls) := fun _ _ e => nomatch e
theorem lock (session seq ep ctx : Nat) (rbase rlen : Word) (defcore : Nat) : Statement (.lock session seq ep ctx rbase rlen defcore) := fun _ _ e => nomatch e
theorem unbind (session seq ep : Nat) : Statement (.unbind session seq ep) := fun _ _ e => nomatch e
theorem manageEnd (session seq ctx : Nat) : Statement (.manageEnd session seq ctx) := fun _ _ e => nomatch e
theorem manageSeal (session seq ctx : Nat) : Statement (.manageSeal session seq ctx) := fun _ _ e => nomatch e
theorem resume (session seq ctx : Nat) : Statement (.resume session seq ctx) := fun _ _ e => nomatch e
theorem health (session seq : Nat) : Statement (.health session seq) := fun _ _ e => nomatch e
theorem cert (session seq : Nat) : Statement (.cert session seq) := fun _ _ e => nomatch e
theorem sessionFail (session : Nat) (cause : FailCause) : Statement (.sessionFail session cause) := fun _ _ e => nomatch e
theorem msg (ep : Nat) (dst : Option Nat) (tag : BitVec 16) (nan : Bool) (words : List Word) : Statement (.msg ep dst tag nan words) := fun _ _ e => nomatch e
theorem write (ep : Nat) (va : Word) (bytes : List Byte) : Statement (.write ep va bytes) := fun _ _ e => nomatch e
theorem read (ep : Nat) (va : Word) (len : Nat) : Statement (.read ep va len) := fun _ _ e => nomatch e
theorem arbiterGrant : Statement (.arbiterGrant) := fun _ _ e => nomatch e
theorem class1Alarm (cause : Fin 3) (coissueOff : Bool) : Statement (.class1Alarm cause coissueOff) := fun _ _ e => nomatch e
theorem class2Alarm : Statement (.class2Alarm) := fun _ _ e => nomatch e
theorem standbyPromotion : Statement (.standbyPromotion) := fun _ _ e => nomatch e
theorem lastingFault (kind : UnitKind) (number : Nat) (event : Nat) (addr : Word) (retried : Bool) : Statement (.lastingFault kind number event addr retried) := fun _ _ e => nomatch e
theorem laneRemap (stack : Nat) : Statement (.laneRemap stack) := fun _ _ e => nomatch e
theorem powerReset (nutcracker harts arbiter : List Byte) : Statement (.powerReset nutcracker harts arbiter) := fun _ _ e => nomatch e
theorem class1AlarmClear : Statement (.class1AlarmClear) := fun _ _ e => nomatch e
theorem droppedPacket (port : Nat) : Statement (.droppedPacket port) := fun _ _ e => nomatch e

end Fits

end Sys2Proof.Laws
end

