-- ==== Sys2Proof/Tests/Slice0.lean ====
section
/-! SUPPORT. Tests: terms that `WellFormed` refuses, words of the spec that decode, single steps, and for each statement of the
certificate a state and operands that meet its hypotheses. -/

namespace Sys2Proof.Tests

open Machine

set_option Elab.async false

/-! ### A small world: one context whose first GiB of addresses lies at the same physical places -/

def s8 : Hd := { len := .l64, s := true }
def n8 : Hd := { len := .l64, s := false }
def home : Focus := { ctx := 1, lc := 0, pos := 0 }

/-- The tables of levels 4 to 2 with one leaf of 1 GiB, read-only or with every permission, and the cluster mask; of the second GiB page 1
is mapped to frame 59, and the entry of page 2 names frame 57 with V = 0. -/
def tablesOf (ro : Bool) : Tab Byte :=
  Mem.write (Mem.write (Mem.write (Mem.write (Mem.write (Mem.write (Mem.write [] 0x10000 (leBytes 8 0x12001)) 0x12000 (leBytes 8 0x14001)) 0x14000
    (leBytes 8 (if ro then 0x13 else 0x73) ++ leBytes 8 0 ++ leBytes 8 0x16001)) 0x16000 (leBytes 8 0x18001)) 0x18010 (leBytes 8 0x3B0073))
    0x18020 (leBytes 8 0x390072)) 0x50000 (List.replicate 12 0xFF)
def worldMem : Tab Byte := tablesOf false

def worldRec : CreateRec :=
  { clusters := 1, root := 0x10000, csets := 0x50000, ncsets := 1, pooln := 8, pool := 0x3000000, images := 0x4000000,
    counters := 0x2200000, notifyq := 0x2100000, ovfrings := 0x20000000, ccb := 0x2000000, sealarea := 0x38000000, supcore := 8 }

def worldCtx : Ctx := { status := .live, cr := worldRec, placement := (List.range 16).map (fun l => (l, BitVec.ofNat 32 (2 ^ 31 + l % 8))),
                        poolFree := [0, 1, 2, 3], nextCid := 10 }

def running : Slot := { mode := .running, pc := 0x200000, region := 0x200000, cid := 1, k := [(1, BitVec.allOnes 48)] }

/-- The world with slot `t` in focus, more memory `m` and context `c`. -/
def world (t : Slot) (c : Ctx) (m : Tab Byte) : State :=
  { mem := m, slots := [(home.key, t)], ctxs := [(1, c)], focus := home
    owners := (List.range 8).map (fun p => (p, ownerOf 1)), frames := (List.range 64).map (fun f => (f, 1)) }

theorem world_slot (t : Slot) (c : Ctx) (m : Tab Byte) : (world t c m).slot = t := by
  show Tab.get {} [(home.key, t)] home.key = t
  simp [Tab.get]

/-- What the lemmas of this part need of a state. -/
structure InW (ro : Bool) (s : State) : Prop where
  rec0   : (s.ctxOf 1).cr = worldRec
  tables : ∀ x, x < 0x60000 → Mem.read s.mem x = Mem.read (tablesOf ro) x
  frames : ∀ f, f < 64 → Tab.get 0 s.frames f = 1
  clean  : s.poison = []
  folded : (s.ctxOf 1).partials = []
abbrev InWorld (s : State) : Prop := InW false s

/-- What the walk of the tables needs of it. -/
structure Walks (ro : Bool) (s : State) : Prop where
  root   : (s.ctxOf 1).cr.root = 0x10000
  one    : (s.ctxOf 1).cr.ncsets = 1
  tables : ∀ x, x < 0x60000 → Mem.read s.mem x = Mem.read (tablesOf ro) x
  clear  : ∀ f, f < 64 → frameMode (Tab.get 0 s.frames f).toNat = 0
  clean  : s.poison = []
  folded : (s.ctxOf 1).partials = []
theorem InW.walks {ro : Bool} {s : State} (h : InW ro s) : Walks ro s :=
  ⟨by rw [h.rec0]; rfl, by rw [h.rec0]; rfl, h.tables, fun f hf => by rw [h.frames f hf]; decide, h.clean, h.folded⟩

theorem seen_byte (s : State) {c : Ctx} (h : c.partials = []) (a : Nat) : s.seenByte c a = s.physByte a := by simp [State.seenByte, h]
theorem seen_nat (s : State) {c : Ctx} (h : c.partials = []) : ∀ n a, s.seenNat c a n = s.physNat a n
  | 0, _ => rfl
  | n + 1, a => by rw [State.seenNat, State.physNat, seen_byte s h, seen_nat s h n]

theorem physNat_congr {s t : State} {n : Nat} (h : ∀ x, x < n → Mem.read s.mem x = Mem.read t.mem x) (hn : n ≤ winBase) :
    ∀ k a, a + k ≤ n → s.physNat a k = t.physNat a k
  | 0, _, _ => rfl
  | k + 1, a, ha => by
    have w : inWindow a = false := by simp [inWindow]; omega
    simp only [State.physNat, State.physByte, w, Bool.false_eq_true, if_false]
    rw [h a (by omega), physNat_congr h hn k (a + 1) (by omega)]

def world0 (ro : Bool) : State := world running worldCtx (tablesOf ro)

theorem tables0 (ro : Bool) : (world0 ro).physNat 0x10000 8 = 0x12001 ∧ (world0 ro).physNat 0x10008 8 = 0 ∧ (world0 ro).physNat 0x12000 8 = 0x14001 ∧
    (world0 ro).physNat 0x12008 8 = 0 ∧ (world0 ro).physNat 0x14000 8 = (if ro then 0x13 else 0x73) ∧ (world0 ro).physNat 0x14008 8 = 0 := by
  cases ro <;> decide +kernel

def worldLeaf (va : Nat) (ro : Bool := false) : Leaf :=
  { pa := va, r := true, w := !ro, x := !ro, mode := 0, key := 0, home := 0, acnt := 0, cset := 0, level := 2 }

theorem InW.frame {ro : Bool} {s : State} (h : InW ro s) {a : Nat} (ha : a < 0x400000) : s.frame a = 1 := by
  rw [State.frame, h.frames (a / 65536) (by omega)]; rfl

theorem inHbm_low {a : Nat} (ha : a < 0x400000) : inHbm a = true := decide_eq_true (Nat.lt_trans ha (by decide))

theorem Walks.table {ro : Bool} {s : State} (h : Walks ro s) (ctx : Nat) (c : Ctx) {a : Nat} (ha : a < 0x400000) : s.tableFault ctx c a = none := by
  have e : frameMode (s.frame a) = 0 := h.clear (a / 65536) (by omega)
  simp [State.tableFault, inHbm_low ha, e, State.poisoned, h.clean, Tab.get]

theorem low_table {ro : Bool} {s : State} (h : Walks ro s) (ctx va n a : Nat) (c : Ctx) (f : field va (levelShift n) (levelBits n) = 0) (ha : a < 0x400000)
    (hc : c.partials = []) :
    s.tableEntry ctx c va n a =
      (let w0 := s.physNat a 8
       let w1 := s.physNat (a + 8) 8
       let next := field w0 9 39 * 512
       if w0 % 2 = 0 then .error .pageAbsent
       else if field w0 1 1 = 1 then (if leafOk c va n w0 w1 then .ok (.inl (leafOf va n w0 w1)) else .error .protection)
       else if n ≠ 0 ∧ w0 = next + 1 ∧ w1 = 0 ∧ next % (16 * 2 ^ levelBits (n - 1)) = 0 ∧ inHbm next = true then .ok (.inr next)
       else .error .protection) := by
  unfold State.tableEntry
  simp only [f, Nat.mul_zero, Nat.add_zero, h.table ctx c ha, seen_nat s hc]

theorem Walks.leaf {ro : Bool} {s : State} (h : Walks ro s) {va : Nat} (hv : va < 2 ^ 30) : s.leaf 1 va = .ok (worldLeaf va ro) := by
  have t := tables0 ro
  have e : ∀ k a, a + k ≤ 0x60000 → s.physNat a k = (world0 ro).physNat a k := physNat_congr (t := world0 ro) h.tables (by decide)
  have f4 : field va (levelShift 4) (levelBits 4) = 0 := by simp only [field, levelShift, levelBits]; omega
  have f3 : field va (levelShift 3) (levelBits 3) = 0 := by simp only [field, levelShift, levelBits]; omega
  have f2 : field va (levelShift 2) (levelBits 2) = 0 := by simp only [field, levelShift, levelBits]; omega
  have r := h.root
  have n := h.one
  have m : va % 2 ^ 30 = va := Nat.mod_eq_of_lt hv
  have v4 : s.tableEntry 1 (s.ctxOf 1) va 4 0x10000 = .ok (.inr 0x12000) := by
    rw [low_table h _ _ _ _ _ f4 (by decide) h.folded, e _ _ (by decide), e _ _ (by decide), t.1, t.2.1]; rfl
  have v3 : s.tableEntry 1 (s.ctxOf 1) va 3 0x12000 = .ok (.inr 0x14000) := by
    rw [low_table h _ _ _ _ _ f3 (by decide) h.folded, e _ _ (by decide), e _ _ (by decide), t.2.2.1, t.2.2.2.1]; rfl
  have ok : leafOk (s.ctxOf 1) va 2 (if ro then 0x13 else 0x73) 0 = true := by
    have g : va - va % 2 ^ 30 = 0 := by omega
    simp only [leafOk, levelShift, n, g]; cases ro <;> decide
  have z : leafOf va 2 (if ro then 0x13 else 0x73) 0 = worldLeaf va ro := by
    have q : field (if ro then 0x13 else 0x73) 16 32 * 65536 + va % 2 ^ 30 = va := by rw [m]; cases ro <;> simp [field]
    simp only [leafOf, levelShift, q]; cases ro <;> rfl
  have v2 : s.tableEntry 1 (s.ctxOf 1) va 2 0x14000 = .ok (.inl (worldLeaf va ro)) := by
    rw [low_table h _ _ _ _ _ f2 (by decide) h.folded, e _ _ (by decide), e _ _ (by decide), t.2.2.2.2.1, t.2.2.2.2.2]
    simp only [ok, z]; cases ro <;> rfl
  have hr : (0x10000 : Nat) % 4096 = 0 ∧ inHbm 0x10000 = true := by decide
  simp only [State.leaf, r, hr, and_self, if_true, State.walk, v4, v3, v2, walked]

theorem InW.leaf {ro : Bool} {s : State} (h : InW ro s) {va : Nat} (hv : va < 2 ^ 30) : s.leaf 1 va = .ok (worldLeaf va ro) := h.walks.leaf hv

theorem InW.mask {ro : Bool} {s : State} (h : InW ro s) {lc : Nat} (hl : lc < 768) : s.csetOk 1 lc 0 = true := by
  have e : ∀ x, x < 0x60000 → s.physByte x = (world0 ro).physByte x := by
    intro x hx
    have w : inWindow x = false := by rw [inWindow, decide_eq_false (by unfold winBase; omega), Bool.false_and]
    simp only [State.physByte, w, Bool.false_eq_true, if_false, h.tables x hx]; rfl
  have l : s.leaf 1 0x50000 = .ok (worldLeaf 0x50000 ro) := h.leaf (by decide)
  have c : (s.ctxOf 1).cr.csets = 0x50000 := by rw [h.rec0]; rfl
  have k : (List.range 16).map (fun i => s.physByte (0x50000 + i)) = List.replicate 12 0xFF ++ List.replicate 4 0 := by
    have : (List.range 16).map (fun i => s.physByte (0x50000 + i)) = (List.range 16).map (fun i => (world0 ro).physByte (0x50000 + i)) :=
      List.map_congr_left (fun i hi => e _ (by have := List.mem_range.1 hi; omega))
    rw [this]; cases ro <;> decide +kernel
  have p : s.peekBytes 1 (((s.ctxOf 1).cr.csets).toNat + 16 * 0) 16 = some (List.replicate 12 0xFF ++ List.replicate 4 0) := by
    rw [c]
    show s.peekBytes 1 0x50000 16 = _
    unfold State.peekBytes
    rw [if_pos (by decide)]; simp only [l, worldLeaf, seen_byte s h.folded, k]
  unfold State.csetOk State.peekNat
  rw [p]
  have : leNat (List.replicate 12 (0xFF : Byte) ++ List.replicate 4 0) = 2 ^ 96 - 1 := by decide
  simp only [Option.map_some, this]
  have : ∀ j, j < 96 → decide ((2 ^ 96 - 1) / 2 ^ j % 2 = 1) = true := by decide
  exact this (lc / 8) (by omega)

/-- The context of a state puts no reserved or held record into the first four MiB. -/
def Unheld (s : State) : Prop := (s.ctxOf 1).graphs = [] ∧ (s.ctxOf 1).loop = none

theorem InW.check {ro : Bool} {s : State} (h : InW ro s) (w : Who) (need : Need) {va n : Nat} (hw : w.ctx = 1) (hl : w.lc < 768)
    (hu : w.engine = true ∨ Unheld s ∨ need = .r) (hn : 0 < n) (hv : va + n ≤ 0x400000) (hr : ro = false ∨ need = .r := by first | exact Or.inl rfl | exact Or.inr rfl) :
    s.checkGlobal w need va n = .ok { key := va, len := n, off := va } := by
  have l : s.leaf 1 va = .ok (worldLeaf va ro) := h.leaf (by omega)
  have al : (worldLeaf va ro).allows need = true := by
    rcases hr with rfl | rfl
    · cases need <;> rfl
    · rfl
  have rs : (s.ctxOf 1).reserved w.sup va n = false := by
    have a : overlap va n (s.ctxOf 1).cr.ccb.toNat 8192 = false := by
      rw [h.rec0]; simp [overlap, worldRec]; omega
    have b : overlap va n (s.ctxOf 1).cr.ovfrings.toNat (768 * (s.ctxOf 1).ringN * 64) = false := by
      rw [h.rec0]; simp [overlap, worldRec]; omega
    simp [Ctx.reserved, a, b]
  have hd : (need.writes && !w.engine && s.held 1 va n) = false := by
    rcases hu with e | ⟨g, q⟩ | e
    · simp [e]
    · simp [State.held, Ctx.held, g, q]
    · simp [e, Need.writes]
  have iw : inWindow va = false := by rw [inWindow, decide_eq_false (by unfold winBase; omega), Bool.false_and]
  have ct : s.controller 1 (worldLeaf va ro) va = none := by
    have o : frameOwner 1 = 1 := by decide
    have m : frameMode 1 = 0 := by decide
    simp [State.controller, iw, h.frame (show va < 0x400000 by omega), o, m, worldLeaf]
  have ig : s.integrity (worldLeaf va ro) va n need.writes = false := by
    simp [State.integrity, h.clean, Tab.get, worldLeaf]
  have pa : (worldLeaf va ro).pa = va := rfl
  have cs : (w.csets && !s.csetOk 1 w.lc (worldLeaf va ro).cset) = false := by
    have : (worldLeaf va ro).cset = 0 := rfl
    rw [this, h.mask hl]; simp
  unfold State.checkGlobal
  simp only [hw, l, al, rs, hd, cs, pa, iw, ct, ig, Bool.not_true, Bool.or_false, Bool.false_and, Bool.and_false,
    Bool.false_eq_true, if_false, Bool.not_false]

theorem InW.draw {ro : Bool} {s : State} (h : InW ro s) (d : Nat) : InW ro { s with draws := d } := ⟨h.rec0, h.tables, h.frames, h.clean, h.folded⟩

theorem InW.piece {ro : Bool} {s : State} (h : InW ro s) (w : Who) (need : Need) {va n : Nat} (hw : w.ctx = 1) (hl : w.lc < 768)
    (hu : w.engine = true ∨ Unheld s ∨ need = .r) (hn : 0 < n) (hv : va + n ≤ 0x400000) (hp : va % 65536 + n ≤ 65536) (hr : ro = false ∨ need = .r := by first | exact Or.inl rfl | exact Or.inr rfl) :
    s.checkPiece w need (.glob va) n = .ok [{ key := va, len := n, off := va }] := by
  have c : cut64K va n = [(va, n)] := by simp only [cut64K]; rw [if_pos (by omega)]
  simp only [State.checkPiece, c, List.mapM_cons, List.mapM_nil, h.check w need hw hl hu hn hv hr]
  rfl

theorem InW.open {ro : Bool} {s : State} (h : InW ro s) (w : Who) (need : Need) {va n : Nat} (hw : w.ctx = 1) (hl : w.lc < 768)
    (hu : w.engine = true ∨ Unheld s ∨ need = .r) (hv : va + n ≤ 0x400000) (hp : va % 65536 + n ≤ 65536) (hr : ro = false ∨ need = .r := by first | exact Or.inl rfl | exact Or.inr rfl) : Open s w need (.glob va) n va := by
  refine ⟨none, va, ⟨rfl, rfl⟩, ?_, Or.inl (by unfold winBase; omega), ?_, ?_⟩
  · intro d k m hm hk
    exact (h.draw d).piece w need hw hl (hu.imp id (fun u => u)) hm (by omega) (by omega) hr
  · intro _ k m hk hm
    rw [hw, h.leaf (by omega)] at hm
    cases hm; rfl
  · intro c hc; cases hc

theorem InW.arena {s : State} (h : InWorld s) (w : Who) (rs : List (Nat × Nat × Nat)) (hw : w.ctx = 1) (hl : w.lc < 768)
    (hu : w.engine = true ∨ Unheld s)
    (hr : ∀ r ∈ rs, r.1 = r.2.2 ∧ 0x60000 ≤ r.1 ∧ r.1 + r.2.1 ≤ 0x400000 ∧ r.1 % 65536 + r.2.1 ≤ 65536)
    (hd : rs.Pairwise (fun a b => a.2.2 + a.2.1 ≤ b.2.2 ∨ b.2.2 + b.2.1 ≤ a.2.2)) : Arena s w rs := by
  refine ⟨hd, fun r hm => ?_, fun m v hm r hr' need _ => ?_⟩
  · have := hr r hm; omega
  · obtain ⟨a, b, c, d⟩ := hr r hr'
    have i : InWorld { s with mem := m, versions := v } := ⟨h.rec0, fun x hx => by
      show Mem.read m x = _
      rw [hm x (fun q hq => Or.inl (by have := hr q hq; omega))]; exact h.tables x hx, h.frames, h.clean, h.folded⟩
    rw [← a]
    exact i.open w need hw hl (hu.imp id (fun u => Or.inl u)) c d

theorem glob_place {lc : Nat} {a : Word} (ha : a.toNat < 2 ^ 56) : placeOf lc a = some (.glob a.toNat) := by
  simp [placeOf]; omega

theorem add_small {a : Word} {k : Nat} (h : a.toNat + k < 2 ^ 56) : (a + BitVec.ofNat 64 k).toNat = a.toNat + k := by
  rw [BitVec.toNat_add, BitVec.toNat_ofNat]; omega

theorem InW.mapped {ro : Bool} {s : State} (h : InW ro s) (need : Need) {a : Word} {n : Nat} (hf : s.focus = home) (hu : Unheld s ∨ need = .r)
    (hs : s.slot.sup = false) (hv : a.toNat + n ≤ 0x400000) (hp : a.toNat % 65536 + n ≤ 65536) (hr : ro = false ∨ need = .r := by first | exact Or.inl rfl | exact Or.inr rfl) : Mapped s need a n a.toNat := by
  have hw : (s.who s.slot.nanread).ctx = 1 := by simp [State.who, hf, home]
  have hl : (s.who s.slot.nanread).lc < 768 := by simp [State.who, hf, home]
  refine ⟨.glob a.toNat, none, a.toNat, ⟨rfl, rfl⟩, ?_, ?_, Or.inl (by unfold winBase; omega), ?_, ?_⟩
  · intro k hk
    rw [glob_place (by rw [add_small (by omega)]; omega), add_small (by omega)]; rfl
  · intro d k m hm hk
    exact (h.draw d).piece _ need hw hl (Or.inr hu) hm (by omega) (by omega) hr
  · intro _
    refine ⟨fun hs' => by (rw [hs] at hs'; exact absurd hs' (by decide)), fun k m hk hm => ?_⟩
    rw [hf, show home.ctx = 1 from rfl, h.leaf (by omega)] at hm
    cases hm; rfl
  · intro c hc; cases hc

theorem InW.mapped_at {ro : Bool} {s : State} (h : InW ro s) (need : Need) {a : Word} {k n : Nat} (e : a.toNat = k) (hf : s.focus = home)
    (hu : Unheld s ∨ need = .r) (hs : s.slot.sup = false) (hv : k + n ≤ 0x400000) (hp : k % 65536 + n ≤ 65536)
    (hr : ro = false ∨ need = .r := by first | exact Or.inl rfl | exact Or.inr rfl) : Mapped s need a n k := by
  subst e; exact h.mapped need hf hu hs hv hp hr

/-- A range of the own store passes every check. -/
theorem open_own (s : State) (w : Who) (need : Need) {off n : Nat} (h : off + n ≤ 0x80000) (hw : (s.core w.ctx w.lc).watch = [])
    (hr : need.writes = true → clearAt s w.ctx w.lc off n = true := by decide +kernel) :
    Open s w need (.ls w.lc off) n (lsKey w.ctx w.lc off) := by
  refine ⟨some w.lc, off, ⟨rfl, rfl⟩, ?_, ?_, ?_, ?_⟩
  · intro d k m hm hk
    have e : lsKey w.ctx w.lc (off + k) = lsKey w.ctx w.lc off + k := by unfold lsKey; omega
    simp only [Place.plus, State.checkPiece]
    rw [if_neg (by unfold lsSize; omega), if_neg (by simp), e]
  · refine Or.inr ?_
    unfold lsKey winTop; omega
  · intro hc; cases hc
  · intro c hc; cases hc; exact ⟨hw, hr⟩

theorem mapped_own (s : State) (need : Need) {a : Word} {off n : Nat} (ha : a.toNat = 0xFE00000000F00000 + off) (h : off + n ≤ 0x80000)
    (hr : s.clearOfRings s.focus.lc off n = true := by decide +kernel) : Mapped s need a n (lsKey s.focus.ctx s.focus.lc off) := by
  refine ⟨.ls s.focus.lc off, some s.focus.lc, off, ⟨rfl, rfl⟩, ?_, ?_, ?_, ?_, ?_⟩
  · intro k hk
    have e : (a + BitVec.ofNat 64 k).toNat = 0xFE00000000F00000 + (off + k) := by rw [BitVec.toNat_add, BitVec.toNat_ofNat, ha]; omega
    simp only [placeOf, e, field, Place.plus]
    rw [if_neg (by omega), if_pos (by omega), if_pos (by omega)]
    congr 2; omega
  · intro d k m hm hk
    have e : lsKey s.focus.ctx s.focus.lc (off + k) = lsKey s.focus.ctx s.focus.lc off + k := by unfold lsKey; omega
    simp only [Place.plus, State.checkPiece]
    rw [if_neg (by unfold lsSize; omega), if_neg (by simp [State.who])]
    simp [State.who, e]
  · refine Or.inr ?_
    unfold lsKey winTop; omega
  · intro hc; cases hc
  · intro c hc; cases hc; exact ⟨hr, fun hn => absurd rfl hn⟩

/-! ### Witnesses: states and operands that meet the hypotheses of each statement -/

/-- The world around a slot, with nothing more. -/
def st (t : Slot) : State := world t worldCtx worldMem

theorem in_world (t : Slot) {c : Ctx} {m : Tab Byte} (hc : c.cr = worldRec) (hm : ∀ x, x < 0x60000 → Mem.read m x = Mem.read worldMem x)
    (hp : c.partials = [] := by rfl) : InWorld (world t c m) := by
  refine ⟨?_, hm, ?_, rfl, ?_⟩
  · show (Tab.get {} [(1, c)] 1).cr = _
    simpa [Tab.get] using hc
  · show ∀ f, f < 64 → Tab.get 0 ((List.range 64).map (fun f => (f, 1))) f = 1
    decide
  · show (Tab.get {} [(1, c)] 1).partials = _
    simpa [Tab.get] using hp

/-- A slot at a position of its core, at no barrier, in a context whose clocks have not moved. -/
theorem unpaused_of {s : State} (hp : s.focus.pos < 9 := by decide) (ha : s.me.arrivals = [] := by rfl)
    (hc : (s.ctxOf s.focus.ctx).clocks = [] := by rfl) : Unpaused s :=
  ⟨hp, ha, fun p => by simp [State.clock, hc, Tab.get]⟩
theorem calm_of {s : State} (hp : s.focus.pos < 9 := by decide) (ha : s.me.arrivals = [] := by rfl)
    (hc : (s.ctxOf s.focus.ctx).clocks = [] := by rfl) (hd : s.here.cr.det = false := by rfl) (hq : s.here.partials = [] := by rfl)
    (hw : s.here.cwatches = [] := by rfl) (ho : s.here.ovfPending = false := by rfl) : Calm s := ⟨unpaused_of hp ha hc, hd, hq, hw, ho⟩

/-- No version counter of the world has moved. -/
theorem young_of {s : State} (h : s.versions = [] := by rfl) : Young s := fun u => by rw [h, Tab.get]; decide
theorem in_st (t : Slot) : InWorld (st t) := in_world t rfl (fun _ _ => rfl)
theorem in_write (t : Slot) {c : Ctx} (hc : c.cr = worldRec) {a : Nat} {bs : List Byte} (ha : 0x60000 ≤ a) (hp : c.partials = [] := by rfl) :
    InWorld (world t c (Mem.write worldMem a bs)) :=
  in_world t hc (fun x hx => Mem.read_write_out _ _ _ (Or.inl (by omega))) hp

/-- x8 holds a good target, x9 one. -/
def tA : Slot := { running with x := [(8, 0x200100), (9, 1)] }

theorem test_witness_ControlFlow : (st tA).slot.stopped = [] ∧ (st tA).slot.fflags &&& (st tA).me.fenable = 0 ∧ s8.s = true ∧
    goodTarget ((st tA).slot.pc + 0x40) ∧ goodTarget ((st tA).slot.rx 8) ∧ condTrue .ltu ((st tA).slot.rx 9) ((st tA).slot.rx 8) ∧
    ¬ condTrue .ltu ((st tA).slot.rx 8) ((st tA).slot.rx 9) := by
  unfold goodTarget condTrue; decide

/-- A word that ends at byte 27, one that ends at byte 19, and one that ends at byte 31. -/
theorem test_witness_ControlFlow_next : (0x200014 : Word).toNat % 32 + Len.l64.bytes = 28 ∧ (0x200008 : Word).toNat % 32 + Len.l96.bytes < 28 ∧
    (0x200018 : Word).toNat % 32 + Len.l64.bytes = 32 ∧ (0x200018 : Word).toNat < 2 ^ 56 := by
  decide

def longs8 : Slot := { running with longs := (List.range 8).map (fun i => { id := i, pc := 0, word := 0, ra := 0, rb := 0, done := true }) }
def raised : State := { st { running with fflags := 1 } with cores := [(coreKey 1 0, { fenable := 1 })] }
theorem test_witness_IssueTraps : (st tA).slot.stopped = [] ∧ (st tA).slot.sup = false ∧ n8.s = false ∧ s8.s = true ∧
    ¬ goodTarget ((st tA).slot.pc + 0x1C) ∧ ¬ goodTarget ((st tA).slot.rx 9) ∧ condTrue .eq ((st tA).slot.rx 9) ((st tA).slot.rx 9) ∧
    (st tA).slot.longs.length < 8 ∧ (st tA).slot.iter = none ∧ (st tA).here.liveLoop = none ∧ (st tA).slot.depth = 0 ∧
    (let s := st { tA with depth := 1, x := [(15, BitVec.ofNat 64 (2 ^ 56))] }
     s.slot.stopped = [] ∧ s.slot.depth ≠ 0 ∧ ¬ goodTarget (s.slot.rx 15)) ∧ raised.slot.stopped = [] ∧ raised.slot.fflags &&& raised.me.fenable ≠ 0 ∧
    (st longs8).slot.longs.length = 8 ∧ (st longs8).slot.stopped = [] := by
  unfold goodTarget condTrue; decide

def win (n : Nat) : List (List Word) := List.replicate n (List.replicate 16 0x200)
theorem test_witness_CallAndReturn :
    (let s := st { tA with older := win 2, depth := 2 }
     Idle s ∧ s8.s = true ∧ s.slot.older.length < 3 ∧ s.slot.depth < 65535 ∧ goodTarget (s.slot.pc + 0x40) ∧ goodTarget (s.slot.rx 8)) ∧
    (let s := st { running with older := win 3, depth := 3, x := [(15, 0x200100)] }
     Idle s ∧ s.slot.older = win 2 ++ [List.replicate 16 0x200] ∧ (List.replicate 16 (0x200 : Word)).length = 16 ∧ s.slot.depth ≠ 0 ∧
     goodTarget (s.slot.rx 15)) := by
  unfold goodTarget Idle; decide

theorem test_witness_WindowMemory :
    (let s := st { running with older := win 3, depth := 3, spillTop := 0x7FF80, spillLimit := 0x80000 }
     Calm s ∧ Fresh s ∧ s.slot.older.length = 3 ∧ s.slot.older.head? = some (List.replicate 16 0x200) ∧ s.slot.depth < 65535 ∧
     goodTarget (s.slot.pc + 0x40) ∧ s.slot.spillTop + 128 ≤ s.slot.spillLimit ∧ s.slot.spillTop + 128 ≤ lsSize ∧
     s.clearOfRings s.focus.lc s.slot.spillTop 128 = true) ∧
    (let s := st { running with depth := 1, x := [(15, 0x200100)], spillTop := 128 }
     Calm s ∧ Fresh s ∧ s.slot.older = [] ∧ s.slot.depth ≠ 0 ∧ goodTarget (s.slot.rx 15) ∧ 128 ≤ s.slot.spillTop ∧ s.slot.spillTop ≤ lsSize) := by
  refine ⟨⟨calm_of, ?_⟩, ⟨calm_of, ?_⟩⟩ <;> unfold goodTarget Fresh <;> decide

theorem test_witness_RegionStart : (st tA).slot.stopped = [] ∧ Idle (st tA) ∧ (st { tA with mode := .released }).slot.mode = .released ∧
    (st { tA with mode := .released }).slot.stopped = [] := by
  unfold Idle; decide

def fault0 : Trap := { kind := .protection, pc := 0x200000, region := 0x200000, mask := 0 }
def tTrap : Slot := { tA with trapvec := 0x300000, pend := some fault0 }
theorem test_witness_TrapEntry :
    (let s := st tTrap
     TrapReady s ∧ s.slot.mode = .running ∧ s.slot.pend = some fault0 ∧ s.slot.stopped = [] ∧ s8.s = true) ∧
    (Idle (st tA) ∧ (st tA).slot.progress = 0 ∧ (st tA).focus.pos < 8 ∧ (st tA).slot.trapvec = 0) ∧ Idle (st { tA with sup := true }) := by
  unfold TrapReady Idle; decide

/-- A frame in the world and the place of its fault record: both are mapped, before the image is written and after. -/
theorem frames_mapped {s : State} (h : InWorld s) {frame place n : Nat} {image : List Byte} (hl : image.length = n) (hn : frame % 65536 + n ≤ 65536)
    (h0 : 0x60000 ≤ frame) (h1 : frame < 2 ^ 30) (h2 : place < 2 ^ 30) (hm : frameMode (s.frame frame) ≠ 2 := by decide) :
    s.leaf 1 frame = .ok (worldLeaf frame) ∧ (s.hwWrite 1 frame image).leaf 1 place = .ok (worldLeaf place) := by
  subst hl
  have l : s.leaf 1 frame = .ok (worldLeaf frame) := h.leaf h1
  have iw : inWindow frame = false := by rw [inWindow, decide_eq_false (by unfold winBase; omega), Bool.false_and]
  obtain ⟨m, c, f, p, -⟩ := State.hwWrite_mem h.folded l hn iw (by simp [State.worn, worldLeaf, hm])
  have e : (s.hwWrite 1 frame image).ctxOf 1 = s.ctxOf 1 := by simp only [State.ctxOf, c]
  refine ⟨l, InW.leaf (ro := false) ⟨by rw [e]; exact h.rec0, fun x hx => ?_, fun q hq => by rw [f]; exact h.frames q hq, by rw [p]; exact h.clean,
    by rw [e]; exact h.folded⟩ h2⟩
  rw [m, Mem.read_write_out _ _ _ (Or.inl (by show x < frame; omega))]; exact h.tables x hx

theorem test_witness_TrapEntry_frame :
    (let s := st tTrap
     let frame := s.here.trapFrame 0 0
     let place := s.here.faultPlace 0 0
     s.here.partials = [] ∧ Young s ∧ s.leaf 1 frame = .ok (worldLeaf frame) ∧ frame % 65536 + 8192 ≤ 65536 ∧ inHbm frame = true ∧
     (s.hwWrite 1 frame (s.slot.image s.slot.pc)).leaf 1 place = .ok (worldLeaf place) ∧ place % 65536 + 64 ≤ 65536 ∧ inHbm place = true ∧
     (frame + 8192 ≤ place ∨ place + 64 ≤ frame)) := by
  have h := frames_mapped (in_st tTrap) (image := (st tTrap).slot.image (st tTrap).slot.pc) (frame := (st tTrap).here.trapFrame 0 0)
    (place := (st tTrap).here.faultPlace 0 0) (n := 8192) (Slot.image_length _ _) (by decide) (by decide) (by decide) (by decide)
  exact ⟨rfl, young_of, h.1, by decide, by decide, h.2, by decide, by decide, by decide⟩

/-- A trap that halts: its image goes to the slot's image frame. -/
theorem test_witness_TrapEntry_halt :
    (let s := st tA
     let frame := s.here.imageFrame 0 0
     let place := s.here.faultPlace 0 0
     s.here.partials = [] ∧ Young s ∧ s.leaf 1 frame = .ok (worldLeaf frame) ∧ frame % 65536 + 8192 ≤ 65536 ∧ inHbm frame = true ∧
     (s.hwWrite 1 frame (s.slot.image s.slot.pc)).leaf 1 place = .ok (worldLeaf place) ∧ place % 65536 + 64 ≤ 65536 ∧ inHbm place = true ∧
     (frame + 8192 ≤ place ∨ place + 64 ≤ frame)) := by
  have h := frames_mapped (in_st tA) (image := (st tA).slot.image (st tA).slot.pc) (frame := (st tA).here.imageFrame 0 0)
    (place := (st tA).here.faultPlace 0 0) (n := 8192) (Slot.image_length _ _) (by decide) (by decide) (by decide) (by decide)
  exact ⟨rfl, young_of, h.1, by decide, by decide, h.2, by decide, by decide, by decide⟩

theorem test_witness_ScalarInstructions :
    arithResult (.div s8 5 6 (.reg 7)) = some (s8, 5, 6, .reg 7, fun a b => if b = 0 then BitVec.allOnes 64 else BitVec.ofInt 64 (a.toInt.tdiv b.toInt)) ∧
    (st tA).slot.stopped = [] ∧ (63 : Fin 64).val + (0 : Fin 64).val + 1 ≤ 64 := ⟨rfl, rfl, by decide⟩

theorem test_witness_Predicates : (st tA).slot.stopped = [] := rfl

/-! #### Bytes that stand in memory -/

@[simp] theorem zeros_length (n : Nat) : (zeros n).length = n := List.length_replicate
theorem fieldAt_left {a b : List Byte} {o n : Nat} (h : o + n ≤ a.length) : fieldAt (a ++ b) o n = fieldAt a o n := by
  simp only [fieldAt, List.drop_append, List.take_append, List.length_drop]
  rw [show n - (a.length - o) = 0 by omega, List.take_zero, List.append_nil]
theorem fieldAt_right {a b : List Byte} {o n : Nat} (h : a.length ≤ o) : fieldAt (a ++ b) o n = fieldAt b (o - a.length) n := by
  simp only [fieldAt, List.drop_append, List.drop_eq_nil_of_le h, List.nil_append]
theorem leNat_zeros : ∀ n, leNat (zeros n) = 0
  | 0 => rfl
  | n + 1 => by
    show (0 : Byte).toNat + 256 * leNat (zeros n) = 0
    rw [leNat_zeros n]; rfl
theorem fieldAt_zeros (m o n : Nat) : fieldAt (zeros m) o n = 0 := by
  simp only [fieldAt, zeros, List.drop_replicate, List.take_replicate]; exact leNat_zeros _
theorem fieldAt_whole (v n : Nat) : fieldAt (leBytes n v) 0 n = v % 256 ^ n := by
  simp only [fieldAt, List.drop_zero]; rw [List.take_of_length_le (by simp), leNat_leBytes]

theorem InW.peek {ro : Bool} {s : State} (h : InW ro s) {a : Nat} {bs : List Byte} (ha : a + bs.length ≤ 2 ^ 30) (hp : a % 65536 + bs.length ≤ 65536)
    (hm : ∀ i, i < bs.length → Mem.read s.mem (a + i) = bs.getD i 0) (h0 : 0 < bs.length) : s.peekBytes 1 a bs.length = some bs := by
  have c : bs.length ≤ 65536 ∧ a % 65536 ≤ 65536 - bs.length := by omega
  unfold State.peekBytes
  simp only [c, and_self, if_true, h.leaf (show a < 2 ^ 30 by omega), worldLeaf]
  refine congrArg some (List.ext_getElem (by simp) (fun i h1 h2 => ?_))
  have w : inWindow (a + i) = false := by rw [inWindow, decide_eq_false (by unfold winBase; omega), Bool.false_and]
  rw [List.getElem_map, List.getElem_range, seen_byte s h.folded, State.physByte, w, if_neg (by decide), hm i h2, List.getD_eq_getElem?_getD,
    List.getElem?_eq_getElem h2, Option.getD_some]

theorem peek_write (t : Slot) {c : Ctx} (hc : c.cr = worldRec) {a n : Nat} {bs : List Byte} (hn : bs.length = n) (h0 : 0 < n) (ha : 0x60000 ≤ a)
    (hb : a + n ≤ 2 ^ 30) (hp : a % 65536 + n ≤ 65536) (hf : c.partials = [] := by rfl) : (world t c (Mem.write worldMem a bs)).peekBytes 1 a n = some bs := by
  subst hn
  refine (in_write t hc ha hf).peek hb hp (fun i hi => ?_) h0
  show Mem.read (Mem.write worldMem a bs) (a + i) = _
  rw [Mem.read_write, if_pos (by omega), Nat.add_sub_cancel_left]; rfl

/-- A trap frame of zeros but for the PC and the window count. -/
def frame0 : List Byte := zeros 6832 ++ (leBytes 8 0x200100 ++ (zeros 56 ++ (leBytes 8 0x40003 ++ zeros 1288)))
def frameWorld : State := world { running with sup := true } worldCtx (Mem.write worldMem (worldCtx.trapFrame 0 0) frame0)

theorem frame0_length : frame0.length = 8192 := by
  unfold frame0; simp only [List.length_append, zeros_length, leBytes_length]
theorem frame0_pc : fieldAt frame0 6832 8 = 0x200100 := by
  unfold frame0
  rw [fieldAt_right (by simp only [zeros_length]; omega), fieldAt_left (by simp), zeros_length]
  exact fieldAt_whole _ _
theorem frame0_status : fieldAt frame0 6852 4 = 0 := by
  unfold frame0
  rw [fieldAt_right (by simp only [zeros_length]; omega), fieldAt_right (by simp), fieldAt_left (by simp)]; exact fieldAt_zeros _ _ _
theorem frame0_windows : fieldAt frame0 6896 8 = 0x40003 := by
  unfold frame0
  rw [fieldAt_right (by simp only [zeros_length]; omega), fieldAt_right (by simp), fieldAt_right (by simp), fieldAt_left (by simp)]
  simp only [zeros_length, leBytes_length]; exact fieldAt_whole _ _
theorem frame0_tail (o : Nat) (h : 6904 ≤ o) : fieldAt frame0 o 8 = 0 := by
  unfold frame0
  rw [fieldAt_right (by rw [zeros_length]; omega), fieldAt_right (by simp only [zeros_length, leBytes_length]; omega),
    fieldAt_right (by simp only [zeros_length, leBytes_length]; omega),
    fieldAt_right (by simp only [zeros_length, leBytes_length]; omega)]
  exact fieldAt_zeros _ _ _

theorem test_witness_ReturnFromTrap : Idle frameWorld ∧ s8.s = true ∧ frameWorld.slot.sup = true ∧
    frameWorld.peekBytes 1 (frameWorld.here.trapFrame 0 0) 8192 = some frame0 ∧ Slot.imageBad frame0 = none ∧
    goodTarget (BitVec.ofNat 64 (fieldAt frame0 6832 8)) ∧ fieldAt frame0 6904 8 = 0 ∧ fieldAt frame0 6912 8 % 4 = 0 := by
  refine ⟨⟨rfl, rfl, rfl⟩, rfl, rfl, peek_write _ rfl frame0_length (by decide) (by decide) (by decide) (by decide), ?_, ?_, ?_, ?_⟩
  · unfold Slot.imageBad
    rw [frame0_status, frame0_windows, frame0_tail 6912 (by decide)]; decide
  · rw [frame0_pc]; unfold goodTarget; decide
  · exact frame0_tail _ (by decide)
  · rw [frame0_tail 6912 (by decide)]

theorem test_witness_ImageRoundTrip :
    (let u : Slot := { tA with older := win 3, depth := 65535, bind := 1023, prio := 3, progress := 2 ^ 32 - 1, spillTop := 2 ^ 19 - 128 }
     u.stopped = [] ∧ u.older.length ≤ 3 ∧ (∀ w ∈ u.older, w.length = 16) ∧ u.depth < 2 ^ 16 ∧ u.rmask.getLsbD 0 = false ∧ u.bind < 1024 ∧
     u.prio < 4 ∧ u.progress < 2 ^ 32 ∧ u.rsrN < 2 ^ 64 ∧ u.spillTop < 2 ^ 19 ∧ u.spillLimit < 2 ^ 20 ∧ u.older.length ≤ u.depth) := by
  decide

theorem test_witness_RecordLayouts :
    (let r : Record := { pc := 0x200000, mask := 6, bind := 1023, cause := 1, await := some { kind := .msg, src := some 1023, xd := 24 }, live := [1, 2] }
     r.mask.getLsbD 0 = false ∧ popCount 32 r.mask.toNat ≤ 16 ∧ r.live.length = popCount 32 r.mask.toNat ∧ (r.bind < 768 ∨ r.bind = 1023) ∧
     r.cause < 16 ∧ r.prio < 4 ∧ r.pc.toNat < 2 ^ 56 ∧ ∀ a, r.await = some a → 1 ≤ a.xd ∧ a.xd < 32 ∧ ∀ x, a.src = some x → x < 1024) ∧
    (let tr : Trap := { kind := .protection, reason := 255, lane := 47, code := 65535, seq := 2 ^ 32 - 1, pc := 0, region := 0, mask := 0 }
     tr.reason < 2 ^ 8 ∧ tr.lane < 2 ^ 16 ∧ tr.code < 2 ^ 16 ∧ tr.seq < 2 ^ 32 ∧ tr.progress < 2 ^ 32) := by
  refine ⟨⟨by decide, by decide, by decide, by decide, by decide, by decide, by decide, ?_⟩, by decide⟩
  intro a h
  cases h
  exact ⟨by decide, by decide, fun x hx => by cases hx; decide⟩

theorem test_witness_SystemRegisters :
    (let s := st { tA with sup := true }
     s.slot.stopped = [] ∧ s.slot.sup = true ∧ Fresh s ∧ (s.slot.rx 7).toNat % 128 = 0 ∧ (s.slot.rx 7).toNat / 2 ^ 32 % 2 ^ 20 ≤ 0x80000 ∧
     (s.slot.rx 9).toNat % 32 ≠ 0) ∧ (st tA).slot.sup = false ∧ home.lc < 768 ∧ (st tA).here.phase < 2 ^ 16 := by
  unfold Fresh; decide

theorem test_witness_QuitAndYield : Young (st tA) ∧ (st tA).here.partials = [] ∧ Idle (st tA) ∧ (st tA).slot.iter = none ∧ (st tA).slot.node = 0 ∧ (st tA).here.waitLists = [] ∧
    (st tA).slot.sup = false ∧ home.pos < 8 ∧ (st tA).slot.await = none ∧ (st tA).slot.progress = 0 := by
  refine ⟨young_of, ?_⟩; unfold Idle; decide

/-- x10 names the own store, x11 core 3, x8 a good target, x12 a global cell of home core 1, x13 any core. -/
def tB : Slot := { running with x := [(8, 0x200100), (10, 0xFE00000000F00040), (11, 3), (12, 0x2000C0), (13, 0x3FF)] }
theorem fresh_tB : Fresh (st tB) := by unfold Fresh; decide
theorem test_witness_SuspendAndSpawn :
    (Idle (st tB) ∧ (st tB).slot.depth = 0 ∧ (st tB).slot.sup = false ∧ (st tB).focus.pos < 8 ∧ (st tB).here.cr.det = false ∧
      (st tB).here.poolFree = 0 :: [1, 2, 3] ∧ (st tB).holdsUnits = false ∧ (st tB).slot.iter = none ∧ (st tB).focus.lc < 768 ∧
      (∀ q ∈ (st tB).me.suspended, q.image = true) ∧ placeOf 0 ((st tB).slot.rx 10) = some (.ls 0 0x40) ∧
      placeOf 0 ((st tB).slot.rx 12) = some (.glob 0x2000C0) ∧ ((st tB).slot.rx 11).toNat < 768 ∧ (st tB).slot.rx 13 = 0x3FF ∧
      goodTarget ((st tB).slot.rx 8)) ∧
    (st tB).leaf 1 0x2000C0 = .ok (worldLeaf 0x2000C0) ∧ Fresh (st tB) ∧ Unpaused (st tB) ∧ Young (st tB) :=
  ⟨by unfold Idle goodTarget; decide, (in_st tB).leaf (by decide), fresh_tB, unpaused_of, young_of⟩

theorem calm_st (t : Slot) : Calm (st t) := calm_of (show (0 : Nat) < 9 by decide)

/-- The last bytes of a page, and the last of the own store. -/
def tC : Slot := { running with x := [(8, 0x20FFF8), (9, 0xFE00000000F7FFF8), (12, 0x2100C0), (13, 0x210000)] }
theorem test_witness_LoadsAndStores :
    Fresh (st tC) ∧ Calm (st tC) ∧ ((st tC).slot.rx 8 + 0).toNat % 8 = 0 ∧
    Mapped (st tC) .r ((st tC).slot.rx 8 + 0) 8 0x20FFF8 ∧ Mapped (st tC) .w ((st tC).slot.rx 8 + 0) 8 0x20FFF8 ∧
    Mapped (st tC) .w ((st tC).slot.rx 9 + 0) 8 (lsKey 1 0 0x7FFF8) :=
  ⟨by unfold Fresh; decide, calm_st tC, by decide, (in_st tC).mapped .r rfl (Or.inl ⟨rfl, rfl⟩) rfl (by decide) (by decide),
    (in_st tC).mapped .w rfl (Or.inl ⟨rfl, rfl⟩) rfl (by decide) (by decide), mapped_own (st tC) .w (by decide) (by decide)⟩

def loadTask : Task := { id := 0, pc := 0x200000, ea := 0x20FFF8, op := .load .d false 5 }
theorem test_witness_LoadsAndStores_access :
    (let s := st { tC with tasks := [loadTask] }
     s.slot.head? = some loadTask ∧ s.slot.tasks = [loadTask] ∧ s.slot.stopping = false ∧ loadTask.nan = s.slot.nanread ∧ Calm s ∧
     Mapped s .r loadTask.ea 8 0x20FFF8) ∧
    (let k : Task := { loadTask with op := .store [1, 2] }
     let s := st { tC with tasks := [k] }
     s.slot.head? = some k ∧ s.slot.tasks = [k] ∧ s.slot.stopping = false ∧ Calm s ∧ Mapped s .w k.ea [(1 : Byte), 2].length 0x20FFF8) :=
  ⟨⟨by decide, by decide, by decide, by decide, calm_st _, (in_st _).mapped .r rfl (Or.inl ⟨rfl, rfl⟩) rfl (by decide) (by decide)⟩,
    by decide, by decide, by decide, calm_st _, (in_st _).mapped .w rfl (Or.inl ⟨rfl, rfl⟩) rfl (by decide) (by decide)⟩

theorem test_witness_LineInstructions : Fresh (st tC) ∧ Calm (st tC) ∧
    Mapped (st tC) .w (lineStart 0 ((st tC).slot.rx 12 + 0)) 192 0x2100C0 ∧ Mapped (st tC) .any (lineStart 0 ((st tC).slot.rx 12 + 0)) 192 0x2100C0 ∧
    (∃ l o, placeOf 0 ((st tC).slot.rx 9 + 0) = some (.ls l o)) ∧ placeOf 0 (BitVec.allOnes 64) = none :=
  ⟨by unfold Fresh; decide, calm_st tC, (in_st tC).mapped .w rfl (Or.inl ⟨rfl, rfl⟩) rfl (by decide) (by decide),
    (in_st tC).mapped .any rfl (Or.inl ⟨rfl, rfl⟩) rfl (by decide) (by decide), ⟨0, 0x7FFF8, by decide⟩, by decide⟩
/-- x8 holds 2^30 + 4, x9 an odd address; entry 1 of the table of level 2 breaks its format. -/
def tD : Slot := { running with x := [(8, 0x40000008), (9, 0x200001)], trapvec := 0x300000 }
def badWorld : State := world tD worldCtx (Mem.write worldMem 0x14010 (leBytes 8 5))
def errOf {α : Type} : Except TrapKind α → Option TrapKind
  | .ok _ => none
  | .error k => some k
theorem errOf_some {α : Type} {x : Except TrapKind α} {k : TrapKind} (h : errOf x = some k) : x = .error k := by
  cases x <;> simp_all [errOf]

def okOf {α : Type} : Except TrapKind α → Option α
  | .ok a => some a
  | .error _ => none
theorem okOf_some {α : Type} {x : Except TrapKind α} {a : α} (h : okOf x = some a) : x = .ok a := by
  cases x <;> simp_all [okOf]
theorem isOk_some {ε α : Type} {x : Except ε α} (h : x.isOk = true) : ∃ a, x = .ok a := by
  cases x <;> simp_all [Except.isOk, Except.toBool]

/-- The state is ready for the issue of an access at x8 whose refusal traps. -/
def Refusable (s : State) (n : Nat) : Prop :=
  Fresh s ∧ Unpaused s ∧ (s.slot.rx 8 + 0).toNat % n = 0 ∧ s.slot.sup = false ∧ s.slot.trapvec ≠ 0 ∧ s.focus.pos < 8

theorem test_witness_AccessTraps : Refusable badWorld 8 ∧ Refuses badWorld .r (badWorld.slot.rx 8 + 0) 8 .protection ∧
    Refuses badWorld .w (badWorld.slot.rx 8 + 0) 8 .protection ∧ (badWorld.slot.rx 9).toNat % 8 ≠ 0 ∧ placeOf 0 (BitVec.allOnes 64) = none :=
  ⟨⟨by unfold Fresh; decide, unpaused_of, by decide, rfl, by decide, by decide⟩,
    Or.inr ⟨0x40000008, by decide, Or.inl (errOf_some (by decide +kernel))⟩, Or.inr ⟨0x40000008, by decide, Or.inl (errOf_some (by decide +kernel))⟩,
    by decide, by decide⟩

/-- A slot with an address in x8. -/
def tAt (a : Word) : Slot := { running with x := [(8, a)], trapvec := 0x300000 }
def winLeaf : Leaf := { pa := 0x800000020000, r := true, w := true, x := true, mode := 0, key := 0, home := 0, acnt := 0, cset := 0, level := 0 }
/-- A page of the second GiB leads to the window of endpoint 0. -/
def winWorld : State := world (tAt 0x40030000) worldCtx (Mem.write worldMem 0x18030 (leBytes 8 0x800000020073))

/-- The permissions, the control block, the cluster set, an endpoint that is not in RUN, one whose REMOTE LENGTH the last byte passes, a frame of
another owner, a poisoned unit, and a store that is not placed. -/
theorem test_witness_AccessTraps_checks :
    (let s := world (tAt 0x200000) worldCtx (tablesOf true)
     Refusable s 8 ∧ Refuses s .w (s.slot.rx 8 + 0) 8 .protection) ∧
    (let s := st (tAt 0x2001FF8)
     Refusable s 8 ∧ Refuses s .r (s.slot.rx 8 + 0) 8 .protection) ∧
    (let s := world (tAt 0x200000) { worldCtx with cr := { worldRec with csets := 0x70000 } } worldMem
     Refusable s 8 ∧ Refuses s .r (s.slot.rx 8 + 0) 8 .clusterMask) ∧
    (Refusable winWorld 8 ∧ Refuses winWorld .w (winWorld.slot.rx 8 + 0) 8 .lateRefusal) ∧
    (let s : State := { winWorld with endpoints := [(0, { state := .run, rlen := 0x20007 })] }
     Refusable s 8 ∧ Refuses s .r (s.slot.rx 8 + 0) 8 .lateRefusal) ∧
    (let s : State := { st (tAt 0x200000) with frames := [] }
     Refusable s 8 ∧ Refuses s .w (s.slot.rx 8 + 0) 8 .modeAlias) ∧
    (let s : State := { st (tAt 0x2000B8) with poison := [(0x200000 - 0x200000 % 192 + 192, true)] }
     Refusable s 8 ∧ Refuses s .r (s.slot.rx 8 + 0) 8 .integrity) ∧
    (let s := world (tAt 0xFE00000000700000) { worldCtx with placement := [(0, BitVec.ofNat 32 (2 ^ 31))] } worldMem
     Refusable s 8 ∧ Refuses s .w (s.slot.rx 8 + 0) 8 .lateRefusal) := by
  have f (s : State) (h : s.slot.mode = .running ∧ s.slot.stopped = [] ∧ s.slot.longs = [] ∧ s.slot.tasks = [] ∧ s.slot.pend = none ∧
      s.slot.stopReq = .none ∧ s.slot.wait = .none) (u : Unpaused s) (a : (s.slot.rx 8 + 0).toNat % 8 = 0)
      (b : s.slot.sup = false ∧ s.slot.trapvec ≠ 0 ∧ s.focus.pos < 8) : Refusable s 8 := ⟨h, u, a, b⟩
  refine ⟨⟨f _ (by decide) unpaused_of (by decide) (by decide), Or.inr ⟨0x200000, by decide, Or.inr ⟨_, okOf_some (a := worldLeaf 0x200000 true) (by decide +kernel), Or.inl ?_⟩⟩⟩,
    ⟨f _ (by decide) unpaused_of (by decide) (by decide), Or.inr ⟨0x2001FF8, by decide, Or.inr ⟨_, okOf_some (a := worldLeaf 0x2001FF8) (by decide +kernel), Or.inl ?_⟩⟩⟩,
    ⟨f _ (by decide) unpaused_of (by decide) (by decide), Or.inr ⟨0x200000, by decide, Or.inr ⟨_, okOf_some (a := worldLeaf 0x200000) (by decide +kernel), Or.inr (Or.inl ?_)⟩⟩⟩,
    ⟨f _ (by decide) unpaused_of (by decide) (by decide), Or.inr ⟨0x40030000, by decide, Or.inr ⟨_, okOf_some (a := winLeaf) (by decide +kernel), Or.inr (Or.inr (Or.inl ?_))⟩⟩⟩,
    ⟨f _ (by decide) unpaused_of (by decide) (by decide), Or.inr ⟨0x40030000, by decide, Or.inr ⟨_, okOf_some (a := winLeaf) (by decide +kernel), Or.inr (Or.inr (Or.inl ?_))⟩⟩⟩,
    ⟨f _ (by decide) unpaused_of (by decide) (by decide), Or.inr ⟨0x200000, by decide, Or.inr ⟨_, okOf_some (a := worldLeaf 0x200000) (by decide +kernel), Or.inr (Or.inr (Or.inr (Or.inl ?_)))⟩⟩⟩,
    ⟨f _ (by decide) unpaused_of (by decide) (by decide), Or.inr ⟨0x2000B8, by decide, Or.inr ⟨_, okOf_some (a := worldLeaf 0x2000B8) (by decide +kernel), Or.inr (Or.inr (Or.inr (Or.inr ?_)))⟩⟩⟩,
    ⟨f _ (by decide) unpaused_of (by decide) (by decide), Or.inl ⟨7, 0, by decide⟩⟩⟩ <;> decide +kernel

/-- A state whose logical core `l` is `c`. -/
def withCore (s : State) (l : Nat) (c : LCore) : State := { s with cores := [(coreKey 1 l, c)] }
/-- A deterministic context. -/
def detRec : CreateRec := { worldRec with det := true }
def detWorld (a : Word) (c : Ctx) (co : LCore) : State := withCore (world (tAt a) { c with cr := detRec } (Mem.write worldMem (lsKey 1 0 0xE0) (leBytes 8 0x10000))) 0 co
/-- Outside the live loop; an untaken guarded sector; a sector that core 5 has written; one that it has read, before a store; the last word of a ring's
header, before a store; the last word of a slot that is free; and a word of the own store that core 5 has written. -/
theorem test_witness_AccessTraps_conflicts :
    (let s := detWorld 0x200000 { worldCtx with loop := some {} } {}
     Conflicts s .r (s.slot.rx 8) 8) ∧
    (let s := detWorld 0x200038 { worldCtx with guards := [{ cell := 0x300000, base := 0x200010, len := 48, target := 1, lc := 0, taken := [1] }] } {}
     Conflicts s .r (s.slot.rx 8) 8) ∧
    (let s := detWorld 0x20003C { worldCtx with shadows := [(0x200010, { writer := 5 })] } {}
     Conflicts s .r (s.slot.rx 8) 4) ∧
    (let s := detWorld 0x20003C { worldCtx with shadows := [(0x200010, { reader := 0x3FE })] } {}
     Conflicts s .w (s.slot.rx 8) 4) ∧
    (let s := detWorld 0xFE00000000F00178 worldCtx { rings := [0xC0] }
     Conflicts s .w (s.slot.rx 8) 8) ∧
    (let s := detWorld 0xFE00000000F001A8 worldCtx { rings := [0xC0] }
     Conflicts s .r (s.slot.rx 8) 8) ∧
    (let s := detWorld 0xFE00000000F001B0 { worldCtx with shadows := [(2 ^ 56 + lsKey 1 0 0x1B0, { writer := 5 })] } { rings := [0xC0] }
     Conflicts s .w (s.slot.rx 8) 8) := by
  refine ⟨⟨rfl, rfl, isOk_some (by decide +kernel), Or.inl ⟨rfl, rfl⟩⟩,
    ⟨rfl, rfl, isOk_some (by decide +kernel), Or.inr ⟨Or.inr rfl, 0x200010, Or.inl ⟨0x200038, by decide, by decide, Or.inl ⟨_, rfl, rfl, by decide⟩⟩⟩⟩,
    ⟨rfl, rfl, isOk_some (by decide +kernel), Or.inr ⟨Or.inr rfl, 0x200010, Or.inl ⟨0x20003C, by decide, by decide, Or.inr (by decide +kernel)⟩⟩⟩,
    ⟨rfl, rfl, isOk_some (by decide +kernel), Or.inr ⟨Or.inr rfl, 0x200010, Or.inl ⟨0x20003C, by decide, by decide, Or.inr (by decide +kernel)⟩⟩⟩,
    ⟨rfl, rfl, isOk_some (by decide +kernel), Or.inr ⟨Or.inr rfl, _, Or.inr ⟨0, 0x178, by decide, rfl, Or.inl ⟨0xC0, by decide +kernel⟩⟩⟩⟩,
    ⟨rfl, rfl, isOk_some (by decide +kernel), Or.inr ⟨Or.inr rfl, _, Or.inr ⟨0, 0x1A8, by decide, rfl, Or.inr (Or.inl ⟨0xC0, 0, by decide +kernel⟩)⟩⟩⟩,
    ⟨rfl, rfl, isOk_some (by decide +kernel), Or.inr ⟨Or.inr rfl, _, Or.inr ⟨0, 0x1B0, by decide, rfl, Or.inr (Or.inr (by decide +kernel))⟩⟩⟩⟩

/-- A load that waits at the queue's head, of an address that breaks the tables or whose page is absent, and a store there. -/
def hopeless : Task := { id := 1, pc := 0x200000, ea := 0x40000008, op := .load .d false 5 }
def hopelessStore : Task := { hopeless with op := .store [1, 2, 3, 4] }
def tHead (depth : Nat) : Slot := { tD with tasks := [hopeless], depth := depth }
theorem scalar_tasks : ScalarTask hopeless .r 8 ∧ ScalarTask hopelessStore .w 4 :=
  ⟨Or.inl ⟨.d, false, 5, rfl, rfl, rfl⟩, Or.inr ⟨[1, 2, 3, 4], rfl, rfl, rfl, by decide⟩⟩
theorem test_witness_AccessTraps_access :
    (let s := world (tHead 0) worldCtx (Mem.write worldMem 0x14010 (leBytes 8 5))
     s.slot.head? = some hopeless ∧ s.slot.stopping = false ∧ hopeless.ea.toNat % 8 = 0 ∧ hopeless.nan = s.slot.nanread ∧ Unpaused s ∧
     Refuses s .r hopeless.ea 8 .protection ∧ s.slot.sup = false ∧ s.slot.trapvec ≠ 0) ∧
    (let s := st (tHead 0)
     s.slot.head? = some hopeless ∧ s.slot.stopping = false ∧ Unpaused s ∧ placeOf 0 hopeless.ea = some (.glob 0x40000008) ∧
     s.leaf 1 0x40000008 = .error .pageAbsent ∧ s.slot.depth = 0 ∧ popCount 32 s.slot.rmask.toNat ≤ 16 ∧ s.here.poolFree = 0 :: [1, 2, 3]) ∧
    (let s := st { tHead 2 with tasks := [hopelessStore] }
     s.slot.head? = some hopelessStore ∧ s.slot.stopping = false ∧ Unpaused s ∧ s.leaf 1 0x40000008 = .error .pageAbsent ∧ s.slot.depth ≠ 0) ∧
    (let s := st { tHead 0 with rmask := 0x3FFFE }
     s.slot.head? = some hopeless ∧ s.slot.stopping = false ∧ Unpaused s ∧ s.leaf 1 0x40000008 = .error .pageAbsent ∧
     16 < popCount 32 s.slot.rmask.toNat) :=
  ⟨⟨by decide, by decide, by decide, by decide, unpaused_of, Or.inr ⟨0x40000008, by decide, Or.inl (errOf_some (by decide +kernel))⟩, by decide, by decide⟩,
    ⟨by decide, by decide, unpaused_of, by decide, errOf_some (by decide +kernel), by decide, by decide, by decide⟩,
    ⟨by decide, by decide, unpaused_of, errOf_some (by decide +kernel), by decide⟩,
    by decide, by decide, unpaused_of, errOf_some (by decide +kernel), by decide⟩

theorem test_witness_AtomicMemory : Fresh (st tC) ∧ Calm (st tC) ∧ (st tC).focus.lc < 768 ∧ ((st tC).slot.rx 8).toNat % 8 = 0 ∧
    Mapped (st tC) .rw ((st tC).slot.rx 8) 8 0x20FFF8 ∧ Mapped (st tC) .rw ((st tC).slot.rx 8) 4 0x20FFF8 ∧
    (Instr.red s8 .add .i64 8 9).wf = true :=
  ⟨by unfold Fresh; decide, calm_st tC, by decide, by decide, (in_st tC).mapped .rw rfl (Or.inl ⟨rfl, rfl⟩) rfl (by decide) (by decide),
    (in_st tC).mapped .rw rfl (Or.inl ⟨rfl, rfl⟩) rfl (by decide) (by decide), by decide⟩

/-- Element j of the offsets is 8·j; x14 is the same stride, x13 the base. -/
def offs8 : VReg := BitVec.ofNat 1536 ((List.range 24).foldl (fun n j => n + 8 * j * 2 ^ (64 * j)) 0)
def tE : Slot := { running with x := [(13, 0x210000), (14, 8)], v := [(3, offs8)] }
def sE (m : Tab Byte) (v : Tab Nat) : State := { st tE with mem := m, versions := v }
theorem elements (stride : Option Word) (hs : stride = none ∨ stride = some ((st tE).slot.rx 14)) (j : Nat) (hj : j < 24) :
    (elementAt ((st tE).slot.rx 13) 64 ((st tE).slot.rv 3) stride j).toNat = 0x210000 + 8 * j := by
  have a : ∀ j, j < 24 → (elementAt 0x210000 64 offs8 none j).toNat = 0x210000 + 8 * j := by decide +kernel
  have b : ∀ j, j < 24 → (elementAt 0x210000 64 offs8 (some 8) j).toNat = 0x210000 + 8 * j := by decide +kernel
  rcases hs with rfl | rfl
  · exact a j hj
  · exact b j hj
theorem sE_slot (m : Tab Byte) (v : Tab Nat) : (sE m v).slot = tE := by
  show Tab.get {} [(home.key, tE)] home.key = tE
  simp [Tab.get]
theorem sE_sup (m : Tab Byte) (v : Tab Nat) : (sE m v).slot.sup = false := congrArg Slot.sup (sE_slot m v)
theorem in_sE {m : Tab Byte} (v : Tab Nat) (h : ∀ x, x < 0x60000 → Mem.read m x = Mem.read worldMem x) : InWorld (sE m v) :=
  ⟨rfl, h, (in_st tE).frames, rfl, rfl⟩

theorem test_witness_VectorMemory : Fresh (st tE) ∧ Calm (st tE) ∧ gatherTyOk .i64 = true ∧ ((st tE).slot.rx 13).toNat % 4 = 0 ∧
    Mapped (st tE) .r ((st tE).slot.rx 13 + 0) 192 0x210000 ∧
    (∀ stride : Option Word, stride = none ∨ stride = some ((st tE).slot.rx 14) → ∀ j, j < 24 →
      (elementAt ((st tE).slot.rx 13) 64 ((st tE).slot.rv 3) stride j).toNat % 8 = 0 ∧
      Mapped (st tE) .r (elementAt ((st tE).slot.rx 13) 64 ((st tE).slot.rv 3) stride j) 8 (0x210000 + 8 * j)) ∧
    (∀ m v, (∀ x, x < 0x210000 ∨ 0x210000 + 192 ≤ x → Mem.read m x = Mem.read (st tE).mem x) →
      Mapped { st tE with mem := m, versions := v } .w ((st tE).slot.rx 13 + 0) 192 0x210000) ∧
    (∀ stride : Option Word, stride = none ∨ stride = some ((st tE).slot.rx 14) → ∀ m v,
      (∀ x, (∀ j, j < 24 → x < 0x210000 + 8 * j ∨ 0x210000 + 8 * j + 8 ≤ x) → Mem.read m x = Mem.read (st tE).mem x) → ∀ j, j < 24 →
      Mapped { st tE with mem := m, versions := v } .w (elementAt ((st tE).slot.rx 13) 64 ((st tE).slot.rv 3) stride j) 8 (0x210000 + 8 * j)) := by
  refine ⟨by unfold Fresh; decide, calm_st tE, rfl, by decide, (in_st tE).mapped .r rfl (Or.inl ⟨rfl, rfl⟩) rfl (by decide) (by decide), ?_, ?_, ?_⟩
  · intro stride hs j hj
    refine ⟨?_, (in_st tE).mapped_at .r (elements stride hs j hj) rfl (Or.inl ⟨rfl, rfl⟩) rfl (by omega) (by omega)⟩
    rw [elements stride hs j hj]; omega
  · intro m v h
    exact (in_sE v (fun x hx => h x (Or.inl (by omega)))).mapped_at .w rfl rfl (Or.inl ⟨rfl, rfl⟩) (sE_sup m v) (by decide) (by decide)
  · intro stride hs m v h j hj
    exact (in_sE v (fun x hx => h x (fun j _ => Or.inl (by omega)))).mapped_at .w (elements stride hs j hj) rfl (Or.inl ⟨rfl, rfl⟩) (sE_sup m v)
      (by omega) (by omega)

def aMsg : Msg := { src := 3, kind := .msg, tag := 5, words := [1, 2, 3, 4, 5, 6, 7] }

theorem test_witness_SendStatus : Unpaused (st tA) ∧ Fresh (st tA) ∧ (st tA).here.cr.det = false ∧ (st tA).focus.lc < 768 ∧
    (Instr.send s8 24 1 24).wf = true ∧ (st tA).msgRoom 1 767 = true ∧
    (withCore (st tA) 767 { box := List.replicate 3872 aMsg }).msgRoom 1 767 = false ∧
    (Tab.get {} ({ st tA with endpoints := [(191, { state := .run, ctx := 1 })] } : State).endpoints (0x3BF - 768)).state = .run ∧
    (Tab.get {} (st tA).endpoints 0).state ≠ .run :=
  ⟨unpaused_of, by unfold Fresh; decide +kernel⟩

theorem test_witness_Takes : (let s := withCore (st tA) 0 { box := [aMsg] }
    Fresh s ∧ s.here.cr.det = false ∧ s.focus.pos < 8 ∧ s.slot.sup = false ∧ octetOk 24 = true ∧ s.here.clockFull = false ∧
    s.peek 1 0 { kind := .msg, src := some 3, xd := 24 } = some aMsg ∧ aMsg.nan = s.slot.nanread ∧
    s.peek 1 0 { kind := .msg, src := some 4, xd := 24 } = none ∧ s.peek 1 0 { kind := .count, xd := 1 } = none) := by
  unfold Fresh; decide

/-- A message of any source, where one channel has messages: the choice of the channel is no choice. -/
theorem test_witness_Takes_any : (withCore (st tA) 0 { box := [aMsg] }).peek 1 0 { kind := .msg, xd := 24 } = some aMsg := by
  have e : ((withCore (st tA) 0 { box := [aMsg] }).core 1 0).channels .msg = [3] := by decide
  have c : (withCore (st tA) 0 { box := [aMsg] }).channel 1 0 { kind := .msg, xd := 24 } = some 3 := by
    unfold State.channel
    simp only [e, List.length_singleton, Nat.mod_one, Nat.one_ne_zero, if_false]; rfl
  unfold State.peek
  rw [c]; decide

/-- x9 names the last word of the own store, x10 that of core 7. -/
def tF : Slot := { running with x := [(9, 0xFE00000000F7FFF8), (10, 0xFE0000000077FFF8)] }
theorem test_witness_Watches : (let s := withCore (st tF) 7 { watch := [(0xFFFF, true)], rings := [0x100] }
    Calm s ∧ Fresh s ∧ ownPlace 0 (s.slot.rx 9) = some 0x7FFF8 ∧ 0x7FFF8 % 8 = 0 ∧ placeOf 0 (s.slot.rx 10) = some (.ls 7 0x7FFF8) ∧
    s.placed 1 7 = true ∧ s.clearOfRings 7 0x7FFF8 8 = true ∧ Tab.get false (s.core 1 7).watch (0x7FFF8 / 8) = true ∧ s.eventRoom 1 7 = true ∧
    (∀ m ∈ (s.core 1 7).box, m.kind ≠ .watch) ∧ (s.core 1 7).suspended = []) :=
  ⟨calm_of, by unfold Fresh; decide +kernel⟩

theorem test_witness_Barrier_arrival : Fresh (st tA) ∧ (st tA).here.cr.det = false ∧ (st tA).here.loop = none := by unfold Fresh; decide

/-- Every core of the world has arrived; a declaration and two contributions name one cell, another contribution a second. -/
def phaseCells : List (Nat × Nat) := [(0x20FFF8, 0x20FFF8), (0x210000, 0x210000)]
def phaseCtx : Ctx :=
  { worldCtx with guardsNext := [{ cell := 0x20FFF8, base := 0, len := 48, target := 2 ^ 32 - 1, lc := 2 }]
                  prefixes := [{ cell := 0x20FFF8, lc := 3, val := 5, nan := false }, { cell := 0x210000, lc := 0, val := 6, nan := true },
                               { cell := 0x20FFF8, lc := 1, val := 7, nan := false }] }
def phaseWorld : State := { world {} phaseCtx worldMem with cores := (List.range 16).map (fun l => (coreKey 1 l, { arrivals := [false] })) }
theorem in_phase : InWorld phaseWorld := ⟨rfl, fun _ _ => rfl, (in_st running).frames, rfl, rfl⟩
theorem test_witness_Barrier_step :
    (let s := phaseWorld
     let c := s.ctxOf 1
     s.members 1 ≠ [] ∧ (s.members 1).Nodup ∧ (∀ l ∈ s.members 1, l < 768) ∧ (∀ l ∈ s.members 1, (s.core 1 l).arrivals ≠ []) ∧
     c.waitLists = [] ∧ c.cwatches = [] ∧ c.deferred = [] ∧ c.partials = [] ∧ c.ovfPending = false ∧ c.guardsNext.length ≤ 256 ∧
     (c.prefixes.map (·.cell)).eraseDups.length ≤ 256 ∧ (∀ g ∈ c.guardsNext, g.target < 2 ^ 32 ∧ g.lc < 768) ∧ (phaseCells.map (·.1)).Nodup ∧
     (∀ e ∈ phaseCells, e.1 % 8 = 0) ∧ (∀ p ∈ c.prefixes, p.lc < 768)) := by
  decide +kernel
theorem test_witness_Barrier_cells :
    (∀ p, (phaseWorld.clock 1 p).toNat + 2 ^ 40 < 2 ^ 47) ∧
    (∀ l, l < 768 → Arena phaseWorld (phaseWho 1 l) (phaseCells.map (fun e => (e.1, 8, e.2)))) ∧
    (∀ a : Word, ((∃ g ∈ (phaseWorld.ctxOf 1).guardsNext, g.cell = a) ∨ ∃ p ∈ (phaseWorld.ctxOf 1).prefixes, p.cell = a) →
      ∃ e ∈ phaseCells, e.1 = a.toNat) ∧
    (∀ l, l < 768 → (phaseWorld.core 1 l).suspended = [] ∧
      (phaseWorld.core 1 l).box.length + ((phaseWorld.ctxOf 1).prefixes.filter (fun p => decide (p.lc = l))).length + 1 ≤ 32 + (phaseWorld.ctxOf 1).ringN) := by
  refine ⟨fun p => ?_, fun l hl => in_phase.arena _ _ rfl hl (Or.inl rfl) (by decide) (by decide), fun a h => ?_, ?_⟩
  · show (Tab.get 0 [] p : Clock).toNat + _ < _
    rw [Tab.get]; decide
  · have e : (phaseWorld.ctxOf 1).guardsNext = phaseCtx.guardsNext ∧ (phaseWorld.ctxOf 1).prefixes = phaseCtx.prefixes := ⟨rfl, rfl⟩
    rw [e.1, e.2] at h
    rcases h with ⟨g, hg, rfl⟩ | ⟨p, hp, rfl⟩
    · have : ∀ g ∈ phaseCtx.guardsNext, ∃ e ∈ phaseCells, e.1 = g.cell.toNat := by decide
      exact this g hg
    · have : ∀ p ∈ phaseCtx.prefixes, ∃ e ∈ phaseCells, e.1 = p.cell.toNat := by decide
      exact this p hp
  · decide +kernel

/-- x8 names a cell, x11 and x12 a base and a length of a guard that ends at the end of the addresses. -/
def tG : Slot := { running with x := [(8, 0x20FFF8), (9, 5), (11, 0xFFFFFFFFFFFFC0), (12, 48)] }
theorem test_witness_CountCells : Fresh (st tG) ∧ Calm (st tG) ∧ ((st tG).slot.rx 8).toNat % 8 = 0 ∧ ((st tG).slot.rx 8).toNat < 2 ^ 56 ∧
    Mapped (st tG) .r ((st tG).slot.rx 8) 8 0x20FFF8 ∧ Mapped (st tG) .rw ((st tG).slot.rx 8) 8 0x20FFF8 ∧
    (st tG).eventRoom 1 0 = true ∧ ((st tG).slot.rx 11).toNat % 48 = 0 ∧ ((st tG).slot.rx 12).toNat % 48 = 0 ∧ 0 < ((st tG).slot.rx 12).toNat ∧
    ((st tG).slot.rx 11).toNat + ((st tG).slot.rx 12).toNat ≤ 2 ^ 56 ∧ (st tG).here.guardsNext = [] ∧ (Instr.pfxadd s8 8).wf = true ∧
    ((st tG).here.prefixes.map (·.cell)).length < 256 :=
  ⟨by unfold Fresh; decide, calm_st tG, by decide, by decide, (in_st tG).mapped .r rfl (Or.inl ⟨rfl, rfl⟩) rfl (by decide) (by decide),
    (in_st tG).mapped .rw rfl (Or.inl ⟨rfl, rfl⟩) rfl (by decide) (by decide), by decide, by decide, by decide, by decide, by decide, rfl, by decide,
    by decide⟩

/-- x8 and x9 name the last 64 KiB of the addresses. -/
def tH : Slot := { running with x := [(8, 0xFFFFFFFFFF0000), (9, 0x10000)] }
def aReq : EvReq := { lc := 0, nan := false, a := 0, b := 0x10000, copies := [5] }
def anEntry : QEntry := { ref := 3, cid := 9 }
theorem test_witness_Invalidates :
    (let s := st tH
     Unpaused s ∧ Fresh s ∧ s.here.cr.det = false ∧ s.eventRoom 1 0 = true ∧ (s.slot.rx 8).toNat % 65536 = 0 ∧ s.slot.rx 9 ≠ 0 ∧
     (s.slot.rx 9).toNat % 65536 = 0 ∧ (s.slot.rx 8).toNat + (s.slot.rx 9).toNat ≤ 2 ^ 56 ∧ s.here.waitLists = [] ∧ s.here.xinvs = [] ∧
     s.copiesOf 1 0 = [] ∧ s.here.drains = []) ∧
    (let s := world running { worldCtx with xinvs := [aReq], waitLists := [(5, [.record 0 anEntry])] } worldMem
     (s.ctxOf 1).xinvs = [aReq] ∧ 5 ∈ aReq.copies ∧ s.leaf 1 (5 * 65536) = .ok (worldLeaf (5 * 65536)) ∧
     Tab.get [] (s.ctxOf 1).waitLists 5 = [.record 0 anEntry]) :=
  ⟨⟨unpaused_of, by unfold Fresh; decide⟩, rfl, by decide, (in_world _ rfl (fun _ _ => rfl)).leaf (by decide), by decide⟩

theorem test_witness_SlotSteps_frame : (st { running with slice := 100, sliceCount := 100 }).here.partials = [] ∧
    Young (st { running with slice := 100, sliceCount := 100 }) := ⟨rfl, young_of⟩
theorem test_witness_SlotSteps :
    (let s := st { running with slice := 100, sliceCount := 100 }
     Idle s ∧ s.slot.mode = .running ∧ s.focus.pos < 8 ∧ s.slot.slice ≠ 0 ∧ s.slot.slice ≤ s.slot.sliceCount ∧ s.slot.sup = false ∧
     s.slot.pend = none ∧ s.slot.stopReq = .none ∧ s.slot.wait = .none ∧ s.slot.await = none ∧ s.slot.progress = 0 ∧
     s.here.imageFrame 0 0 % 65536 + 8192 ≤ 65536 ∧ s.here.imageFrame 0 0 < 2 ^ 30 ∧ inHbm (s.here.imageFrame 0 0) = true) ∧
    ((st { running with wait := .pool }).slot.wait = .pool ∧ (st running).here.poolFree ≠ []) ∧
    (let d : Deferred := { dst := 0, msg := aMsg }
     let s := world running { worldCtx with deferred := [d] } worldMem
     (s.ctxOf 1).deferred = [d] ∧ d.msg.kind ≠ .count ∧ (s.ctxOf 1).cwatches = [] ∧ s.eventRoom 1 0 = true) ∧
    (let s := world running { worldCtx with notes := [{ src := 0x3FF, kind := .trapnote, words := [3, 0, 0] }] } worldMem
     (s.ctxOf 1).notes = [{ src := 0x3FF, kind := .trapnote, words := [3, 0, 0] }] ∧ s.noteHeld 1 { src := 0x3FF, kind := .trapnote, words := [3, 0, 0] } = false ∧ s.eventRoom 1 8 = true ∧
     (withCore s 8 { box := List.replicate 4128 aMsg }).eventRoom 1 8 = false) ∧
    (let t := (st { running with parked := true }).slot
     t.mode = .running ∧ t.parked = true ∧ t.tasks = [] ∧ t.longs = [] ∧ t.stopped = [] ∧ t.pend = none ∧ t.stopReq = .none) := by
  unfold Idle; decide +kernel

/-- A continuation record of zeros but for its PC and two inputs. -/
def record0 : List Byte := leBytes 8 0x200100 ++ (leBytes 4 6 ++ (zeros 4 ++ (zeros 16 ++ (leBytes 8 7 ++ (leBytes 8 8 ++ zeros 144)))))
/-- The context with logical core 3 alone. -/
def oneCtx : Ctx := { worldCtx with placement := [(3, BitVec.ofNat 32 (2 ^ 31 + 3))] }
def grantWorld : State :=
  { world {} oneCtx (Mem.write worldMem 0x3000240 record0) with cores := [(coreKey 1 3, { ready := [anEntry] })] }
theorem in_grant : InWorld grantWorld :=
  ⟨rfl, fun x hx => Mem.read_write_out _ _ _ (Or.inl (Nat.lt_of_lt_of_le hx (by decide))), (in_st running).frames, rfl, rfl⟩
theorem record0_length : record0.length = 192 := by unfold record0; simp only [List.length_append, zeros_length, leBytes_length]
/-- A message for a handler, and a table of handlers of one entry. -/
def actMsg : Msg := { aMsg with tag := 2 ^ 15 }
def handlerCtx : Ctx := { oneCtx with cr := { worldRec with handlers := 0x70000, nhandlers := 1 } }
def handlerWorld : State :=
  { world {} handlerCtx (Mem.write worldMem 0x70000 (leBytes 8 0x200100)) with cores := [(coreKey 1 3, { box := [aMsg, actMsg] })] }

theorem test_witness_SlotGrants_record :
    grantWorld.hosted 1 3 = [3] ∧ (grantWorld.core 1 3).ready = [anEntry] ∧ anEntry.image = false ∧
    (∀ p, p < 9 → (grantWorld.slotAt { ctx := 1, lc := 3, pos := p }).mode = .free) ∧ (grantWorld.ctxOf 1).stopping 3 = false ∧
    Tab.get 0 grantWorld.passCount 3 < 15 ∧ grantWorld.engHeld 1 (grantTag anEntry) = false ∧
    grantWorld.peekBytes 1 ((grantWorld.ctxOf 1).recordAddr anEntry.ref) 192 = some record0 ∧ Record.badField record0 = none ∧
    (Record.parse record0).cause ≠ 1 ∧ (Record.parse record0).node = 0 := by
  refine ⟨by decide +kernel, by decide, rfl, by decide, by decide, by decide, by decide, ?_, by decide +kernel, by decide +kernel, by decide +kernel⟩
  have n := record0_length
  have a : (grantWorld.ctxOf 1).recordAddr anEntry.ref = 0x3000240 := rfl
  rw [a, ← n]
  refine in_grant.peek (by omega) (by omega) (fun i hi => ?_) (by omega)
  show Mem.read (Mem.write worldMem 0x3000240 record0) (0x3000240 + i) = _
  rw [Mem.read_write, if_pos (by omega), Nat.add_sub_cancel_left]; rfl

theorem test_witness_SlotGrants_handler : handlerWorld.hosted 1 (handlerWorld.physCore 1 3) = [3] ∧ handlerWorld.placed 1 3 = true ∧
    (handlerWorld.slotAt { ctx := 1, lc := 3, pos := 8 }).mode = .free ∧ (handlerWorld.ctxOf 1).stopping 3 = false ∧
    (∀ q ∈ (handlerWorld.core 1 3).ready ++ (handlerWorld.core 1 3).suspended, q.image = false) ∧ (handlerWorld.core 1 3).box.find? Msg.active = some actMsg ∧
    handlerWorld.handler 1 actMsg.tag = some 0x200100 := by decide +kernel

theorem test_witness_WaitsAndClocks :
    (let s : State := { st {} with cycle := 2 ^ 24
                                   cores := [(coreKey 1 3, { suspended := [{ cid := 4, await := some { kind := .msg, src := some 5, xd := 1 } }] }),
                                             (coreKey 1 5, { suspended := [{ cid := 6, await := some { kind := .msg, src := some 3, xd := 1 } }] })] }
     s.published 1 3 = [(4, 5)] ∧ s.published 1 5 = [(6, 3)] ∧ s.busy 1 5 = false ∧
     (Tab.get (0, 0) (s.ctxOf 1).probed 4).2 + (s.ctxOf 1).probeCycles ≤ s.cycle ∧ s.eventRoom 1 (s.ctxOf 1).cr.supcore = true) ∧
    (let c : Ctx := { worldCtx with clocks := [(0, 5), (7, BitVec.ofNat 48 (2 ^ 47 - 2 ^ 20))] }
     let f : Focus := { ctx := 1, lc := 3, pos := 2 }
     let s := world {} c worldMem
     let u : State := { s with slots := [(f.key, { running with tasks := [{ id := 1, op := .bar }] })] }
     Tab.wf 0 (s.ctxOf 1).clocks = true ∧ (s.members 1).Nodup ∧ (∀ l ∈ s.members 1, l < 768) ∧ 2 ^ 47 ≤ (s.clock 1 7).toNat + 2 ^ 20 ∧
     (∀ e ∈ s.slots, e.1 / 16384 = 1 → e.2.mode = .free ∨ e.2.mode = .halted) ∧ 2 ^ 47 ≤ (u.clock 1 7).toNat + 2 ^ 20 ∧
     (u.slotAt f).mode = .running ∧ (u.slotAt f).pend = none ∧ (u.slotAt f).tasks = [{ id := 1, op := .bar }]) := by
  decide +kernel
/-- The clocks of a context that has made no access. -/
theorem test_witness_WaitsAndClocks_early : ∀ p, ((st {}).clock 1 p).toNat + 2 ^ 20 < 2 ^ 47 := fun p => by
  show (Tab.get 0 [] p : Clock).toNat + _ < _
  rw [Tab.get]; decide
theorem fresh_st (t : Slot) (h : t.mode = .running ∧ t.stopped = [] ∧ t.longs = [] ∧ t.tasks = [] ∧ t.pend = none ∧ t.stopReq = .none ∧ t.wait = .none) :
    Fresh (st t) := by
  have e : (st t).slot = t := by
    show Tab.get {} [(home.key, t)] home.key = t
    simp [Tab.get]
  unfold Fresh; rw [e]; exact h

theorem fresh_tA : Fresh (st tA) := fresh_st _ (by decide)

def c0 : Ctl := { rm := .rne, daz := false, ftz := false }

theorem test_witness_LaneIntegers : (Instr.vadd s8 ⟨1, true⟩ c0 .i16 2 3 4).wf = true ∧
    laneResult (.vadd s8 ⟨1, true⟩ c0 .i16 2 3 4) = some (s8, ⟨1, true⟩, 16, 2, fun t j => (el t 16 3 j + el t 16 4 j).toNat) ∧ Fresh (st tA) :=
  ⟨by decide, rfl, fresh_tA⟩

theorem test_witness_LaneFloats : (Instr.vrsqrt s8 ⟨1, false⟩ c0 .f32 2 3).wf = true ∧
    floatResult (.vrsqrt s8 ⟨1, false⟩ c0 .f32 2 3) = some (s8, ⟨1, false⟩, c0, .f32, 2, op1 FVal.rsqrt, [3]) ∧ ETy.f32.flt = true ∧
    fmtOf (st tA).slot.nanread .f32 = some f32Fmt ∧ Fresh (st tA) := ⟨by decide, rfl, rfl, rfl, fresh_tA⟩

theorem pow2_zpow (e : Int) : pow2 e = (2 : Rat) ^ e := by
  unfold pow2
  split
  · rename_i h
    conv_rhs => rw [← Int.toNat_of_nonneg h, zpow_natCast]
    simp
  · rename_i h
    have : e = -((-e).toNat : Int) := by omega
    conv_rhs => rw [this, zpow_neg, zpow_natCast]
    simp

/-- Half of the smallest number of FP32 lies between zero and that number. -/
theorem test_witness_LaneFloats_rounding :
    (⟨.fin false 1 (-150), false, 0⟩ : Res).stands (pow2 (-150)) ∧ pow2 (-150) ≠ 0 ∧ f32Fmt.adjacent 0 (pow2 (-149)) ∧ 0 ≤ ratAbs (pow2 (-150)) ∧
    ratAbs (pow2 (-150)) < pow2 (-149) := by
  have z : ∀ e, (0 : Rat) < pow2 e := fun e => by rw [pow2_zpow]; positivity
  have a : ratAbs (pow2 (-150)) = pow2 (-150) := by unfold ratAbs; rw [if_neg (not_lt.2 (z _).le)]
  have l : pow2 (-150) < pow2 (-149) := by rw [pow2_zpow, pow2_zpow]; exact zpow_lt_zpow_right₀ (by norm_num) (by norm_num)
  refine ⟨⟨false, 1, -150, rfl, rfl, fun h => absurd h (not_lt.2 (z _).le), fun _ => rfl, fun _ => by rw [a]; simp, fun h => by cases h⟩, (z _).ne',
    ⟨⟨0, -149, by decide, by decide, by simp⟩, ⟨1, -149, by decide, by decide, by simp⟩, z _, ?_⟩, by rw [a]; exact (z _).le, by rw [a]; exact l⟩
  rintro x ⟨k, q, -, hq, rfl⟩
  rcases Nat.eq_zero_or_pos k with rfl | hk
  · left; simp
  · right
    have hm : pow2 (-149) ≤ pow2 q := by rw [pow2_zpow, pow2_zpow]; exact zpow_le_zpow_right₀ (by norm_num) (le_trans (by decide) hq)
    have hk' : (1 : Rat) ≤ (k : Rat) := by exact_mod_cast hk
    nlinarith [z q]

theorem test_witness_LaneFloats_values : (FVal.fin true 0 0).rat = 0 ∧ (FVal.fin false 1 0).rat ≠ 0 ∧ (FVal.fin false 1 0).rat + (FVal.fin true 1 0).rat = 0 := by
  decide +kernel

/-- The ends of the ranges of integers whose powers of two are exact, and whose logarithms. -/
theorem test_witness_LaneFloats_powers : (FVal.fin true 2000 0).rat = ((-2000 : Int) : Rat) ∧ (FVal.fin false 1 2000).rat = pow2 2000 ∧
    (-2000 : Int).natAbs ≤ 2000 ∧ (2000 : Int).natAbs ≤ 2000 := by
  refine ⟨by simp [FVal.rat, pow2], ?_, by decide, by decide⟩
  show (if false = true then (-1 : Rat) else 1) * ((1 : Nat) : Rat) * pow2 2000 = pow2 2000
  rw [if_neg (by decide), Nat.cast_one, one_mul, one_mul]

theorem test_witness_LaneMoves : Fresh (st tA) ∧ (Instr.vext s8 .i8 5 6 191).wf = true ∧ (Instr.vins s8 .i64 5 6 23).wf = true ∧
    ETy.i64.int = true := ⟨fresh_tA, by decide, by decide, rfl⟩

theorem test_witness_Conversions : (Instr.vcvt s8 ⟨1, false⟩ c0 .i8 .i32 2 3).wf = true ∧ ETy.i8.int = true ∧ ETy.i32.int = true ∧
    Fresh (st tA) ∧ fmtOf (st tA).slot.nanread .f32 = some f32Fmt ∧ (Instr.vcvt s8 ⟨1, false⟩ c0 .f32 .i64 2 3).wf = true ∧
    (Instr.vcvt s8 ⟨1, false⟩ c0 (.rn3 3) .i32 2 3).wf = true ∧ (∀ tr, (triple tr).length = 3) :=
  ⟨by decide, rfl, rfl, fresh_tA, rfl, by decide, by decide, by decide⟩

theorem test_witness_IntegerFolds : ETy.i64.int = true ∧ Fresh (st tA) := ⟨rfl, fresh_tA⟩

theorem test_witness_Selections : Fresh (st tA) ∧ ETy.i32.int = true ∧ (Instr.vtopk s8 ⟨1, false⟩ c0 .i32 2 3 48).wf = true ∧
    (Instr.vsparse s8 ⟨1, false⟩ .i8 2 4 3).wf = true := ⟨fresh_tA, rfl, by decide, by decide⟩

/-- x8, x9, x10 and x11 name panels of the own store, the last one that ends with it; x12 is 47, x13 is 48. -/
def tM : Slot := { running with x := [(8, 0xFE00000000F00000), (9, 0xFE00000000F00900), (10, 0xFE00000000F01200), (11, 0xFE00000000F7DC00), (12, 47), (13, 48)] }
def holding (hs : Tab Nat) : State := withCore (st tM) 0 { holders := hs }
theorem fresh_tM (hs : Tab Nat) : Fresh (holding hs) := fresh_st tM (by decide)

theorem test_witness_Accumulators : Fresh (holding []) ∧ (holding []).here.cr.det = false ∧ (holding []).slot.cid ≠ 0 ∧
    (Tab.get 0 (holding []).me.holders 7 = 0 ∧ (holding []).granted 7 = false) ∧
    Tab.get 0 (holding [(7, 1)]).me.holders 7 = (holding []).slot.cid ∧
    (Tab.get 0 (holding [(7, 2)]).me.holders 7 ≠ 0 ∧ Tab.get 0 (holding [(7, 2)]).me.holders 7 ≠ (holding []).slot.cid) ∧
    ((holding []).slot.rx 12).toNat < 48 ∧ 47 < ((holding []).slot.rx 13).toNat ∧
    (∀ i, i < 3 → Tab.get 0 (holding [(5, 1), (6, 1), (7, 1)]).me.holders (5 + i) = (holding []).slot.cid) ∧
    Calm (holding []) ∧ PanelAt (holding []) ((holding []).slot.rx 11) 0x7DC00 9216 :=
  ⟨fresh_tM _, rfl, by decide, by decide, by decide, by decide, by decide, by decide, by decide, calm_of, by unfold PanelAt; decide⟩

theorem test_witness_MatrixProducts :
    (let s := holding [(0, 1), (1, 1), (2, 1)]
     Fresh s ∧ Calm s ∧ UnitFree s 9 ∧ (Instr.mma s8 .i8 0 8 9 16).wf = true ∧ (Instr.mmas s8 .i8 0 8 9 10 16).wf = true ∧ (Instr.mmr s8 3 0 8 9 16).wf = true ∧
     (∀ i, i < 3 → Tab.get 0 s.me.holders i = s.slot.cid) ∧ PanelAt s (s.slot.rx 8) 0 (48 * 16) ∧ PanelAt s (s.slot.rx 9) 0x900 (192 * 16) ∧
     PanelAt s (s.slot.rx 10) 0x1200 (48 * 2) ∧ fmtOf s.slot.nanread .bf16 = some ⟨8, 7, 127, .ieee, true, false⟩ ∧ PanelAt s (s.slot.rx 8) 0 1536) :=
  ⟨fresh_tM _, calm_of, by unfold UnitFree; decide, by decide, by decide, by decide, by decide, by unfold PanelAt; decide, by unfold PanelAt; decide,
    by unfold PanelAt; decide, rfl, by unfold PanelAt; decide⟩

/-- The descriptor of a capability of core 5 over accumulator 3, and a slot in supervisor mode with its address in x8. -/
def capBytes : List Byte := leBytes 8 (5 + 2 ^ 19 + 100 * 2 ^ 32) ++ (leBytes 8 (0x80000 * 2 ^ 32) ++ zeros 16)
def aCap : Cap := { issued := true, mask := 8, expiry := 100, len0 := 0x80000 }
def tN : Slot := { running with sup := true, x := [(8, 0x210000)] }
def capWorld : State := world tN worldCtx (Mem.write worldMem 0x210000 capBytes)

theorem InW.mapped_sup {s : State} (h : InWorld s) (need : Need) {a : Word} {n k : Nat} (e : a.toNat = k) (hf : s.focus = home) (hu : Unheld s ∨ need = .r)
    (hv : k + n ≤ 0x400000) (hp : k % 65536 + n ≤ 65536) : Mapped s need a n k := by
  subst e
  have hw : (s.who s.slot.nanread).ctx = 1 := by simp [State.who, hf, home]
  have hl : (s.who s.slot.nanread).lc < 768 := by simp [State.who, hf, home]
  refine ⟨.glob a.toNat, none, a.toNat, ⟨rfl, rfl⟩, ?_, ?_, Or.inl (by unfold winBase; omega), ?_, ?_⟩
  · intro k hk
    rw [glob_place (by rw [add_small (by omega)]; omega), add_small (by omega)]; rfl
  · intro d k m hm hk
    exact (h.draw d).piece _ need hw hl (Or.inr hu) hm (by omega) (by omega)
  · intro _
    refine ⟨fun _ => ?_, fun k m hk hm => ?_⟩
    · have r : s.here.cr = worldRec := by
        have := h.rec0
        simpa [State.here, hf, home] using this
      rw [r]; simp [overlap, worldRec]; omega
    · rw [hf, show home.ctx = 1 from rfl, h.leaf (by omega)] at hm
      cases hm; rfl
  · intro c hc; cases hc

theorem bytes_read {m : Tab Byte} : ∀ (bs : List Byte) (a : Nat), (∀ i, i < bs.length → Mem.read m (a + i) = bs.getD i 0) → Mem.bytes m a bs.length = bs
  | [], _, _ => rfl
  | b :: r, a, h => by
    have h0 := h 0 (by simp)
    have hr := bytes_read r (a + 1) (fun i hi => by
      have := h (i + 1) (by simpa using hi)
      rw [show a + 1 + i = a + (i + 1) by omega, this]; rfl)
    simp only [List.length_cons, Mem.bytes]
    rw [show a = a + 0 by omega, h0, show a + 0 + 1 = a + 1 by omega, hr]; rfl
theorem bytes_write (a : Nat) (bs : List Byte) : Mem.bytes (Mem.write worldMem a bs) a bs.length = bs :=
  bytes_read bs a (fun i hi => by rw [Mem.read_write, if_pos (by omega), Nat.add_sub_cancel_left]; rfl)

theorem test_witness_RemoteCommandsAndRouting_mcap : Fresh capWorld ∧ Calm capWorld ∧ capWorld.slot.sup = true ∧
    Mapped capWorld .r (capWorld.slot.rx 8) 32 0x210000 ∧ (capWorld.slot.rx 8).toNat + 31 < 2 ^ 64 ∧
    capOf (Mem.bytes capWorld.mem 0x210000 32) = some (5, aCap) ∧ (Tab.get {} (capWorld.core 1 5).caps 0).live capWorld.here.phase = false := by
  have b : Mem.bytes capWorld.mem 0x210000 32 = capBytes := bytes_write 0x210000 capBytes
  refine ⟨by unfold Fresh; decide, calm_of, rfl, (in_write tN rfl (by decide)).mapped_sup .r (by decide) rfl (Or.inl ⟨rfl, rfl⟩) (by decide) (by decide),
    by decide, ?_, by decide⟩
  rw [b]; decide +kernel

/-- x8 is a handle of entry 15 of core 5, generation 1; the command in x10 to x13 clears accumulator 3. -/
def tO : Slot := { running with x := [(8, 5 + 15 * 2 ^ 10 + 2 ^ 16), (10, 3 * 2 ^ 8)] }
def cmd0 : List Word := [3 * 2 ^ 8, 0, 0, 0]
theorem test_witness_RemoteCommandsAndRouting_mreq : (let s := withCore (st tO) 5 { caps := [(15, aCap)], gens := [(15, 1)] }
    Unpaused s ∧ Fresh s ∧ s.here.cr.det = false ∧ (Instr.mreq s8 24 8 10).wf = true ∧
    s.slot.rx 8 = BitVec.ofNat 64 (5 + 15 * 2 ^ 10 + 1 * 2 ^ 16) ∧ s.placed 1 5 = true ∧ (Tab.get {} (s.core 1 5).caps 15).live s.here.phase = true ∧
    Tab.get 0 (s.core 1 5).gens 15 = 1 ∧ (s.core 1 5).remoteQ.length < 8 ∧ ((List.range 4).map (fun q => s.slot.rx (10 + q))) = cmd0 ∧
    decodeRemote cmd0 = some { op := 0, ty := .i32, an := 3, k := 48, ans := [3], ranges := [] } ∧
    (∀ a ∈ [3], (Tab.get {} (s.core 1 5).caps 15).mask / 2 ^ a % 2 = 1)) := by
  exact ⟨unpaused_of, by unfold Fresh; decide⟩

def aRemote : RemoteCmd := { sender := 2, nan := false, handle := 5, cmd := cmd0 }
/-- Core 5 has a command; core 13, of the same physical core, has its accumulators in the unit. -/
def applyWorld (resident : Nat) : State := { withCore (st {}) 5 { remoteQ := [aRemote] } with resident := [(5, resident)] }
theorem test_witness_RemoteCommandsAndRouting_apply : (let s := applyWorld (coreKey 1 5 + 1)
    (s.core 1 5).remoteQ = aRemote :: [] ∧ aRemote.cmd.getD 0 0 = BitVec.ofNat 64 (3 * 2 ^ 8) ∧ s.accOpen 1 5 [3] = false ∧ s.eventRoom 1 2 = true ∧
    s.physCore 1 5 = 5 ∧ s.rivals 1 5 9 { ctx := 1, lc := 5, pos := 9 } = [] ∧ s.commandAhead 1 5 aRemote.cycle (some 5) = false ∧ (s.core 1 5).framed = false ∧
    Tab.get 0 s.resident 5 = coreKey 1 5 + 1) := by
  decide
theorem test_witness_RemoteCommandsAndRouting_exchange : (let s := applyWorld (coreKey 1 13 + 1)
    Tab.get 0 s.resident 5 = coreKey 1 13 + 1 ∧ (s.ctxOf 1).status = .live ∧ s.placed 1 13 = true ∧ s.physCore 1 13 = 5 ∧ (s.ctxOf 1).partials = [] ∧
    Young s ∧ (s.core 1 2).suspended = [] ∧ ∀ x, x < 73728 →
      ∃ l, s.leaf 1 ((s.ctxOf 1).imageArea 13 + 0x22200 + x) = .ok l ∧ l.pa = (s.ctxOf 1).imageArea 13 + 0x22200 + x ∧ inHbm l.pa = true) := by
  refine ⟨by decide, rfl, by decide, by decide, rfl, young_of, rfl, fun x hx => ⟨worldLeaf ((st {}).here.imageArea 13 + 0x22200 + x), ?_, rfl, ?_⟩⟩
  · exact InW.leaf (ro := false) ⟨rfl, fun _ _ => rfl, (in_st {}).frames, rfl, rfl⟩ (by
      have : (st {}).here.imageArea 13 + 0x22200 + 73728 < 2 ^ 30 := by decide
      show (st {}).here.imageArea 13 + 0x22200 + x < 2 ^ 30
      omega)
  · have : (st {}).here.imageArea 13 + 0x22200 + 73728 < 2 ^ 30 := by decide
    exact decide_eq_true (Nat.lt_trans (show (st {}).here.imageArea 13 + 0x22200 + x < 2 ^ 30 by omega) (by decide))

/-- A routing record at offset 0x100 of the own store: two tokens, three experts, capacity 1; the second token has no expert. -/
def routeBytes : List Byte := leBytes 8 (2 + 3 * 2 ^ 16 + 2 ^ 32) ++ leBytes 8 0x200 ++ leBytes 8 0x300 ++ leBytes 8 0x400 ++ leBytes 8 0x500
def routeWorld : State :=
  { st { running with x := [(8, 0xFE00000000F00100), (9, 1)] } with
    mem := Mem.write (Mem.write [] (lsKey 1 0 0x100) routeBytes) (lsKey 1 0 0x202) [0xFF, 0xFF] }
theorem test_witness_RemoteCommandsAndRouting_route : Calm routeWorld ∧ Fresh routeWorld ∧ ownPlace 0 (routeWorld.slot.rx 8) = some 0x100 ∧
    0x100 + 40 ≤ lsSize ∧ (List.range 5).map (fun i => ownNat routeWorld (0x100 + 8 * i) 8) = [2 + 3 * 2 ^ 16 + 2 ^ 32, 0x200, 0x300, 0x400, 0x500] ∧
    routeOk (2 + 3 * 2 ^ 16 + 2 ^ 32) 0x200 0x300 0x400 0x500 = true ∧ routeFits (2 + 3 * 2 ^ 16 + 2 ^ 32) 0x200 0x300 0x400 0x500 = true ∧
    routeWorld.slot.rx 0 = 0 ∧ routeWorld.slot.rx 9 = 1 ∧
    [(0x200, 2 * 2), (0x300, 4 * 3), (0x400, 4 * 2), (0x500, 2 * 2)].Pairwise (fun p q => p.1 + p.2 ≤ q.1 ∨ q.1 + q.2 ≤ p.1) ∧
    (∀ p ∈ [(0x300, 4 * 3), (0x400, 4 * 2), (0x500, 2 * 2)], routeWorld.clearOfRings routeWorld.focus.lc p.1 p.2 = true) :=
  ⟨calm_of, by unfold Fresh; decide +kernel⟩
/-! #### Automata: an image at 0x100000 of one state and one class, with a vocabulary of two tokens -/

def writes (m : Tab Byte) (l : List (Nat × List Byte)) : Tab Byte := l.foldl (fun m p => Mem.write m p.1 p.2) m
theorem writes_low {m : Tab Byte} : ∀ (l : List (Nat × List Byte)), (∀ p ∈ l, 0x60000 ≤ p.1) → ∀ x, x < 0x60000 → Mem.read (writes m l) x = Mem.read m x
  | [], _, _, _ => rfl
  | p :: r, h, x, hx => by
    have hp := h p (by simp)
    show Mem.read (writes (Mem.write m p.1 p.2) r) x = _
    rw [writes_low r (fun q hq => h q (by simp [hq])) x hx, Mem.read_write_out _ _ _ (Or.inl (by omega))]

def page0 : Nat → Nat := fun p => 0x100000 + 4096 * p
/-- The header, then the vocabulary's tables, then what the own store holds: run records, a start set, bytes, tokens. -/
def imageHeader : List (Nat × List Byte) :=
  [(0x100000, leBytes 4 0x5A4E4155 ++ [1]), (0x100008, [1]), (0x10000C, [1]), (0x100014, [1])]
def imageVocab : List (Nat × List Byte) :=
  [(0x102001, [0x80]), (0x102100, leBytes 4 9216 ++ [1]), (0x102204, [1]), (0x102210, [0x41]), (0x10221C, leBytes 4 (2 ^ 31 + 1)),
   (0x102308, leBytes 4 9300 ++ [1]), (0x102400, leBytes 4 (2 ^ 31 + 1)), (0x102454, [0x41])]
def imageOwn : List (Nat × List Byte) :=
  [(lsKey 1 0 0x1000, leBytes 4 0x2000 ++ leBytes 4 1 ++ leBytes 4 0x3000 ++ leBytes 2 1), (lsKey 1 0 0x4000, [1]), (lsKey 1 0 0x6000, [1]),
   (lsKey 1 0 0x7000, [1])]
def imageDesc : Desc :=
  { holder := 1, base := 0x100000, states := 1, classes := 1, pages := 1, vocab := 2, mcls := 1, smoff := 8192, mdoff := 8448, trieoff := 8704,
    ttoff := 8960, vpages := 3 }
/-- x8 names the image, x9 is one, x10 to x15 name the own store, x17 is the size of a spill area with its bit 63, x18 two tokens and 1 byte. -/
def tAut : Slot := { running with
  x := [(8, 0x100000), (9, 1), (10, 0xFE00000000F01000), (11, 0xFE00000000F04000), (12, 0xFE00000000F05000), (13, 0xFE00000000F06000),
    (14, 0xFE00000000F07000), (15, 0xFE00000000F08000), (16, 0x210000), (17, 192 + 2 ^ 63), (18, 2 + 2 ^ 32)]
  k := [(1, 1)] }
def imageMem (ro : Bool) : Tab Byte := writes (tablesOf ro) (imageHeader ++ imageVocab ++ imageOwn)
def autWorld (ro : Bool) (d : Desc) : State :=
  { world tAut worldCtx (imageMem ro) with cores := [(coreKey 1 0, { descs := [(2, d)] })] }
theorem in_aut (ro : Bool) (d : Desc) : InW ro (autWorld ro d) := ⟨rfl, writes_low _ (by decide), (in_st running).frames, rfl, rfl⟩
theorem aut_slot (ro : Bool) (d : Desc) : (autWorld ro d).slot = tAut := by
  show Tab.get {} [(home.key, tAut)] home.key = tAut
  simp [Tab.get]
theorem aut_desc (ro : Bool) (d : Desc) : (autWorld ro d).desc 2 = d := by
  show Tab.get {} (Tab.get {} [(coreKey 1 0, ({ descs := [(2, d)] } : LCore))] (coreKey 1 0)).descs 2 = d
  simp [Tab.get]
theorem aut_fresh (ro : Bool) (d : Desc) : Fresh (autWorld ro d) ∧ Calm (autWorld ro d) := by
  refine ⟨?_, calm_of (s := autWorld ro d) (by show (0 : Nat) < 9; decide) ?_ rfl rfl rfl rfl rfl⟩
  · unfold Fresh; rw [aut_slot]; decide
  · show (Tab.get {} [(coreKey 1 0, ({ descs := [(2, d)] } : LCore))] (coreKey 1 0)).arrivals = []
    simp [Tab.get]
theorem pages_at {ro : Bool} {s : State} (h : InW ro s) (hf : s.focus = home) (hs : s.slot.sup = false) (first n : Nat) (hn : first + n ≤ 3) :
    PagesAt s 0x100000 page0 first n := by
  refine ⟨by omega, fun p h1 h2 => ?_⟩
  refine h.mapped_at .r (?_ : _ = page0 p) hf (Or.inr rfl) hs (by simp only [page0]; omega) (by simp only [page0]; omega) (Or.inr rfl)
  rw [BitVec.toNat_ofNat]; simp only [page0]; omega
theorem aut_pages (ro : Bool) (d : Desc) (first n : Nat) (h : first + n ≤ 3) : PagesAt (autWorld ro d) 0x100000 page0 first n :=
  pages_at (in_aut ro d) rfl (by rw [aut_slot]; rfl) first n h

theorem table_ready (d : Desc) (h : d = imageDesc ∨ d = { imageDesc with vocab := 0 }) : TableReady (autWorld false d) d page0 := by
  refine ⟨by rcases h with rfl | rfl <;> rfl, by rcases h with rfl | rfl <;> decide, by rcases h with rfl | rfl <;> decide,
    by rcases h with rfl | rfl <;> decide, ?_, ?_, ?_, ?_⟩
  · intro b; rcases h with rfl | rfl <;> exact Nat.zero_lt_one
  · intro b; rcases h with rfl | rfl <;> exact (by decide : 0 < 0x3FFFFD)
  · rcases h with rfl | rfl <;> exact aut_pages false _ 1 1 (by decide)
  · intro st c hs hc
    rcases h with rfl | rfl <;>
    · obtain rfl : st = 0 := by have : st < 1 := hs; omega
      obtain rfl : c = 0 := by have : c < 1 := hc; omega
      decide +kernel

def headerBytes : List Byte :=
  [0x55, 0x41, 0x4E, 0x5A, 1, 0, 0, 0, 1, 0, 0, 0, 1, 0, 0, 0, 0, 0, 0, 0, 1, 0, 0, 0] ++ zeros 552
theorem header_bytes : imgBytes (autWorld true { imageDesc with holder := 0 }) page0 0 576 = headerBytes := by decide +kernel
theorem header_ok : (headerChecks headerBytes).all (·.2) = true := by decide +kernel

theorem test_witness_Descriptors :
    (let d := { imageDesc with holder := 0 }
     let s := autWorld true d
     Fresh s ∧ Calm s ∧ UnitFree s 10 ∧ (s.desc 2).holder = 0 ∧ s.binding s.focus 2 = false ∧ (∀ u ∈ s.siblings, ∀ k ∈ u.tasks, ∀ q x, k.op ≠ .autbind 2 q x) ∧ (s.slot.rx 8).toNat % 4096 = 0 ∧
     (headerChecks (imgBytes s page0 0 576)).all (·.2) = true ∧
     (headerDesc 1 0x100000 (imgBytes s page0 0 576)).extent = 2 ∧ PagesAt s 0x100000 page0 0 2 ∧
     (∀ q, q < 2 → ∀ l, s.leaf 1 (0x100000 + 4096 * q) = .ok l → l.w = false) ∧
     (let new := headerDesc 1 0x100000 (imgBytes s page0 0 576)
      (∀ q bs, ¬ PinnedAs s new q bs) ∧ new.states = 1 ∧ new.classes = 1 ∧ new.entryBad (transEntry s new page0 0 0) = none)) ∧
    (let s := autWorld false imageDesc
     Fresh s ∧ Calm s ∧ (s.desc 2).holder = s.slot.cid ∧ (s.desc 2).stale = false ∧ (s.slot.rx 0).toNat ≤ (s.desc 2).pages ∧
     (s.slot.rx 0).toNat + (s.slot.rx 9).toNat ≤ (s.desc 2).pages ∧ PagesAt s (s.desc 2).base page0 ((s.slot.rx 0).toNat + 1) (s.slot.rx 9).toNat ∧
     s.me.pinned.length + ((List.range 1).filter (fun q => !s.me.pinned.contains ((s.desc 2).base, q))).length ≤ 48 ∧
     s.slot.rx 17 = BitVec.ofNat 64 (192 + 1 * 2 ^ 63) ∧ ownPlace 0 (s.slot.rx 10) = some 0x1000 ∧ 0x1000 + 192 ≤ lsSize) ∧
    (autWorld false { imageDesc with holder := 9 }).slot.cid ≠ 9 := by
  refine ⟨⟨(aut_fresh _ _).1, (aut_fresh _ _).2, by unfold UnitFree; decide +kernel, rfl, by decide +kernel, ?_, by decide +kernel, by rw [header_bytes]; exact header_ok,
    by rw [header_bytes]; decide +kernel, aut_pages _ _ 0 2 (by decide), ?_, ?_, by rw [header_bytes]; decide +kernel⟩, ⟨(aut_fresh _ _).1, (aut_fresh _ _).2, by decide +kernel, by decide +kernel, by decide +kernel,
    by decide +kernel, ?_, by decide +kernel, by decide +kernel, by decide +kernel, by decide +kernel⟩, by decide +kernel⟩
  · intro u hu k hk
    have e : ∀ u ∈ (autWorld true { imageDesc with holder := 0 }).siblings, u.tasks = [] := by decide +kernel
    rw [e u hu] at hk; cases hk
  · intro q hq l hl
    rw [(in_aut true _).leaf (show 0x100000 + 4096 * q < 2 ^ 30 by omega)] at hl
    cases hl; rfl
  · rintro q bs ⟨-, e, he, h0, -⟩
    have z : ∀ e ∈ (autWorld true { imageDesc with holder := 0 }).me.descs, e.2.holder = 0 := by decide +kernel
    exact h0 (z e he)
  · rw [aut_slot, aut_desc]; exact aut_pages _ _ 1 1 (by decide)

theorem aut_lanes {i : Nat} (h : i < 48 ∧ onLane tAut ⟨1, false⟩ 32 i = true) : i = 0 := by
  have : ∀ i, i < 48 → onLane tAut ⟨1, false⟩ 32 i = true → i = 0 := by decide +kernel
  exact this i h.1 h.2

theorem test_witness_AutomatonSteps :
    (let s := autWorld false imageDesc
     Fresh s ∧ Calm s ∧ UnitFree s 10 ∧ (s.desc 2).holder = s.slot.cid ∧ TableReady s (s.desc 2) page0 ∧ onLane s.slot ⟨1, false⟩ 32 0 = true ∧
     (∀ i, Shallow (elem 32 (s.slot.rv 0) i, Tab.get {} (s.desc 2).lanes i)) ∧ PanelAt s (s.slot.rx 10) 0x1000 768 ∧ s.clearOfRings 0 0x1000 768 = true ∧
     (∀ i, i < 48 ∧ onLane s.slot ⟨1, false⟩ 32 i = true → i = 0) ∧
     [(0, 4), (4, 4), (8, 4), (12, 2)].map (fun q => ownNat s (0x1000 + q.1) q.2) = [0x2000, 1, 0x3000, 1] ∧
     Shallow (stepWords (s.desc 2) (transEntry s (s.desc 2) page0) (elem 32 (s.slot.rv 0) 0, Tab.get {} (s.desc 2).lanes 0) [])) := by
  refine ⟨(aut_fresh _ _).1, (aut_fresh _ _).2, by unfold UnitFree; decide +kernel, ?_, ?_, ?_, ?_, ?_, by decide +kernel, ?_, by decide +kernel, ?_⟩
  · rw [aut_desc, aut_slot]; rfl
  · rw [aut_desc]; exact table_ready _ (Or.inl rfl)
  · rw [aut_slot]; decide
  · intro i; rw [aut_desc]; exact Or.inr (by simp [imageDesc, Tab.get])
  · unfold PanelAt; rw [aut_slot]; decide
  · rw [aut_slot]; exact fun i => aut_lanes
  · rw [aut_desc]; exact Or.inr (by simp [stepWords, imageDesc, Tab.get])

theorem test_witness_TransitionMaps :
    (let s := autWorld false imageDesc
     Fresh s ∧ Calm s ∧ (s.desc 2).holder = s.slot.cid ∧ (s.desc 2).pda = false ∧ (s.desc 2).stale = false ∧
     placeOf 0 (s.slot.rx 11) = some (.ls 0 0x4000) ∧ 0x4000 + 196 ≤ lsSize ∧ (s.slot.rx 11).toNat % 4 = 0 ∧
     leNat (Mem.bytes s.mem (lsKey 1 0 0x4000) 4) = 1 ∧ leNat (Mem.bytes s.mem (lsKey 1 0 0x4004) 4) = 0 ∧
     TableReady s (s.desc 2) page0 ∧ (s.slot.rx 9).toNat ≤ lsSize ∧ 0x4000 + (s.slot.rx 9).toNat ≤ lsSize) := by
  refine ⟨(aut_fresh _ _).1, (aut_fresh _ _).2, ?_, ?_, ?_, by decide +kernel, by decide +kernel, by decide +kernel, by decide +kernel, by decide +kernel,
    ?_, by decide +kernel, by decide +kernel⟩
  · rw [aut_desc, aut_slot]; rfl
  · rw [aut_desc]; rfl
  · rw [aut_desc]; rfl
  · rw [aut_desc]; exact table_ready _ (Or.inl rfl)

theorem trie_nodes : ∀ k, k < 2 → let node (o n : Nat) : Nat := imgNat (autWorld false imageDesc) page0 (8704 + 16 * k + o) n
    node 1 3 = 0 ∧ node 12 4 / 2 ^ 20 % 2 ^ 11 = 0 ∧ (2 ^ 31 ≤ node 12 4 → node 12 4 - 2 ^ 31 < 2) ∧
    (node 4 4 ≠ 0 → k < node 4 4 ∧ node 4 4 < 2) ∧ (node 8 4 ≠ 0 → k < node 8 4 ∧ node 8 4 < 2) := by decide +kernel
theorem mask_ok : MaskOk (autWorld false imageDesc) imageDesc page0 0 2 := by
  intro _
  refine ⟨by decide +kernel, by decide +kernel, by decide +kernel, by decide +kernel, by decide +kernel, by decide, by decide, fun k hk => ?_⟩
  obtain ⟨a, b, c, d, e⟩ := trie_nodes k hk
  exact ⟨a, b, c, fun o ho => by
    rcases ho with rfl | rfl
    · exact d
    · exact e⟩

theorem test_witness_Vocabulary_masks :
    (let s := autWorld false imageDesc
     Fresh s ∧ Calm s ∧ (s.desc 2).holder = s.slot.cid ∧ VocabReady s (s.desc 2) page0 ∧ MaskOk s (s.desc 2) page0 0 2 ∧ StackHeld (s.desc 2) 47 ∧
     ownPlace 0 (s.slot.rx 12) = some 0x5000 ∧ (s.slot.rx 12).toNat % 4 = 0 ∧ 0x5000 + 4 * 2 ≤ lsSize ∧
     s.clearOfRings 0 0x5000 (4 * 2) = true ∧ UnitFree s 10 ∧ placeOf 0 (s.slot.rx 16) = some (.glob (s.slot.rx 16).toNat) ∧ (s.slot.rx 16).toNat % 4 = 0 ∧ Mapped s .w (s.slot.rx 16) (4 * 2) 0x210000 ∧
     (Tab.get {} (s.desc 2).lanes 47).depth ≤ 16) := by
  refine ⟨(aut_fresh _ _).1, (aut_fresh _ _).2, ?_, ?_, ?_, ?_, by decide +kernel, by decide +kernel, by decide +kernel, by decide +kernel,
    by unfold UnitFree; decide +kernel, by decide +kernel, by decide +kernel, ?_, by decide +kernel⟩
  · rw [aut_desc, aut_slot]; rfl
  · rw [aut_desc]; exact ⟨table_ready _ (Or.inl rfl), by decide, aut_pages _ _ 0 3 (by decide), by decide, by decide, by decide⟩
  · rw [aut_desc]; exact mask_ok
  · rw [aut_desc]; exact ⟨rfl, fun h => absurd h (by decide)⟩
  · exact (in_aut false imageDesc).mapped_at .w (by rw [aut_slot]; decide) rfl (Or.inl ⟨rfl, rfl⟩) (by rw [aut_slot]; rfl) (by decide) (by decide)

/-- The logits of two tokens from 0x210000, whatever is written there. -/
theorem test_witness_Vocabulary_global :
    (let s := autWorld false imageDesc
     let at' (x : Nat) : Nat := 65536 * ((0x210000 + x) / 65536) + (0x210000 + x) % 65536
     let hit (y : Nat) : Prop := ∃ x, x < 4 * 2 ∧ y = at' x
     (∀ x y, x < 4 * 2 → y < 4 * 2 → at' x = at' y → x = y) ∧ (∀ x k, x < 4 * 2 → k < 3 → at' x < page0 k ∨ page0 k + 4096 ≤ at' x) ∧
     Nat.max imageDesc.vpages (imageDesc.pages + 1) = 3 ∧
     Steady s hit (fun u => MappedPages u .w 0x210000 (4 * 2) (fun j => 65536 * j) ∧ PagesAt u 0x100000 page0 0 3)) := by
  refine ⟨fun x y _ _ e => by dsimp only at e; omega, fun x k _ _ => Or.inr (by simp only [page0]; omega), by decide, fun m v hm => ?_⟩
  have i : InWorld { autWorld false imageDesc with mem := m, versions := v } := ⟨rfl, fun x hx => by
    show Mem.read m x = _
    rw [hm x (by rintro ⟨z, hz, rfl⟩; dsimp only at hx; omega)]; exact (in_aut false imageDesc).tables x hx, (in_st running).frames, rfl, rfl⟩
  have hs : ({ autWorld false imageDesc with mem := m, versions := v } : State).slot.sup = false := congrArg Slot.sup (aut_slot false imageDesc)
  refine ⟨⟨by decide, fun j => ?_⟩, pages_at i rfl hs 0 3 (by decide)⟩
  intro lo hi h
  have h' : max 0x210000 (65536 * j) < min (0x210000 + 4 * 2) (65536 * (j + 1)) := h
  obtain rfl : j = 33 := by omega
  exact i.mapped_at .w (by decide) rfl (Or.inl ⟨rfl, rfl⟩) hs (by decide) (by decide)

theorem test_witness_Vocabulary_strings :
    (let s := autWorld false imageDesc
     ownPlace 0 (s.slot.rx 13) = some 0x6000 ∧ 0x6000 % 4 = 0 ∧ 0x6000 + 192 ≤ lsSize ∧ ownNat s 0x6000 4 = 1 ∧
     TokenOk s (s.desc 2) page0 1 ∧ TokenOk s (s.desc 2) page0 0 ∧ s.slot.rx 18 = BitVec.ofNat 64 (2 + 1 * 2 ^ 32) ∧
     ownPlace 0 (s.slot.rx 14) = some 0x7000 ∧ (s.slot.rx 14).toNat % 4 = 0 ∧ ownPlace 0 (s.slot.rx 15) = some 0x8000 ∧
     ownNat s 0x7000 4 = 1 ∧ ownNat s 0x7004 4 = 0) := by
  unfold TokenOk; decide +kernel
/-! #### Rings, copies and tiles -/

/-- What `CalmFor` says, for a context whose clocks have not moved. -/
def Calm0 (s : State) (c : Nat) : Prop :=
  (s.ctxOf c).status = .live ∧ (s.ctxOf c).sealing = false ∧ (s.ctxOf c).cr.det = false ∧ (s.ctxOf c).partials = [] ∧ (s.ctxOf c).cwatches = [] ∧
  (s.ctxOf c).ovfPending = false ∧ (s.ctxOf c).clocks = []
theorem calmFor_of {s : State} {c : Nat} (h : Calm0 s c) : CalmFor s c := by
  obtain ⟨h1, h2, h3, h4, h5, h6, h7⟩ := h
  exact ⟨h1, h2, h3, h4, h5, h6, fun p => by simp [State.clock, h7, Tab.get]⟩
theorem serves_of {s : State} {n e : Nat} {b : Sub} {fo : Nat} (h : s.sub n e = b ∧ (s.hart n).stopped = false ∧ b.live = true ∧ b.waiting = false ∧
    b.refused = none ∧ (s.hart n).queue.contains (.sub e) = false ∧ Calm0 s b.ctx ∧ b.lc < 1024 ∧ ownPlace b.lc b.feed = some fo ∧
    (s.core b.ctx b.lc).watch = [] ∧ (s.hart n).behind b.ctx b.lc b.ticket = false) : Serves s n e b fo := by
  obtain ⟨h1, h2, h3, h4, h5, h6, h7, h8⟩ := h
  exact ⟨h1, h2, h3, h4, h5, h6, calmFor_of h7, h8⟩

/-- A ring of two slots of 48 bytes, its counters as given and its ATTACH; its first slot is reserved, its second taken. -/
def ringBytes (w : List Nat) (att : Nat := 0) : List Byte :=
  w.flatMap (leBytes 8) ++ (leBytes 8 (1 + 2 ^ 16) ++ (leBytes 8 att ++ (zeros 16 ++ (leBytes 2 (2 ^ 14) ++ leBytes 2 (3 * 2 ^ 14)))))
/-- x8 names the ring, x9 is two, x10 is 48, x11 and x12 name its slots, x13 names another place for a ring. -/
def tR : Slot := { running with
  x := [(8, 0xFE00000000F01080), (9, 2), (10, 48), (11, 0xFE00000000F01140), (12, 0xFE00000000F01170), (13, 0xFE00000000F7FEC0), (14, 0xFE00000000F02000)] }
def ringWorld (w : List Nat) (att : Nat := 0) : State :=
  { st tR with mem := Mem.write [] (lsKey 1 0 0x1080) (ringBytes w att), cores := [(coreKey 1 0, { rings := [0x1080] })] }

theorem calm_ring (w : List Nat) (att : Nat) : Calm (ringWorld w att) :=
  calm_of (show (0 : Nat) < 9 by decide) (by
    show (Tab.get {} [(coreKey 1 0, ({ rings := [0x1080] } : LCore))] (coreKey 1 0)).arrivals = []
    simp [Tab.get])

theorem test_witness_Rings :
    (let s := ringWorld [0, 0, 0, 0]
     Calm s ∧ Fresh s ∧ ownPlace 0 (s.slot.rx 13) = some 0x7FEC0 ∧ 0x7FEC0 % 192 = 0 ∧ 0x7FEC0 ∉ s.me.rings ∧ s.slot.rx 0 = 0 ∧
     s.slot.rx 9 = BitVec.ofNat 64 2 ∧ s.slot.rx 10 = BitVec.ofNat 64 48 ∧ 0x7FEC0 + 192 + 2 * 48 ≤ lsSize ∧ s.me.rings.length < 16 ∧
     (∀ q ∈ s.me.rings, q + 192 + 2 ^ (ringWord s 1 0 q 4 % 8) * (ringWord s 1 0 q 4 / 2 ^ 16 % 2 ^ 16 * 48) ≤ 0x7FEC0) ∧
     placeOf 0 (s.slot.rx 8) = some (.ls 0 0x1080) ∧ s.focus.lc < 1024 ∧ RingAt s 1 0 0x1080 2 48 ∧ ringWord s 1 0 0x1080 5 = 0 ∧
     (ringWord s 1 0 0x1080 1 + 2 ^ 64 - ringWord s 1 0 0x1080 3) % 2 ^ 64 < 2 ∧ ringWord s 1 0 0x1080 0 = ringWord s 1 0 0x1080 2 ∧
     s.slot.rx 11 = s.slot.rx 8 + BitVec.ofNat 64 (192 + 0 * 48) ∧ ringEntry s 1 0 0x1080 0 % 1024 = 0 ∧ ringEntry s 1 0 0x1080 0 / 2 ^ 14 = 1 ∧
     s.slot.rx 12 = s.slot.rx 8 + BitVec.ofNat 64 (192 + 1 * 48) ∧ ringEntry s 1 0 0x1080 1 % 1024 = 0 ∧ ringEntry s 1 0 0x1080 1 / 2 ^ 14 = 3) ∧
    (let s := ringWorld [1, 1, 0, 2 ^ 64 - 1] (2 ^ 63)
     Calm s ∧ 2 ^ 63 ≤ ringWord s 1 0 0x1080 5 ∧ 2 ≤ (ringWord s 1 0 0x1080 1 + 2 ^ 64 - ringWord s 1 0 0x1080 3) % 2 ^ 64 ∧
     ringWord s 1 0 0x1080 0 ≠ ringWord s 1 0 0x1080 2) ∧
    (0 < ringWord (ringWorld [0, 0, 0, 0] 7) 1 0 0x1080 5 ∧ ringWord (ringWorld [0, 0, 0, 0] 7) 1 0 0x1080 5 < 2 ^ 63) := by
  refine ⟨⟨calm_ring _ _, ?_⟩, ⟨calm_ring _ _, ?_⟩, ?_⟩
  · unfold Fresh RingAt; decide +kernel
  · decide +kernel
  · decide +kernel

/-- A ring of core 3, named from core 0. -/
theorem test_witness_Rings_peer :
    (let s : State := { st { running with x := [(8, 0xFE00000000301080)] } with mem := Mem.write [] (lsKey 1 3 0x1080) (ringBytes [0, 0, 0, 0]), cores := [(coreKey 1 3, { rings := [0x1080] })] }
     Calm s ∧ Fresh s ∧ placeOf 0 (s.slot.rx 8) = some (.ls 3 0x1080) ∧ s.placed 1 3 = true ∧ (s.core 1 3).watch = [] ∧ RingAt s 1 3 0x1080 2 48) :=
  ⟨calm_of, by unfold Fresh RingAt; decide +kernel⟩

/-- x8 names the last hart, x9 none; x16 to x23 are a copy command of 100 bytes. -/
def tP : Slot := { running with x := [(8, 47), (9, 48), (16, 1), (17, 0x200000), (18, 0x210000), (19, 100)] }
def aCopy : CopyCmd := { done := true, src := 0x200000, dst := 0x210000, len := 100 }
def aRun : CopyRun := { ctx := 1, lc := 0, nan := false, c := aCopy, left := [(0, 100)] }
theorem test_witness_Copies_copy : (let s := st tP
    Unpaused s ∧ Fresh s ∧ s.here.cr.det = false ∧ (Instr.copy s8 24 8 16).wf = true ∧ 47 < (s.slot.rx 9).toNat ∧
    copyOf ((List.range 8).map (fun i => s.slot.rx (16 + i))) = some aCopy ∧ (s.slot.rx 8).toNat ≤ 47 ∧ s.endsChk aCopy.src aCopy.len = none ∧
    s.endsChk aCopy.dst aCopy.len = none ∧ copyOverlap 0 aCopy = false ∧ (s.hart 47).room = true ∧
    (({ queue := List.replicate 32 (.copy aRun) } : Hart)).room = false) :=
  ⟨unpaused_of, by unfold Fresh; decide⟩

def copyWorld (r : CopyRun) : State := { st running with harts := [(47, { queue := [.copy r] })] }
theorem in_copy (r : CopyRun) : InWorld (copyWorld r) := ⟨rfl, (in_st running).tables, (in_st running).frames, rfl, rfl⟩
theorem test_witness_Copies_steps :
    ((copyWorld aRun).hart 47).stopped = false ∧ ((copyWorld aRun).hart 47).queue = [.copy aRun] ∧ ((copyWorld aRun).hart 47).behind 1 0 0 = false ∧
    aRun.waiting = false ∧ aRun.refused = none ∧ CalmFor (copyWorld aRun) 1 ∧ placeOf 0 aCopy.src = some (.glob 0x200000) ∧
    placeOf 0 aCopy.dst = some (.glob 0x210000) ∧ Open (copyWorld aRun) (hartWho 47 1 0 false) .r (.glob 0x200000) 100 0x200000 ∧
    Open (copyWorld aRun) (hartWho 47 1 0 false) .w (.glob 0x210000) 100 0x210000 ∧ (copyWorld { aRun with left := [] }).eventRoom 1 0 = true :=
  ⟨by decide, by decide, by decide, rfl, rfl, calmFor_of (by unfold Calm0; decide), by decide, by decide,
    (in_copy _).open _ .r rfl (by decide) (Or.inr (Or.inl ⟨rfl, rfl⟩)) (by decide) (by decide),
    (in_copy _).open _ .w rfl (by decide) (Or.inr (Or.inl ⟨rfl, rfl⟩)) (by decide) (by decide), by decide⟩

/-- A copy with a continuation whose template stands at 0x220000, for any core. -/
def contRun : CopyRun := { aRun with c := { aCopy with cont := true, recAddr := 0x220000 }, left := [] }
def template0 : List Byte := leBytes 8 0x200100 ++ (leBytes 4 6 ++ (leBytes 4 (0x3FF * 2 ^ 16) ++ (zeros 16 ++ (leBytes 8 7 ++ (leBytes 8 8 ++ zeros 144)))))
def contWorld : State := { world running worldCtx (Mem.write worldMem 0x220000 template0) with harts := [(47, { queue := [.copy contRun] })] }
theorem test_witness_Copies_cont :
    (contWorld.hart 47).queue = [.copy contRun] ∧ contRun.left = [] ∧ contRun.c.cont = true ∧ contRun.lc < 768 ∧
    Open contWorld (hartWho 47 1 0 false) .r (.glob contRun.c.recAddr.toNat) 192 0x220000 ∧
    Record.badField (Mem.bytes contWorld.mem 0x220000 192) = none ∧ (Record.parse (Mem.bytes contWorld.mem 0x220000 192)).bind = 0x3FF ∧
    (contWorld.ctxOf 1).poolFree = 0 :: [1, 2, 3] ∧ (contWorld.core 1 0).suspended = [] ∧ contWorld.eventRoom 1 0 = true := by
  have i : InWorld contWorld := ⟨rfl, fun x hx => Mem.read_write_out _ _ _ (Or.inl (Nat.lt_of_lt_of_le hx (by decide))), (in_st running).frames, rfl, rfl⟩
  exact ⟨by decide, rfl, rfl, by decide, i.open _ .r rfl (by decide) (Or.inr (Or.inr rfl)) (by decide) (by decide), by decide +kernel, by decide +kernel, rfl, by decide,
    by decide⟩

/-- A subscription record of a region of one byte in tiles of two rows; the second row passes the region. -/
def subBytes (ret : Bool) : List Byte :=
  leBytes 8 0x200000 ++ leBytes 4 1 ++ leBytes 4 1 ++ zeros 16 ++ leBytes 2 2 ++ leBytes 2 1 ++ leBytes 4 1 ++ [if ret then 0x80 else 0, 0] ++
  leBytes 2 47 ++ leBytes 4 9 ++ (if ret then leBytes 8 0x220000 ++ leBytes 8 0xFE00000000F01080 else zeros 16)
def aSub (ret : Bool) : SubRec :=
  { base := 0x200000, rows := 1, cols := 1, tr := 2, tc := 1, batch := 1, ret := ret, hart := 47, tag := 9,
    rbase := if ret then 0x220000 else 0, rring := if ret then 0xFE00000000F01080 else 0 }
theorem test_witness_Tiles_subTile :
    (let s0 := ringWorld [0, 0, 0, 0]
     let s : State := { s0 with mem := Mem.write s0.mem (lsKey 1 0 0x2000) (subBytes false) }
     Calm s ∧ Fresh s ∧ s.focus.lc < 1024 ∧ ownPlace 0 (s.slot.rx 8) = some 0x1080 ∧ RingAt s 1 0 0x1080 2 48 ∧ ringWord s 1 0 0x1080 5 = 0 ∧
     ownPlace 0 (s.slot.rx 14) = some 0x2000 ∧ 0x2000 % 8 = 0 ∧ 0x2000 + 64 ≤ lsSize ∧
     subOf (Mem.bytes s.mem (lsKey 1 0 0x2000) 64) = some (aSub false) ∧ (aSub false).tr * (aSub false).tc * (aSub false).elem ≤ 48 ∧
     (s.hart 47).room = true ∧ (Tab.get {} (s.hart 47).subs 0).live = false) :=
  ⟨calm_of, by unfold Fresh RingAt; decide +kernel⟩

def aFeed : Sub := { live := true, ctx := 1, lc := 0, r := aSub false, feed := 0xFE00000000F01080, gen := 1 }
theorem test_witness_Tiles_unsub : (let s : State := { st { running with x := [(8, 47 + 15 * 2 ^ 6 + 2 ^ 16)] } with harts := [(47, { subs := [(15, aFeed)] })] }
    Unpaused s ∧ Fresh s ∧ s.here.cr.det = false ∧ s.sub 47 15 = aFeed ∧ aFeed.gen < 2 ^ 32 ∧
    s.slot.rx 8 = BitVec.ofNat 64 (47 + 15 * 2 ^ 6 + aFeed.gen * 2 ^ 16)) :=
  ⟨unpaused_of, by unfold Fresh; decide⟩

/-- A hart that serves a subscription; two rings stand in the own store. -/
def tileMem (w : List Nat) : Tab Byte := writes worldMem [(lsKey 1 0 0x1080, ringBytes w), (lsKey 1 0 0x2040, ringBytes w)]
def tileWorld (w : List Nat) (b : Sub) : State :=
  { world running worldCtx (tileMem w) with cores := [(coreKey 1 0, { rings := [0x1080, 0x2040] })], harts := [(47, { subs := [(15, b)] })] }
theorem in_tile (w : List Nat) (b : Sub) : InWorld (tileWorld w b) := ⟨rfl, writes_low _ (by simp [lsKey]; omega), (in_st running).frames, rfl, rfl⟩
def aRet : Sub := { aFeed with r := aSub true, feed := 0xFE00000000F02040 }

theorem test_witness_Tiles_push :
    (∀ b ∈ [aFeed, { aFeed with push := some (192, []) }, { aFeed with push := some (192, [0]) }, { aFeed with push := some (192, [2]) },
        { aFeed with pushed := 1 }], Serves (tileWorld [0, 0, 0, 0] b) 47 15 b 0x1080) ∧
    (let s := tileWorld [0, 0, 0, 0] aFeed
     RingAt s 1 0 0x1080 2 48 ∧ (ringWord s 1 0 0x1080 1 + 2 ^ 64 - ringWord s 1 0 0x1080 3) % 2 ^ 64 < 2 ∧ aFeed.pushed < aFeed.r.total ∧
     ringEntry s 1 0 0x1080 0 = 2 ^ 14 + 0 ∧ aFeed.r.chunk 2 = (1, 0, 0) ∧ aFeed.r.addr aFeed.r.base 0 1 0 0 = none ∧
     aFeed.r.chunk 0 = (0, 0, 0) ∧ aFeed.r.addr aFeed.r.base 0 0 0 0 = some 0x200000 ∧ placeOf 0 0x200000 = some (.glob 0x200000) ∧
     aFeed.r.piece 0x200000 0 = some (0, 1) ∧ aFeed.r.total ≤ 1 ∧ s.eventRoom 1 0 = true ∧ (s.core 1 0).suspended = [] ∧ clearAt s 1 0 (0x1080 + 192) 1 = true) ∧
    Open (tileWorld [0, 0, 0, 0] aFeed) (hartWho 47 1 0 false) .r (.glob 0x200000) 1 0x200000 := by
  refine ⟨?_, ?_, (in_tile _ _).open _ .r rfl (by decide) (Or.inr (Or.inl ⟨rfl, rfl⟩)) (by decide) (by decide)⟩
  · intro b hb
    refine serves_of ?_
    revert b; unfold Calm0; decide +kernel
  · unfold RingAt; decide +kernel

theorem test_witness_Tiles_return :
    (∀ b ∈ [aRet, { aRet with ret := some (240, []) }, { aRet with ret := some (192, [0]) }], Serves (tileWorld [1, 1, 0, 0] b) 47 15 b 0x2040) ∧
    (let s := tileWorld [1, 1, 0, 0] aRet
     RingAt s 1 0 0x2040 2 48 ∧ RingAt s 1 0 0x1080 2 48 ∧ aRet.r.ret = true ∧ ownPlace 0 aRet.r.rring = some 0x1080 ∧
     aRet.returned < aRet.r.total ∧ ringWord s 1 0 0x1080 0 ≠ ringWord s 1 0 0x1080 2 ∧ ringEntry s 1 0 0x1080 1 = 3 * 2 ^ 14 + 0 ∧
     aRet.r.addr aRet.r.rbase 0 0 0 0 = some 0x220000 ∧ aRet.r.piece 0x220000 0 = some (0, 1)) ∧
    Open (tileWorld [1, 1, 0, 0] aRet) (hartWho 47 1 0 false) .w (.glob 0x220000) 1 0x220000 := by
  refine ⟨?_, ?_, (in_tile _ _).open _ .w rfl (by decide) (Or.inr (Or.inl ⟨rfl, rfl⟩)) (by decide) (by decide)⟩
  · intro b hb
    refine serves_of ?_
    revert b; unfold Calm0; decide +kernel
  · unfold RingAt; decide +kernel

/-! #### Graphs -/

def nodeKey : Nat → Nat := fun i => 0x201000 + 192 * i
def aGraph : Graph := { addr := 0x200040, nodes := 0x201000, ncount := 1, ncap := 2, counts := [1, 0, 0, 0, 0, 0, 0] }
def graphWorld (t : Slot) (g : Graph) (m : List (Nat × List Byte)) : State :=
  { world t { worldCtx with graphs := [(255, g)] } (writes worldMem m) with focus := home }
theorem in_graph (t : Slot) (g : Graph) (m : List (Nat × List Byte)) (h : ∀ p ∈ m, 0x60000 ≤ p.1) : InWorld (graphWorld t g m) :=
  ⟨rfl, writes_low m h, (in_st running).frames, rfl, rfl⟩
/-- Graphs on the record at 0x200040 with two nodes and a list at 0x202000 or a template at 0x203040. -/
theorem graph_at (t : Slot) (g : Graph) (m : List (Nat × List Byte)) (h : ∀ p ∈ m, 0x60000 ≤ p.1) (more : List (Nat × Nat × Nat))
    (hg : g.ncap = 2 ∧ g.addr = 0x200040 ∧ g.nodes = 0x201000 ∧ g.lc = 0 ∧ g.nan = false)
    (hm : more ∈ [[], [(0x202000, 8, 0x202000)], [(0x203040, 192, 0x203040)]]) : GraphAt (graphWorld t g m) 1 255 g 0x200040 nodeKey more := by
  obtain ⟨a, b, c, d, e⟩ := hg
  refine ⟨?_, by omega, calmFor_of ⟨rfl, rfl, rfl, rfl, rfl, rfl, rfl⟩, rfl, ?_⟩
  · show Tab.get {} (Tab.get {} [(1, ({ worldCtx with graphs := [(255, g)] } : Ctx))] 1).graphs 255 = g
    simp [Tab.get]
  · have l : ((g.addr, 192, 0x200040) :: (List.range g.ncap).map (fun i => (g.at i, 192, nodeKey i)) ++ more : List (Nat × Nat × Nat)) =
        [(0x200040, 192, 0x200040), (0x201000, 192, 0x201000), (0x2010C0, 192, 0x2010C0)] ++ more := by
      simp only [a, b, c, Graph.at]; rfl
    rw [l]
    refine (in_graph t g m h).arena _ _ rfl (by show g.lc < 768; omega) (Or.inl rfl) ?_ ?_
    · rcases List.mem_cons.1 hm with rfl | hm
      · decide
      · rcases List.mem_cons.1 hm with rfl | hm
        · decide
        · rw [List.mem_singleton.1 hm]; decide
    · rcases List.mem_cons.1 hm with rfl | hm
      · decide
      · rcases List.mem_cons.1 hm with rfl | hm
        · decide
        · rw [List.mem_singleton.1 hm]; decide

/-- x8 names the graph record, x9 the first node, x10 the second, x11 a node record of zeros. -/
def tGr : Slot := { running with x := [(8, 0x200040), (9, 0x201000), (10, 0x2010C0), (11, 0x210000)] }
def graphRecord : List (Nat × List Byte) := [(0x200040, leBytes 8 0x201000 ++ leBytes 4 1 ++ leBytes 4 2)]
theorem test_witness_GraphInstructions_glaunch :
    (let s : State := world tGr { worldCtx with graphs := (List.range 255).map (fun k => (k, aGraph)) } (writes worldMem graphRecord)
     Fresh s ∧ s.here.cr.det = false ∧ (∀ k, k < 255 → (s.graph 1 k).ncap ≠ 0) ∧ s.graph 1 255 = {} ∧ CalmFor s 1 ∧ Unpaused s ∧ s.here.waitLists = [] ∧
     (s.slot.rx 8).toNat % 192 = 0 ∧ Arena s (engWho 1 0 false) [(0x200040, 192, 0x200040)] ∧
     Open s { s.who s.slot.nanread with engine := true, csets := false } .rw (.glob 0x200040) 192 0x200040 ∧
     (graphChecks (Mem.bytes s.mem 0x200040 192)).all (·.2) = true) := by
  have i : InWorld (world tGr { worldCtx with graphs := (List.range 255).map (fun k => (k, aGraph)) } (writes worldMem graphRecord)) :=
    ⟨rfl, writes_low _ (by decide), (in_st running).frames, rfl, rfl⟩
  exact ⟨by unfold Fresh; decide, rfl, by decide +kernel, by decide +kernel, calmFor_of (by unfold Calm0; decide +kernel), unpaused_of, rfl, by decide +kernel,
    i.arena _ _ rfl (by decide) (Or.inl rfl) (by decide) (by decide), i.open _ .rw rfl (by decide) (Or.inl rfl) (by decide) (by decide), by decide +kernel⟩

theorem test_witness_GraphInstructions_gstat : (let s := graphWorld tGr aGraph []
    Fresh s ∧ s.here.graphs.find? (fun e => decide (e.2.addr = (s.slot.rx 8).toNat)) = some (255, aGraph) ∧ octetOk 24 = true ∧
    aGraph.counts.length = 7 ∧ Mapped s .r (s.slot.rx 8) 64 0x200040 ∧ Calm s ∧ (s.slot.rx 8).toNat + 64 ≤ 2 ^ 56) :=
  ⟨by unfold Fresh; decide, by decide, by decide, rfl,
    (in_graph _ _ _ (by decide)).mapped_at .r (by decide) rfl (Or.inr rfl) rfl (by decide) (by decide), calm_of, by decide⟩

/-- The second node runs; its retry budget is `r`, its first attempt is over. -/
def runGraph (r : Nat) : Graph :=
  { aGraph with ncount := 2, sts := [(1, { known := true, state := 2, attempts := 1, info := some { cont := 0, retry := r, place := 0, prio := 0, ranges := [] } })] }
def tNode : Slot := { tGr with node := 0x2010C0 }
theorem test_witness_GraphInstructions_node : (∀ r ∈ [1, 2],
    let s := graphWorld tNode (runGraph r) []
    Fresh s ∧ s.slot.node ≠ 0 ∧ s.focus.pos < 8 ∧ s.here.nodeOf s.slot.node = some (255, runGraph r, 1) ∧ ((runGraph r).node 1).state = 2 ∧
    ((runGraph r).node 1).known = true ∧ ((runGraph r).node 1).attempts = 1) ∧
    GraphAt (graphWorld tNode (runGraph 1) []) 1 255 (runGraph 1) 0x200040 nodeKey [] ∧
    GraphAt (graphWorld tNode (runGraph 2) []) 1 255 (runGraph 2) 0x200040 nodeKey [] :=
  ⟨by unfold Fresh; decide +kernel, graph_at _ _ _ (by decide) _ ⟨rfl, rfl, rfl, rfl, rfl⟩ (by decide),
    graph_at _ _ _ (by decide) _ ⟨rfl, rfl, rfl, rfl, rfl⟩ (by decide)⟩

def nodeRec0 : List (Nat × List Byte) := [(0x210000, zeros 4 ++ [5])]
theorem test_witness_GraphInstructions_nodeadd : (let s := graphWorld tGr aGraph nodeRec0
    Fresh s ∧ GraphAt s 1 255 aGraph 0x200040 nodeKey [] ∧ Calm s ∧
    s.here.graphs.find? (fun e => decide (e.2.addr = (s.slot.rx 8).toNat)) = some (255, aGraph) ∧ aGraph.ncount < aGraph.ncap ∧ aGraph.ended = false ∧
    Mapped s .r (s.slot.rx 11) 192 0x210000 ∧ (s.slot.rx 11).toNat + 192 ≤ 2 ^ 64 ∧ memNat s 0x210000 4 = 0 ∧ memNat s (0x210000 + 104) 4 = 0 ∧
    (∀ k, k < 192 → 108 ≤ k → Mem.read s.mem (0x210000 + k) = 0)) ∧
    GraphAt (graphWorld tGr { aGraph with ncount := 2 } []) 1 255 { aGraph with ncount := 2 } 0x200040 nodeKey [] :=
  ⟨⟨by unfold Fresh; decide, graph_at _ _ _ (by decide) _ ⟨rfl, rfl, rfl, rfl, rfl⟩ (by decide), calm_of, by decide, by decide, by decide,
    (in_graph _ _ _ (by decide)).mapped_at .r (by decide) rfl (Or.inr rfl) rfl (by decide) (by decide), by decide, by decide +kernel, by decide +kernel,
    by decide +kernel⟩, graph_at _ _ _ (by decide) _ ⟨rfl, rfl, rfl, rfl, rfl⟩ (by decide)⟩

def edgeGraph (a b : Nat) : Graph := { aGraph with ncount := 2, sts := [(0, { known := true, state := a }), (1, { known := true, state := b })] }
def edgeRec : List (Nat × List Byte) := [(0x201010, leBytes 8 0x202000 ++ leBytes 2 0 ++ leBytes 2 2)]
theorem test_witness_GraphInstructions_edgeadd : (∀ p ∈ [(4, 0), (3, 1), (0, 0)],
    let s := graphWorld tGr (edgeGraph p.1 p.2) edgeRec
    Fresh s ∧ s.me.arrivals = [] ∧ s.here.nodeOf (s.slot.rx 9) = some (255, edgeGraph p.1 p.2, 0) ∧
    s.here.nodeOf (s.slot.rx 10) = some (255, edgeGraph p.1 p.2, 1) ∧ memNat s (nodeKey 0 + 16) 8 = 0x202000 ∧
    memNat s (nodeKey 0 + 24) 2 = 0 ∧ memNat s (nodeKey 0 + 26) 2 = 2) ∧
    (∀ a b, GraphAt (graphWorld tGr (edgeGraph a b) edgeRec) 1 255 (edgeGraph a b) 0x200040 nodeKey [(0x202000, 4 * 2, 0x202000)]) :=
  ⟨by unfold Fresh; decide +kernel, fun _ _ => graph_at _ _ _ (by decide) _ ⟨rfl, rfl, rfl, rfl, rfl⟩ (by decide)⟩

def readyInfo : NodeInfo := { cont := 0, retry := 0, place := 0, prio := 0, ranges := [] }
/-- A graph in which the first node is due, one in which it is to be dispatched, one with a token for the second, two with a sweep, one
that is over. -/
def dueGraph : Graph := { aGraph with scan := 1, due := [0], sts := [(0, { known := true })] }
def dispatchGraph : Graph := { aGraph with dispatch := [0], sts := [(0, { known := true, state := 1, info := some { readyInfo with cont := 0x203040 }, q := some 767 })] }
def tokenGraph : Graph := { aGraph with ncount := 2, tokens := [[1]], sts := [(1, { known := true, count := 1 })] }
def sweepGraph (st : Nat) (level : List Nat) : Graph :=
  { aGraph with ncount := 2, sweeps := [{ f := 1, level := level, next := [] }], sts := [(0, { known := true, state := st, info := some readyInfo })] }
def overGraph : Graph := { aGraph with scan := 1, counts := [0, 0, 0, 0, 1, 0, 0], reported := [0] }

theorem test_witness_GraphSteps :
    (∀ g ∈ [aGraph, dueGraph, dispatchGraph, tokenGraph, sweepGraph 0 [0], sweepGraph 4 [0], sweepGraph 0 [], overGraph],
      GraphAt (graphWorld {} g []) 1 255 g 0x200040 nodeKey [(0x203040, 192, 0x203040)] ∧ g.counts.length = 7) ∧
    (let s := graphWorld {} aGraph []
     (aGraph.node 0).known = false ∧ memNat s (nodeKey 0) 4 = 0 ∧ memNat s (nodeKey 0 + 104) 4 = 0) ∧
    (let s := graphWorld {} dueGraph []
     0 ∈ dueGraph.due ∧ (dueGraph.node 0).state = 0 ∧ (dueGraph.node 0).count = 0 ∧ nodeInfo (Mem.bytes s.mem (nodeKey 0) 192) = some readyInfo ∧
     memNat s (nodeKey 0 + 24) 2 = 0) ∧
    (let s := graphWorld {} dispatchGraph []
     0 ∈ dispatchGraph.dispatch ∧ (dispatchGraph.node 0).state = 1 ∧ (dispatchGraph.node 0).q = some 767 ∧ (s.ctxOf 1).poolFree = 0 :: [1, 2, 3] ∧
     Record.badField (Mem.bytes s.mem 0x203040 192) = none ∧ popCount 32 ((Record.parse (Mem.bytes s.mem 0x203040 192)).mask ||| 0x300).toNat ≤ 16) ∧
    (tokenGraph.tokens = [1 :: []] ∧ (tokenGraph.node 1).known = true ∧ (tokenGraph.node 1).state = 0 ∧ (tokenGraph.node 1).count ≠ 0 ∧
     1 ∉ tokenGraph.due) ∧
    (((sweepGraph 0 [0]).node 0).state = 0 ∧ ((sweepGraph 4 [0]).node 0).state = 4 ∧ ((sweepGraph 4 [0]).node 0).info ≠ none) ∧
    (let s := graphWorld {} overGraph []
     overGraph.ended = true ∧ 767 ∉ overGraph.reported ∧ treeChildren 767 = [] ∧ 0 ∈ overGraph.reported ∧ (s.ctxOf 1).deferred = [] ∧
     s.eventRoom 1 overGraph.notify = true) := by
  refine ⟨fun g hg => ⟨graph_at _ _ _ (by decide) _ ?_ (by decide), ?_⟩, by decide +kernel, by decide +kernel, by decide +kernel, by decide, by decide,
    by decide⟩
  · revert g; decide
  · revert g; decide

/-- A graph whose first node has the move `m`. -/
def moveGraph (m : NodeMove) : Graph :=
  { aGraph with moves := [m], sts := [(0, { known := true, state := 1, info := some readyInfo, q := some 767 })] }
def aMove (page : Nat) (st : MoveStage) : NodeMove := { node := 0, pages := [(page, false)], stage := st, frame := 54, old := if page = 0x40010000 then 59 else 57 }
theorem test_witness_GraphSteps_moves : Young (graphWorld {} (moveGraph (aMove 0x40020000 .absent)) []) ∧
    (∀ m : NodeMove, GraphAt (graphWorld {} (moveGraph m) []) 1 255 (moveGraph m) 0x200040 nodeKey []) ∧
    (∀ m ∈ [{ node := 0, pages := [] }, aMove 0x40010000 .taken, aMove 0x40020000 .absent, aMove 0x40020000 .copied],
      (moveGraph m).moves.find? (fun x => decide (x.node = 0)) = some m ∧ ((moveGraph m).node 0).state = 1 ∧ ((moveGraph m).node 0).q = some 767 ∧
      m.frame < 2 ^ 32) ∧
    (let s := graphWorld {} (moveGraph (aMove 0x40010000 .taken)) []
     s.leafEntry 1 0x40010000 4 (s.ctxOf 1).cr.root = some 0x18010 ∧ memNat s 0x18010 8 % 2 = 1 ∧ memNat s 0x18010 8 / 2 ^ 16 % 2 ^ 32 = 59) ∧
    (let s := graphWorld {} (moveGraph (aMove 0x40020000 .absent)) []
     s.leafEntry 1 0x40020000 4 (s.ctxOf 1).cr.root = some 0x18020 ∧ memNat s 0x18020 8 % 2 = 0 ∧
     s.frameFits 1 (leafOf 0x40020000 0 (memNat s 0x18020 8) (memNat s (0x18020 + 8) 8)) 54 = true) :=
  ⟨young_of, fun _ => graph_at _ _ _ (by decide) _ ⟨rfl, rfl, rfl, rfl, rfl⟩ (by decide), by decide, by decide +kernel, by decide +kernel⟩
theorem test_witness_GraphSteps_more : aGraph.lost = [] ∧ 0 ∉ aGraph.due ∧ (∀ m ∈ dueGraph.moves, m.node ≠ 0) ∧ readyInfo.ranges = [] ∧
    readyInfo.place < 768 ∧ overGraph.ended = true := by decide
/-! #### Loops -/

/-- x8 names a loop record, x9 the tag of an element. -/
def tL : Slot := { running with x := [(8, 0x200040), (9, 0x20FFF8)] }
def loopRecord : List (Nat × List Byte) :=
  [(0x200040, leBytes 8 10 ++ leBytes 4 2 ++ leBytes 2 767 ++ leBytes 2 1 ++ leBytes 8 0x200100 ++ leBytes 8 0x200200 ++ leBytes 8 0x201000)]
theorem test_witness_LoopInstructions_rloop :
    (let s := world tL worldCtx (writes worldMem loopRecord)
     Fresh s ∧ s.here.cr.det = false ∧ s.here.loop = none ∧ CalmFor s 1 ∧ Unpaused s ∧ s.here.waitLists = [] ∧ (s.slot.rx 8).toNat % 192 = 0 ∧
     Open s { s.who s.slot.nanread with engine := true, csets := false } .r (.glob 0x200040) 192 0x200040 ∧
     (loopChecks (Mem.bytes s.mem 0x200040 192)).all (·.2) = true ∧ memNat s (0x200040 + 16) 8 = 0x200100 ∧ memNat s (0x200040 + 24) 8 = 0x200200 ∧
     goodTarget (BitVec.ofNat 64 0x200100) ∧ goodTarget (BitVec.ofNat 64 0x200200) ∧ memNat s (0x200040 + 8) 4 = 2 ∧
     memNat s (0x200040 + 32) 8 = 0x201000 ∧ Arena s (engWho 1 0 false) [(0x201000, retryBytes 2, 0x201000)]) := by
  have i : InWorld (world tL worldCtx (writes worldMem loopRecord)) := ⟨rfl, writes_low _ (by decide), (in_st running).frames, rfl, rfl⟩
  exact ⟨by unfold Fresh; decide, rfl, rfl, calmFor_of ⟨rfl, rfl, rfl, rfl, rfl, rfl, rfl⟩, unpaused_of, rfl, by decide,
    i.open _ .r rfl (by decide) (Or.inl rfl) (by decide) (by decide), by decide +kernel, by decide +kernel, by decide +kernel,
    by unfold goodTarget; decide, by unfold goodTarget; decide, by decide +kernel, by decide +kernel,
    i.arena _ _ rfl (by decide) (Or.inl rfl) (by decide) (by decide)⟩

def aLoop : Loop := { addr := 0x200040, n := 10, w := 2, first := 767, ncores := 1, rbuf := 0x201000, win := 2 ^ 24 - 1, next := 2, wins := 1,
                      list := [0, 1], opened := [0, 1], round := true, started := true, args := [0, 0, 0] }
def loopWorld (t : Slot) (l : Loop) : State := world t { worldCtx with loop := some l } worldMem
theorem in_loop (t : Slot) (l : Loop) : InWorld (loopWorld t l) := in_world t rfl (fun _ _ => rfl)
theorem loop_arena (t : Slot) (l : Loop) : Arena (loopWorld t l) (engWho 1 0 false) [(0x201000, retryBytes 2, 0x201000)] :=
  (in_loop t l).arena _ _ rfl (by decide) (Or.inl rfl) (by decide) (by decide)

theorem test_witness_LoopInstructions : (∀ commit ∈ [false, true],
    let it : Iter := { index := 1, pos := 1, commit := commit }
    let s := loopWorld { tL with iter := some it } aLoop
    s.here.loop = some aLoop ∧ aLoop.ended = false ∧ s.slot.iter = some it ∧ Fresh s ∧ (s.slot.rx 9).toNat % 8 = 0 ∧
    aLoop.win * 2 ^ 40 + it.index < 2 ^ 64 ∧ Idle s ∧ s.focus.pos < 8 ∧ s.slot.node = 0 ∧ s.here.waitLists = [] ∧ it.pos < aLoop.w) ∧
    (∀ t, Calm (loopWorld t aLoop) ∧ CalmFor (loopWorld t aLoop) 1) ∧
    (∀ it, Mapped (loopWorld { tL with iter := it } aLoop) .r 0x20FFF8 8 0x20FFF8) ∧
    (∀ it, Arena (loopWorld { tL with iter := it } aLoop) (engWho 1 aLoop.lc aLoop.nan) [(aLoop.rbuf.toNat, retryBytes aLoop.w, 0x201000)]) := by
  refine ⟨by unfold Fresh Idle; decide +kernel,
    fun t => ⟨calm_of (show (0 : Nat) < 9 by decide), calmFor_of ⟨rfl, rfl, rfl, rfl, rfl, rfl, rfl⟩⟩, fun it => ?_, fun it => loop_arena _ _⟩
  exact (in_loop _ _).mapped_at .r rfl rfl (Or.inr rfl) (by rw [loopWorld, world_slot]; rfl) (by decide) (by decide)

/-- A `rsv` writes its tag with the rights of a write; no held range of the live loop holds the tag's place. -/
theorem test_witness_LoopInstructions_rsv : Mapped (loopWorld { tL with iter := some { index := 1, pos := 1, commit := false } } aLoop) .rw
    (0xFE00000000F00040 : Word) 8 (lsKey 1 0 0x40) := mapped_own _ .rw (by decide) (by decide)

theorem test_witness_LoopRounds : (∀ l ∈ [{ aLoop with started := false }, { aLoop with round := false, failed := [1] }, { aLoop with opened := [], failed := [1] },
      { aLoop with opened := [], commit := true }, { aLoop with opened := [], commit := true, done := 10 }, { aLoop with ended := true }],
    (loopWorld {} l).here.loop = some l ∧ PhaseCalm (loopWorld {} l) 1 ∧ 0 < l.ncores ∧ l.first + l.ncores ≤ 768 ∧
    l.list.length ≤ l.w ∧ ((loopWorld {} l).ctxOf 1).poolFree.length = 4 ∧ (loopWorld {} l).eventRoom 1 l.lc = true ∧ l.toQueue = [] ∧ l.maxwin = 0 ∧
    l.rbuf.toNat = 0x201000 ∧ l.ends = []) ∧ (∀ l, CalmFor (loopWorld {} l) 1) := by
  refine ⟨by unfold PhaseCalm; decide +kernel, fun l => calmFor_of ⟨rfl, rfl, rfl, rfl, rfl, rfl, rfl⟩⟩

/-- The free records of the pool stand whole, whatever is written there and into the retry buffer. -/
theorem test_witness_LoopRounds_pool (l : Loop) : ∀ rs ∈ [[], [(0x201000, retryBytes 2, 0x201000)]],
    PoolAt (loopWorld {} l) 1 (fun i => 0x3000000 + 192 * i) rs := by
  intro rs hrs
  have c : (loopWorld {} l).ctxOf 1 = { worldCtx with loop := some l } := by
    show Tab.get {} [(1, ({ worldCtx with loop := some l } : Ctx))] 1 = _
    simp [Tab.get]
  have b : retryBytes 2 = 56 := rfl
  have rh : ∀ r ∈ rs, r = (0x201000, 56, 0x201000) := by
    intro r hr
    simp only [List.mem_cons, List.mem_nil_iff, or_false] at hrs
    rcases hrs with rfl | rfl
    · cases hr
    · rw [b] at hr; exact List.mem_singleton.1 hr
  have p : ((loopWorld {} l).ctxOf 1).poolFree = [0, 1, 2, 3] := by rw [c]; rfl
  have a : ∀ i, ((loopWorld {} l).ctxOf 1).recordAddr i = 0x3000000 + 192 * i := fun i => by rw [c]; rfl
  refine ⟨young_of, by rw [p]; decide, fun i hi => ?_⟩
  have hi' : i < 4 := by rw [p] at hi; simp at hi; omega
  have lo : (0x3000000 + 192 * i) % 65536 + 192 ≤ 65536 ∧ inHbm (0x3000000 + 192 * i) = true := by
    have : ∀ i, i < 4 → (0x3000000 + 192 * i) % 65536 + 192 ≤ 65536 ∧ inHbm (0x3000000 + 192 * i) = true := by decide
    exact this i hi'
  refine ⟨by rw [a]; exact lo.1, lo.2, fun r hr => ?_,
    fun m v hm => ⟨worldLeaf (0x3000000 + 192 * i), ?_, rfl⟩⟩
  · rw [rh r hr]; right; show 0x201000 + 56 ≤ 0x3000000 + 192 * i; omega
  · rw [a]
    have k : InWorld { loopWorld {} l with mem := m, versions := v } := by
      refine ⟨?_, fun x hx => ?_, (in_loop {} l).frames, rfl, ?_⟩
      · show ((loopWorld {} l).ctxOf 1).cr = _
        rw [c]; rfl
      · show Mem.read m x = _
        rw [hm x (fun k _ => Or.inl (show x < 0x3000000 + 192 * k by omega)) (fun r hr => by rw [rh r hr]; exact Or.inl (by show x < 0x201000; omega))]
        exact (in_loop {} l).tables x hx
      · show ((loopWorld {} l).ctxOf 1).partials = _
        rw [c]; rfl
    exact k.leaf (show 0x3000000 + 192 * i < 2 ^ 30 by omega)

/-- Bodies that add one to a cell that they reserve, two loops in common. -/
def oddBody (i : Nat) : Body := { set := fun _ => [i % 2], act := fun m c => if c = i % 2 then m c + 1 else m c }
theorem test_witness_LoopRounds_bodies : (∀ i, (oddBody i).covered) ∧ (∀ i j, (oddBody i).settled (oddBody j)) ∧
    (let l : Loop := { n := 10, w := 4, win := 1 }
     l.n < 2 ^ 24 - 1 ∧ 0 < l.w ∧ l.list = [] ∧ l.failed = [] ∧ l.next = 0 ∧ l.done = 0 ∧ 0 < l.win ∧ l.win < 2 ^ 24) := by
  refine ⟨fun i m => ⟨fun c hc => ?_, fun m' _ h c hc => ?_⟩, fun _ _ _ => rfl, by decide⟩
  · exact if_neg (fun e => hc (List.mem_singleton.2 e))
  · show (if c = i % 2 then m c + 1 else m c) = if c = i % 2 then m' c + 1 else m' c
    rw [h c hc]

/-! #### The control block -/

/-- Context 1 with a request of eight words in its control block. -/
def reqCtx : Ctx := { worldCtx with ccbReq := some { q := 5 } }
def asking (s : State) (ws : List Nat) : State := { s with mem := Mem.write s.mem 0x2000040 (ws.flatMap (leBytes 8)) }
def req (ws : List Nat) : State := asking { world running reqCtx worldMem with keys := [(127, { full := true, guarded := true, owner := 1 })] } ws

theorem flat_length : ∀ ws : List Nat, (ws.flatMap (leBytes 8)).length = 8 * ws.length
  | [] => rfl
  | w :: r => by rw [List.flatMap_cons, List.length_append, leBytes_length, flat_length r, List.length_cons]; omega
theorem flat_getD : ∀ (ws : List Nat) (j k : Nat), j < ws.length → k < 8 →
    (ws.flatMap (leBytes 8)).getD (8 * j + k) 0 = (leBytes 8 (ws.getD j 0)).getD k 0
  | [], _, _, h, _ => absurd h (by simp)
  | w :: r, 0, k, _, hk => by
    rw [List.flatMap_cons, List.getD_eq_getElem?_getD, List.getElem?_append_left (by simp; omega), Nat.mul_zero, Nat.zero_add,
      ← List.getD_eq_getElem?_getD]; rfl
  | w :: r, j + 1, k, h, hk => by
    rw [List.flatMap_cons, List.getD_eq_getElem?_getD, List.getElem?_append_right (by simp; omega), leBytes_length,
      show 8 * (j + 1) + k - 8 = 8 * j + k by omega, ← List.getD_eq_getElem?_getD, flat_getD r j k (by simpa using h) hk]; rfl

/-- A request that stands in the control block is read from it. -/
theorem asking_request {s : State} (ws : List Nat) (h : InWorld (asking s ws)) (hc : (s.ctxOf 1).ccbReq = some { q := 5 }) (hl : ws.length = 8)
    (hw : ∀ j, j < 8 → ws.getD j 0 < 2 ^ 64) : (asking s ws).request 1 = some ws := by
  have a : ((asking s ws).ctxOf 1).cr.ccb.toNat + 64 = 0x2000040 := by rw [h.rec0]; rfl
  have c : ((asking s ws).ctxOf 1).ccbReq = some { q := 5 } := hc
  have e : (List.range 8).map (fun j => ws.getD j 0) = ws := by
    refine List.ext_getElem (by simp [hl]) (fun i h1 h2 => ?_)
    rw [List.getElem_map, List.getElem_range, List.getD_eq_getElem?_getD, List.getElem?_eq_getElem h2, Option.getD_some]
  unfold State.request
  simp only [c, a]
  refine congrArg some (Eq.trans (List.map_congr_left (fun j hj => ?_)) e)
  have hj := List.mem_range.1 hj
  have p : (asking s ws).peekBytes 1 (0x2000040 + 8 * j) 8 = some (leBytes 8 (ws.getD j 0)) := by
    have q := h.peek (a := 0x2000040 + 8 * j) (bs := leBytes 8 (ws.getD j 0)) (by rw [leBytes_length]; omega) (by rw [leBytes_length]; omega)
      (fun i hi => by
        rw [leBytes_length] at hi
        show Mem.read (Mem.write s.mem 0x2000040 (ws.flatMap (leBytes 8))) _ = _
        rw [Mem.read_write, if_pos (by rw [flat_length]; omega), show 0x2000040 + 8 * j + i - 0x2000040 = 8 * j + i by omega]
        exact flat_getD ws j i (by omega) hi) (by simp)
    rwa [leBytes_length] at q
  unfold State.peekNat
  rw [p, Option.map_some, leNat_leBytes]
  exact Nat.mod_eq_of_lt (hw j hj)
theorem in_req (ws : List Nat) : InWorld (req ws) :=
  ⟨rfl, fun x hx => Mem.read_write_out _ _ _ (Or.inl (by omega)), (in_st running).frames, rfl, rfl⟩
theorem req_request (ws : List Nat) (hl : ws.length = 8) (hw : ∀ j, j < 8 → ws.getD j 0 < 2 ^ 64) : (req ws).request 1 = some ws :=
  asking_request ws (in_req ws) rfl hl hw

theorem test_witness_ControlRequests_bad : (∀ op, op < 10 → (req [op, 0, 0, 0, 0, 0, 0, 9]).request 1 = some [op, 0, 0, 0, 0, 0, 0, 9]) ∧
    ((req []).ctxOf 1).status = .live ∧ (req []).secured = true ∧ ((req []).ctxOf 1).fled = [] ∧
    ({ req [] with retired := [(unitKey .security 0, true)] } : State).secured = false :=
  ⟨fun op ho => req_request _ rfl (by
    have : ∀ op, op < 10 → ∀ j, j < 8 → [op, 0, 0, 0, 0, 0, 0, 9].getD j 0 < 2 ^ 64 := by decide
    exact this op ho), rfl, by decide, rfl, by decide⟩

def placeWords : List Nat := [95, 2 ^ 31 + (2 ^ 31 + 1) * 2 ^ 32, 2 ^ 31 + 2 + (2 ^ 31 + 3) * 2 ^ 32, 2 ^ 31 + 4 + (2 ^ 31 + 5) * 2 ^ 32,
  2 ^ 31 + 6 + (2 ^ 31 + 7) * 2 ^ 32]
theorem test_witness_ControlRequests_place :
    (let s := req (1 :: placeWords ++ [0, 0])
     Asked s 1 1 placeWords ∧
     (∀ m, m < 8 →
       let q : BitVec 32 := BitVec.ofNat 32 ((placeWords.drop 1).getD (m / 2) 0 / 2 ^ (32 * (m % 2)))
       field q.toNat 17 14 = 0 ∧ field q.toNat 3 5 ≤ 24 ∧ s.owns 1 (physOf q) = true ∧ physOf q / 8 = 0) ∧
     StillAt s 1 (fun l => decide (l / 8 = 95))) ∧ Asked (req [1, 96, 0, 0, 0, 0, 0, 0]) 1 1 [96, 0, 0, 0, 0] :=
  ⟨⟨req_request _ rfl (by decide), by decide, by unfold StillAt; decide⟩, req_request _ rfl (by decide)⟩

/-- PLACE of the cluster whose slot runs. -/
theorem test_witness_ControlRequests_move :
    (let s := req (1 :: 0 :: placeWords.drop 1 ++ [0, 0])
     Asked s 1 1 (0 :: placeWords.drop 1) ∧ s.slotsIn 1 (fun l => decide (l / 8 = 0)) [.running, .held, .released] = [home] ∧ s.focus = home ∧ Idle s ∧
     s.slot.mode = .running ∧ s.slot.pend = none ∧ s.slot.stopReq = .none ∧ s.slot.wait = .none ∧ s.slot.await = none ∧ s.slot.progress = 0) ∧
    (req []).here.partials = [] ∧ Young (req []) :=
  ⟨⟨req_request _ rfl (by decide), by unfold Idle; decide⟩, rfl, young_of⟩
/-- Where the machine writes the status line of the control block. -/
theorem test_witness_ControlRequests_writes : ((req []).ctxOf 1).partials = [] ∧ Young (req []) ∧ (req []).leaf 1 0x2000008 = .ok (worldLeaf 0x2000008) ∧
    0x2000008 % 65536 + 8 ≤ 65536 ∧ inHbm (worldLeaf 0x2000008).pa = true :=
  ⟨rfl, young_of, (in_req []).leaf (by decide), by decide, by decide⟩

/-- Core 5 has failed: with an empty mate; with every mate busy and a spare cluster; with none; with no mate left. -/
def failWorld (cores : List Nat) (clusters : Nat) (dead : List Nat) : State :=
  { st {} with
    ctxs := [(1, { worldCtx with cr := { worldRec with clusters := clusters }, placement := cores.map (fun l => (l, BitVec.ofNat 32 (2 ^ 31 + l))), fled := [5] })]
    retired := dead.map (fun c => (65536 + c, true)) }
theorem test_witness_ControlRequests_fled :
    (∀ e ∈ [([5], 1, [5]), (List.range 8, 3, [5]), (List.range 8, 1, [5]), ([5], 1, List.range 8)],
      let s := failWorld e.1 e.2.1 e.2.2
      (s.ctxOf 1).fled = [5] ∧ Tab.wf 0 (s.ctxOf 1).placement = true ∧ (∀ e ∈ (s.ctxOf 1).placement, e.1 < 768) ∧ onCore s 1 5 = [5] ∧
      StillAt s 1 (fun k => decide (k / 8 = 0)) ∧ s.secured = true) ∧
    (let s := failWorld [5] 1 [5]
     ((List.range 8).map (fun m => 5 / 8 * 8 + m)).filter s.alive = [0, 1, 2, 3, 4, 6, 7] ∧ onCore s 1 0 = []) ∧
    (let s := failWorld (List.range 8) 3 [5]
     (∀ q ∈ [0, 1, 2, 3, 4, 6, 7], onCore s 1 q ≠ []) ∧ (s.ctxOf 1).cr.clusters.testBit 1 = true ∧
     ∀ m, m < 8 → s.alive (8 * 1 + m) = true ∧ onCore s 1 (8 * 1 + m) = []) ∧
    (∀ b, b < 100 → (failWorld (List.range 8) 1 [5]).here.cr.clusters.testBit b = true → b = 0) ∧
    ((List.range 8).map (fun m => 5 / 8 * 8 + m)).filter (failWorld [5] 1 (List.range 8)).alive = [] := by
  unfold StillAt; decide +kernel

theorem test_witness_ControlRequests_frames :
    (let s := req [2, 0x210000, 0, 0, 0, 0, 0, 0]
     Asked s 1 2 [0x210000, 0, 0] ∧ 0x210000 % 65536 = 0 ∧ inHbm 0x210000 = true ∧ frameOwner (s.frame 0x210000) = 1) ∧
    Asked (req [2, 0x210000, 2, 127, 0, 0, 0, 0]) 1 2 [0x210000, 2, 127] ∧ (req []).keyOk 1 127 2 = true ∧
    (let s : State := { req [] with ctxs := [(1, { reqCtx with cr := { worldRec with itreelen := 0x10000 } })] }
     s.treeRoom 1 (0x210000 / 65536) = true) ∧ Asked (req [2, 0x210000, 3, 0, 0, 0, 0, 0]) 1 2 [0x210000, 3, 0] :=
  ⟨⟨req_request _ rfl (by decide), by decide, by decide, by decide⟩, req_request _ rfl (by decide), by decide, by decide +kernel,
    req_request _ rfl (by decide)⟩

theorem wx_await (t : Slot) (r : Nat) (v : Word) : (t.wx r v).await = t.await := by unfold Slot.wx; split <;> rfl
theorem wk_await (t : Slot) (r : Nat) (v : PReg) : (t.wk r v).await = t.await := by unfold Slot.wk; split <;> rfl
theorem wxs_await : ∀ (vs : List Word) (t : Slot) (r : Nat), (t.wxs r vs).await = t.await
  | [], _, _ => rfl
  | v :: vs, t, r => by rw [Slot.wxs, wxs_await vs, wx_await]
theorem wks_await (f : Nat → PReg) : ∀ (l : List Nat) (t : Slot), (l.foldl (fun t i => t.wk (i + 1) (f i)) t).await = t.await
  | [], _ => rfl
  | i :: l, t => by rw [List.foldl_cons, wks_await f l, wk_await]
theorem restore_await (t : Slot) (bs : List Byte) : (t.restore bs).await = awaitOf (fieldAt bs 6904 8) := by
  unfold Slot.restore
  rw [wks_await, wxs_await, wxs_await, wxs_await]

/-- A halted service slot whose image stands in memory. -/
def haltWorld (ws : List Nat) : State :=
  { asking (world running reqCtx (Mem.write worldMem 0x4010000 frame0)) ws with slots := [(Focus.key { ctx := 1, lc := 0, pos := 8 }, { mode := .halted, cid := 7 })] }
theorem halt_slot (ws : List Nat) : (haltWorld ws).slotAt { ctx := 1, lc := 0, pos := 8 } = { mode := .halted, cid := 7 } := by
  show Tab.get {} [(Focus.key { ctx := 1, lc := 0, pos := 8 }, ({ mode := .halted, cid := 7 } : Slot))] (Focus.key { ctx := 1, lc := 0, pos := 8 }) = _
  simp [Tab.get]
theorem halt_other (ws : List Nat) : (haltWorld ws).slotAt { ctx := 1, lc := 767, pos := 8 } = {} := by
  show Tab.get {} [(Focus.key { ctx := 1, lc := 0, pos := 8 }, ({ mode := .halted, cid := 7 } : Slot))] (Focus.key { ctx := 1, lc := 767, pos := 8 }) = _
  simp [Tab.get, Focus.key]
theorem in_halt (ws : List Nat) : InWorld (haltWorld ws) :=
  ⟨rfl, fun x hx => (Mem.read_write_out _ _ _ (Or.inl (by omega))).trans (Mem.read_write_out _ _ _ (Or.inl (by omega))), (in_st running).frames, rfl, rfl⟩

theorem halt_peek (ws : List Nat) (hl : ws.length = 8) : (haltWorld ws).peekBytes 1 0x4010000 8192 = some frame0 := by
  have n := frame0_length
  have p := (in_halt ws).peek (a := 0x4010000) (bs := frame0) (by omega) (by omega) (fun i hi => by
    show Mem.read (Mem.write (Mem.write worldMem 0x4010000 frame0) 0x2000040 (ws.flatMap (leBytes 8))) (0x4010000 + i) = _
    rw [Mem.read_write_out _ _ _ (Or.inr (by rw [flat_length]; omega)), Mem.read_write, if_pos (by omega), Nat.add_sub_cancel_left]; rfl) (by omega)
  rwa [n] at p
theorem halt_frame (ws : List Nat) : ((haltWorld ws).ctxOf 1).imageFrame 0 8 = 0x4010000 := by
  have c : (haltWorld ws).ctxOf 1 = reqCtx := by
    show Tab.get {} [(1, reqCtx)] 1 = _
    simp [Tab.get]
  rw [c]; decide
theorem halt_request (op : Nat) (ho : op < 2 ^ 64) : (haltWorld [op, 0, 8, 0, 0, 0, 0, 0]).request 1 = some [op, 0, 8, 0, 0, 0, 0, 0] := by
  refine asking_request (s := { world running reqCtx (Mem.write worldMem 0x4010000 frame0) with
    slots := [(Focus.key { ctx := 1, lc := 0, pos := 8 }, { mode := .halted, cid := 7 })] }) _ (in_halt _) rfl rfl (fun j hj => ?_)
  match j, hj with
  | 0, _ => exact ho
  | 1, _ | 3, _ | 4, _ | 5, _ | 6, _ | 7, _ => exact (by decide : 0 < 2 ^ 64)
  | 2, _ => exact (by decide : 8 < 2 ^ 64)

theorem test_witness_ControlRequests_slots (op : Nat) (ho : op = 3 ∨ op = 4) :
    (let s := haltWorld [op, 0, 8, 0, 0, 0, 0, 0]
     let f : Focus := { ctx := 1, lc := 0, pos := 8 }
     Asked s 1 op [0, 8] ∧ (s.slotAt f).mode = .halted ∧ s.peekBytes 1 ((s.ctxOf 1).imageFrame 0 8) 8192 = some frame0 ∧
     Slot.imageBad frame0 = none ∧ ((s.slotAt f).restore frame0).await = none ∧ (s.slotAt f).longs = [] ∧ (s.slotAt f).tasks = [] ∧
     (s.slotAt f).iter = none ∧ (s.slotAt f).node = 0 ∧ (s.ctxOf 1).partials = [] ∧ (s.ctxOf 1).waitLists = [] ∧
     (s.slotAt { ctx := 1, lc := 767, pos := 8 }).mode ≠ .halted ∧
     s.freePos 1 ((s.hosted 1 (s.physCore 1 0)).filter (fun l => decide (l ≠ 0))) 8 = true) := by
  refine ⟨halt_request op (by omega), by rw [halt_slot], by rw [halt_frame]; exact halt_peek _ rfl, test_witness_ReturnFromTrap.2.2.2.2.1, ?_, by rw [halt_slot], by rw [halt_slot],
    by rw [halt_slot], by rw [halt_slot], rfl, rfl, by rw [halt_other]; decide, by rcases ho with rfl | rfl <;> decide +kernel⟩
  rw [restore_await, frame0_tail 6904 (by decide)]; rfl

theorem test_witness_ControlRequests_keys : Asked (req [5, 1, 2, 0, 0, 0, 0, 0]) 1 5 [1, 2] ∧ (Tab.get {} (req []).keys 1).full = false ∧
    Asked (req [5, 127, 2, 0, 0, 0, 0, 0]) 1 5 [127, 2] ∧ (Tab.get {} (req []).keys 127).full = true ∧ Asked (req [6, 127, 0, 0, 0, 0, 0, 0]) 1 6 [127] ∧
    (Tab.get {} (req []).keys 127).owner = 1 ∧ Asked (req [6, 1, 0, 0, 0, 0, 0, 0]) 1 6 [1] :=
  ⟨req_request _ rfl (by decide), by decide, req_request _ rfl (by decide), by decide, req_request _ rfl (by decide), by decide,
    req_request _ rfl (by decide)⟩

theorem test_witness_ControlRequests_attest : (let s := req [7, 0x200000, 0x210000, 0, 0, 0, 0, 0]
    Asked s 1 7 [0x200000, 0x210000] ∧ CalmFor s 1 ∧ (s.ctxOf 1).cr.supcore = 8 ∧
    Arena s (nutWho (s.ctxOf 1) 1) [(0x200000, 64, 0x200000), (0x210000, 50088, 0x210000)]) :=
  ⟨req_request _ rfl (by decide), calmFor_of ⟨rfl, rfl, rfl, rfl, rfl, rfl, rfl⟩, rfl, (in_req _).arena _ _ rfl (by decide) (Or.inl rfl) (by decide) (by decide)⟩

theorem test_witness_ControlRequests_rest :
    (let s : State := { req [] with ctxs := [(1, { worldCtx with ccbReq := some { q := 5, result := some 2 }, timers := [(767, { armed := true, t := 9 })] })] }
     s.eventRoom 1 8 = true ∧ (s.core 1 8).suspended = [] ∧ (s.core 1 767).suspended = [] ∧ (s.ctxOf 1).cr.supcore = 8 ∧ (s.ctxOf 1).ccbReq = some { q := 5, result := some 2 } ∧
     (Tab.get {} (s.ctxOf 1).timers 767).armed = true ∧ (Tab.get {} (s.ctxOf 1).timers 767).left = 0 ∧ s.eventRoom 1 767 = true) ∧
    (((req [10, 0, 0, 0, 0, 0, 0, 0]).ctxOf 1).ccbReq = some { q := 5 } ∧ (req [10, 0, 0, 0, 0, 0, 0, 0]).request 1 = some [10, 0, 0, 0, 0, 0, 0, 0]) ∧
    (let s : State := { req [] with ctxs := [(1, { reqCtx with timers := [(767, { armed := true, t := 9, left := 4 })] })] }
     (Tab.get {} (s.ctxOf 1).timers 767).armed = true ∧ (Tab.get {} (s.ctxOf 1).timers 767).left ≠ 0) :=
  ⟨by decide, ⟨rfl, req_request _ rfl (by decide)⟩, by decide⟩
/-! #### Contexts, sessions, the part -/

def manager (s : State) : State := { s with sessions := [(3, { stage := .ready, kind := .manage })] }
/-- Nothing runs, and a seal or an end is asked for. -/
def stillWorld (ws : List Nat) : State := asking (manager { world {} reqCtx worldMem with slots := [] }) ws
theorem in_still (ws : List Nat) : InWorld (stillWorld ws) :=
  ⟨rfl, fun x hx => Mem.read_write_out _ _ _ (Or.inl (by omega)), (in_st running).frames, rfl, rfl⟩
theorem still_request (ws : List Nat) (hl : ws.length = 8) (hw : ∀ j, j < 8 → ws.getD j 0 < 2 ^ 64) : (stillWorld ws).request 1 = some ws :=
  asking_request ws (in_still ws) rfl hl hw
theorem test_witness_ContextEnds_stop : (∀ e ∈ (stillWorld []).frames, e.1 * 65536 < hbmTop) ∧ ((stillWorld []).ctxOf 1).status = .live ∧ Still (stillWorld []) 1 ∧
    (stillWorld []).secured = true ∧ Asked (stillWorld [8, 0, 0, 0, 0, 0, 0, 0]) 1 8 [] ∧ (stillWorld []).hartsBusy 1 = false ∧
    Asked (stillWorld [9, 0, 0, 0, 0, 0, 0, 0]) 1 9 [] ∧ Managing (stillWorld []) 3 :=
  ⟨by decide, rfl, by unfold Still StillAt; decide, by decide, still_request _ rfl (by decide), by decide, still_request _ rfl (by decide),
    by unfold Managing; decide⟩
/-- A seal in progress whose session has failed. -/
theorem test_witness_ContextEnds_failed : let s : State := { stillWorld [] with sessions := [(3, { stage := .failed, kind := .manage })], requests := [.manageSeal 3 0 1] }
    s.requests = [.manageSeal 3 0 1] ∧ (s.session 3).stage = .failed ∧ s.hartsBusy 1 = false ∧ s.secured = true ∧ Still s 1 := by
  unfold Still StillAt; decide
/-- How long a seal image is, is a free value; where it fits in sixteen MiB the area is apart from the tables and the control block. -/
theorem test_witness_ContextEnds_area (hL : (Config.sealImage (stillWorld [8, 0, 0, 0, 0, 0, 0, 0]).draws).length ≤ 0x1000000) :
    let s := stillWorld [8, 0, 0, 0, 0, 0, 0, 0]
    let va := (s.ctxOf 1).cr.ccb.toNat + 8
    let l := worldLeaf va
    let sealed (a : Nat) : Prop := (s.ctxOf 1).cr.sealarea.toNat ≤ a ∧ a < (s.ctxOf 1).cr.sealarea.toNat + (Config.sealImage s.draws).length
    let area (x : Nat) : Prop := ∃ a m, sealed a ∧ s.leaf 1 a = .ok m ∧ m.pa = x
    (s.ctxOf 1).ccbReq = some { q := 5 } ∧ (s.ctxOf 1).partials = [] ∧ (∀ a, frameMode (s.frame a) ≠ 2) ∧ s.leaf 1 va = .ok l ∧ va % 65536 + 8 ≤ 65536 ∧ inHbm l.pa = true ∧
      (∀ k, k < 8 → ¬ area (l.pa + k)) ∧
      (∀ m, (∀ x, ¬ area x → (x < l.pa ∨ l.pa + 8 ≤ x) → Mem.read m x = Mem.read s.mem x) →
        ∀ a, a = va ∨ sealed a → ({ s with mem := m } : State).leaf 1 a = s.leaf 1 a) := by
  intro s va l sealed area
  have i : InWorld s := in_still _
  have hva : va = 0x2000008 := by show (s.ctxOf 1).cr.ccb.toNat + 8 = _; rw [i.rec0]; rfl
  have hpa : l.pa = 0x2000008 := hva
  have hs : ∀ a, sealed a → 0x38000000 ≤ a ∧ a < 2 ^ 30 := by
    intro a h
    have e : (s.ctxOf 1).cr.sealarea.toNat = 0x38000000 := by rw [i.rec0]; rfl
    obtain ⟨h1, h2⟩ := h
    rw [e] at h1 h2
    have : (Config.sealImage s.draws).length ≤ 0x1000000 := hL
    omega
  have ha : ∀ x, area x → 0x38000000 ≤ x := by
    rintro x ⟨a, m, q, e, rfl⟩
    have := hs a q
    rw [i.leaf this.2] at e
    cases e; exact this.1
  refine ⟨rfl, rfl, fun a => ?_, ?_, ?_, ?_, fun k hk h => ?_, fun m hm a h => ?_⟩
  · have g : ∀ (l : List Nat) (k : Nat), frameMode (Tab.get 0 (l.map (fun f => (f, (1 : BitVec 32)))) k).toNat ≠ 2 := by
      intro l k
      induction l with
      | nil => rw [List.map_nil, Tab.get]; decide
      | cons f r ih =>
        rw [List.map_cons, Tab.get]
        split
        · decide
        · exact ih
    exact g (List.range 64) (a / 65536)
  · exact i.leaf (by rw [hva]; decide)
  · rw [hva]; decide
  · rw [hpa]; decide
  · have := ha _ h; rw [hpa] at this; omega
  · have j : InWorld { s with mem := m } := ⟨i.rec0, fun x hx => by
      show Mem.read m x = _
      rw [hm x (fun q => by have := ha x q; omega) (Or.inl (by rw [hpa]; omega))]; exact i.tables x hx, i.frames, i.clean, i.folded⟩
    have hb : a < 2 ^ 30 := by rcases h with h | h
                               · rw [h, hva]; decide
                               · exact (hs a h).2
    rw [j.leaf hb, i.leaf hb]

def aSeal : SealedCtx := { ctx := worldCtx, nclusters := 1, slots := [(16384 + 16 * 767 + 8, running)], cores := [(coreKey 1 767, { box := [aMsg] })],
                           ls := [(lsKey 1 767 0x7FFFF, 7)] }
theorem test_witness_ContextEnds_resume : (∀ z ∈ [aSeal, { aSeal with nclusters := 101 }, { aSeal with lost := true }],
    let s : State := manager { sealedCtxs := [(1, z)] }
    Managing s 3 ∧ (s.ctxOf 1).status ≠ .live ∧ Tab.get {} s.sealedCtxs 1 = z ∧ z ≠ {}) ∧
    (Tab.wf {} aSeal.slots = true ∧ (∀ e ∈ aSeal.slots, e.1 / 16384 = 1) ∧ (∀ e ∈ aSeal.cores, e.1 / 1024 = 1) ∧
     (∀ e ∈ aSeal.ls, lsKey 1 0 0 ≤ e.1 ∧ e.1 < lsKey (1 + 1) 0 0)) ∧
    (let s : State := manager { sealedCtxs := [(1, aSeal)] }
     ((List.range 100).filter (fun a => (List.range 8).all (fun m => decide (Tab.get 0 s.owners (8 * a + m) = 0)))).length = 100 ∧
     (∀ a, a < 100 → ∀ m, m < 8 → s.alive (8 * a + m) = true)) ∧ Tab.get {} (manager {}).sealedCtxs 1 = {} := by
  unfold Managing; decide +kernel

def helloMan : HelloBody := { kind := .manage, ctx := 0, life := 86400, eps := [], nonce := 0, hkey := Config.operatorKey, ek := List.replicate 1568 0 }
def helloData : HelloBody := { helloMan with kind := .data, ctx := 1, life := 1, eps := [191] }
/-- Endpoint 191 is locked for context 1, endpoint 190 is in RUN under session 4, session 5 has been answered by ACCEPT. -/
def sessWorld : State :=
  { st running with
    endpoints := [(190, { state := .run, ctx := 1, session := 4 }), (191, { state := .locked, ctx := 1, locker := 3 })]
    sessions := [(3, { stage := .ready, kind := .manage }), (4, { stage := .ready, kind := .data, ctx := 1, eps := [190] }),
                 (5, { stage := .accepted, kind := .data, ctx := 1, eps := [191] })] }
theorem test_witness_Sessions_hello : Admitted sessWorld helloMan ∧ Admitted sessWorld helloData ∧ ¬ Admitted sessWorld { helloMan with life := 0 } := by
  refine ⟨⟨by decide, by decide, List.length_replicate, List.nodup_nil, ?_, rfl, rfl, rfl⟩,
    ⟨by decide, by decide, List.length_replicate, by decide, by decide, by decide, by decide, rfl, ⟨3, ?_⟩, Or.inl rfl⟩, fun h => absurd h.1 (by decide)⟩
  · intro e he; cases he
  · decide

/-- What ML-KEM answers is a free value, so the hypothesis on the length of its ciphertext stays. -/
theorem test_witness_Sessions_ciphertext (h : (Config.encapsulate sessWorld.draws helloMan.ek).1.length = 1568) : Admitted sessWorld helloMan ∧
    (Config.encapsulate sessWorld.draws helloMan.ek).1.length = 1568 := ⟨test_witness_Sessions_hello.1, h⟩
/-- Whether a signature verifies is a free value, so the hypothesis that one does stays; every other hypothesis of FINISH is met. -/
theorem test_witness_Sessions_finish (sig : List Byte) (hl : sig.length = 49856)
    (hv : Config.verifies (sessWorld.session 5).hkey (leBytes 64 (sessWorld.session 5).transcript.toNat) sig = true) :
    (sessWorld.session 5).stage = .accepted ∧ sig.length = 49856 ∧
    Config.verifies (sessWorld.session 5).hkey (leBytes 64 (sessWorld.session 5).transcript.toNat) sig = true ∧
    ((sessWorld.session 5).kind = .data → ∃ k, ∀ e ∈ (sessWorld.session 5).eps,
      (sessWorld.endpoint e).state = .locked ∧ (sessWorld.endpoint e).ctx = (sessWorld.session 5).ctx ∧ (sessWorld.endpoint e).locker = k) :=
  ⟨rfl, hl, hv, fun _ => ⟨3, by decide⟩⟩

theorem test_witness_Sessions : sessWorld.secured = true ∧ (sessWorld.session 4).stage = .ready ∧ (sessWorld.session 4).left = 0 ∧ (sessWorld.session 4).eps = [190] ∧
    (sessWorld.endpoint 190).state = .run ∧ sessWorld.eventRoom 1 (sessWorld.ctxOf 1).cr.supcore = true ∧ (sessWorld.ctxOf 1).status = .live ∧ Managing sessWorld 3 ∧ (sessWorld.session 5).stage = .accepted ∧
    (sessWorld.endpoint 191).state ≠ .unbound ∧ (sessWorld.endpoint 0).state = .unbound ∧ (sessWorld.ctxOf 2).status ≠ .live ∧
    (sessWorld.endpoint 191).locker = 3 ∧ (sessWorld.endpoint 190).locker ≠ 3 ∧ (sessWorld.session 4).kind = .data ∧ sessWorld.requests = [] ∧
    (let s : State := { sessWorld with requests := [.manageEnd 3 9 1] }
     s.requests = .manageEnd 3 9 1 :: [] ∧ ∀ i ∈ [Instr.cert 3 10, .health 3 10, .sessionFail 3 (.request 10)], i ≠ .manageEnd 3 9 1) := by
  unfold Managing; decide
/-- A session under which 2^48 messages have been accepted: the next packet, and one that was seen before, make it fail. -/
theorem test_witness_Sessions_packets : let s : State := { sessWorld with outbox := List.replicate (2 ^ 48) (.placed 190 0) }
    (s.session 4).stage = .ready ∧ s.accepted 4 = 2 ^ 48 ∧ (s.sent 4).length = 2 ^ 48 ∧ 0 < s.accepted 4 := by
  intro s
  have q : (s.session 4).outAt = 0 ∧ (s.session 4).eps = [190] := ⟨rfl, rfl⟩
  have e : s.sent 4 = List.replicate (2 ^ 48) (OutMsg.placed 190 0) := by
    unfold State.sent
    rw [q.1, q.2, List.drop_zero]
    exact List.filter_replicate_of_pos rfl
  have a : s.accepted 4 = 2 ^ 48 := by
    unfold State.accepted
    rw [e, List.filter_replicate_of_pos rfl, List.length_replicate]
  exact ⟨rfl, a, by rw [e, List.length_replicate], by rw [a]; decide⟩

/-- A creation record for the world's tables. -/
def record1 : List Byte :=
  leBytes 8 0 ++ leBytes 16 1 ++ leBytes 8 0x10000 ++ leBytes 8 0xFFFF ++ leBytes 8 0 ++ leBytes 4 0 ++ leBytes 4 8 ++ leBytes 8 0x3000000 ++
  leBytes 8 0x4000000 ++ leBytes 8 0x50000 ++ leBytes 8 1 ++ leBytes 8 0x2200000 ++ leBytes 8 0x2100000 ++ leBytes 8 0x20000000 ++
  leBytes 8 0x2000000 ++ leBytes 8 0x38000000 ++ leBytes 8 0x3000000 ++ leBytes 8 0x10000 ++ zeros 112
def bareWorld : State := manager { mem := worldMem, fwVerified := true }
def rec1 : CreateRec := CreateRec.parse record1
theorem rec1_fields : rec1.root = 0x10000 ∧ rec1.ncsets = 1 ∧ rec1.images.toNat = 0x4000000 ∧ rec1.ccb.toNat = 0x2000000 ∧
    rec1.sealarea.toNat = 0x38000000 ∧ rec1.pmode = 0 ∧ rec1.clusters = 1 ∧ recordOk record1 = true := by decide +kernel
theorem bare_walks : Walks false (bareWorld.setCtx 1 { cr := rec1 }) := by
  have c : (bareWorld.setCtx 1 { cr := rec1 }).ctxOf 1 = { cr := rec1 } := by
    exact Tab.get_set_self {} bareWorld.ctxs 1 { cr := rec1 }
  exact ⟨by rw [c]; exact rec1_fields.1, by rw [c]; exact rec1_fields.2.1, fun _ _ => rfl, fun f _ => (by decide : frameMode 0 = 0), rfl, by rw [c]⟩
theorem Walks.area {s : State} (h : Walks false s) {va n : Nat} (hv : va + 65536 * n ≤ 2 ^ 30) : s.areaOk 1 va n 0 = true := by
  unfold State.areaOk
  rw [List.all_eq_true]
  intro i hi
  have hi := List.mem_range.1 hi
  rw [h.leaf (by omega)]; rfl
theorem test_witness_Creation : Managing bareWorld 3 ∧ bareWorld.freeNumber = some 1 ∧ bareWorld.core 1 0 = {} ∧ recordOk record1 = true ∧
    (bareWorld.setCtx 1 { cr := rec1 }).createOk 1 rec1 { base := 0x7FFFF, bytes := [7] } = true ∧
    (∀ m, m < 8 → bareWorld.alive (8 * 0 + m) = true) ∧ recordOk [] = false ∧ record1.length = 256 ∧ (zeros 256).length = 256 ∧ recordOk (zeros 256) = false := by
  obtain ⟨-, -, i, c, z, p, q, ok⟩ := rec1_fields
  refine ⟨by unfold Managing; decide, by decide, rfl, ok, ?_, by decide, by decide, by simp [record1, zeros_length], zeros_length _, by decide +kernel⟩
  unfold State.createOk
  rw [i, c, z, p, q, bare_walks.area (by decide), bare_walks.area (by decide), bare_walks.area (by decide)]
  have f : ∀ a, (bareWorld.setCtx 1 { cr := rec1 }).frame a = 0 := fun _ => rfl
  simp only [Bool.and_eq_true, List.all_eq_true, f]
  refine ⟨⟨⟨⟨⟨⟨by decide, by decide⟩, by decide⟩, trivial⟩, trivial⟩, trivial⟩, fun _ _ => by decide⟩

/-- Every number of a context up to `n` is in use. -/
def fullWorld (n : Nat) : State := { bareWorld with ctxs := (List.range n).map (fun i => (i + 1, { status := .live })) }
theorem full_none {n : Nat} (h : n = 65535) : (fullWorld n).freeNumber = none := by
  unfold State.freeNumber
  rw [List.find?_eq_none]
  intro m hm
  obtain ⟨k, hk, rfl⟩ := List.mem_map.1 hm
  have u : k < n → k + 1 ∈ (fullWorld n).ctxs.map (·.1) := fun q =>
    List.mem_map.2 ⟨(k + 1, { status := .live }), List.mem_map.2 ⟨k, List.mem_range.2 q, rfl⟩, rfl⟩
  by_cases q : k < n
  · simp [List.mem_append, u q]
  · have : ¬ k + 1 ≤ 65535 := by omega
    simp [this]
theorem test_witness_Creation_full : Managing (fullWorld 65535) 3 ∧ (fullWorld 65535).freeNumber = none ∧ record1.length = 256 :=
  ⟨⟨rfl, rfl, rfl, rfl⟩, full_none rfl, by simp [record1, zeros_length]⟩

/-- The world in which endpoint 190 has performed 21 of the 22 lines of a write of 4096 bytes. -/
def midRun : HostRun := { write := true, va := 0x210000, len := 4096, bytes := zeros 4096, lines := 21 }
theorem test_witness_HostRequests : (sessWorld.endpoint 190).state = .run ∧ (sessWorld.endpoint 190).ctx = 1 ∧ (sessWorld.ctxOf 1).status = .live ∧
    (sessWorld.endpoint 190).run = none ∧ (sessWorld.core 1 767).box.length + 256 < 32 + (sessWorld.ctxOf 1).ringN ∧
    ((withCore sessWorld 767 { box := List.replicate 3872 aMsg }).core 1 767).box.length + 256 ≥ 32 + (sessWorld.ctxOf 1).ringN ∧
    CalmFor sessWorld 1 ∧ Arena sessWorld (epWho 1 190) [(0x210000, 192, 0x210000)] ∧ (0x210000 : Word).toNat + (zeros 4096).length ≤ 2 ^ 56 := by
  have i : InWorld sessWorld := ⟨rfl, fun _ _ => rfl, (in_st running).frames, rfl, rfl⟩
  exact ⟨by decide, by decide, rfl, by decide, by decide, by decide +kernel, calmFor_of ⟨rfl, rfl, rfl, rfl, rfl, rfl, rfl⟩,
    i.arena _ _ rfl (by decide) (Or.inr ⟨rfl, rfl⟩) (by decide) (by decide), by rw [zeros_length]; decide⟩
/-- Line 21 of that write, and of a read of as many bytes, the endpoint in RUN or by now in ERROR. -/
theorem test_witness_HostRequests_line : ∀ st ∈ [EpState.run, EpState.error], ∀ r ∈ [midRun, { midRun with write := false, bytes := [], got := zeros 4032 }],
    let s : State := { sessWorld with endpoints := [(190, { state := st, ctx := 1, session := 4, run := some r })] }
    (s.endpoint 190).run = some r ∧ (s.endpoint 190).state = st ∧ (s.endpoint 190).ctx = 1 ∧ (s.ctxOf 1).status = .live ∧ CalmFor s 1 ∧ r.lines = 21 ∧
    192 * (0x210000 / 192 + 21) < (0x210000 : Word).toNat + 4096 ∧ Arena s (epWho 1 190) [(192 * (0x210000 / 192 + 21), 64, 0x210FC0)] := by
  intro st hst r hr s
  have i : InWorld s := ⟨rfl, fun _ _ => rfl, (in_st running).frames, rfl, rfl⟩
  have g : ∀ r ∈ [midRun, { midRun with write := false, bytes := [], got := zeros 4032 }], r.lines = 21 := by simp [midRun]
  exact ⟨rfl, rfl, rfl, rfl, calmFor_of ⟨rfl, rfl, rfl, rfl, rfl, rfl, rfl⟩, g r hr, by decide,
    i.arena _ _ rfl (by decide) (Or.inr ⟨rfl, rfl⟩) (by decide) (by decide)⟩

theorem test_witness_PartSteps_quiet : ∀ c lc, ∀ q ∈ ((st running).core c lc).suspended, q.image = true := by
  intro c lc q h
  have e : ((st running).core c lc).suspended = [] := by show (Tab.get ({} : LCore) [] (coreKey c lc)).suspended = []; rw [Tab.get]
  rw [e] at h; cases h
theorem test_witness_PartSteps : (st running).liveCtxs = [1] ∧
    (let s : State := { retired := [(7 * 2 ^ 16, true)] }
     Tab.get false s.retired (7 * 2 ^ 16) = true ∧ Tab.get false s.retired (7 * 2 ^ 16 + 1) = false ∧ s.standby = false) ∧
    (let s := st running
     799 < unitCount .core ∧ s.ownerCtx 799 = 0 ∧ (s.ctxOf 0).placement = [] ∧ s.serves .core 799 1 = false ∧
     s.serves .hbmLane 2047 1 = true ∧ 2047 < unitCount .hbmLane ∧ s.lanesUsed = [] ∧
     (∀ l, l < 8 → Tab.get false s.retired (3 * 2 ^ 16 + (2056 * (2047 / 2056) + 2048 + l)) = false) ∧ inHbm 0x8FFFFFFFC0 = true) ∧
    (let s : State := { st running with owners := [(799, ownerOf 1)], frames := [(64, 1 + 2 * 2 ^ 16)] }
     s.ownerCtx 799 = 1 ∧ s.hosted 1 799 = [] ∧ frameMode (s.frame 0x400040) = 2 ∧ inHbm 0x400040 = true) ∧
    Tab.wf {} [(5, ({ stopped := true, served := some 3 } : Hart))] = true := by
  decide +kernel

theorem test_witness_RoundTrip : (Instr.add n8 17 16 (.imm 1)).wf = true ∧ encode (.add n8 17 16 (.imm 1)) = some (leBytes 8 0x0001800002110008) ∧
    (decode (leBytes 8 0x0001800002110008)).isOk = true := by decide +kernel

theorem test_witness_UnassignedWords : (0x11C * 8 + 2) % 4 = Len.l128.code ∧ (0x1FF * 8) % 4 = Len.l64.code ∧ leNat [3] % 4 = 3 ∧ [(1 : Byte)].length < Len.l96.bytes := by
  decide

/-- A word that decodes at the PC, and a word that does not. -/
def stepWorld (w : Nat) : State := { world running worldCtx (Mem.write worldMem 0x200000 (leBytes 8 w)) with agenda := [.issue home] }
theorem test_witness_StepRunsDecodedInstruction : (∀ w ∈ [0x0001800002110008, 3],
    let s := stepWorld w
    let s0 : State := { s with agenda := [], focus := home }
    s.agenda = .issue home :: [] ∧ s0.turn home = true ∧ s0.turn { home with pos := 1 } = false ∧ s0.slot.stopped = [] ∧ s0.slot.pc.toNat % 4 = 0 ∧
      s0.slot.pc.toNat % 32 ≠ 28 ∧ s.codeLog = [] ∧ s0.here.partials = []) ∧
    (∀ w, let s0 : State := { stepWorld w with agenda := [], focus := home }
      Open s0 (s0.who s0.slot.nanread) .x (.glob s0.slot.pc.toNat) 32 0x200000) ∧
    decode (Mem.bytes (stepWorld 0x0001800002110008).mem 0x200000 32) = .ok (.add n8 17 16 (.imm 1), 8) ∧
    decode (Mem.bytes (stepWorld 3).mem 0x200000 32) = .error .illegalFormat := by
  refine ⟨by decide +kernel, fun w => ?_, by rfl, by rfl⟩
  intro s0
  have i : InWorld s0 := ⟨rfl, fun x hx => Mem.read_write_out _ _ _ (Or.inl (by omega)), (in_st running).frames, rfl, rfl⟩
  have pc : s0.slot.pc.toNat = 0x200000 := by
    show (Tab.get {} [(home.key, running)] home.key).pc.toNat = _
    simp [Tab.get, running]
  rw [pc]
  exact i.open _ .x rfl (by show (0 : Nat) < 768; decide) (Or.inr (Or.inl ⟨rfl, rfl⟩)) (by decide) (by decide)

theorem test_witness_CanonicalFormKept : AllCanonical State.reset := by
  unfold AllCanonical State.MemCanonical; decide

/-! ### Terms that `WellFormed` refuses, one for each check -/

def l96 : Hd := { len := .l96, s := false }
def l128 : Hd := { len := .l128, s := false }
def allLanes : Pred := { k := 0, kn := false }

/-- R36, R37: an immediate that needs more than 16 bits in 64 bits, or more than 48 in 96. -/
theorem test_illformed_immediates : (Instr.li n8 22 0x8000).wf = false ∧ (Instr.li l96 22 0x800000000000).wf = false ∧
    (Instr.add n8 1 2 (.imm 0x12345)).wf = false ∧ (Instr.brk n8 0x8000).wf = false ∧
    (Instr.mma n8 .bf16 2 10 11 3088).wf = false := by decide
/-- R119, R222, R224: a count of the full width. -/
theorem test_illformed_counts : (Instr.shl n8 1 2 (.imm 64)).wf = false ∧ (Instr.vshl n8 allLanes .i16 1 2 (.imm 16)).wf = false ∧
    (Instr.vrot n8 allLanes 1 2 (.imm 48)).wf = false := by decide
/-- R23: a mask of seventeen registers. -/
theorem test_illformed_masks : (Instr.idem l128 0x3FFFE).wf = false ∧ (Instr.spawn l128 1 2 3 0x3FFFE).wf = false ∧
    (Instr.migrate l128 2 0x3FFFE).wf = false ∧ (Instr.recv l128 .msg none 8 0x3FFFE).wf = false := by decide
/-- R120: a field past bit 63. -/
theorem test_illformed_fields : (Instr.bfx n8 false 1 2 60 4).wf = false ∧ (Instr.bfi n8 1 2 63 1).wf = false := by decide
/-- R40: K = 0 with KN = 1. -/
theorem test_illformed_predicate : (Instr.vand n8 { k := 0, kn := true } 1 2 3).wf = false := by decide
/-- R38: CTL in a 64-bit word, and a field that the instruction does not use. -/
theorem test_illformed_controls :
    (Instr.vadd n8 allLanes { rm := .rtz, daz := false, ftz := false } .f32 1 2 3).wf = false ∧
    (Instr.vadd l128 allLanes { rm := .rtz, daz := false, ftz := false } .i32 1 2 3).wf = false ∧
    (Instr.vmin l128 allLanes { rm := .rne, daz := false, ftz := true } .i32 1 2 3).wf = false ∧
    (Instr.vcmp l128 allLanes { rm := .rne, daz := false, ftz := true } .lt .f32 1 2 3).wf = false := by decide
/-- R24, R192, R254, R306, R361: runs of registers that leave x1 to x31. -/
theorem test_illformed_runs : (Instr.send n8 1 2 0).wf = false ∧ (Instr.poll n8 .msg none 25).wf = false ∧
    (Instr.mreq n8 1 2 29).wf = false ∧ (Instr.copy n8 1 2 25).wf = false ∧ (Instr.gstat n8 0 2).wf = false ∧
    (Instr.pfxadd n8 31).wf = false := by decide
/-- R246, R252: depths. -/
theorem test_illformed_depths : (Instr.mma n8 .bf16 2 10 11 8).wf = false ∧ (Instr.mma n8 .mx4 2 10 11 0).wf = false ∧
    (Instr.mmr n8 1 6 10 11 16).wf = false ∧ (Instr.ard n8 (some 1) 0 6 10).wf = false ∧ (Instr.rnsred n8 1 6).wf = false := by decide
/-- R54: an unsigned condition or a bit operation on a floating type. -/
theorem test_illformed_operations : (Instr.vcmp n8 allLanes Ctl.zero .ltu .f32 1 2 3).wf = false ∧
    (Instr.vred n8 allLanes Ctl.zero .xor .f32 1 2).wf = false ∧ (Instr.red n8 .and .f64 1 2).wf = false ∧
    (Instr.amo n8 .swap .h 1 2 3).wf = false ∧ (Instr.cas n8 .b 1 2 3 4).wf = false := by decide
/-- R215, R226, R231, R246: types that a row does not admit. -/
theorem test_illformed_types : (Instr.vfma l128 allLanes Ctl.zero .i32 1 2 3 4).wf = false ∧ (Instr.vadd n8 allLanes Ctl.zero .e4m3 1 2 3).wf = false ∧
    (Instr.vcvt n8 allLanes Ctl.zero .f32 .f32 1 2).wf = false ∧ (Instr.vcvt n8 allLanes Ctl.zero (.rn3 0) .i16 1 2).wf = false ∧
    (Instr.mma n8 .f32 2 10 11 0).wf = false ∧ (Instr.vsparse n8 allLanes .f32 1 2 3).wf = false ∧
    (Instr.vldg n8 allLanes .i8 1 2 3).wf = false ∧ (Instr.vldc n8 allLanes .mx4 1 2 3).wf = false := by decide
/-- R157, R207, R228, R230, R358: `ld.wu` has no d form, a guard jumps somewhere, elements and counts lie in range, a code is at most 0xFFFC. -/
theorem test_illformed_values : (Instr.ld n8 .d true 1 2 0).wf = false ∧ (Instr.guard n8 1 2 3 0).wf = false ∧
    (Instr.vext n8 .i64 1 2 24).wf = false ∧ (Instr.vins n8 .i8 1 2 192).wf = false ∧
    (Instr.vtopk n8 allLanes Ctl.zero .i32 1 2 0).wf = false ∧ (Instr.vtopk n8 allLanes Ctl.zero .i64 1 2 25).wf = false ∧
    (Instr.nodefail l128 0xFFFD).wf = false := by decide

/-! ### Words of the spec that decode -/

def word (w : Nat) : Except DecodeError (Instr × Nat) := decode (leBytes 8 w)

theorem test_words_scalar : word 0x0001800002110008 = .ok (.add n8 17 16 (.imm 1), 8) ∧
    word 0x00C80100012500F0 = .ok (.bfx n8 true 5 9 8 3, 8) ∧
    word 0x004000000000011C = .ok (.call s8 0x40, 8) ∧
    word 0x000C012001100200 = .ok (.ld n8 .w true 16 8 12, 8) ∧
    word 0x000800304500020C = .ok (.st s8 .d 17 8 8, 8) ∧
    word 0x00000030451002CC = .ok (.amo s8 (.rop .add) .d 16 8 17, 8) ∧
    word 0x030010000138028C = .ok (.recv s8 .msg (some 9) 24 0x300, 8) ∧
    word 0x0000058028020480 = .ok (.vcmp n8 { k := 0, kn := false } Ctl.zero .gt .f32 2 0 10, 8) :=
  ⟨rfl, rfl, rfl, rfl, rfl, rfl, rfl, rfl⟩
theorem test_words_units : word 0x00CA0001882404A8 = .ok (.vlop3 n8 { k := 0, kn := false } 4 1 2 3 0xCA, 8) ∧
    word 0x000000702D42061C = .ok (.mma s8 .bf16 2 10 11 0, 8) ∧
    word 0x000002000823071C = .ok (.autstep s8 { k := 0, kn := false } 2 3 1 2, 8) ∧
    word 0x0003110016800784 = .ok (.allowApply s8 1 20 5 3, 8) ∧
    word 0x0000000061300804 = .ok (.copy s8 16 9 24, 8) ∧
    word 0x00030000000008A4 = .ok (.nodefail s8 3, 8) ∧
    word 0x00000100000008DC = .ok (.rdoneFail s8, 8) ∧
    word 0x0012000000000144 = .ok (.trap s8 0x12, 8) :=
  ⟨rfl, rfl, rfl, rfl, rfl, rfl, rfl, rfl⟩
/-- The 96-bit and 128-bit examples of chapter 03. -/
theorem test_word_li : decode [0xE9, 0, 0x16, 0, 0, 0, 0, 0, 0x80, 0xFF, 0, 0] = .ok (.li l96 22 0xFF800000, 12) := rfl
theorem test_word_vfma : decode ([0x1E, 0x04, 0x23, 0x88, 0x81, 0, 0x11, 0] ++ List.replicate 8 0) =
    .ok (.vfma { len := .l128, s := true } allLanes { rm := .rtz, daz := false, ftz := true } .f32 3 1 2 3, 16) := rfl
theorem test_word_idem : decode [0x35, 1, 0, 0, 0, 0, 0, 0, 0x44, 0x04, 0, 0] = .ok (.idem { len := .l96, s := true } 0x04440000, 12) := rfl
/-- Messages, matrix unit. -/
theorem test_word_send : word 0x0000000061300284 = .ok (.send s8 16 9 24, 8) := rfl
theorem test_word_ard : word 0x0000000040400634 = .ok (.ard s8 none 0 2 16, 8) := rfl
theorem test_word_mmr : word 0x001000D02D400628 = .ok (.mmr n8 1 0 10 11 16, 8) := rfl
/-- Vectors. -/
theorem test_word_vcvt : word 0x00000D20008504F8 = .ok (.vcvt n8 allLanes Ctl.zero .i32 (.rn3 1) 5 4, 8) := rfl
theorem test_word_vins : word 0x00010020020104F4 = .ok (.vins s8 .i32 1 16 1, 8) := rfl
/-- Automata and vocabulary. -/
theorem test_word_maprun : word 0x000000062C220728 = .ok (.maprun n8 allLanes 0 2 1 11 12, 8) := rfl
theorem test_word_mapinit : word 0x0000000001610734 = .ok (.mapinit s8 allLanes 0 1 11, 8) := rfl
theorem test_word_autrun : word 0x0000000048270724 = .ok (.autrun s8 allLanes 0 7 1 18, 8) := rfl
theorem test_word_compose : word 0x000000008C44073C = .ok (.compose s8 allLanes 4 2 3 1, 8) := rfl
theorem test_word_autq : word 0x0000000000820744 = .ok (.autq s8 .unres 2 4, 8) := rfl
theorem test_word_triewalk : word 0x000000005446078C = .ok (.triewalk s8 allLanes 0 6 2 21, 8) := rfl
theorem test_word_detok : word 0x0000010525100790 = .ok (.detok n8 1 16 8 9 10, 8) := rfl
/-- Streams, graphs, loops. -/
theorem test_word_sub_tile : word 0x000000003550080C = .ok (.subTile s8 16 10 13, 8) := rfl
theorem test_word_ringinit : word 0x000000062D40081C = .ok (.ringinit s8 10 11 12, 8) := rfl
theorem test_word_slpost : word 0x0000000039A0082C = .ok (.slpost s8 13 14, 8) := rfl
theorem test_word_sltake : word 0x0000000001510834 = .ok (.sltake s8 17 10, 8) := rfl
theorem test_word_glaunch : word 0x0000000002000884 = .ok (.glaunch s8 16, 8) := rfl
theorem test_word_nodeadd : word 0x000000002D500888 = .ok (.nodeadd n8 16 10 11, 8) := rfl
theorem test_word_edgeadd : word 0x0000000025100894 = .ok (.edgeadd s8 16 8 9, 8) := rfl
theorem test_word_nodedone : word 0x000000000000089C = .ok (.nodedone s8, 8) := rfl
theorem test_word_gstat : word 0x00000000015008AC = .ok (.gstat s8 16 10, 8) := rfl
theorem test_word_rloop : word 0x00000000020008C4 = .ok (.rloop s8 16, 8) := rfl
theorem test_word_rsv : word 0x00000000022008C8 = .ok (.rsv n8 17, 8) := rfl
theorem test_word_rchk : word 0x00000000027308D0 = .ok (.rchk n8 19 19, 8) := rfl
/-- Traps and returns. -/
theorem test_word_trapf : word 0x000000000000013C = .ok (.trapf s8, 8) := rfl
theorem test_word_eret : word 0x000000000000014C = .ok (.eret s8, 8) := rfl
theorem test_word_brk : word 0x000700000000016C = .ok (.brk s8 7, 8) := rfl

/-! ### Single steps, and the worked cases of the spec -/

/-- A field of the state that follows, 2^70 where nothing follows. -/
def seen (o : Host.Outcome State Fault Refusal) (f : State → Nat) : Nat :=
  match o with
  | .next s => f s
  | .fault _ | .refused _ => 2 ^ 70
/-- R46, R165: from reset, the placed word runs: `add x17, x16, 1`. -/
theorem test_step_runs_placed_word : seen (step (State.reset.withFetchWord 64 0x0001800002110008)) (fun s => (s.slot.rx 17).toNat) = 1 := by
  decide +kernel
/-- R46 step 1, R327: a word of length 3 raises ILLEGAL_FORMAT, which halts a slot that has no trap vector. -/
theorem test_step_traps_on_bad_length :
    seen (step (State.reset.withFetchWord 64 3)) (fun s => if s.slot.mode = .halted then 1 else 0) = 1 := by decide +kernel

/-- The tables of the worked translation of chapter 06. -/
def walkedMem : Tab Byte :=
  [(0x10000, 0x12001), (0x12000, 0x14001), (0x14010, 0x16001), (0x16010, 0x18001), (0x18000, 0x540030053B), (0x18008, 0x2021003)].foldl
    (fun m e => Mem.write m e.1 (leBytes 8 e.2)) []
def walkedWorld : State := world running { worldCtx with cr := { worldRec with ncsets := 4 } } walkedMem
theorem test_worked_translation :
    (match walkedWorld.leaf 1 0x40200300 with
     | .ok l => some (l.pa, l.r, l.w, l.x, l.key, l.home)
     | .error _ => none) = some (0x5400300300, true, true, false, 5, 2) ∧
    (match walkedWorld.leaf 1 0x40200300 with
     | .ok l => some (l.acnt, l.cset, l.level)
     | .error _ => none) = some (0x21, 3, 0) := by decide +kernel

/-- A register after a vector instruction and its group close. -/
def lanes (i : Instr) (vs : List (Nat × VReg)) (r w : Nat) (js : List Nat) : List Nat :=
  match exec i (world { running with v := vs, k := [(1, BitVec.allOnes 48), (4, 0x3F)] } worldCtx []) with
  | .next s => js.map (elem w (s.closeGroup.slot.rv r))
  | .fault _ | .refused _ => []
/-- Chapter 09: −1000 under T1, and zero. -/
theorem test_worked_vcvt : lanes (.vcvt n8 allLanes Ctl.zero .i32 (.rn3 1) 5 4) [(4, 0x00CDEB04)] 5 32 [0, 1] = [0xFFFFFC18, 0] := by
  decide +kernel
/-- Chapter 04: the other direction. -/
theorem test_worked_vcvt_back : lanes (.vcvt n8 allLanes Ctl.zero (.rn3 1) .i32 5 4) [(4, 0xFFFFFC18)] 5 32 [0] = [0x00CDEB04] := by
  decide +kernel
/-- Chapter 09: funnel shift, selection, sparse operands. -/
theorem test_worked_vfsh : lanes (.vfsh n8 allLanes .i8 5 1 2 3) [(1, 0xB4), (2, 0x81), (3, 3)] 5 8 [0] = [0xA4] := by decide +kernel
theorem test_worked_vtopk : lanes (.vtopk n8 { k := 4, kn := false } Ctl.zero .i32 6 2 3)
    [(2, vecOf 32 [7, 9, 7, 0xFFFFFFFF, 9, 3])] 6 32 [0, 1, 2, 3, 47] = [1, 4, 0, 0xFFFFFFFF, 0xFFFFFFFF] := by decide +kernel
def sparseIn : VReg := vecOf 16 [0x3F80, 0xC000, 0x7FC1, 0x4000, 0, 0x8000, 0, 0]
theorem test_worked_vsparse : lanes (.vsparse n8 allLanes .bf16 5 6 4) [(4, sparseIn)] 5 16 [0, 1, 2, 3] = [0xC000, 0x7FC1, 0, 0x8000] ∧
    lanes (.vsparse n8 allLanes .bf16 5 6 4) [(4, sparseIn)] 6 4 [0, 1] = [9, 4] := by decide +kernel
/-- Chapter 04: 300.0 to E4M3 under both readings, and code 0x79 read back. -/
theorem test_worked_e4m3 : lanes (.vcvt n8 allLanes Ctl.zero .e4m3 .f32 5 4) [(4, 0x43960000)] 5 8 [0] = [0x79] := by decide +kernel
/-- R203: `amo.max` of the 32-bit −1 and 1 keeps 1 in memory and returns the old value, sign-extended. -/
theorem test_amo_max : redFn .max .i32 0xFFFFFFFF 1 = (1, 0) := by decide +kernel
/-- R122: a division by zero gives all ones, and its remainder the dividend. -/
theorem test_division_by_zero :
    seen (exec (.div n8 5 6 (.reg 0)) (world { running with x := [(6, 7)] } worldCtx [])) (fun s => (s.slot.rx 5).toNat) = 2 ^ 64 - 1 ∧
    seen (exec (.rem n8 5 6 (.reg 0)) (world { running with x := [(6, 7)] } worldCtx [])) (fun s => (s.slot.rx 5).toNat) = 7 := by
  decide +kernel
/-- R100: the call saves the return address; the fifth window spills. -/
theorem test_call_depth : seen (exec (.call s8 0x40) (world running worldCtx [])) (fun s => s.slot.depth) = 1 ∧
    seen (exec (.call s8 0x40) (world running worldCtx [])) (fun s => s.slot.pc.toNat) = 0x200040 := by decide +kernel
/-- R177, R418: the lines of a range over a line boundary, and of one that runs past 2^56. -/
theorem test_host_lines : linesOf 0x2100B0 32 = [(0, 0x2100B0, 16), (16, 0x2100C0, 16)] ∧
    ({ write := false, va := 0xFFFFFFFFFFFFF0, len := 20 } : HostRun).pieces = [(0, 0xFFFFFFFFFFFFF0, 16), (16, 0x100000000000000, 4)] := by decide +kernel

end Sys2Proof.Tests
end

section
/-! PROOFS. The decoder on words that it refuses (R46 steps 3 to 5, R53): what `decode` gives for each length code, which bits of the word
decide it, and that the opcodes that R53 lists are the ones that `assigned` leaves out. -/

namespace Sys2Proof.Machine

/-- The first bytes of a list are the low ones of its number (R2). -/
theorem leNat_append (xs ys : List Byte) : leNat (xs ++ ys) = leNat xs + 256 ^ xs.length * leNat ys := by
  induction xs with
  | nil => simp [leNat]
  | cons b xs ih =>
    simp only [List.cons_append, leNat, ih, List.length_cons, Nat.pow_succ]
    ring

/-- What follows a word does not reach its bits. -/
theorem leNat_leBytes_append_mod (n w : Nat) (rest : List Byte) : leNat (leBytes n w ++ rest) % 2 ^ (8 * n) = w % 2 ^ (8 * n) := by
  rw [leNat_append, leNat_leBytes, leBytes_length, Nat.pow_mul 2 8 n, Nat.add_mul_mod_self_left]
  exact Nat.mod_mod _ _

/-- The length code lies in the first byte, which every length has. -/
theorem leNat_leBytes_append_mod_four (len : Len) (w : Nat) (rest : List Byte) : leNat (leBytes len.bytes w ++ rest) % 4 = w % 4 := by
  have hdvd : 4 ∣ 2 ^ (8 * len.bytes) := by cases len <;> decide
  rw [← Nat.mod_mod_of_dvd _ hdvd, leNat_leBytes_append_mod, Nat.mod_mod_of_dvd _ hdvd]

/-- A refused word is a trap of the fetch, with ADDRESS 0. -/
theorem fetchedOf_of_error {bs : List Byte} {e : DecodeError} (h : decode bs = .error e) : fetchedOf bs = .trap (decodeTrap e) 0 := by
  simp [fetchedOf, h]

end Sys2Proof.Machine

namespace Sys2Proof
open Machine

@[simp] theorem Len.ofCode_code (len : Len) : Len.ofCode len.code = some len := by
  cases len <;> rfl

@[simp] theorem Len.ofCode_three : Len.ofCode 3 = none := rfl

/-- R46 step 3. -/
theorem decode_of_len_three {bs : List Byte} (h : leNat bs % 4 = 3) : decode bs = .error .illegalFormat := by
  simp [decode, h]

/-- R46 step 4. -/
theorem decode_of_cut {len : Len} {bs : List Byte} (hlen : leNat bs % 4 = len.code) (hcut : bs.length < len.bytes) :
    decode bs = .error .illegalFormat := by
  simp [decode, hlen, hcut]

/-- R46 steps 5 and 6: a whole word decodes by its fields, whatever bytes follow it. -/
theorem decode_leBytes_append {len : Len} {w : Nat} (hlen : w % 4 = len.code) (rest : List Byte) :
    decode (leBytes len.bytes w ++ rest) = (decodeRaw (Raw.ofWord len (w % 2 ^ (8 * len.bytes)))).map (·, len.bytes) := by
  have hwhole : ¬ (leBytes len.bytes w ++ rest).length < len.bytes := by simp
  simp only [decode, leNat_leBytes_append_mod_four, hlen, Len.ofCode_code, hwhole, if_false, leNat_leBytes_append_mod]
  cases decodeRaw (Raw.ofWord len (w % 2 ^ (8 * len.bytes))) <;> rfl

/-- Every length holds the whole of OP, bits 11:3 of the word (R35). -/
theorem Raw.ofWord_mod_op (len : Len) (w : Nat) : (Raw.ofWord len (w % 2 ^ (8 * len.bytes))).op = w / 8 % 512 := by
  cases len <;> simp only [Raw.ofWord, Len.bytes] <;> omega

/-- R52, R53: the assigned opcodes and the unassigned ranges part the nine-bit codes. -/
theorem assigned_eq_false_iff {op : Nat} (h : op < 512) : assigned op = false ↔ ∃ r ∈ unassigned, r.1 ≤ op ∧ op ≤ r.2 := by
  simp only [assigned, unassigned, List.any_cons, List.any_nil, List.exists_mem_cons_iff, List.not_mem_nil, false_and, exists_false,
    Bool.or_eq_false_iff, Bool.and_eq_false_iff, decide_eq_false_iff_not, Bool.or_false, or_false]
  omega

/-- R46 step 5: OP alone decides, whatever the other fields hold. -/
theorem decodeRaw_of_unassigned {r : Raw} (h : assigned r.op = false) : decodeRaw r = .error .illegalOpcode := by
  simp [decodeRaw, h]

/-- R53, on the bytes of a whole word. -/
theorem decode_of_unassigned {len : Len} {w : Nat} (hlen : w % 4 = len.code) (hop : ∃ r ∈ unassigned, r.1 ≤ w / 8 % 512 ∧ w / 8 % 512 ≤ r.2)
    (rest : List Byte) : decode (leBytes len.bytes w ++ rest) = .error .illegalOpcode := by
  have hun : assigned (Raw.ofWord len (w % 2 ^ (8 * len.bytes))).op = false := by
    rw [Raw.ofWord_mod_op]
    exact (assigned_eq_false_iff (Nat.mod_lt _ (by decide))).mpr hop
  rw [decode_leBytes_append hlen, decodeRaw_of_unassigned hun]
  rfl

/-- Settles O56: length and opcode are read from a word's own low bits, and the opcode is looked up before any other field. -/
theorem unassignedWords : Obligations.UnassignedWords := by
  refine ⟨fun len w rest hlen hop => ?_, by decide, fun _ => decode_of_len_three, fun _ _ => decode_of_cut⟩
  have hdec := decode_of_unassigned hlen hop rest
  exact ⟨hdec, fetchedOf_of_error hdec⟩

end Sys2Proof
end

section
/-! PROOFS. The scalar instructions (R119 to R122): what the operations on words give, told by their numbers and bits; the one shape that
every such instruction has; and the table of results that follows. -/

namespace Sys2Proof.Machine

/-! ### Counts of bits (R121) -/

theorem clzN_le : ∀ n v, clzN n v ≤ n
  | 0, _ => Nat.le_refl 0
  | n + 1, v => by
    have ih := clzN_le n v
    rw [clzN]; split <;> omega

/-- The bits above the first one are zero, and the first one is not. -/
theorem testBit_clzN (n v : Nat) :
    (∀ j, j < clzN n v → v.testBit (n - 1 - j) = false) ∧ (clzN n v < n → v.testBit (n - 1 - clzN n v) = true) := by
  induction n with
  | zero => simp [clzN]
  | succ n ih =>
    obtain ⟨hzero, hone⟩ := ih
    have htop : v.testBit n = decide (v / 2 ^ n % 2 = 1) := Nat.testBit_eq_decide_div_mod_eq
    rw [clzN]
    split
    next hset => exact ⟨fun j hj => absurd hj (Nat.not_lt_zero j), fun _ => htop.trans (decide_eq_true hset)⟩
    next hclear =>
      refine ⟨fun j hj => ?_, fun hlt => ?_⟩
      · cases j with
        | zero => exact htop.trans (decide_eq_false hclear)
        | succ j =>
          rw [show n + 1 - 1 - (j + 1) = n - 1 - j by omega]
          exact hzero j (by omega)
      · rw [show n + 1 - 1 - (1 + clzN n v) = n - 1 - clzN n v by omega]
        exact hone (by omega)

theorem ctzN_le : ∀ n v, ctzN n v ≤ n
  | 0, _ => Nat.le_refl 0
  | n + 1, v => by
    have ih := ctzN_le n (v / 2)
    rw [ctzN]; split <;> omega

/-- The bits below the first one are zero, and the first one is not. -/
theorem testBit_ctzN (n v : Nat) :
    (∀ j, j < ctzN n v → v.testBit j = false) ∧ (ctzN n v < n → v.testBit (ctzN n v) = true) := by
  induction n generalizing v with
  | zero => simp [ctzN]
  | succ n ih =>
    obtain ⟨hzero, hone⟩ := ih (v / 2)
    rw [ctzN]
    split
    next hset => exact ⟨fun j hj => absurd hj (Nat.not_lt_zero j), fun _ => by simpa [Nat.testBit_zero] using hset⟩
    next hclear =>
      refine ⟨fun j hj => ?_, fun hlt => ?_⟩
      · cases j with
        | zero => simpa [Nat.testBit_zero] using hclear
        | succ j => rw [Nat.testBit_succ]; exact hzero j (by omega)
      · rw [Nat.add_comm 1, Nat.testBit_succ]
        exact hone (by omega)

theorem popCount_eq_length_filter (n v : Nat) : popCount n v = ((List.range n).filter (fun j => v.testBit j)).length := by
  induction n generalizing v with
  | zero => rfl
  | succ n ih =>
    have htail : (List.filter (fun j => v.testBit j) ((List.range n).map Nat.succ)).length = popCount n (v / 2) := by
      rw [List.filter_map, List.length_map, ih]
      simp only [Function.comp_def, Nat.succ_eq_add_one, Nat.testBit_succ]
    rw [popCount, List.range_succ_eq_map, List.filter_cons, Nat.testBit_zero]
    rcases Nat.mod_two_eq_zero_or_one v with h | h <;> simp [h, htail, Nat.add_comm]

/-! ### Fields of bits (R122) -/

theorem field_lt (v lo n : Nat) : field v lo n < 2 ^ n := Nat.mod_lt _ (Nat.two_pow_pos n)

theorem testBit_field (v lo n j : Nat) : (field v lo n).testBit j = (decide (j < n) && v.testBit (lo + j)) := by
  rw [field, Nat.testBit_mod_two_pow, Nat.testBit_div_two_pow, Nat.add_comm j lo]

theorem div_two_pow_eq_one_iff {v l : Nat} (hv : v < 2 ^ (l + 1)) : v / 2 ^ l = 1 ↔ v.testBit l = true := by
  have hlt : v / 2 ^ l < 2 := Nat.div_lt_of_lt_mul (by rwa [← Nat.pow_succ])
  rw [Nat.testBit_eq_decide_div_mod_eq, Nat.mod_eq_of_lt hlt, decide_eq_true_iff]

/-- A number with its top bit set, less the power of two above it, is its sign extension. -/
theorem ofInt_sub_two_pow {v l : Nat} (hv : v < 2 ^ (l + 1)) (htop : v.testBit l = true) :
    BitVec.ofInt 64 ((v : Int) - 2 ^ (l + 1)) = (BitVec.ofNat (l + 1) v).signExtend 64 := by
  have hle : 2 ^ l ≤ v := Nat.ge_two_pow_of_testBit htop
  have hneg : ¬ 2 * v < 2 ^ (l + 1) := by rw [Nat.pow_succ]; omega
  rw [BitVec.signExtend, BitVec.toInt_eq_toNat_cond, BitVec.toNat_ofNat, Nat.mod_eq_of_lt hv, if_neg hneg]
  norm_cast

theorem getLsbD_bitField (signed : Bool) (a : Word) (pos l : Nat) {j : Nat} (hj : j < 64) :
    (bitField signed a pos (l + 1)).getLsbD j = if j ≤ l then a.getLsbD (pos + j) else (signed && a.getLsbD (pos + l)) := by
  have hlt : field a.toNat pos (l + 1) < 2 ^ (l + 1) := field_lt _ _ _
  have hbit (q : Nat) : (field a.toNat pos (l + 1)).testBit q = (decide (q < l + 1) && a.getLsbD (pos + q)) := testBit_field _ _ _ _
  have htop : (field a.toNat pos (l + 1)).testBit l = a.getLsbD (pos + l) := by simp [hbit]
  simp only [bitField, Nat.add_sub_cancel, div_two_pow_eq_one_iff hlt, htop]
  split
  next hneg =>
    obtain ⟨hsigned, hsign⟩ := hneg
    have hmsb : (BitVec.ofNat (l + 1) (field a.toNat pos (l + 1))).msb = true := by
      rw [BitVec.msb_eq_getLsbD_last, Nat.add_sub_cancel, BitVec.getLsbD_ofNat, htop, hsign]
      simp
    rw [ofInt_sub_two_pow hlt (htop.trans hsign), BitVec.getLsbD_signExtend, hmsb, BitVec.getLsbD_ofNat, hbit]
    by_cases hin : j ≤ l <;> simp [hin, hj, hsigned, hsign]
  next hpos =>
    have hfill : (signed && a.getLsbD (pos + l)) = false := by simpa using hpos
    rw [BitVec.getLsbD_ofNat, hbit, hfill]
    by_cases hin : j ≤ l <;> simp [hin, hj]

theorem testBit_ones_mul_two_pow (len pos j : Nat) : (ones len * 2 ^ pos).testBit j = decide (pos ≤ j ∧ j < pos + len) := by
  rw [ones, Nat.testBit_mul_two_pow, Nat.testBit_two_pow_sub_one, ← Bool.decide_and, decide_eq_decide]
  omega

theorem getLsbD_insertField (old a : Word) (pos l : Nat) {j : Nat} (hj : j < 64) :
    (insertField old a pos (l + 1)).getLsbD j = if pos ≤ j ∧ j ≤ pos + l then a.getLsbD (j - pos) else old.getLsbD j := by
  have hmask : (BitVec.ofNat 64 (ones (l + 1) * 2 ^ pos)).getLsbD j = decide (pos ≤ j ∧ j ≤ pos + l) := by
    rw [BitVec.getLsbD_ofNat, testBit_ones_mul_two_pow, decide_eq_true hj, Bool.true_and, decide_eq_decide]
    omega
  simp only [insertField, BitVec.getLsbD_or, BitVec.getLsbD_and, BitVec.getLsbD_not, BitVec.getLsbD_shiftLeft, hmask, hj]
  by_cases hin : pos ≤ j ∧ j ≤ pos + l
  · simp [hin, Nat.not_lt.2 hin.1]
  · simp [hin]

/-! ### Comparisons (R121) -/

theorem condHolds_iff (c : Cond) (a b : Word) : condHolds c a b = true ↔ condTrue c a b := by
  cases c <;> simp [condHolds, condTrue, BitVec.slt, BitVec.ult]

/-- Where two values of one number are equal, it does not matter which of them a strict or a weak comparison gives. -/
theorem ite_lt_eq_ite_le {α β : Type} [LinearOrder β] {f : α → β} (hf : Function.Injective f) (a b : α) :
    (if f a < f b then b else a) = if f a ≤ f b then b else a := by
  rcases lt_trichotomy (f a) (f b) with hlt | heq | hgt
  · rw [if_pos hlt, if_pos hlt.le]
  · rw [hf heq, ite_self, ite_self]
  · rw [if_neg hgt.not_gt, if_neg hgt.not_ge]

theorem minS_eq (a b : Word) : minS a b = if a.toInt ≤ b.toInt then a else b := by
  simp only [minS, BitVec.slt_iff_toInt_lt, ← Int.not_le, ite_not]

theorem minU_eq (a b : Word) : minU a b = if a.toNat ≤ b.toNat then a else b := by
  simp only [minU, BitVec.ult_iff_toNat_lt, ← Nat.not_le, ite_not]

theorem maxS_eq (a b : Word) : maxS a b = if a.toInt ≤ b.toInt then b else a := by
  simpa only [maxS, BitVec.slt_iff_toInt_lt] using ite_lt_eq_ite_le (fun _ _ => BitVec.eq_of_toInt_eq) a b

theorem maxU_eq (a b : Word) : maxU a b = if a.toNat ≤ b.toNat then b else a := by
  simpa only [maxU, BitVec.ult_iff_toNat_lt] using ite_lt_eq_ite_le (fun _ _ => BitVec.eq_of_toNat_eq) a b

/-! ### Shifts and rotates (R119) -/

theorem cnt_lt (b : Word) : cnt b < 64 := Nat.mod_lt _ (by decide)

theorem shiftLeft_eq_ofNat (a : Word) (k : Nat) : a <<< k = BitVec.ofNat 64 (a.toNat * 2 ^ k) := by
  apply BitVec.eq_of_toNat_eq
  rw [BitVec.toNat_shiftLeft, BitVec.toNat_ofNat, Nat.shiftLeft_eq]

theorem ushiftRight_eq_ofNat (a : Word) (k : Nat) : a >>> k = BitVec.ofNat 64 (a.toNat / 2 ^ k) := by
  rw [← Nat.shiftRight_eq_div_pow, ← BitVec.toNat_ushiftRight, BitVec.ofNat_toNat, BitVec.setWidth_eq]

theorem sshiftRight_eq_ofInt (a : Word) (k : Nat) : a.sshiftRight k = BitVec.ofInt 64 (a.toInt / 2 ^ k) := by
  rw [BitVec.sshiftRight, Int.shiftRight_eq_div_pow]
  norm_cast

/-- The bits that the shift by `k` moves out at the top come back at the bottom, where it has left room for them. -/
theorem rotateLeft_eq_ofNat (a : Word) {k : Nat} (hk : k < 64) :
    a.rotateLeft k = BitVec.ofNat 64 (a.toNat * 2 ^ k + a.toNat * 2 ^ k / 2 ^ 64) := by
  have hout : 2 ^ k * a.toNat / 2 ^ 64 < 2 ^ k := by
    rw [Nat.mul_comm]
    exact Nat.div_lt_of_lt_mul (Nat.mul_lt_mul_of_pos_right a.isLt (Nat.two_pow_pos k))
  refine BitVec.eq_of_getLsbD_eq fun j hj => ?_
  rw [BitVec.getLsbD_rotateLeft, Nat.mod_eq_of_lt hk, BitVec.getLsbD_ofNat, Nat.mul_comm a.toNat,
    Nat.testBit_two_pow_mul_add _ hout, Nat.testBit_div_two_pow, Nat.testBit_two_pow_mul]
  by_cases h : j < k
  · have hle : k ≤ j + 64 := by omega
    simp [h, hj, hle, BitVec.getLsbD, show j + 64 - k = 64 - k + j by omega]
  · simp [h, hj, BitVec.getLsbD]

/-- A right shift of two copies of the word in a row. -/
theorem rotateRight_eq_ofNat (a : Word) {k : Nat} (hk : k < 64) :
    a.rotateRight k = BitVec.ofNat 64 ((a.toNat + 2 ^ 64 * a.toNat) / 2 ^ k) := by
  refine BitVec.eq_of_getLsbD_eq fun j hj => ?_
  rw [BitVec.getLsbD_rotateRight, Nat.mod_eq_of_lt hk, BitVec.getLsbD_ofNat, Nat.testBit_div_two_pow, Nat.add_comm a.toNat,
    Nat.testBit_two_pow_mul_add _ a.isLt]
  by_cases h : j < 64 - k
  · have hlt : j + k < 64 := by omega
    simp [h, hj, hlt, BitVec.getLsbD, Nat.add_comm k]
  · have hge : ¬ j + k < 64 := by omega
    simp [h, hj, hge, BitVec.getLsbD, show j + k - 64 = j - (64 - k) by omega]

/-! ### The shape of a scalar instruction (R119) -/

theorem Slot.src_eq_operand (t : Slot) (b : Src) : t.src b = operand t b := by
  cases b <;> rfl

theorem State.alu_wroteX {s : State} (hs : s.slot.stopped = []) (h : Hd) (rd ra : Reg) (b : Src) (f : Word → Word → Word) :
    WroteX s (s.alu h rd ra b f) h rd.val (f (s.slot.rx ra.val) (operand s.slot b)) := by
  rw [← Slot.src_eq_operand]
  exact s.issueShort_wroteX h rd.val _ hs

theorem State.alu1_wroteX {s : State} (hs : s.slot.stopped = []) (h : Hd) (rd ra : Reg) (f : Word → Word) :
    WroteX s (s.alu1 h rd ra f) h rd.val (f (s.slot.rx ra.val)) :=
  s.issueShort_wroteX h rd.val _ hs

/-- Two names of one operation make one instruction. -/
theorem exec_alu_congr {i : Instr} {s : State} {h : Hd} {rd ra : Reg} {b : Src} {f g : Word → Word → Word}
    (hexec : exec i s = .next (s.alu h rd ra b g)) (hval : ∀ x y, g x y = f x y) : exec i s = .next (s.alu h rd ra b f) := by
  rwa [← funext fun x => funext fun y => hval x y]

theorem arithResult_cmp (h : Hd) (c : Cond) (rd ra : Reg) (b : Src) :
    arithResult (.cmp h c rd ra b) = some (h, rd, ra, b, fun x y => if condHolds c x y then 1 else 0) := by
  cases c <;> simp only [arithResult, condHolds_iff, condTrue, ne_eq, ite_not]

/-- R119 to R121: the table of results is what the instructions compute. The arms that `rfl` closes are written alike in table and model. -/
theorem exec_of_arithResult {i : Instr} {h : Hd} {rd ra : Reg} {b : Src} {f : Word → Word → Word}
    (hi : arithResult i = some (h, rd, ra, b, f)) (s : State) : exec i s = .next (s.alu h rd ra b f) := by
  cases i with
  | cmp => rw [arithResult_cmp] at hi; cases hi; rfl
  | mul => cases hi; exact exec_alu_congr rfl fun x y => BitVec.mul_def
  | shl => cases hi; exact exec_alu_congr rfl fun x y => shiftLeft_eq_ofNat x (cnt y)
  | shr => cases hi; exact exec_alu_congr rfl fun x y => ushiftRight_eq_ofNat x (cnt y)
  | sra => cases hi; exact exec_alu_congr rfl fun x y => sshiftRight_eq_ofInt x (cnt y)
  | rol => cases hi; exact exec_alu_congr rfl fun x y => rotateLeft_eq_ofNat x (cnt_lt y)
  | ror => cases hi; exact exec_alu_congr rfl fun x y => rotateRight_eq_ofNat x (cnt_lt y)
  | min => cases hi; exact exec_alu_congr rfl minS_eq
  | max => cases hi; exact exec_alu_congr rfl maxS_eq
  | minu => cases hi; exact exec_alu_congr rfl minU_eq
  | maxu => cases hi; exact exec_alu_congr rfl maxU_eq
  | add | sub | mulh | mulhu | div | divu | rem | remu | and | or | xor | andn | orn => cases hi; rfl
  | _ => cases hi

/-! ### The statement -/

/-- Settles O7: the shape is that of a short instruction that writes xd, so what is left is the value, told by its number or its bits. -/
theorem scalarInstructions : Obligations.ScalarInstructions := by
  refine ⟨fun i h rd ra b f s hs hi => ⟨_, exec_of_arithResult hi s, State.alu_wroteX hs h rd ra b f⟩, ?_⟩
  intro h rd ra rb rc i signed pos lenm1 s hs a
  refine ⟨?clz, ?ctz, ?popc, ?sel, ?li, fun _ => ⟨?bfx, ?bfi⟩⟩
  case clz =>
    obtain ⟨hzero, hone⟩ := testBit_clzN 64 a.toNat
    exact ⟨_, clzN 64 a.toNat, rfl, State.alu1_wroteX hs h rd ra _, clzN_le 64 a.toNat, hzero, hone⟩
  case ctz =>
    obtain ⟨hzero, hone⟩ := testBit_ctzN 64 a.toNat
    exact ⟨_, ctzN 64 a.toNat, rfl, State.alu1_wroteX hs h rd ra _, ctzN_le 64 a.toNat, hzero, hone⟩
  case popc =>
    have hcount : popCount 64 a.toNat = ((List.range 64).filter (fun j => a.getLsbD j)).length := popCount_eq_length_filter 64 a.toNat
    rw [← hcount]
    exact ⟨_, rfl, State.alu1_wroteX hs h rd ra _⟩
  case sel => exact ⟨_, rfl, s.issueShort_wroteX h rd.val _ hs⟩
  case li => exact ⟨_, rfl, s.issueShort_wroteX h rd.val _ hs⟩
  case bfx => exact ⟨_, _, rfl, State.alu1_wroteX hs h rd ra _, fun j hj => getLsbD_bitField signed a pos.val lenm1.val hj⟩
  case bfi =>
    exact ⟨_, _, rfl, s.issueShort_wroteX h rd.val _ hs, fun j hj => getLsbD_insertField (s.slot.rx rd.val) a pos.val lenm1.val hj⟩

end Sys2Proof.Machine
end

section
/-! PROOFS. The predicate instructions (R236): short instructions that write kd, `kpop` one that writes xd; their values bit by bit. -/

namespace Sys2Proof.Machine

/-- Settles O8: each is a short instruction of one result, so what is left is that result's bits, or their count. -/
theorem predicates : Obligations.Predicates := by
  intro h kd ka kb rd s hs a b
  refine ⟨?kand, ?kor, ?kxor, ?knot, ?kmov, ?kpop⟩
  case kand => exact ⟨_, _, rfl, s.issueShort_wroteK h kd.val _ hs, fun i _ => BitVec.getLsbD_and⟩
  case kor => exact ⟨_, _, rfl, s.issueShort_wroteK h kd.val _ hs, fun i _ => BitVec.getLsbD_or⟩
  case kxor => exact ⟨_, _, rfl, s.issueShort_wroteK h kd.val _ hs, fun i _ => BitVec.getLsbD_xor⟩
  case knot => exact ⟨_, _, rfl, s.issueShort_wroteK h kd.val _ hs, fun i hi => by simp [a, hi]⟩
  case kmov => exact ⟨_, rfl, s.issueShort_wroteK h kd.val _ hs⟩
  case kpop =>
    have hcount : popCount 48 a.toNat = ((List.range 48).filter (fun j => a.getLsbD j)).length := popCount_eq_length_filter 48 a.toNat
    rw [← hcount]
    exact ⟨_, rfl, s.issueShort_wroteX h rd.val _ hs⟩

end Sys2Proof.Machine
end

section
/-! PROOFS. A group of one long instruction that is complete at issue: what its issue and the close of its group leave (R21, R49, R169). -/

namespace Sys2Proof.Machine

theorem OnlySlot.trans {s t u : State} (hst : OnlySlot s t) (htu : OnlySlot t u) : OnlySlot s u := by
  obtain ⟨hst, hslots⟩ := hst
  obtain ⟨htu, hslots'⟩ := htu
  have hfocus : t.focus = s.focus := (congrArg State.focus hst :)
  exact ⟨htu.trans hst, fun f hf => (hslots' f (by rwa [hfocus])).trans (hslots f hf)⟩

/-- What a fresh slot that ends its group may issue. -/
theorem Fresh.canIssueLong {s : State} {h : Hd} {needS : Bool} (hs : Fresh s) (hS : h.s = true) : CanIssueLong s h needS false := by
  obtain ⟨_, hstopped, hlongs, _⟩ := hs
  exact ⟨hstopped, by simp [hlongs], fun _ => hS, by simp⟩

theorem State.issueLong_eq {s : State} {h : Hd} {needS priv : Bool} (c : CanIssueLong s h needS priv) (word : Nat) (ra rb : Word) (j : Job) :
    s.issueLong h needS priv none word ra rb j = s.mod (fun t => (t.addLong s.cycle word ra rb j).retire h) := by
  simp [State.issueLong, Slot.gate_long c]

/-- The entry of a long instruction that a fresh slot issues, complete at once. -/
def State.onlyLong (s : State) (j : Job) : Long :=
  { id := 1, pc := s.slot.pc, word := 0, ra := 0, rb := 0, done := true, outs := j.outs, flags := j.flags }

/-- The slot in focus after it has issued a complete long instruction as its whole group. -/
theorem State.slot_issueLong_of_fresh {s : State} {h : Hd} {j : Job} (hs : Fresh s) (hS : h.s = true) (hj : j.task = none) :
    (s.issueLong h false false none 0 0 0 j).slot =
      { s.slot with longs := [s.onlyLong j], rsrN := s.slot.rsrN + j.rsr.toNat, pc := nextPc s.slot.pc h.len, parked := true } := by
  obtain ⟨_, hstopped, hlongs, _⟩ := id hs
  rw [State.issueLong_eq (hs.canIssueLong hS)]
  simp [Slot.addLong, Slot.retire, Slot.ipc, State.onlyLong, hj, hstopped, hlongs, hS]

theorem exec_groupClose_of_ready {s : State} (hmode : s.slot.mode = .running) (hparked : s.slot.parked = true) (htasks : s.slot.tasks = [])
    (hpend : s.slot.pend = none) (hstop : s.slot.stopReq = .none) : exec .groupClose s = .next s.closeGroup := by
  simp [exec, execGroupClose, hmode, hparked, htasks, hpend, hstop]

/-- The close of a group of one long instruction that writes bits of one vector register (R21, R169). -/
theorem State.closeGroup_of_vectorOut {s : State} {l : Long} {vd : Nat} {m v : VReg} (hlongs : s.slot.longs = [l]) (houts : l.outs = [.v vd m v]) :
    s.closeGroup = (s.mod (fun t => t.wv vd ((t.rv vd &&& ~~~m) ||| (v &&& m)))).mod (fun t => { t.collect [l] with
      longs := [], parked := false, progress := if t.stopped.isEmpty then 0 else t.progress }) := by
  simp [State.closeGroup, hlongs, houts, Out.apply]

/-- R21, R169: where a fresh slot issues a long instruction that is complete at once and writes bits of one vector register, the close of
its group leaves those bits and its flags. -/
theorem issues_of_vectorOut {i : Instr} {s : State} {h : Hd} {vd : Nat} {m v : VReg} {fl : FFlags} {rsr : Bool} (hs : Fresh s) (hS : h.s = true)
    (hexec : exec i s = .next (s.issueLong h false false none 0 0 0 { outs := [.v vd m v], flags := fl, rsr := rsr })) :
    ∃ t, Issues i s t ∧ Closed s t h (setTo vd ((s.slot.rv vd &&& ~~~m) ||| (v &&& m)) s.slot.rv) s.slot.rx s.slot.rk fl := by
  obtain ⟨hmode, hstopped, _, htasks, hpend, hstop, _⟩ := id hs
  let j : Job := { outs := [.v vd m v], flags := fl, rsr := rsr }
  obtain ⟨honly, hmem, _⟩ := State.issueLong_added (hs.canIssueLong hS (needS := false)) 0 0 0 j
  have hslot := State.slot_issueLong_of_fresh hs hS (j := j) rfl
  generalize s.issueLong h false false none 0 0 0 j = a at hexec honly hmem hslot
  have hclose : exec .groupClose a = .next a.closeGroup := by
    apply exec_groupClose_of_ready <;> simp [hslot, hmode, htasks, hpend, hstop]
  have hgroup := State.closeGroup_of_vectorOut (s := a) (l := s.onlyLong j) (vd := vd) (m := m) (v := v) (by simp [hslot]) rfl
  refine ⟨a.closeGroup, ⟨a, hexec, hclose⟩, ?only, ?mem, ?slot⟩
  case only => rw [hgroup]; exact honly.trans (a.mod_mod _ _)
  case mem => rw [hgroup]; exact hmem
  case slot =>
    have hend : a.closeGroup.slot =
        { s.slot.wv vd ((s.slot.rv vd &&& ~~~m) ||| (v &&& m)) with
          fflags := s.slot.fflags ||| fl, rsrN := s.slot.rsrN + rsr.toNat, pc := nextPc s.slot.pc h.len
          longs := [], parked := false, progress := 0 } := by
      simp [hgroup, hslot, hstopped, Slot.collect, State.onlyLong, j, Slot.wv, Slot.rv]
    unfold ClosedSlot
    rw [hend]
    exact ⟨fun q => s.slot.rv_wv vd q _, fun _ => rfl, fun _ => rfl, rfl, rfl, rfl, htasks, rfl, rfl⟩

end Sys2Proof.Machine
end

section
/-! PROOFS. Vector registers as lists of elements (R211, R212): the elements of a register built from a list, of one with some bits
replaced, and which elements a predicate makes active. -/

namespace Sys2Proof.Machine

theorem field_ofElems (w : Nat) (es : List Nat) (j : Nat) : field (ofElems w es) (w * j) w = es.getD j 0 % 2 ^ w := by
  induction es generalizing j with
  | nil => simp [ofElems, field]
  | cons e r ih =>
    cases j with
    | zero => simp [ofElems, field]
    | succ j =>
      have hdrop : (e % 2 ^ w + 2 ^ w * ofElems w r) / 2 ^ w = ofElems w r := by
        rw [Nat.add_mul_div_left _ _ (Nat.two_pow_pos w), Nat.div_eq_of_lt (Nat.mod_lt _ (Nat.two_pow_pos w)), Nat.zero_add]
      rw [ofElems, field, Nat.mul_succ, Nat.add_comm (w * j), Nat.pow_add, ← Nat.div_div_eq_div_mul, hdrop]
      exact ih j

theorem elem_lt (w : Nat) (v : VReg) (j : Nat) : elem w v j < 2 ^ w := field_lt _ _ _

theorem testBit_elem (w : Nat) (v : VReg) (j q : Nat) : (elem w v j).testBit q = (decide (q < w) && v.getLsbD (w * j + q)) :=
  testBit_field _ _ _ _

/-- Elements lie within the register. -/
theorem elem_in_register {w j : Nat} (hj : j < 1536 / w) : w * j + w ≤ 1536 := by
  rw [← Nat.mul_succ]
  exact (Nat.mul_le_mul_left w hj).trans (Nat.mul_div_le 1536 w)

theorem elem_vecOf {w j : Nat} (hj : j < 1536 / w) (es : List Nat) : elem w (vecOf w es) j = es.getD j 0 % 2 ^ w := by
  have hin := elem_in_register hj
  rw [← field_ofElems]
  apply Nat.eq_of_testBit_eq
  intro q
  rw [testBit_elem, testBit_field, vecOf, BitVec.getLsbD_ofNat]
  by_cases hq : q < w
  · simp [hq, show w * j + q < 1536 by omega]
  · simp [hq]

/-- A register of one element for each number that the register has room for. -/
theorem elem_vecOf_map {w j : Nat} (hj : j < 1536 / w) (f : Nat → Nat) :
    elem w (vecOf w ((List.range (elems w)).map f)) j = f j % 2 ^ w := by
  rw [elem_vecOf hj, List.getD_eq_getElem?_getD, List.getElem?_map, List.getElem?_range (show j < elems w from hj)]
  rfl

/-- R212: an element whose bits are all written takes its new value, and one none of whose bits is written keeps its own. -/
theorem elem_write {w j : Nat} (hj : j < 1536 / w) {m : VReg} {on : Bool} (hm : elem w m j = if on then ones w else 0) (old new : VReg) :
    elem w ((old &&& ~~~m) ||| (new &&& m)) j = if on then elem w new j else elem w old j := by
  have hin := elem_in_register hj
  apply Nat.eq_of_testBit_eq
  intro q
  have hbit : (decide (q < w) && m.getLsbD (w * j + q)) = (decide (q < w) && on) := by
    rw [← testBit_elem, hm, ones]
    cases on <;> simp [Nat.testBit_two_pow_sub_one]
  rw [testBit_elem, apply_ite (Nat.testBit · q), testBit_elem, testBit_elem]
  by_cases hq : q < w
  · have hm : m.getLsbD (w * j + q) = on := by simpa [hq] using hbit
    cases on <;> simp [-BitVec.getLsbD_eq_getElem, hm, hq, show w * j + q < 1536 by omega]
  · simp [hq]

/-- R40, R212: the two ways to say that an element is active. -/
theorem active_act {w j : Nat} (hj : j < 1536 / w) (t : Slot) (p : Pred) : active (t.act p) w j = onLane t p w j := by
  have hin := elem_in_register hj
  have hlane : w * j / 32 < 48 := by
    rcases Nat.eq_zero_or_pos w with rfl | hw
    · simp at hj
    · omega
  unfold active laneOf Slot.act onLane
  cases p.kn <;> simp [hlane]

theorem elem_actMask {w j : Nat} (hj : j < 1536 / w) (act : PReg) : elem w (actMask act w) j = if active act w j then ones w else 0 := by
  have hones : ones w % 2 ^ w = ones w := Nat.mod_eq_of_lt (Nat.sub_one_lt (Nat.two_pow_pos w).ne')
  rw [actMask, elem_vecOf_map hj, apply_ite (· % 2 ^ w), hones, Nat.zero_mod]

end Sys2Proof.Machine
end

section
/-! PROOFS. The shape of a lane-wise instruction (R40, R212, R213). -/

namespace Sys2Proof.Machine

/-- The flags of the active elements of a lane-wise instruction, ORed together (R83). -/
def laneFlags (t : Slot) (p : Pred) (w : Nat) (f : Slot → Nat → Nat × FFlags) : FFlags :=
  orFlags ((List.range (elems w)).map (fun j => if active (t.act p) w j then (f t j).2 else 0))

theorem orFlags_eq_zero {fs : List FFlags} (h : ∀ x ∈ fs, x = 0) : orFlags fs = 0 := by
  induction fs with
  | nil => rfl
  | cons a r ih =>
    rw [h a (by simp), orFlags, List.foldl_cons]
    exact ih fun x hx => h x (by simp [hx])

theorem laneFlags_eq_zero {t : Slot} {p : Pred} {w : Nat} {f : Slot → Nat → Nat × FFlags} (hf : ∀ j, (f t j).2 = 0) :
    laneFlags t p w f = 0 := by
  apply orFlags_eq_zero
  simp [hf]

/-- R40, R212, R213: a lane-wise instruction, its group its own, writes its result to each active element, the others keep their own, and the
flags of the active elements are collected. -/
theorem issues_of_lanewise {i : Instr} {s : State} {h : Hd} {p : Pred} {w : Nat} {vd : Reg} {rsr : Bool} {f : Slot → Nat → Nat × FFlags}
    (hs : Fresh s) (hS : h.s = true) (hexec : exec i s = .next (s.lanewise h p w vd rsr f)) :
    ∃ (t : State) (v : VReg), Issues i s t ∧ Closed s t h (setTo vd.val v s.slot.rv) s.slot.rx s.slot.rk (laneFlags s.slot p w f) ∧
      ∀ j, j < 1536 / w → elem w v j = if onLane s.slot p w j then (f s.slot j).1 % 2 ^ w else elem w (s.slot.rv vd.val) j := by
  obtain ⟨t, hissues, hclosed⟩ := issues_of_vectorOut hs hS hexec
  have hflags : orFlags (((List.range (elems w)).map (fun j => if active (s.slot.act p) w j then f s.slot j else (0, 0))).map (·.2)) =
      laneFlags s.slot p w f := by
    simp only [laneFlags, List.map_map, Function.comp_def, apply_ite Prod.snd]
  rw [hflags] at hclosed
  refine ⟨t, _, hissues, hclosed, fun j hj => ?_⟩
  rw [elem_write hj (elem_actMask hj _), List.map_map, elem_vecOf_map hj, active_act hj]
  cases hon : onLane s.slot p w j <;> simp [active_act hj, hon]

end Sys2Proof.Machine
end

section
/-! PROOFS. The operations of lane-wise instructions on w-bit codes, as operations on words of w bits (R70, R216 to R218, R222, R223), and
those on residues (R71, R72). -/

namespace Sys2Proof.Machine

/-! ### Integers (R70) -/

theorem toSigned_toNat {w : Nat} (x : BitVec w) : toSigned w x.toNat = x.toInt := by
  rw [toSigned, Nat.mod_eq_of_lt x.isLt, BitVec.toInt_eq_toNat_cond]
  cases w with
  | zero => simp [x.eq_nil]
  | succ n =>
    rw [Nat.add_sub_cancel, Nat.pow_succ]
    by_cases h : 2 ^ n ≤ x.toNat
    · rw [if_pos h, if_neg (by omega)]
    · rw [if_neg h, if_pos (by omega)]

theorem ofSigned_eq (w : Nat) (z : Int) : ofSigned w z = (BitVec.ofInt w z).toNat := (BitVec.toNat_ofInt z).symm

theorem ofSigned_toInt {w : Nat} (x : BitVec w) : ofSigned w x.toInt = x.toNat := by
  rw [ofSigned_eq, BitVec.ofInt_toInt]

theorem ofSigned_add {w : Nat} (x y : BitVec w) : ofSigned w (x.toInt + y.toInt) = (x + y).toNat := by
  rw [ofSigned_eq, BitVec.ofInt_add, BitVec.ofInt_toInt, BitVec.ofInt_toInt]

theorem ofSigned_neg {w : Nat} (x : BitVec w) : ofSigned w (-x.toInt) = (-x).toNat := by
  rw [ofSigned_eq, BitVec.ofInt_neg, BitVec.ofInt_toInt]

theorem ofSigned_sub {w : Nat} (x y : BitVec w) : ofSigned w (x.toInt - y.toInt) = (x - y).toNat := by
  rw [ofSigned_eq, Int.sub_eq_add_neg, BitVec.ofInt_add, BitVec.ofInt_neg, BitVec.ofInt_toInt, BitVec.ofInt_toInt, BitVec.sub_eq_add_neg]

theorem ofSigned_mul {w : Nat} (x y : BitVec w) : ofSigned w (x.toInt * y.toInt) = (x * y).toNat := by
  rw [ofSigned_eq, BitVec.ofInt_mul, BitVec.ofInt_toInt, BitVec.ofInt_toInt]

theorem ofSigned_min {w : Nat} (x y : BitVec w) : ofSigned w (min x.toInt y.toInt) = (if x.toInt ≤ y.toInt then x else y).toNat := by
  rw [min_def, ← apply_ite BitVec.toInt, ofSigned_toInt]

theorem ofSigned_max {w : Nat} (x y : BitVec w) : ofSigned w (max x.toInt y.toInt) = (if x.toInt ≤ y.toInt then y else x).toNat := by
  rw [max_def, ← apply_ite BitVec.toInt, ofSigned_toInt]

theorem ofSigned_natAbs {w : Nat} (x : BitVec w) : ofSigned w x.toInt.natAbs = (if x.toInt < 0 then -x else x).toNat := by
  split
  next hneg => rw [Int.ofNat_natAbs_of_nonpos hneg.le, ofSigned_neg]
  next hpos => rw [Int.natAbs_of_nonneg (Int.not_lt.1 hpos), ofSigned_toInt]

/-- The sign bit, added to a code, is turned over: its carry leaves the code (R218). -/
theorem add_signBit {w : Nat} (x : BitVec w) : (x.toNat + 2 ^ (w - 1)) % 2 ^ w = (x ^^^ BitVec.ofNat w (2 ^ (w - 1))).toNat := by
  apply Nat.eq_of_testBit_eq
  intro q
  rw [Nat.testBit_mod_two_pow, Nat.add_comm, BitVec.testBit_toNat, BitVec.getLsbD_xor, BitVec.getLsbD_ofNat]
  by_cases hq : q < w
  · rcases Nat.lt_or_eq_of_le (Nat.le_sub_one_of_lt hq) with hlow | rfl
    · rw [Nat.testBit_two_pow_add_gt hlow, Nat.testBit_two_pow_of_ne hlow.ne', BitVec.testBit_toNat, Bool.and_false, Bool.xor_false,
        decide_eq_true hq, Bool.true_and]
    · rw [Nat.testBit_two_pow_add_eq, Nat.testBit_two_pow_self, BitVec.testBit_toNat, decide_eq_true hq, Bool.true_and, Bool.and_true, Bool.xor_true]
  · rw [BitVec.getLsbD_of_ge _ _ (Nat.not_lt.1 hq), decide_eq_false hq, Bool.false_and, Bool.false_and, Bool.xor_false]

/-! ### Shifts (R222, R223) -/

theorem shlN_toNat {w : Nat} (x : BitVec w) (n : Nat) : shlN w x.toNat n = (x <<< n).toNat := by
  rw [shlN]
  split
  next => rw [BitVec.toNat_shiftLeft, Nat.shiftLeft_eq]
  next hn => rw [BitVec.shiftLeft_eq_zero (Nat.not_lt.1 hn), BitVec.toNat_zero]

theorem shrN_toNat {w : Nat} (x : BitVec w) (n : Nat) : shrN w x.toNat n = (x >>> n).toNat := by
  rw [shrN]
  split
  next => rw [BitVec.toNat_ushiftRight, Nat.shiftRight_eq_div_pow]
  next hn => rw [BitVec.ushiftRight_eq_zero (Nat.not_lt.1 hn), BitVec.toNat_zero]

/-- Past w − 1 places a right shift moves in nothing but the sign. -/
theorem sshiftRight_min {w : Nat} (x : BitVec w) (n : Nat) : x.sshiftRight (min n (w - 1)) = x.sshiftRight n := by
  refine BitVec.eq_of_getLsbD_eq fun q hq => ?_
  rw [BitVec.getLsbD_sshiftRight, BitVec.getLsbD_sshiftRight]
  rcases Nat.le_total n (w - 1) with hle | hge
  · rw [Nat.min_eq_left hle]
  · rw [Nat.min_eq_right hge, BitVec.msb_eq_getLsbD_last]
    have hsign (k : Nat) (hk : w - 1 ≤ k) : (if k + q < w then x.getLsbD (k + q) else x.getLsbD (w - 1)) = x.getLsbD (w - 1) := by
      split
      next hin => rw [show k + q = w - 1 by omega]
      next => rfl
    rw [hsign _ le_rfl, hsign _ hge]

theorem sraN_toNat {w : Nat} (x : BitVec w) (n : Nat) : sraN w x.toNat n = (x.sshiftRight n).toNat := by
  rw [sraN, toSigned_toNat, ← sshiftRight_min, BitVec.sshiftRight, Int.shiftRight_eq_div_pow, ofSigned_eq]

/-- R223: the high half of the word a:b shifted left by q is a shifted left, with the top q bits of b below. -/
theorem funnel_toNat {w : Nat} (x y : BitVec w) (n : Nat) :
    funnel w x.toNat y.toNat n = (x <<< (n % w) ||| y >>> (w - n % w)).toNat := by
  rw [funnel]
  split
  next hq => rw [hq, Nat.sub_zero, BitVec.shiftLeft_zero, BitVec.ushiftRight_eq_zero le_rfl, BitVec.or_zero]
  next hq =>
    rcases Nat.eq_zero_or_pos w with rfl | hw
    · simp [x.eq_nil, y.eq_nil]
    · have hle : n % w ≤ w := (Nat.mod_lt n hw).le
      have hlow : y.toNat / 2 ^ (w - n % w) < 2 ^ (n % w) := by
        apply Nat.div_lt_of_lt_mul
        rw [← Nat.pow_add, Nat.sub_add_cancel hle]
        exact y.isLt
      rw [BitVec.toNat_or, BitVec.toNat_shiftLeft, BitVec.toNat_ushiftRight, Nat.shiftRight_eq_div_pow, ← Nat.shiftLeft_eq,
        Nat.shiftLeft_add_eq_or_of_lt hlow, Nat.or_mod_two_pow,
        Nat.mod_eq_of_lt (hlow.trans_le (Nat.pow_le_pow_right Nat.two_pos hle))]

/-! ### Residues (R71, R72) -/

/-- Each channel of a triple is a residue of its own modulus, wherever the modulus is written. -/
theorem rnOp_eq_channels (tr : Fin 4) (g : Int → Int → Int) (a b : Nat) : rnOp tr g a b = channels tr g a b := by
  have hfold (f : Nat → Nat) : (List.range 3).foldl (fun v i => v + 2 ^ (8 * i) * f i) 0 = ofResidues (f 0) (f 1) (f 2) := by
    simp only [List.range, List.range.loop, List.foldl, ofResidues]
    omega
  rw [channels, hfold]
  fin_cases tr <;> rfl

theorem ofResidues_lt {a b c : Nat} (ha : a < 256) (hb : b < 256) (hc : c < 256) : ofResidues a b c < 2 ^ 32 := by
  rw [ofResidues]
  omega

theorem channels_lt (tr : Fin 4) (g : Int → Int → Int) (a b : Nat) : channels tr g a b < 2 ^ 32 := by
  have hmod (z : Int) {m : Nat} (hpos : 0 < m) (hm : m ≤ 256) : (z % m).toNat < 256 := by
    have := Int.emod_lt_of_pos z (Int.natCast_pos.2 hpos)
    omega
  rw [← rnOp_eq_channels]
  fin_cases tr <;> exact ofResidues_lt (hmod _ (by decide) (by decide)) (hmod _ (by decide) (by decide)) (hmod _ (by decide) (by decide))

end Sys2Proof.Machine
end

section
/-! PROOFS. The lane-wise instructions on integers, bits and residues (R216 to R218, R221 to R225): each is a lane-wise instruction whose
results are those of the table. -/

namespace Sys2Proof.Machine

/-! ### Types and elements (R211, R215) -/

theorem widthOf_eq (ty : ETy) : widthOf ty = ty.width := by cases ty <;> rfl

theorem isInt_eq (ty : ETy) : isInt ty = ty.int := by cases ty <;> rfl

/-- An element, as the word that stands for it. -/
theorem toNat_el (t : Slot) (w : Nat) (r : Reg) (j : Nat) : (el t w r j).toNat = elem w (t.rv r.val) j := by
  rw [el, BitVec.toNat_ofNat, Nat.mod_eq_of_lt (elem_lt _ _ _)]

theorem Slot.el_eq (t : Slot) (ty : ETy) (r : Reg) (j : Nat) : t.el ty r j = (Machine.el t ty.width r j).toNat := by
  rw [toNat_el, Slot.el, widthOf_eq]

theorem Slot.ln_eq (t : Slot) (r : Reg) (j : Nat) : t.ln r j = (Machine.el t 32 r j).toNat := (toNat_el t 32 r j).symm

theorem Slot.shiftCount_eq (t : Slot) (ty : ETy) (b : Src) (j : Nat) : t.shiftCount ty b j = shiftBy t ty.width b j := by
  cases b with
  | reg r => exact t.el_eq ty r j
  | imm i => rfl

theorem ifInt_eq_some {α : Type} {ty : ETy} {x y : α} (h : ifInt ty x = some y) : ty.int = true ∧ x = y := by
  rw [ifInt] at h
  split at h
  next hty => exact ⟨hty, Option.some.inj h⟩
  next => cases h

/-- A row of the arithmetic of R216 is one of residues or one of integers. -/
theorem arithLanes_eq_some {h : Hd} {p : Pred} {ty : ETy} {vd va vb : Reg} {f : (w : Nat) → BitVec w → BitVec w → BitVec w}
    {g : Int → Int → Int} {row : Hd × Pred × Nat × Reg × (Slot → Nat → Nat)} (hrow : arithLanes h p ty vd va vb f g = some row) :
    (∃ tr, ty = .rn3 tr ∧ (h, p, 32, vd, fun t j => channels tr g (elem 32 (t.rv va.val) j) (elem 32 (t.rv vb.val) j)) = row) ∨
      ty.int = true ∧ (h, p, ty.width, vd, fun t j => (f ty.width (el t ty.width va j) (el t ty.width vb j)).toNat) = row := by
  cases ty with
  | rn3 tr => exact .inl ⟨tr, rfl, Option.some.inj hrow⟩
  | _ => exact .inr (ifInt_eq_some hrow)

/-! ### What each instruction does -/

/-- `i` is a lane-wise instruction with result `f` and no flags. -/
def LanewiseBy (i : Instr) (s : State) (h : Hd) (p : Pred) (w : Nat) (vd : Reg) (f : Slot → Nat → Nat) : Prop :=
  ∃ rsr, exec i s = .next (s.lanewise h p w vd rsr (fun t j => (f t j, 0)))

theorem LanewiseBy.of_eq {i : Instr} {s : State} {h : Hd} {p : Pred} {ty : ETy} {vd : Reg} {rsr : Bool} {f : Slot → Nat → Nat}
    {g : Slot → Nat → Nat × FFlags} (hexec : exec i s = .next (s.lanewise h p (widthOf ty) vd rsr g)) (hval : ∀ t j, g t j = (f t j, 0)) :
    LanewiseBy i s h p ty.width vd f := by
  refine ⟨rsr, ?_⟩
  rw [hexec, widthOf_eq, funext fun t => funext fun j => hval t j]

theorem LanewiseBy.of_lanes {i : Instr} {s : State} {h : Hd} {p : Pred} {vd : Reg} {f g : Slot → Nat → Nat}
    (hexec : exec i s = .next (s.lanesV h p vd g)) (hval : ∀ t j, g t j = f t j) : LanewiseBy i s h p 32 vd f := by
  rw [← funext fun t => funext fun j => hval t j]
  exact ⟨false, hexec⟩

/-- R216: on integers the element-wise arithmetic is that of words of their width. -/
theorem lanewiseBy_of_arithV_int {i : Instr} {s : State} {h : Hd} {p : Pred} {c : Ctl} {ty : ETy} {vd va vb : Reg} {g : Int → Int → Int}
    {ff : FVal → FVal → Res} {f : (w : Nat) → BitVec w → BitVec w → BitVec w} (hty : ty.int = true)
    (hexec : exec i s = .next (s.arithV h p c ty vd va vb g ff))
    (hf : ∀ (w : Nat) (x y : BitVec w), ofSigned w (g x.toInt y.toInt) = (f w x y).toNat) :
    LanewiseBy i s h p ty.width vd (fun t j => (f ty.width (el t ty.width va j) (el t ty.width vb j)).toNat) := by
  refine .of_eq hexec fun t j => ?_
  have hint : t.arith c ty j g ff (t.el ty va j) (t.el ty vb j) =
      (ofSigned (widthOf ty) (g (toSigned (widthOf ty) (t.el ty va j)) (toSigned (widthOf ty) (t.el ty vb j))), 0) := by
    cases ty with
    | i8 | i16 | i32 | i64 => rfl
    | _ => cases hty
  rw [hint, widthOf_eq, Slot.el_eq, Slot.el_eq, toSigned_toNat, toSigned_toNat, hf]

/-- R216: the instructions of arithmetic on integers and on residues. -/
theorem lanewiseBy_of_arithLanes {i : Instr} {s : State} {h h' : Hd} {p p' : Pred} {c : Ctl} {ty : ETy} {vd vd' va vb : Reg} {w : Nat}
    {r : Slot → Nat → Nat} {g : Int → Int → Int} {ff : FVal → FVal → Res} {f : (w : Nat) → BitVec w → BitVec w → BitVec w}
    (hi : arithLanes h p ty vd va vb f g = some (h', p', w, vd', r)) (hexec : exec i s = .next (s.arithV h p c ty vd va vb g ff))
    (hf : ∀ (w : Nat) (x y : BitVec w), ofSigned w (g x.toInt y.toInt) = (f w x y).toNat) : LanewiseBy i s h' p' w vd' r := by
  obtain ⟨tr, rfl, hres⟩ | ⟨hty, hres⟩ := arithLanes_eq_some hi
  · cases hres
    exact LanewiseBy.of_eq (ty := .rn3 tr) hexec fun t j => congrArg (·, 0) (rnOp_eq_channels tr g _ _)
  · cases hres
    exact lanewiseBy_of_arithV_int hty hexec hf

/-- R216 to R218, R221 to R225: the table of results is what the instructions compute. -/
theorem lanewiseBy_of_laneResult {i : Instr} {h : Hd} {p : Pred} {w : Nat} {vd : Reg} {f : Slot → Nat → Nat}
    (hi : laneResult i = some (h, p, w, vd, f)) (s : State) : LanewiseBy i s h p w vd f := by
  cases i with
  | vadd => rw [laneResult] at hi; exact lanewiseBy_of_arithLanes hi rfl fun w => ofSigned_add
  | vsub => rw [laneResult] at hi; exact lanewiseBy_of_arithLanes hi rfl fun w => ofSigned_sub
  | vmul => rw [laneResult] at hi; exact lanewiseBy_of_arithLanes hi rfl fun w => ofSigned_mul
  | vmin =>
    obtain ⟨hty, hi⟩ := ifInt_eq_some hi
    cases hi
    exact lanewiseBy_of_arithV_int (g := min) (f := fun w x y => if x.toInt ≤ y.toInt then x else y) hty rfl fun w => ofSigned_min
  | vmax =>
    obtain ⟨hty, hi⟩ := ifInt_eq_some hi
    cases hi
    exact lanewiseBy_of_arithV_int (g := max) (f := fun w x y => if x.toInt ≤ y.toInt then y else x) hty rfl fun w => ofSigned_max
  | vabs =>
    cases hi
    refine .of_eq rfl fun t j => ?_
    simp only [widthOf_eq, isInt_eq, Slot.el_eq, toSigned_toNat, ofSigned_natAbs]
  | vneg =>
    cases hi
    refine .of_eq rfl fun t j => ?_
    simp only [widthOf_eq, isInt_eq, Slot.el_eq, toSigned_toNat, ofSigned_neg, add_signBit, apply_ite BitVec.toNat]
  | vand | vor | vxor =>
    cases hi
    refine .of_lanes rfl fun t j => ?_
    simp only [Slot.ln_eq, BitVec.toNat_and, BitVec.toNat_or, BitVec.toNat_xor]
  | vshl | vshr | vsra =>
    cases hi
    refine .of_eq rfl fun t j => ?_
    simp only [widthOf_eq, Slot.el_eq, Slot.shiftCount_eq, shlN_toNat, shrN_toNat, sraN_toNat]
  | vfsh =>
    cases hi
    refine .of_eq rfl fun t j => ?_
    simp only [widthOf_eq, Slot.el_eq, funnel_toNat]
  | vrot =>
    cases hi
    refine .of_lanes rfl fun t j => ?_
    rw [Slot.ln_eq, Slot.src_eq_operand]
  | vperm =>
    cases hi
    refine .of_lanes rfl fun t j => ?_
    simp only [Slot.ln_eq]
  | vbcast =>
    cases hi
    refine .of_eq rfl fun t j => ?_
    rw [widthOf_eq]
  | _ => cases hi

theorem lt_of_arithLanes {h h' : Hd} {p p' : Pred} {ty : ETy} {vd vd' va vb : Reg} {w : Nat} {r : Slot → Nat → Nat}
    {g : Int → Int → Int} {f : (w : Nat) → BitVec w → BitVec w → BitVec w}
    (hi : arithLanes h p ty vd va vb f g = some (h', p', w, vd', r)) (t : Slot) (j : Nat) : r t j < 2 ^ w := by
  obtain ⟨tr, -, hres⟩ | ⟨-, hres⟩ := arithLanes_eq_some hi
  · cases hres
    exact channels_lt tr g _ _
  · cases hres
    exact BitVec.isLt _

/-- The results of the table are codes of their width. -/
theorem laneResult_lt {i : Instr} {h : Hd} {p : Pred} {w : Nat} {vd : Reg} {f : Slot → Nat → Nat}
    (hi : laneResult i = some (h, p, w, vd, f)) (t : Slot) (j : Nat) : f t j < 2 ^ w := by
  cases i with
  | vadd | vsub | vmul => rw [laneResult] at hi; exact lt_of_arithLanes hi t j
  | vmin | vmax =>
    obtain ⟨-, hi⟩ := ifInt_eq_some hi
    cases hi
    exact BitVec.isLt _
  | vabs h p ty vd va =>
    cases hi
    have hsize : (el t ty.width va j).toNat % 2 ^ (ty.width - 1) < 2 ^ ty.width :=
      (Nat.mod_le _ _).trans_lt (BitVec.isLt _)
    dsimp only
    split
    next => exact BitVec.isLt _
    next => exact hsize
  | vneg | vand | vor | vxor | vshl | vshr | vsra | vfsh | vrot => cases hi; exact BitVec.isLt _
  | vperm =>
    cases hi
    dsimp only
    split
    next => exact BitVec.isLt _
    next => exact Nat.two_pow_pos 32
  | vbcast => cases hi; exact Nat.mod_lt _ (Nat.two_pow_pos _)
  | _ => cases hi

/-- Settles O29: the instruction has the shape of a lane-wise one, and its results are codes of their width and carry no flag. -/
theorem laneIntegers : Obligations.LaneIntegers := by
  intro i h p w vd f s _ hi hs hS
  obtain ⟨rsr, hexec⟩ := lanewiseBy_of_laneResult hi s
  obtain ⟨t, v, hissues, hclosed, hval⟩ := issues_of_lanewise hs hS hexec
  rw [laneFlags_eq_zero fun j => rfl] at hclosed
  refine ⟨t, v, hissues, hclosed, fun j hj => ?_⟩
  rw [hval j hj, Nat.mod_eq_of_lt (laneResult_lt hi s.slot j)]

end Sys2Proof.Machine
end
